-- ==== Sys2Proof/Word.lean ====
section
/-! DEFINITION. The widths of the machine (spec/00 R2, spec/02 R13, R14) and nothing else. -/

namespace Sys2Proof

/-- One byte of memory. -/
abbrev Byte := BitVec 8
/-- A data register (R13). -/
abbrev Word := BitVec 32
/-- A register pair, an address, a 64-bit control register (R14). -/
abbrev DWord := BitVec 64
/-- One bit for each lane of a warp (R165). -/
abbrev Mask := BitVec 32
/-- A packet index (R13, R29). -/
abbrev Pc := BitVec 54
/-- The 64 bytes of a core-store granule (R203), of a mailbox granule (R409). -/
abbrev Gran := BitVec 512
/-- The 128 bytes of a line (R219). -/
abbrev LineData := BitVec 1024

end Sys2Proof
end

