-- ==== Sys2Proof/Config.lean ====
section
/-! DEFINITION. What the spec leaves to the part: free values without a body. Nothing in Lean can evaluate them. -/

namespace Sys2Proof.Config

/-- The result a part delivers for a special function (code FN of R58) on an operand's bits, inside the accuracy bounds of R117;
the model uses it only where the bound admits it (DESIGN CHOICE, log entry 10). -/
opaque sfuFree : Nat → DWord → DWord

end Sys2Proof.Config
end

