-- ==== Sys2Proof/Machine/Number.lean ====
section
/-! DEFINITION. Number formats and rounding (spec/05): values, decoding, Round of R82, the narrow stores of R83, IEEE sums,
products, comparisons, quotients and square roots, the special functions of spec/07 and the quantisers of R85 and R86. -/

namespace Sys2Proof.Machine

/-- Exception bits of csr.exsum (R92). -/
abbrev Exs := BitVec 9

def exInvalid : Exs := 0x001
def exDivZero : Exs := 0x002
def exOverflow : Exs := 0x004
def exUnderflow : Exs := 0x008
def exInexact : Exs := 0x010
def exIntDiv : Exs := 0x020
def exNarrowSat : Exs := 0x040
def exAccRange : Exs := 0x080
def exNarrowNan : Exs := 0x100
/-- A bit when a condition holds. -/
def exIf (c : Bool) (x : Exs) : Exs := if c then x else 0

/-- What the codes with every exponent bit set mean (R71, R74). -/
inductive TopCodes where
  | ieee | e5m2 | e4m3 | values
  deriving DecidableEq, Repr

/-- A floating-point format (R71, R74): widths of exponent and significand fields, smallest normal exponent. -/
structure Fmt where
  ebits : Nat
  mbits : Nat
  emin : Int
  top : TopCodes
  deriving DecidableEq, Repr

def fp64 : Fmt := ⟨11, 52, -1022, .ieee⟩
def fp32 : Fmt := ⟨8, 23, -126, .ieee⟩
def fp16 : Fmt := ⟨5, 10, -14, .ieee⟩
def bf16 : Fmt := ⟨8, 7, -126, .ieee⟩
def e4m3 : Fmt := ⟨4, 3, -6, .e4m3⟩
def e5m2 : Fmt := ⟨5, 2, -14, .e5m2⟩
def e3m2 : Fmt := ⟨3, 2, -2, .values⟩
def e2m3 : Fmt := ⟨2, 3, 0, .values⟩
def e2m1 : Fmt := ⟨2, 1, 0, .values⟩

/-- The exponent of the smallest subnormal. -/
def Fmt.qmin (f : Fmt) : Int := f.emin - f.mbits
/-- The place of the sign bit. -/
def Fmt.signBit (f : Fmt) : Nat := 2 ^ (f.ebits + f.mbits)
/-- The code of the largest finite magnitude. -/
def Fmt.maxCode (f : Fmt) : Nat :=
  match f.top with
  | .ieee | .e5m2 => (2 ^ f.ebits - 1) * 2 ^ f.mbits - 1
  | .e4m3 => f.signBit - 2
  | .values => f.signBit - 1
/-- The code of +infinity, where the format has one. -/
def Fmt.infCode (f : Fmt) : Nat := (2 ^ f.ebits - 1) * 2 ^ f.mbits
/-- The canonical NaN (R71, R74). -/
def Fmt.nanCode (f : Fmt) : Nat :=
  match f.top with
  | .ieee | .e5m2 => f.infCode + 2 ^ (f.mbits - 1)
  | .e4m3 => f.signBit - 1
  | .values => 0

/-- A value: a NaN (signalling or quiet), an infinity, or (-1)^neg × m × 2^e. -/
inductive FVal where
  | nan (sig : Bool)
  | inf (neg : Bool)
  | fin (neg : Bool) (m : Nat) (e : Int)
  deriving DecidableEq, Repr

/-- The magnitude of a finite code (R71, R74). -/
def Fmt.mag (f : Fmt) (code : Nat) : Nat × Int :=
  let ef := code / 2 ^ f.mbits
  let mf := code % 2 ^ f.mbits
  if ef = 0 then (mf, f.qmin) else (mf + 2 ^ f.mbits, f.qmin + ef - 1)

/-- The value of a code (R71, R74, R75). Bits above the format's are ignored. -/
def Fmt.value (f : Fmt) (w : Nat) : FVal :=
  let neg := w / f.signBit % 2 == 1
  let code := w % f.signBit
  if code ≤ f.maxCode then .fin neg (f.mag code).1 (f.mag code).2
  else match f.top with
    | .ieee => if code = f.infCode then .inf neg else .nan (code % 2 ^ f.mbits < 2 ^ (f.mbits - 1))
    | .e5m2 => if code = f.infCode then .inf neg else .nan false
    | _ => .nan false

def FVal.isNan : FVal → Bool
  | .nan _ => true
  | _ => false
def FVal.isSig : FVal → Bool
  | .nan s => s
  | _ => false
def FVal.isZero : FVal → Bool
  | .fin _ m _ => m == 0
  | _ => false
def FVal.neg : FVal → FVal
  | .nan s => .nan s
  | .inf n => .inf (!n)
  | .fin n m e => .fin (!n) m e
/-- The value times 2^k, exactly. -/
def FVal.scale (k : Int) : FVal → FVal
  | .fin n m e => .fin n m (e + k)
  | v => v
/-- m × 2^(e - lo) for lo ≤ e: a magnitude in units of 2^lo. -/
def units (m : Nat) (e lo : Int) : Nat := m * 2 ^ (e - lo).toNat
/-- The signed number of units of 2^lo. -/
def sunits (neg : Bool) (m : Nat) (e lo : Int) : Int := if neg then -(units m e lo : Int) else units m e lo

/-- Rounding modes of R81. -/
inductive RMode where
  | rne | rna
  deriving DecidableEq, Repr

/-- m / 2^sh rounded to an integer, and whether it was exact (R82). -/
def roundShift (mode : RMode) (m sh : Nat) : Nat × Bool :=
  let lo := m / 2 ^ sh
  let r := m % 2 ^ sh
  let hi := decide (2 ^ sh < 2 * r) || (2 * r == 2 ^ sh && sh != 0 && (mode == .rna || lo % 2 == 1))
  (lo + hi.toNat, r == 0)

/-- m × 2^e in multiples of 2^q, rounded. -/
def roundAt (mode : RMode) (m : Nat) (e q : Int) : Nat × Bool :=
  if q ≤ e then (units m e q, true) else roundShift mode m (q - e).toNat

/-- Round of R82 on a nonzero magnitude: the code it gets in the format's code order, run on past the largest finite code, and
whether the result is exact and tiny. -/
def roundMag (f : Fmt) (mode : RMode) (m : Nat) (e : Int) : Nat × Bool × Bool :=
  let l : Int := Nat.log2 m + e
  let q := (if l ≤ f.emin then f.emin else l) - f.mbits
  let (k, exact) := roundAt mode m e q
  let kFree := (roundAt mode m e (l - f.mbits)).1
  (k + (q - f.qmin).toNat * 2 ^ f.mbits, exact,
    decide (l < f.emin) && !(l + 1 == f.emin && kFree == 2 ^ (f.mbits + 1)))

/-- A value stored in a format of 16 bits or more, RNE (R81, R82, R73). Signalling operands are the operation's matter. -/
def storeWide (f : Fmt) : FVal → Nat × Exs
  | .nan _ => (f.nanCode, 0)
  | .inf n => (f.infCode + n.toNat * f.signBit, 0)
  | .fin n m e =>
    if m = 0 then (n.toNat * f.signBit, 0)
    else
      let (c, exact, tiny) := roundMag f .rne m e
      if f.maxCode < c then (f.infCode + n.toNat * f.signBit, exOverflow ||| exInexact)
      else (c + n.toNat * f.signBit, exIf (!exact) exInexact ||| exIf (tiny && !exact) exUnderflow)

/-- The stores of R83: a narrow destination, saturating or not. A signalling source is the operation's matter. -/
def storeNarrow (f : Fmt) (sat : Bool) : FVal → Nat × Exs
  | .nan _ => (f.nanCode, exNarrowNan)
  | .inf n =>
    if sat || f.top == .values then (f.maxCode + n.toNat * f.signBit, exNarrowSat)
    else if f.top == .e4m3 then (f.nanCode, exNarrowNan)
    else (f.infCode + n.toNat * f.signBit, 0)
  | .fin n m e =>
    if m = 0 then (n.toNat * f.signBit, 0)
    else
      let (c, exact, tiny) := roundMag f .rna m e
      if c ≤ f.maxCode then
        (c + n.toNat * f.signBit, exIf (!exact) exInexact ||| exIf (tiny && !exact) exUnderflow)
      else if sat || f.top == .values then (f.maxCode + n.toNat * f.signBit, exNarrowSat ||| exInexact)
      else if f.top == .e4m3 then (f.nanCode, exOverflow ||| exInexact ||| exNarrowNan)
      else (f.infCode + n.toNat * f.signBit, exOverflow ||| exInexact)

/-- Invalid for a signalling operand (R73). -/
def sigBits (xs : List FVal) : Exs := exIf (xs.any FVal.isSig) exInvalid

/-- The exact sum of two finite values, with the sign of an exact zero (R112). -/
def addFin (n1 : Bool) (m1 : Nat) (e1 : Int) (n2 : Bool) (m2 : Nat) (e2 : Int) : FVal :=
  let lo := if e1 ≤ e2 then e1 else e2
  let v := sunits n1 m1 e1 lo + sunits n2 m2 e2 lo
  if v = 0 then .fin (n1 && n2) 0 lo else .fin (decide (v < 0)) v.natAbs lo

/-- An exact sum, with the bits that the special cases of R112 set. -/
def fvAdd : FVal → FVal → FVal × Exs
  | .nan _, _ | _, .nan _ => (.nan false, 0)
  | .inf a, .inf b => if a == b then (.inf a, 0) else (.nan false, exInvalid)
  | .inf a, _ => (.inf a, 0)
  | _, .inf b => (.inf b, 0)
  | .fin n1 m1 e1, .fin n2 m2 e2 => (addFin n1 m1 e1 n2 m2 e2, 0)

/-- An exact product, with the bits of R112. -/
def fvMul : FVal → FVal → FVal × Exs
  | .nan _, _ | _, .nan _ => (.nan false, 0)
  | .inf a, .inf b => (.inf (a != b), 0)
  | .inf a, .fin b m _ => if m = 0 then (.nan false, exInvalid) else (.inf (a != b), 0)
  | .fin a m _, .inf b => if m = 0 then (.nan false, exInvalid) else (.inf (a != b), 0)
  | .fin n1 m1 e1, .fin n2 m2 e2 => (.fin (n1 != n2) (m1 * m2) (e1 + e2), 0)

/-- Round(x + y) in a format, with every bit it sets (R111, R112). -/
def fAdd (f : Fmt) (x y : FVal) : Nat × Exs :=
  let (v, b) := fvAdd x y
  let (c, b') := storeWide f v
  (c, b ||| b' ||| sigBits [x, y])
/-- Round(x × y). -/
def fMul (f : Fmt) (x y : FVal) : Nat × Exs :=
  let (v, b) := fvMul x y
  let (c, b') := storeWide f v
  (c, b ||| b' ||| sigBits [x, y])
/-- Round(x × y + z), rounded once. -/
def fFma (f : Fmt) (x y z : FVal) : Nat × Exs :=
  let (p, b) := fvMul x y
  let (v, b') := fvAdd p z
  let (c, b'') := storeWide f v
  (c, b ||| b' ||| b'' ||| sigBits [x, y, z])

/-- Order of two values that are no NaN, -0 equal to +0 (R115). -/
def fvLt : FVal → FVal → Bool
  | .inf a, .inf b => a && !b
  | .inf a, .fin _ _ _ => a
  | .fin _ _ _, .inf b => !b
  | .fin n1 m1 e1, .fin n2 m2 e2 =>
    let lo := if e1 ≤ e2 then e1 else e2
    decide (sunits n1 m1 e1 lo < sunits n2 m2 e2 lo)
  | _, _ => false
/-- Equality of two values that are no NaN. -/
def fvEq (x y : FVal) : Bool := !x.isNan && !y.isNan && !fvLt x y && !fvLt y x
def FVal.isNeg : FVal → Bool
  | .nan _ => false
  | .inf n => n
  | .fin n _ _ => n
/-- The order of R113, -0 below +0. -/
def fvBelow (x y : FVal) : Bool := fvLt x y || (fvEq x y && x.isNeg && !y.isNeg)
/-- minimum and maximum (R113). -/
def fvMin (x y : FVal) : FVal := if x.isNan || y.isNan then .nan false else if fvBelow y x then y else x
def fvMax (x y : FVal) : FVal := if x.isNan || y.isNan then .nan false else if fvBelow x y then y else x
/-- minimumNumber and maximumNumber (R113). -/
def fvMinN (x y : FVal) : FVal := if x.isNan then (if y.isNan then .nan false else y) else if y.isNan then x else fvMin x y
def fvMaxN (x y : FVal) : FVal := if x.isNan then (if y.isNan then .nan false else y) else if y.isNan then x else fvMax x y
/-- Stores a minimum or maximum: a value of the format itself, so nothing rounds. -/
def fSelect (f : Fmt) (op : FVal → FVal → FVal) (x y : FVal) : Nat × Exs := ((storeWide f (op x y)).1, sigBits [x, y])

/-- Floor of the square root, by n binary digits from the top. -/
def isqrtFrom (x : Nat) : Nat → Nat → Nat
  | 0, r => r
  | n + 1, r => isqrtFrom x n (if (r + 2 ^ n) * (r + 2 ^ n) ≤ x then r + 2 ^ n else r)
def isqrt (x : Nat) : Nat := isqrtFrom x (Nat.log2 x / 2 + 1) 0

/-- A quotient a / b × 2^e with enough bits for any format; a remainder becomes half a unit, which no format's rounding points
can hold. -/
def divValue (neg : Bool) (a b : Nat) (e : Int) : FVal :=
  let k := Nat.log2 b + 70
  let q := a * 2 ^ k / b
  if a * 2 ^ k % b = 0 then .fin neg q (e - k) else .fin neg (2 * q + 1) (e - k - 1)
/-- sqrt(m × 2^e), in the same manner. -/
def sqrtValue (m : Nat) (e : Int) : FVal :=
  let sh : Nat := if e % 2 = 0 then 130 else 131
  let x := m * 2 ^ sh
  let r := isqrt x
  let h := (e - sh) / 2
  if r * r = x then .fin false r h else .fin false (2 * r + 1) (h - 1)

/-- Reciprocal, correctly rounded (R117, R118). -/
def sfuRcp (f : Fmt) (x : FVal) : Nat × Exs :=
  match x with
  | .nan s => (f.nanCode, exIf s exInvalid)
  | .inf n => (n.toNat * f.signBit, 0)
  | .fin n m e => if m = 0 then (f.infCode + n.toNat * f.signBit, exDivZero) else storeWide f (divValue n 1 m (-e))
/-- Square root, correctly rounded (R117, R118). -/
def sfuSqrt (f : Fmt) (x : FVal) : Nat × Exs :=
  match x with
  | .nan s => (f.nanCode, exIf s exInvalid)
  | .inf true => (f.nanCode, exInvalid)
  | .inf false => (f.infCode, 0)
  | .fin n m e => if m = 0 then (n.toNat * f.signBit, 0) else if n then (f.nanCode, exInvalid) else storeWide f (sqrtValue m e)

/-- Reciprocal square root (R117, R118): one of the two values that bracket the exact result, the lower one or the one above it
as the part decides; the exact result where it is representable. Every finite result is normal. -/
def sfuRsq (f : Fmt) (up : Bool) (x : FVal) : Nat × Exs :=
  match x with
  | .nan s => (f.nanCode, exIf s exInvalid)
  | .inf true => (f.nanCode, exInvalid)
  | .inf false => (0, 0)
  | .fin n m e =>
    if m = 0 then (f.infCode + n.toNat * f.signBit, exDivZero)
    else if n then (f.nanCode, exInvalid)
    else
      let m' := if e % 2 = 0 then m else 2 * m
      let e' := if e % 2 = 0 then e else e - 1
      -- r = floor(2^k / sqrt m'), at least p bits long
      let k := Nat.log2 m' / 2 + f.mbits + 2
      let r := isqrt (2 ^ (2 * k) / m')
      let drop := Nat.log2 r - f.mbits
      let top := r / 2 ^ drop
      let exact := r % 2 ^ drop == 0 && r * r * m' == 2 ^ (2 * k)
      let q : Int := -(k : Int) - e' / 2 + drop
      let code := top + (q - f.qmin).toNat * 2 ^ f.mbits
      if exact then (code, 0) else (code + up.toNat, exInexact)

/-- Fraction bits of the fixed-point numbers that decide the bounds of R117. -/
def fxBits : Nat := 400
/-- ln 2 × 2^600 and pi × 2^600, cut off. -/
def ln2Fix : Nat := 0xb17217f7d1cf79abc9e3b39803f2f6af40f343267298b62d8a0d175b8baafa2be7b876206debac98559552fb4afa1b10ed2eae35c138214427573b291169b8253e96ca16224ae8c51acbda
def piFix : Nat := 0x3243f6a8885a308d313198a2e03707344a4093822299f31d0082efa98ec4e6c89452821e638d01377be5466cf34e90c6cc0ac29b7c97c50dd3f84d5b5b54709179216d5d98979fb1bd1310b
/-- 1 in fixed point. -/
def fxOne : Int := 2 ^ fxBits
def fxMul (a b : Int) : Int := a * b / fxOne
/-- A finite value in fixed point, cut off. -/
def fxOf (neg : Bool) (m : Nat) (e : Int) : Int :=
  let a : Nat := if 0 ≤ e + fxBits then m * 2 ^ (e + fxBits).toNat else m / 2 ^ (-(e + fxBits)).toNat
  if neg then -(a : Int) else a

/-- The sum of a power series term by term: each term is the last times x, over the divisor of its step. -/
def fxSeries (x : Int) (div : Nat → Int) : Nat → Nat → Int → Int
  | 0, _, _ => 0
  | n + 1, k, t => t + fxSeries x div n (k + 1) (fxMul t x / div k)
/-- e^x for 0 ≤ x < 2. -/
def fxExp (x : Int) : Int := fxSeries x (fun k => k) 110 1 fxOne
/-- 2^x. -/
def fxExp2 (x : Int) : Int :=
  let n := x / fxOne
  let frac := x % fxOne
  let v := fxExp (frac * (ln2Fix : Int) / 2 ^ 600)
  if 0 ≤ n then v * 2 ^ n.toNat else v / 2 ^ (-n).toNat
/-- sin and cos by their series in x², for |x| ≤ 8. -/
def fxSin (x : Int) : Int := fxSeries (-(fxMul x x)) (fun k => (2 * k) * (2 * k + 1)) 80 1 x
def fxCos (x : Int) : Int := fxSeries (-(fxMul x x)) (fun k => (2 * k - 1) * (2 * k)) 80 1 fxOne
/-- x mod 2 pi (R117: argument reduction is exact). -/
def fxReduce (neg : Bool) (m : Nat) (e : Int) : Int :=
  let a : Nat := if 0 ≤ e + 600 then m * 2 ^ (e + 600).toNat else m / 2 ^ (-(e + 600)).toNat
  let r : Int := ((a % (2 * piFix)) / 2 ^ 200 : Nat)
  if neg then -r else r
/-- The logarithm to base 2 of m × 2^e. -/
def fxLog2 (m : Nat) (e : Int) : Int :=
  let l := Nat.log2 m
  let y : Int := (m : Int) * fxOne / 2 ^ l
  let z := (y - fxOne) * fxOne / (y + fxOne)
  let z2 := fxMul z z
  let s := 2 * ((List.range 140).foldl (fun (a : Int × Int) (k : Nat) => (a.1 + a.2 / (2 * k + 1), fxMul a.2 z2)) (0, z)).1
  (l + e) * fxOne + s * 2 ^ 600 / (ln2Fix : Int)
/-- The hyperbolic tangent. -/
def fxTanh (x : Int) : Int :=
  let a : Int := x.natAbs
  let t := if 100 * fxOne ≤ a then fxOne - 1 else
    let y := a * 2
    let ex := fxExp2 (y * 2 ^ 600 / (ln2Fix : Int))
    (ex - fxOne) * fxOne / (ex + fxOne)
  if x < 0 then -t else t

/-- The spacing of FP32 at a fixed-point magnitude (R117), in fixed point. -/
def fxUlp (v : Int) : Int :=
  let l : Int := Nat.log2 v.natAbs - fxBits
  let q := (if v = 0 || l ≤ -126 then -126 else l) - 23
  2 ^ (q + fxBits).toNat
/-- Takes the part's own result when it is finite and within the bound of the exact value, else the exact value rounded. -/
def sfuBounded (fn : Nat) (w : Word) (v absBound : Int) : Nat × Exs :=
  let cand := (Config.sfuFree fn (w.setWidth 64)).toNat % 2 ^ 32
  let bound := if 2 * fxUlp v ≤ absBound then absBound else 2 * fxUlp v
  let near (c : Nat) : Bool := match fp32.value c with
    | .fin n m e => decide ((fxOf n m e - v).natAbs ≤ bound.natAbs)
    | _ => false
  let fallback := (storeWide fp32 (.fin (decide (v < 0)) v.natAbs (-(fxBits : Int)))).1
  let r := if near cand then cand else fallback
  (r, exInexact ||| exIf (decide (r % 2 ^ 31 < 2 ^ 23)) exUnderflow)

/-- An integer value of a finite number, where it is one. -/
def finInt (neg : Bool) (m : Nat) (e : Int) : Option Int :=
  if 0 ≤ e then some (sunits neg m e 0)
  else if m % 2 ^ (-e).toNat = 0 then some (let a : Int := (m / 2 ^ (-e).toNat : Nat); if neg then -a else a) else none

/-- FEX2 (R116 to R118). -/
def sfuEx2 (w : Word) : Nat × Exs :=
  match fp32.value w.toNat with
  | .nan s => (fp32.nanCode, exIf s exInvalid)
  | .inf n => (if n then 0 else fp32.infCode, 0)
  | .fin n m e =>
    if m = 0 then (0x3F800000, 0)
    else if !n && decide (7 ≤ Nat.log2 m + e) then (fp32.infCode, exOverflow ||| exInexact)
    else match finInt n m e with
      | some k => if -149 ≤ k then storeWide fp32 (.fin false 1 k) else sfuBounded 3 w (fxExp2 (-(fxBits : Int) * fxOne)) 0
      | none =>
        let v := if n && decide (9 ≤ Nat.log2 m + e) then 1 else fxExp2 (fxOf n m e)
        sfuBounded 3 w (if v < 1 then 1 else v) 0
/-- FLG2 (R116 to R118). -/
def sfuLg2 (w : Word) : Nat × Exs :=
  match fp32.value w.toNat with
  | .nan s => (fp32.nanCode, exIf s exInvalid)
  | .inf n => if n then (fp32.nanCode, exInvalid) else (fp32.infCode, 0)
  | .fin n m e =>
    if m = 0 then (fp32.infCode + fp32.signBit, exDivZero)
    else if n then (fp32.nanCode, exInvalid)
    else if m = 2 ^ Nat.log2 m then
      let k : Int := Nat.log2 m + e
      storeWide fp32 (.fin (decide (k < 0)) k.natAbs 0)
    else
      let l : Int := Nat.log2 m + e
      sfuBounded 4 w (fxLog2 m e) (if l = 0 || l = -1 then 2 ^ (fxBits - 22) else 0)
/-- FSIN, FCOS (R116 to R118). -/
def sfuSinCos (cos : Bool) (w : Word) : Nat × Exs :=
  match fp32.value w.toNat with
  | .nan s => (fp32.nanCode, exIf s exInvalid)
  | .inf _ => (fp32.nanCode, exInvalid)
  | .fin n m e =>
    if m = 0 then (if cos then 0x3F800000 else n.toNat * fp32.signBit, 0)
    else
      let r := fxReduce n m e
      sfuBounded (if cos then 6 else 5) w (if cos then fxCos r else fxSin r) (2 ^ (fxBits - 22))
/-- FTANH (R116 to R118). -/
def sfuTanh (w : Word) : Nat × Exs :=
  match fp32.value w.toNat with
  | .nan s => (fp32.nanCode, exIf s exInvalid)
  | .inf n => (0x3F800000 + n.toNat * fp32.signBit, 0)
  | .fin n m e => if m = 0 then (n.toNat * fp32.signBit, 0) else sfuBounded 7 w (fxTanh (fxOf n m e)) 0

/-- A value truncated toward zero into an integer range (R122). -/
def cvtInt (lo hi : Int) : FVal → Int × Exs
  | .nan _ => (0, exInvalid)
  | .inf n => (if n then lo else hi, exInvalid)
  | .fin n m e =>
    let a : Nat := if 0 ≤ e then m * 2 ^ e.toNat else m / 2 ^ (-e).toNat
    let v : Int := if n then -(a : Int) else a
    if v < lo then (lo, exInvalid) else if hi < v then (hi, exInvalid) else (v, 0)
/-- Convert of R282: an FP32 value as a multiple of 2^-64, with its bits. -/
def accxConvert (code : Nat) : Int × Exs :=
  match fp32.value code with
  | .nan s => (0, exNarrowNan ||| exIf s exInvalid)
  | .inf neg => (if neg then -(2 ^ 127 - 1) else 2 ^ 127 - 1, exAccRange)
  | .fin neg m e =>
    let sg (v : Nat) : Int := if neg then -(v : Int) else v
    let sh := e + 64
    let q := if 0 ≤ sh then m * 2 ^ sh.toNat else m / 2 ^ (-sh).toNat
    if 2 ^ 127 - 1 < q then (sg (2 ^ 127 - 1), exAccRange)
    else (sg q, exIf (sh < 0 && m % 2 ^ (-sh).toNat != 0) exInexact)

/-- An integer as a value. -/
def ofInt (v : Int) : FVal := .fin (decide (v < 0)) v.natAbs 0

/-- The levels of QN4 in 64ths (R79). -/
def qn4Level (c : Nat) : Int :=
  ([-64, -45, -34, -25, -18, -12, -6, 0, 5, 10, 16, 22, 29, 38, 50, 64] : List Int).getD (c % 16) 0
/-- The value of a QN4 code, its level alone (R79, R126). -/
def qn4Value (c : Nat) : FVal := let l := qn4Level c; .fin (decide (l < 0)) l.natAbs (-6)
/-- An E8M0 scale code; none for its NaN (R78). -/
def e8m0 (c : Nat) : Option Int := if c % 256 = 255 then none else some ((c % 256 : Nat) - 127)

/-- The largest finite magnitude of a list, as a finite value; zero where no element is finite, a case R85 and R86 leave open (DESIGN CHOICE, log
entry 104). -/
def maxFinite (xs : List FVal) : FVal :=
  xs.foldl (fun a x => match x with
    | .fin _ m e => if fvLt a (.fin false m e) then .fin false m e else a
    | _ => a) (.fin false 0 0)

/-- Quantises an MX block (R85): scale code, element codes, bits. -/
def quantMx (f : Fmt) (emax : Int) (xs : List FVal) : Nat × List Nat × Exs :=
  if xs.any FVal.isNan then (255, xs.map fun _ => 0, exNarrowNan ||| sigBits xs)
  else
    let sc : Int := match maxFinite xs with
      | .fin _ m e => if m = 0 then 127 else
        let s := Nat.log2 m + e - emax + 127
        if s < 0 then 0 else if 254 < s then 254 else s
      | _ => 127
    let rs := xs.map fun x => storeNarrow f true (x.scale (127 - sc))
    (sc.toNat, rs.map (·.1), rs.foldl (fun b r => b ||| r.2) 0)

/-- The level nearest to x / (s × S), ties away from zero, for finite x and s × S above 0 (R86). -/
def qn4Nearest (x : FVal) (sS : Nat × Int) : Nat :=
  match x with
  | .fin n m e =>
    let lo := if e ≤ sS.2 then e else sS.2
    let v := 64 * sunits n m e lo
    let u : Int := units sS.1 sS.2 lo
    (List.range 16).foldl (fun best c =>
      let d := (v - qn4Level c * u).natAbs
      let db := (v - qn4Level best * u).natAbs
      if d < db || (d == db && decide ((qn4Level best).natAbs < (qn4Level c).natAbs)) then c else best) 7
  | _ => 7
/-- Quantises a QN4 super block (R86): S as FP32, the scales and codes of each block, bits. The rounding of S itself sets no bit: R86 names
only bits of the elements (DESIGN CHOICE, log entry 89); elements that are no finite numbers: DEDUCED, log entry 9; a block
or super block with no finite element has scale 0, and each element code 7: DESIGN CHOICE, log entry 104. -/
def quantQn4 (blocks : List (List FVal)) : Nat × List (Nat × List Nat) × Exs :=
  let amax := maxFinite blocks.flatten
  let sv := match amax with
    | .fin _ m e => divValue false m 255 e
    | v => v
  let sCode := if amax.isZero then 0 else (storeWide fp32 sv).1
  let sm := fp32.mag sCode
  let one (b : List FVal) : (Nat × List Nat) × Exs :=
    let s : Nat := match maxFinite b with
      | .fin _ m e =>
        if sm.1 = 0 then 0 else
          let lo := if e ≤ sm.2 then e else sm.2
          let a := units m e lo
          let d := units sm.1 sm.2 lo
          let q := (2 * a + d) / (2 * d)
          if 255 < q then 255 else q
      | _ => 0
    let el (x : FVal) : Nat × Exs := match x with
      | .nan _ => (7, exNarrowNan ||| exInexact ||| sigBits [x])
      | .inf n => if s = 0 then (7, exInexact) else (if n then 0 else 15, exNarrowSat ||| exInexact)
      | .fin n m e =>
        if s = 0 then (7, exIf (m != 0) exInexact) else
          let c := qn4Nearest x (s * sm.1, sm.2)
          let d := qn4Level c
          (c, exIf (!fvEq (.fin n m e) (.fin (decide (d < 0)) (d.natAbs * s * sm.1) (sm.2 - 6))) exInexact)
    let rs := b.map el
    ((s, rs.map (·.1)), rs.foldl (fun x r => x ||| r.2) 0)
  let rs := blocks.map one
  (sCode, rs.map (·.1), rs.foldl (fun b r => b ||| r.2) 0)

end Sys2Proof.Machine
end

