-- ==== Sys2Proof/Syntax.lean ====
section
/-! DEFINITION. Every row of the spec's table of operations and events as a constructor of `Instr`: the 175 words with the
fields of their formats (spec/03 R34, R37; spec/04 R58 to R69), register numbers and codes as their own types, and the 84
events of the device, of its engines and of the outside with what each of them names or brings. -/

namespace Sys2Proof

/-- The number of a data register, v0 to v63; a pair is named by its even number (R14, R37). -/
abbrev Reg := BitVec 6
/-- The number of a predicate, p0 to p7 (R13). -/
abbrev PredIx := BitVec 3
/-- The number of a mask register; 0 to 11 are registers (R165). -/
abbrev MaskIx := BitVec 4

/-- The common header of a word (R34): chain, negate, guard predicate. -/
structure Hdr where
  c : Bool
  n : Bool
  p : PredIx
  deriving DecidableEq, Repr

/-- Integer conditions (R59). -/
inductive ICond where
  | eq | ne | lt | le | gt | ge | ltu | leu | gtu | geu | lt64 | le64 | gt64 | ge64 | eq64 | ne64
  deriving DecidableEq, Repr

/-- Floating-point conditions (R59, R115). -/
inductive FCond where
  | eq | ne | lt | le | gt | ge | ord | uno | ueq | une | ult | ule | ugt | uge
  deriving DecidableEq, Repr

/-- The types of a conversion (R60). -/
inductive NumType where
  | s32 | u32 | s64 | u64 | f16 | bf16 | f32 | f64
  deriving DecidableEq, Repr

/-- Access sizes (R37, R140). -/
inductive Size where
  | u8 | s8 | u16 | s16 | b32 | b64 | b128
  deriving DecidableEq, Repr

/-- Cache hints (R61). -/
inductive Hint where
  | normal | ef | el | nl | ns
  deriving DecidableEq, Repr

/-- Scopes (R257). -/
inductive Scope where
  | fibre | warp | team | core | cluster | die | package | pod | host | peerio | system
  deriving DecidableEq, Repr

/-- Kinds of FENCE (R65, R276). -/
inductive FenceKind where
  | acqrel | acquire | release
  deriving DecidableEq, Repr

/-- Kinds of accumulation (R65, R280, R298). -/
inductive AccKind where
  | acc32 | acc64 | accx
  deriving DecidableEq, Repr

/-- Atomic operations (R62, R278). -/
inductive AtomOp where
  | add | and | or | xor | min | max | minu | maxu | exch | cas | incw | decw | fadd | fmin | fmax
  deriving DecidableEq, Repr

/-- Types of a warp reduction (R181). -/
inductive RedType where
  | signed | unsigned | f32
  deriving DecidableEq, Repr

/-- Chain behaviour of a matrix word (R66). -/
inductive MmaFn where
  | start | chain | chainDrain | startDrain
  deriving DecidableEq, Repr

/-- What the check of a codeword read from HBM found (R425). -/
inductive HbmCheck where
  | good | corrected | failed
  deriving DecidableEq, Repr

/-- An access of a pod peer as it arrives over Ossel (R418, R420). -/
inductive PeerAct where
  | read (pa n : Nat)
  | write (pa : Nat) (bytes : List Byte)
  | rmw (op : AtomOp) (w : Bool) (pa : Nat) (v c : DWord)
  | acc (kd : AccKind) (pa : Nat) (x : DWord)
  | tile (kd : AccKind) (pa : Nat) (xs : List DWord)
  deriving DecidableEq, Repr

/-- What trusted firmware sets for a function (R421, R422, R231, R409, R417): contexts, the ranges of its grant (base, size),
its permissions, its dispatch weight, each context's pinned and KV budget in rows per slice, the mailbox window and its host
address where this function is granted it, the device's pod number and its peers' ranges (peer, base, size, read, write), and which
context, if any, is trusted firmware's own (R69). -/
structure GrantRec where
  ctxn : Nat
  ranges : List (Nat × Nat)
  host : Bool
  peers : Bool
  window : Option (Nat × DWord)
  weight : Nat
  pinned : List (Nat × Nat)
  kv : List (Nat × Nat)
  pod : Nat
  peerRanges : List (Nat × Nat × Nat × Bool × Bool)
  own : Option Nat
  deriving DecidableEq, Repr

/-- What the boot ROM finds at reset (R427, R428): whether the blocks' signature and binding hold, the harvested positions
(cluster of the package 0 to 15, physical position), whether both images verify, and the least version of either that the blocks
allow. -/
structure ConfigBlocks where
  signed : Bool
  bound : Bool
  imagesOk : Bool
  harvest : List (Nat × Nat)
  minRoot : Nat
  minMain : Nat
  deriving DecidableEq, Repr

/-- A staged update (R428, R430). -/
structure FirmwareImage where
  root : Bool
  signed : Bool
  version : Nat
  deriving DecidableEq, Repr

/-- One constructor for each row of spec/opcode_table.json: words first, in the order of the opcode map, then events. -/
inductive Instr where
  /-- ADD (R96): Writes the 32-bit modular sum of va and vb into vd. -/
  | add (h : Hdr) (d a b : Reg) (x : Bool)
  /-- SUB (R96): Writes the 32-bit modular difference va minus vb into vd. -/
  | sub (h : Hdr) (d a b : Reg) (x : Bool)
  /-- MULLO (R96): Writes the low 32 bits of the product of va and vb into vd. -/
  | mullo (h : Hdr) (d a b : Reg) (x : Bool)
  /-- MULHI (R96): Writes the high 32 bits of the signed 64-bit product into vd. -/
  | mulhi (h : Hdr) (d a b : Reg) (x : Bool)
  /-- MULHU (R96): Writes the high 32 bits of the unsigned 64-bit product into vd. -/
  | mulhu (h : Hdr) (d a b : Reg) (x : Bool)
  /-- MIN (R96): Writes the signed minimum of va and vb into vd. -/
  | min (h : Hdr) (d a b : Reg) (x : Bool)
  /-- MAX (R96): Writes the signed maximum of va and vb into vd. -/
  | max (h : Hdr) (d a b : Reg) (x : Bool)
  /-- PERMB (R97): Builds vd from bytes of va and the old vd, selected by four nibbles of vb. -/
  | permb (h : Hdr) (d a b : Reg) (x : Bool)
  /-- AND (R96): Writes va AND vb into vd. -/
  | and (h : Hdr) (d a b : Reg) (x : Bool)
  /-- OR (R96): Writes va OR vb into vd. -/
  | or (h : Hdr) (d a b : Reg) (x : Bool)
  /-- XOR (R96): Writes va XOR vb into vd. -/
  | xor (h : Hdr) (d a b : Reg) (x : Bool)
  /-- ANDN (R96): Writes va AND NOT vb into vd. -/
  | andn (h : Hdr) (d a b : Reg) (x : Bool)
  /-- SHL (R96): Shifts va left by U(vb), giving 0 for amounts of 32 or more. -/
  | shl (h : Hdr) (d a b : Reg) (x : Bool)
  /-- SHR (R96): Shifts va right logically by U(vb) under R95. -/
  | shr (h : Hdr) (d a b : Reg) (x : Bool)
  /-- SAR (R96): Shifts va right arithmetically by U(vb) under R95. -/
  | sar (h : Hdr) (d a b : Reg) (x : Bool)
  /-- ROTL (R96): Rotates va left by U(vb) mod 32. -/
  | rotl (h : Hdr) (d a b : Reg) (x : Bool)
  /-- ADD64 (R98): Writes the 64-bit modular sum of pairs xa and xb into xd. -/
  | add64 (h : Hdr) (d a b : Reg) (x : Bool)
  /-- SUB64 (R98): Writes the 64-bit modular difference of pairs xa and xb into xd. -/
  | sub64 (h : Hdr) (d a b : Reg) (x : Bool)
  /-- SHL64 (R98): Shifts pair xa left by U(vb) into xd. -/
  | shl64 (h : Hdr) (d a b : Reg) (x : Bool)
  /-- SHR64 (R98): Shifts pair xa right logically by U(vb) into xd. -/
  | shr64 (h : Hdr) (d a b : Reg) (x : Bool)
  /-- SAR64 (R98): Shifts pair xa right arithmetically by U(vb) into xd. -/
  | sar64 (h : Hdr) (d a b : Reg) (x : Bool)
  /-- MULW (R98): Writes the exact signed 64-bit product of va and vb into xd. -/
  | mulw (h : Hdr) (d a b : Reg) (x : Bool)
  /-- MINU (R98): Writes the unsigned minimum of va and vb into vd. -/
  | minu (h : Hdr) (d a b : Reg) (x : Bool)
  /-- MAXU (R98): Writes the unsigned maximum of va and vb into vd. -/
  | maxu (h : Hdr) (d a b : Reg) (x : Bool)
  /-- ADDI (R99): Adds a sign-extended 7-bit immediate to va. -/
  | addi (h : Hdr) (d a : Reg) (i : BitVec 7)
  /-- ANDI (R99): ANDs va with a sign-extended 7-bit immediate. -/
  | andi (h : Hdr) (d a : Reg) (i : BitVec 7)
  /-- ORI (R99): ORs va with a sign-extended 7-bit immediate. -/
  | ori (h : Hdr) (d a : Reg) (i : BitVec 7)
  /-- XORI (R99): XORs va with a sign-extended 7-bit immediate. -/
  | xori (h : Hdr) (d a : Reg) (i : BitVec 7)
  /-- SHLI (R99): Shifts va left by an unsigned 7-bit immediate. -/
  | shli (h : Hdr) (d a : Reg) (i : BitVec 7)
  /-- SHRI (R99): Shifts va right logically by an unsigned 7-bit immediate. -/
  | shri (h : Hdr) (d a : Reg) (i : BitVec 7)
  /-- SARI (R99): Shifts va right arithmetically by an unsigned 7-bit immediate. -/
  | sari (h : Hdr) (d a : Reg) (i : BitVec 7)
  /-- MULI (R99): Multiplies va by a sign-extended 7-bit immediate, keeping the low 32 bits. -/
  | muli (h : Hdr) (d a : Reg) (i : BitVec 7)
  /-- POPC (R100): Counts the 1 bits of va. -/
  | popc (h : Hdr) (d a : Reg)
  /-- CLZ (R100): Counts the leading zero bits of va. -/
  | clz (h : Hdr) (d a : Reg)
  /-- CTZ (R100): Counts the trailing zero bits of va. -/
  | ctz (h : Hdr) (d a : Reg)
  /-- BREV (R100): Reverses the bit order of va. -/
  | brev (h : Hdr) (d a : Reg)
  /-- NOT (R100): Writes the bitwise complement of va. -/
  | not (h : Hdr) (d a : Reg)
  /-- NEG (R100): Writes 0 minus va modulo 2^32. -/
  | neg (h : Hdr) (d a : Reg)
  /-- ABS (R100): Writes the absolute value of S(va) modulo 2^32. -/
  | abs (h : Hdr) (d a : Reg)
  /-- SEXTB (R100): Sign-extends bits 7:0 of va. -/
  | sextb (h : Hdr) (d a : Reg)
  /-- SEXTH (R100): Sign-extends bits 15:0 of va. -/
  | sexth (h : Hdr) (d a : Reg)
  /-- BFE (R101): Extracts a sign-extended bit field of va described by vb. -/
  | bfe (h : Hdr) (d a b : Reg) (x : Bool)
  /-- BFEU (R101): Extracts a zero-extended bit field of va described by vb. -/
  | bfeu (h : Hdr) (d a b : Reg) (x : Bool)
  /-- BFI (R101): Inserts low bits of va into a field of the old vd described by vb. -/
  | bfi (h : Hdr) (d a b : Reg) (x : Bool)
  /-- FUNL (R101): Funnel-shifts va:old vd left by vb[5:0] and keeps the high word. -/
  | funl (h : Hdr) (d a b : Reg) (x : Bool)
  /-- DIV (R102): Starts a signed truncating divide on the core's shared divider. -/
  | div (h : Hdr) (d a b : Reg) (x : Bool)
  /-- DIVU (R102): Starts an unsigned divide on the core's shared divider. -/
  | divu (h : Hdr) (d a b : Reg) (x : Bool)
  /-- REM (R102): Starts a signed remainder on the core's shared divider. -/
  | rem (h : Hdr) (d a b : Reg) (x : Bool)
  /-- REMU (R102): Starts an unsigned remainder on the core's shared divider. -/
  | remu (h : Hdr) (d a b : Reg) (x : Bool)
  /-- BRA (R128): Branches by a signed packet offset in each active fibre, splitting the batch where fibres diverge. -/
  | bra (h : Hdr) (off : BitVec 22)
  /-- ICMP (R105): Compares two registers or pairs under condition K and writes a predicate and its complement. -/
  | icmp (h : Hdr) (pd pe : PredIx) (a b : Reg) (k : ICond)
  /-- ICMPI (R106): Compares a register with a 6-bit immediate and writes a predicate and its complement. -/
  | icmpi (h : Hdr) (pd pe : PredIx) (a : Reg) (i : BitVec 6) (k : ICond)
  /-- FCMP (R115): Compares two FP32 values under condition K, writing predicates and setting invalid as tabled. -/
  | fcmp (h : Hdr) (pd pe : PredIx) (a b : Reg) (k : FCond)
  /-- DCMP (R115): Compares two FP64 pairs under condition K, writing predicates and setting invalid as tabled. -/
  | dcmp (h : Hdr) (pd pe : PredIx) (a b : Reg) (k : FCond)
  /-- PAND (R107): Writes the AND of two optionally negated predicates and its complement. -/
  | pand (h : Hdr) (pd pe pa pb : PredIx) (na nb : Bool)
  /-- POR (R107): Writes the OR of two optionally negated predicates and its complement. -/
  | por (h : Hdr) (pd pe pa pb : PredIx) (na nb : Bool)
  /-- PXOR (R107): Writes the XOR of two optionally negated predicates and its complement. -/
  | pxor (h : Hdr) (pd pe pa pb : PredIx) (na nb : Bool)
  /-- PMOV (R107): Copies an optionally negated predicate and writes its complement. -/
  | pmov (h : Hdr) (pd pe pa pb : PredIx) (na nb : Bool)
  /-- FADD (R111): Adds two FP32 values with one RNE rounding. -/
  | fadd (h : Hdr) (d a b : Reg) (x : Bool)
  /-- FSUB (R111): Subtracts two FP32 values with one RNE rounding. -/
  | fsub (h : Hdr) (d a b : Reg) (x : Bool)
  /-- FMUL (R111): Multiplies two FP32 values with one RNE rounding. -/
  | fmul (h : Hdr) (d a b : Reg) (x : Bool)
  /-- FFMA (R111): Computes va times vb plus old vd in FP32 with one rounding. -/
  | ffma (h : Hdr) (d a b : Reg) (x : Bool)
  /-- FMIN (R113): Writes the IEEE minimum of two FP32 values. -/
  | fmin (h : Hdr) (d a b : Reg) (x : Bool)
  /-- FMAX (R113): Writes the IEEE maximum of two FP32 values. -/
  | fmax (h : Hdr) (d a b : Reg) (x : Bool)
  /-- FMINN (R113): Writes the IEEE minimumNumber of two FP32 values. -/
  | fminn (h : Hdr) (d a b : Reg) (x : Bool)
  /-- FMAXN (R113): Writes the IEEE maximumNumber of two FP32 values. -/
  | fmaxn (h : Hdr) (d a b : Reg) (x : Bool)
  /-- DADD (R111): Adds two FP64 pairs with one RNE rounding. -/
  | dadd (h : Hdr) (d a b : Reg) (x : Bool)
  /-- DSUB (R111): Subtracts two FP64 pairs with one RNE rounding. -/
  | dsub (h : Hdr) (d a b : Reg) (x : Bool)
  /-- DMUL (R111): Multiplies two FP64 pairs with one RNE rounding. -/
  | dmul (h : Hdr) (d a b : Reg) (x : Bool)
  /-- DFMA (R111): Computes a fused multiply-add of FP64 pairs with one rounding. -/
  | dfma (h : Hdr) (d a b : Reg) (x : Bool)
  /-- DMIN (R113): Writes the IEEE minimum of two FP64 pairs. -/
  | dmin (h : Hdr) (d a b : Reg) (x : Bool)
  /-- DMAX (R113): Writes the IEEE maximum of two FP64 pairs. -/
  | dmax (h : Hdr) (d a b : Reg) (x : Bool)
  /-- DMINN (R113): Writes the IEEE minimumNumber of two FP64 pairs. -/
  | dminn (h : Hdr) (d a b : Reg) (x : Bool)
  /-- DMAXN (R113): Writes the IEEE maximumNumber of two FP64 pairs. -/
  | dmaxn (h : Hdr) (d a b : Reg) (x : Bool)
  /-- CALL (R131): Pushes a return entry, shifts the window by SH with spills and transfers to a packet offset. -/
  | call (h : Hdr) (off : BitVec 16) (sh : BitVec 6)
  /-- HADD2 (R114): Adds two packed FP16 pairs element by element. -/
  | hadd2 (h : Hdr) (d a b : Reg) (x : Bool)
  /-- HMUL2 (R114): Multiplies two packed FP16 pairs element by element. -/
  | hmul2 (h : Hdr) (d a b : Reg) (x : Bool)
  /-- HFMA2 (R114): Fused multiply-adds packed FP16 pairs into the old vd. -/
  | hfma2 (h : Hdr) (d a b : Reg) (x : Bool)
  /-- HMIN2 (R114): Writes the element-wise minimum of packed FP16 pairs. -/
  | hmin2 (h : Hdr) (d a b : Reg) (x : Bool)
  /-- HMAX2 (R114): Writes the element-wise maximum of packed FP16 pairs. -/
  | hmax2 (h : Hdr) (d a b : Reg) (x : Bool)
  /-- BADD2 (R114): Adds two packed BF16 pairs element by element. -/
  | badd2 (h : Hdr) (d a b : Reg) (x : Bool)
  /-- BMUL2 (R114): Multiplies two packed BF16 pairs element by element. -/
  | bmul2 (h : Hdr) (d a b : Reg) (x : Bool)
  /-- BFMA2 (R114): Fused multiply-adds packed BF16 pairs into the old vd. -/
  | bfma2 (h : Hdr) (d a b : Reg) (x : Bool)
  /-- FRCP (R116): Starts a correctly rounded FP32 reciprocal, a long-latency result. -/
  | frcp (h : Hdr) (d a : Reg) (la : BitVec 4)
  /-- FRSQ (R116): Starts an FP32 reciprocal square root, a long-latency result. -/
  | frsq (h : Hdr) (d a : Reg) (la : BitVec 4)
  /-- FSQRT (R116): Starts a correctly rounded FP32 square root, a long-latency result. -/
  | fsqrt (h : Hdr) (d a : Reg) (la : BitVec 4)
  /-- FEX2 (R116): Starts an FP32 base-2 exponential, a long-latency result. -/
  | fex2 (h : Hdr) (d a : Reg) (la : BitVec 4)
  /-- FLG2 (R116): Starts an FP32 base-2 logarithm, a long-latency result. -/
  | flg2 (h : Hdr) (d a : Reg) (la : BitVec 4)
  /-- FSIN (R116): Starts an FP32 sine in radians, a long-latency result. -/
  | fsin (h : Hdr) (d a : Reg) (la : BitVec 4)
  /-- FCOS (R116): Starts an FP32 cosine in radians, a long-latency result. -/
  | fcos (h : Hdr) (d a : Reg) (la : BitVec 4)
  /-- FTANH (R116): Starts an FP32 hyperbolic tangent, a long-latency result. -/
  | ftanh (h : Hdr) (d a : Reg) (la : BitVec 4)
  /-- DRCP (R119): Starts a correctly rounded FP64 reciprocal, holding the SFU for 8 cycles. -/
  | drcp (h : Hdr) (d a : Reg) (la : BitVec 4)
  /-- DRSQ (R119): Starts an FP64 reciprocal square root, holding the SFU for 8 cycles. -/
  | drsq (h : Hdr) (d a : Reg) (la : BitVec 4)
  /-- DSQRT (R119): Starts a correctly rounded FP64 square root, holding the SFU for 8 cycles. -/
  | dsqrt (h : Hdr) (d a : Reg) (la : BitVec 4)
  /-- CVT (R120): Converts between the integer and floating-point types selected by FN. -/
  | cvt (h : Hdr) (d a : Reg) (dst src : NumType)
  /-- PKE4M3 (R125): Scales and rounds two FP32 values into an E4M3 element pair of vd. -/
  | pke4m3 (h : Hdr) (d a b : Reg) (x : Bool)
  /-- PKE5M2 (R125): Scales and rounds two FP32 values into an E5M2 element pair of vd. -/
  | pke5m2 (h : Hdr) (d a b : Reg) (x : Bool)
  /-- PKE3M2 (R125): Scales and rounds two FP32 values into an E3M2 element pair of vd. -/
  | pke3m2 (h : Hdr) (d a b : Reg) (x : Bool)
  /-- PKE2M3 (R125): Scales and rounds two FP32 values into an E2M3 element pair of vd. -/
  | pke2m3 (h : Hdr) (d a b : Reg) (x : Bool)
  /-- PKE2M1 (R125): Scales and rounds two FP32 values into an E2M1 element pair of vd. -/
  | pke2m1 (h : Hdr) (d a b : Reg) (x : Bool)
  /-- UPK8 (R126): Decodes an 8-bit element pair of va into two scaled FP32 values. -/
  | upk8 (h : Hdr) (d a b : Reg) (x : Bool)
  /-- UPK6 (R126): Decodes a 6-bit element pair of va into two scaled FP32 values. -/
  | upk6 (h : Hdr) (d a b : Reg) (x : Bool)
  /-- UPK4 (R126): Decodes a 4-bit element pair of va into two scaled FP32 values. -/
  | upk4 (h : Hdr) (d a b : Reg) (x : Bool)
  /-- SEL (R108): Writes va or vb into vd according to an optionally negated predicate. -/
  | sel (h : Hdr) (d a b : Reg) (q : PredIx) (neg : Bool)
  /-- SHFL (R182): Reads va from the lane indexed by vb within the batch. -/
  | shfl (h : Hdr) (d a b : Reg) (x : Bool)
  /-- SHFLUP (R182): Reads va from the lane vb places below. -/
  | shflup (h : Hdr) (d a b : Reg) (x : Bool)
  /-- SHFLDN (R182): Reads va from the lane vb places above. -/
  | shfldn (h : Hdr) (d a b : Reg) (x : Bool)
  /-- SHFLX (R182): Reads va from the lane whose index is the own lane XOR vb. -/
  | shflx (h : Hdr) (d a b : Reg) (x : Bool)
  /-- BALLOT (R183): Writes the mask of active fibres whose optionally negated predicate is 1. -/
  | ballot (h : Hdr) (d : Reg) (q : PredIx) (neg : Bool)
  /-- WREDADD (R184): Writes the sum of the active fibres' values, integer or FP32 by a fixed tree. -/
  | wredadd (h : Hdr) (d a : Reg) (ty : RedType) (x : Bool)
  /-- WREDMIN (R184): Writes the minimum of the active fibres' values. -/
  | wredmin (h : Hdr) (d a : Reg) (ty : RedType) (x : Bool)
  /-- WREDMAX (R184): Writes the maximum of the active fibres' values. -/
  | wredmax (h : Hdr) (d a : Reg) (ty : RedType) (x : Bool)
  /-- MOVI (R109): Writes a sign-extended 16-bit immediate into vd. -/
  | movi (h : Hdr) (d : Reg) (i : BitVec 16)
  /-- MOVHI (R109): Replaces the high 16 bits of vd with an immediate. -/
  | movhi (h : Hdr) (d : Reg) (i : BitVec 16)
  /-- LD (R140): Checks each lane's address and starts a relaxed load, a long-latency result. -/
  | ld (h : Hdr) (d a : Reg) (sz : Size) (ch : Hint) (la : BitVec 4)
  /-- ST (R140): Checks each lane's address and places a relaxed store in the write-combining buffer. -/
  | st (h : Hdr) (a b : Reg) (sz : Size) (ch : Hint)
  /-- LDS (R147): Reads team scratch or the register window at a core address, a long-latency result. -/
  | lds (h : Hdr) (d a : Reg) (sz : Size) (la : BitVec 4)
  /-- LDC (R288): Reads another panel team's scratch on a core of the cluster, a long-latency result. -/
  | ldc (h : Hdr) (d a : Reg) (sz : Size) (la : BitVec 4)
  /-- STS (R147): Writes team scratch or the register window at a core address. -/
  | sts (h : Hdr) (a b : Reg) (sz : Size)
  /-- STC (R288): Writes another panel team's scratch on a core of the cluster as a late write. -/
  | stc (h : Hdr) (a b : Reg) (sz : Size)
  /-- ROWLD (R290): Reads a whole 2 KiB ply row into 16 registers of each active fibre. -/
  | rowld (h : Hdr) (d a : Reg) (la : BitVec 4)
  /-- ROWST (R290): Writes a whole 2 KiB ply row indivisibly from the full warp's 16 registers. -/
  | rowst (h : Hdr) (a b : Reg)
  /-- LDA (R274): Performs a home-served acquire load at a scope, with the acquire check and L1 invalidation. -/
  | lda (h : Hdr) (d a : Reg) (sz : Size) (sc : Scope)
  /-- STL (R275): Places a release store at a scope in the write-combining buffer. -/
  | stl (h : Hdr) (a b : Reg) (sz : Size) (sc : Scope)
  /-- FENCE (R276): Holds the batch until release, acquire and acknowledge conditions at its scope are met. -/
  | fence (h : Hdr) (ack : Bool) (k : FenceKind) (sc : Scope)
  /-- ACCADD (R280): Sends a commutative accumulation update of one value per lane to its home. -/
  | accadd (h : Hdr) (a b : Reg) (kd : AccKind)
  /-- PUBLISH (R285): Flips the active half of each named view as a release at its scope. -/
  | publish (h : Hdr) (a : Reg) (sc : Scope)
  /-- RESIDE (R286): Fences, tests and registers a residency contract per lane in lane order and writes a status. -/
  | reside (h : Hdr) (d a : Reg)
  /-- UNRESIDE (R287): Fences and releases the contract at a BASE, or removes a lost marker, writing a status. -/
  | unreside (h : Hdr) (d a : Reg)
  /-- ATOM (R277): Performs a read-modify-write at the home selected by OP and returns the old value. -/
  | atom (h : Hdr) (d a : Reg) (op : AtomOp) (w : Bool) (la : BitVec 4)
  /-- RED (R277): Performs a read-modify-write at the home selected by OP with no value returned. -/
  | red (h : Hdr) (d a : Reg) (op : AtomOp) (w : Bool)
  /-- MMA (R318): Votes the format, takes a drain buffer and starts a 16x16 block product, draining for FN 2 and 3. -/
  | mma (h : Hdr) (fa fb : BitVec 3) (f : Reg) (db : BitVec 2) (fn : MmaFn)
  /-- MMA64 (R306): Starts an FP64 16x16x4 product into a drain buffer, occupying the unit 4 cycles. -/
  | mma64 (h : Hdr) (fa fb : BitVec 3) (f : Reg) (db : BitVec 2) (fn : MmaFn)
  /-- SCLD (R322): Loads scale-store columns from per-lane global addresses. -/
  | scld (h : Hdr) (a col : Reg)
  /-- SCLD_SCR (R322): Loads scale-store columns from per-lane team-scratch core addresses. -/
  | scldScr (h : Hdr) (a col : Reg)
  /-- MDRAIN (R319): Drains an owned Open buffer to its accumulator, or sets its flag at once otherwise. -/
  | mdrain (h : Hdr) (db : BitVec 2) (f : Reg)
  /-- FMTQ (R325): Reports what a format word implements without issuing anything. -/
  | fmtq (h : Hdr) (d f : Reg)
  /-- TCOPY (R329): Submits per-lane copy-engine records after a package release, holding the batch until accepted or faulted. -/
  | tcopy (h : Hdr) (a : Reg)
  /-- TCAST (R329): Submits per-lane multicast copy records to several cores' scratch. -/
  | tcast (h : Hdr) (a : Reg)
  /-- HGATH (R338): Submits per-lane hook gather records of indexed rows. -/
  | hgath (h : Hdr) (a : Reg)
  /-- HRED (R339): Submits per-lane hook reduce records summing or maximising rows. -/
  | hred (h : Hdr) (a : Reg)
  /-- HCVT (R340): Submits per-lane hook convert records quantising a tensor. -/
  | hcvt (h : Hdr) (a : Reg)
  /-- WAITF (R343): Waits for all or any masked flags, then clears them, releases, or traps on an error bit. -/
  | waitf (h : Hdr) (msk : BitVec 12) (any : Bool)
  /-- FLAGQ (R344): Samples the warp's flags and error bits into vd, a long-latency result. -/
  | flagq (h : Hdr) (d : Reg) (la : BitVec 4)
  /-- BRR (R129): Branches each active fibre to the packet index held in a pair. -/
  | brr (h : Hdr) (a : Reg)
  /-- CALLR (R131): Calls the packet index held in a pair with a window shift. -/
  | callr (h : Hdr) (a : Reg) (sh : BitVec 6)
  /-- RET (R132): Pops a return entry, lowers WB with refills and continues, or ends the fibre at depth 0. -/
  | ret (h : Hdr)
  /-- JOIN (R168): Member fibres wait until every live fibre of the mask arrives, then continue as one batch. -/
  | join (h : Hdr) (m : MaskIx)
  /-- LEAVE (R168): Removes the active fibres from a mask and from matching wait records. -/
  | leave (h : Hdr) (m : MaskIx)
  /-- WAITM (R168): Member fibres wait until every live fibre of the mask arrives, then continue separately. -/
  | waitm (h : Hdr) (m : MaskIx)
  /-- MKMASK (R169): Sets a mask to the batch's active fibres. -/
  | mkmask (h : Hdr) (m : MaskIx)
  /-- MASKRD (R169): Writes a mask into vd of every active fibre. -/
  | maskrd (h : Hdr) (m : MaskIx) (v : Reg)
  /-- MASKWR (R169): Writes the highest active fibre's register into a mask. -/
  | maskwr (h : Hdr) (m : MaskIx) (v : Reg)
  /-- SPAWN (R171): Creates a one-warp team on the core with copied registers, or returns a refusal status. -/
  | spawn (h : Hdr) (a e : Reg)
  /-- FEXIT (R174): Ends every active fibre of the batch. -/
  | fexit (h : Hdr)
  /-- YIELD (R175): Active fibres wait until other ready warps have issued or 64 cycles pass. -/
  | yield (h : Hdr)
  /-- BARINIT (R177): Sets a barrier's expected count, clearing or keeping the counts. -/
  | barinit (h : Hdr) (bar : BitVec 4) (ph : BitVec 2) (v : Reg)
  /-- BARARR (R178): Arrives on a barrier phase without waiting, completing phases that reach E. -/
  | bararr (h : Hdr) (bar : BitVec 4) (ph : BitVec 2)
  /-- BARWAIT (R178): Active fibres wait for a barrier phase without arriving. -/
  | barwait (h : Hdr) (bar : BitVec 4) (ph : BitVec 2)
  /-- BARARW (R178): Arrives on a barrier phase and then waits for it. -/
  | bararw (h : Hdr) (bar : BitVec 4) (ph : BitVec 2)
  /-- BARQ (R180): Writes a barrier's state word into vd. -/
  | barq (h : Hdr) (bar : BitVec 4) (v : Reg)
  /-- RSRD (R134): Reads a return-stack entry n places below the top into a pair. -/
  | rsrd (h : Hdr) (v : Reg)
  /-- RSPOP (R134): Pops a return-stack entry, lowering WB, without transferring control. -/
  | rspop (h : Hdr) (v : Reg)
  /-- RSPUSH (R134): Pushes a pair's value as a return-stack entry. -/
  | rspush (h : Hdr) (v : Reg)
  /-- WIN (R134): Moves WB by a signed amount with spills or refills. -/
  | win (h : Hdr) (v : Reg)
  /-- CSRR (R136): Reads a CSR into a register or pair, trapping on unassigned or forbidden numbers. -/
  | csrr (h : Hdr) (d : Reg) (num : BitVec 12)
  /-- CSRW (R139): Writes the writable bits of a CSR. -/
  | csrw (h : Hdr) (a : Reg) (num : BitVec 12)
  /-- TRAP (R367): Raises an after-kind software trap with an 8-bit code. -/
  | trap (h : Hdr) (code : BitVec 8)
  /-- ERET (R367): Once the handler batch waits at ERET, restores WB and predicates, resends held work and lifts the halt. -/
  | eret (h : Hdr)
  /-- BRK (R367): Raises an after-kind breakpoint trap. -/
  | brk (h : Hdr)
  /-- HOPS (R395): Writes the hop distance between two virtual dies. -/
  | hops (h : Hdr) (d a b : Reg)
  /-- GENQ (R214): Reports whether a granule carries the team's generation or void, and that generation. -/
  | genq (h : Hdr) (d a : Reg)
  /-- PARTR (R222): Reads a slice-ply's partition register into a pair. -/
  | partr (h : Hdr) (v s : Reg)
  /-- PARTW (R223): Writes a slice-ply's partition register, revoking, moving and writing back rows as needed. -/
  | partw (h : Hdr) (v s : Reg)
  /-- NOP (R35): a word with the never guard; its other 28 bits are kept as they stand. -/
  | nop (rest : BitVec 28)
  /-- DIVIDE_COMPLETE (R103): The divider writes vd 36 cycles after the divide's read cycles and frees the divider and the warp. -/
  | divideComplete (core : Nat)
  /-- FENCE_COMPLETE (R276): The last condition of a held FENCE is met and its batch is released. -/
  | fenceComplete (id : Nat)
  /-- RESIDE_COMPLETE (R286): Registration completes at every home slice and the lane's status is written. -/
  | resideComplete (id : Nat)
  /-- UNRESIDE_COMPLETE (R287): Every write-back of a released contract is acknowledged and status OK is written. -/
  | unresideComplete (id : Nat)
  /-- SCLD_COMPLETE (R324): Every byte of an SCLD has been written, releasing waiting MMAs and arrivals. -/
  | scldComplete (id : Nat)
  /-- MMA_BUFFER_WRITE (R304): The matrix unit writes the rounded sums into the drain buffer 24 or 32 cycles after issue. -/
  | mmaBufferWrite (id : Nat)
  /-- DRAIN_SEND (R314): Once the buffer's last addition is written, the tile is sent one line per cycle to its home. -/
  | drainSend (id : Nat)
  /-- DRAIN_ACK (R312): A drain's acknowledgement frees the buffer and sets the flag, or makes it Pending on a home fault. -/
  | drainAck (id : Nat)
  /-- ENGINE_RECORD_VALIDATE (R331): A waiting record finds room, meets the release again and is validated whole. -/
  | engineRecordValidate (id : Nat)
  /-- ENGINE_RECORD_COMPLETE (R334): A record's writes are applied; the engine publishes or arrives and updates the flag. -/
  | engineRecordComplete (id : Nat)
  /-- ENGINE_RECORD_FAIL (R337): An uncorrectable error after acceptance fails the record and sets its flag's error bit. -/
  | engineRecordFail (id : Nat) (code : BitVec 8)
  /-- YIELD_TIMEOUT (R175): 64 cycles after a YIELD its fibres become ready again. -/
  | yieldTimeout (warp : Nat) (lanes : Mask) (since : Nat)
  /-- PARTW_COMPLETE (R223): The last step of a partition write finishes and the old value is returned. -/
  | partwComplete (id : Nat)
  /-- INSTRUCTION_FETCH (R29): A packet fetch returns, or faults precisely before any word of it issues. -/
  | instructionFetch (warp : Nat) (pc : Pc)
  /-- LONG_LATENCY_RESULT (R210): A long-latency result arrives and is written to its registers, spill address or dropped, freeing its counter. -/
  | longLatencyResult (id : Nat) (lanes : Mask) (regs : BitVec 16)
  /-- STORE_ACK (R50): A write's acknowledgement returns, lowering the count and recording its sequence tag. -/
  | storeAck (id : Nat)
  /-- WCB_DRAIN_TIMEOUT (R216): A write-combining entry drains 256 cycles after it was opened. -/
  | wcbDrainTimeout (core id : Nat)
  /-- L1_LINE_EXPIRE (R215): An L1 line is dropped 4,096 cycles after its fill or last refresh. -/
  | l1LineExpire (core line : Nat)
  /-- GRANULE_SWEEP (R212): The background sweep retags stale unassigned granules to void within every 65,536 cycles. -/
  | granuleSweep (core : Nat)
  /-- GENERATION_RENEWAL (R212): A grant 24,576 generations behind takes a fresh generation and retags its granules. -/
  | generationRenewal (team : Nat)
  /-- SIGNATURE_PUBLISH (R267): A core publishes in the background at least every 8,192 cycles, draining and clearing signature bits. -/
  | signaturePublish (core : Nat)
  /-- WARP_STARVING (R200): A warp with a ready batch that has issued nothing for 960 cycles becomes starving. -/
  | warpStarving (warp : Nat)
  /-- SPIN_DEMOTE (R201): After 16 unchanging iterations of an armed loop the batch is demoted. -/
  | spinDemote (warp : Nat)
  /-- HOME_READ (R258): A read request arrives at its home slice and is served from the skein or HBM. -/
  | homeRead (id : Nat)
  /-- HOME_WRITE (R258): A write arrives at its home, is applied with the next sequence tag and acknowledged after invalidations. -/
  | homeWrite (id : Nat)
  /-- HOME_RMW (R260): An atomic request is applied indivisibly at its home and its old value returned. -/
  | homeRmw (id : Nat)
  /-- HOME_ACCUMULATE (R281): An ACCADD update is applied at its home line, or refused with a home-side fault. -/
  | homeAccumulate (id : Nat)
  /-- HOME_TILE_UPDATE (R311): A drained tile is applied at its home slice or core store as one indivisible update. -/
  | homeTileUpdate (id : Nat)
  /-- HOME_ROW_OPERATION (R236): A row operation is applied at its slice, serialised with line operations. -/
  | homeRowOperation (id : Nat)
  /-- HBM_READ_RETURN (R425): HBM codewords return and are checked, corrected or faulted before fill and delivery. -/
  | hbmReadReturn (id : Nat) (res : HbmCheck)
  /-- HBM_REFRESH (R431): A pseudo-channel's refresh interval expires and all banks refresh, within credit. -/
  | hbmRefresh (chan : Nat) (credit : Int)
  /-- DATA_BANK_FAILURE (R239): A whole data bank of a ply fails and the slice begins rebuilding into the parity bank. -/
  | dataBankFailure (ply bank : Nat)
  /-- BANK_REBUILD_STEP (R239): The slice rebuilds one more row of a failed bank every 16 cycles. -/
  | bankRebuildStep (ply : Nat)
  /-- PAGE_WALK (R246): A translation walk reads its table lines, registers as sharer and installs or faults. -/
  | pageWalk (core ctx : Nat) (va : DWord)
  /-- RESERVE_INVALIDATE (R399): An invalidation from a home reaches a proxy slice and drops the reserve copy. -/
  | reserveInvalidate (die line : Nat)
  /-- INVALIDATE_CONFIRM (R399): A sharer die's confirmation returns to the home, allowing the write's acknowledgement. -/
  | invalidateConfirm (id die : Nat)
  /-- FAULT_RECORD_WRITE (R357): When a halt completes and the ring has room, the device writes the fault record and signals. -/
  | faultRecordWrite (team : Nat)
  /-- FAULT_DELIVERY (R366): A drain, ACCADD or late-write fault is delivered to the owner warp at its next group boundary. -/
  | faultDelivery (warp : Nat)
  /-- FACK_WRITE (R360): A write of a record's SEQ into FACK makes the device act on the record's response. -/
  | fackWrite (ctx : Nat) (seq : Word)
  /-- QUEUE_ENABLE (R186): A write setting EN from 0 to 1 checks the configuration and resets HEAD, DONE and TAIL. -/
  | queueEnable (fn q : Nat) (val : DWord)
  /-- QUEUE_DISABLE (R186): A write of EN = 0 stops consumption of the queue. -/
  | queueDisable (fn q : Nat) (val : DWord)
  /-- TAIL_WRITE (R187): The doorbell write releases the writer's records and may set ERR if out of range. -/
  | tailWrite (fn q : Nat) (tail : Word)
  /-- LAUNCH_VALIDATE (R189): A record at the head of its queue is validated, refused records completing at once. -/
  | launchValidate (fn q : Nat)
  /-- DEPENDENCE_TEST (R190): A head launch's dependences are found met or failed, failure completing it DEP-FAILED. -/
  | dependenceTest (fn q : Nat)
  /-- ARBITRATE (R193): The device selects an eligible queue by priority and weighted round robin and makes its launch active. -/
  | arbitrate (fn : Nat)
  /-- PANEL_DISPATCH (R157): A dispatch step places a panel whole by first-fit in a cluster as resources free. -/
  | panelDispatch
  /-- TEAM_RETIRE (R161): A team whose warps, stores, records and drains have finished retires into the launch summary. -/
  | teamRetire (team : Nat)
  /-- ABORT_LAUNCH (R408): A GO write to ABORT ends the named launch with STATUS 5 or reports nothing to abort. -/
  | abortLaunch (fn q : Nat) (seq : Word)
  /-- PREEMPT_REQUEST (R370): A GO write to PREQ starts taking the context's panels off their cores. -/
  | preemptRequest (ctx : Nat) (all : Bool)
  /-- TEAM_SAVE (R374): Once halted and drained, a team spills its state to a save slot and enters the save handler. -/
  | teamSave (team : Nat)
  /-- TEAM_FLUSH (R373): A team is halted, its state discarded and it returns to its launch undispatched. -/
  | teamFlush (team : Nat)
  /-- DRAIN_TIMEOUT (R372): A drained team not retired within 65,536 cycles of the request is halted and saved. -/
  | drainTimeout (team : Nat)
  /-- SAVE_HANDLER_TIMEOUT (R375): A save or restore handler running longer than 2^20 cycles makes the launch FAULTED. -/
  | saveHandlerTimeout (team : Nat)
  /-- RESTORE_REQUEST (R379): A write to RSLOT restores a slot's team group or refuses it with a status. -/
  | restoreRequest (ctx slot : Nat)
  /-- DEBUG_HALT (R382): A write of DBGCTL.HALT halts the target team with a debug record. -/
  | debugHalt (ctx : Nat) (val : DWord)
  /-- DEBUG_RAW_READ (R213): The debug port returns a granule's contents and tag. -/
  | debugRawRead (core granule : Nat)
  /-- DEBUG_VIEW_READ (R213): The debug port returns what a named live grant would read. -/
  | debugViewRead (team granule : Nat)
  /-- DEBUG_WRITE (R213): The debug port writes a granule as a write of a named live grant. -/
  | debugWrite (team granule byte : Nat) (data : DWord)
  /-- PARTR_COMPLETE (R222): The last lane's partition-register read returns from its slice, writing xv and releasing the held warp. -/
  | partrComplete (id : Nat)
  /-- RETURN_STACK_ACCESS_COMPLETE (R134): A return-stack read or write at csr.rsbase made by RET or an RS-group word completes, releasing the held warp. -/
  | returnStackAccessComplete (id : Nat)
  /-- CXL_CACHE_RESPONSE (R414): A CXL.cache or ATS response from the host reaches the host-line agent, completing the agent's access to host memory. -/
  | cxlCacheResponse (id : Nat) (refused : Bool) (data : Option Gran)
  /-- VDT_APPLY (R393): A pending table takes effect when the context has no resident team. -/
  | vdtApply (ctx : Nat)
  /-- ALIAS_CLEAR (R245): A write of 0 to ALIAS clears the recorded double-mapping event. -/
  | aliasClear (ctx : Nat)
  /-- BIAS_FLIP_TO_HOST (R415): A BIAS write with DIR 0 checks, writes back and invalidates the page, then flips it to host bias. -/
  | biasFlipToHost (fn : Nat) (val : DWord)
  /-- BIAS_FLIP_TO_DEVICE (R415): A BIAS write with DIR 1 drops agent copies and flips the page to device bias. -/
  | biasFlipToDevice (fn : Nat) (val : DWord)
  /-- MEMRD_SHARED (R411): A host shared read of memory is served and the granule's directory state updated. -/
  | memrdShared (pa : Nat)
  /-- MEMRD_EXCLUSIVE (R411): A host exclusive read of a window granule is served and the state becomes H. -/
  | memrdExclusive (pa : Nat)
  /-- MEMWR (R411): A host write through CXL.mem is applied at the home slice. -/
  | memwr (pa : Nat) (data : Gran)
  /-- BIRSP (R411): The host's response to a back-invalidation returns, its data is applied and the device access proceeds. -/
  | birsp (id : Nat) (data : Option Gran)
  /-- HOST_SNOOP (R414): A host snoop reaches the host-line agent for a line it caches. -/
  | hostSnoop (line : Nat)
  /-- PEER_REQUEST (R418): An access from a pod peer arrives over Ossel and is served at the home slice. -/
  | peerRequest (peer : Nat) (act : PeerAct)
  /-- LINK_RETRY (R391): A flit failing its link check is resent, applied once. -/
  | linkRetry (link : Nat)
  /-- DIE_LINK_FAILURE (R402): A die link stops passing flits after retry and dependent accesses end slice-uncorrectable. -/
  | dieLinkFailure (a b : Nat)
  /-- PEER_UNREACHABLE (R419): A peer unreachable after retry ends dependent accesses with slice-uncorrectable. -/
  | peerUnreachable (peer : Nat)
  /-- FUNCTION_LEVEL_RESET (R423): Disables the function's queues, ends its launches, releases its contracts and zeroes its context blocks. -/
  | functionLevelReset (fn : Nat)
  /-- VDT_WRITE (R393): Trusted firmware writes a context's virtual die table, refused whole if invalid. -/
  | vdtWrite (ctx : Nat) (val : DWord)
  /-- GRANT_SET (R421): Trusted firmware sets a function's contexts, budgets, save slots and memory grant. -/
  | grantSet (fn : Nat) (grant : GrantRec)
  /-- KEY_SLOT_WRITE (R426): The root image writes a function's encryption key slots. -/
  | keySlotWrite (fn slot key : Nat)
  /-- DEVICE_RESET (R427): Reset derives the PUF key, verifies images and configuration blocks, and boots or stays in recovery. -/
  | deviceReset (blocks : ConfigBlocks)
  /-- FIRMWARE_UPDATE_STAGE (R430): An update is staged in flash and verified, taking effect at the next reset. -/
  | firmwareUpdateStage (img : FirmwareImage)
  /-- THERMAL_THROTTLE (R432): A power limit or 105 C junction makes the Needle lower the clock in 100 MHz steps. -/
  | thermalThrottle
  /-- CLOCK_RESTORE (R432): Once the cause clears, the Needle raises the clock again. -/
  | clockRestore
  /-- THERMAL_SHUTDOWN (R432): At 115 C the device stops dispatch and ends every launch with STATUS 5. -/
  | thermalShutdown
  /-- REGISTER_WRITE (R436): A write to a BAR0 register with no behaviour of its own updates its writable bits. -/
  | registerWrite (fn off : Nat) (wide : Bool) (val : DWord)
  deriving DecidableEq, Repr

end Sys2Proof
end

