-- ==== Sys2Proof/WellFormed.lean ====
section
/-! DEFINITION. Which terms of `Instr` the opcode map accepts (spec/04 R57, R59, R60, R62, R65 to R69): the register fields of
wide operands and the field values that raise illegal-encoding although their field has a constructor. -/

namespace Sys2Proof

/-- A field that names the first register of an operand n registers wide (R57): a multiple of n that ends at v63 or below. -/
def wide (n : Nat) (r : Reg) : Bool := r.toNat % n == 0 && r.toNat + n ≤ 64
/-- A field that names a pair (R14, R57). -/
def even (r : Reg) : Bool := wide 2 r
/-- The registers an access of a size covers (R57). -/
def Size.regs : Size → Nat
  | .b64 => 2
  | .b128 => 4
  | _ => 1
/-- The data field of an access of a size. -/
def Size.okReg (sz : Size) (r : Reg) : Bool := wide sz.regs r
/-- Stores take no signed sizes (R37, R64, R65). -/
def Size.okStore : Size → Bool
  | .s8 | .s16 => false
  | _ => true
/-- Masks m0 to m11 (R68). -/
def maskOk (m : MaskIx) : Bool := m.toNat ≤ 11
/-- LEAVE, MKMASK and MASKWR never name m0 (R165). -/
def maskOkNot0 (m : MaskIx) : Bool := m.toNat ≤ 11 && m.toNat != 0
/-- Conditions of ICMP that compare pairs (R59). -/
def ICond.wide : ICond → Bool
  | .lt64 | .le64 | .gt64 | .ge64 | .eq64 | .ne64 => true
  | _ => false
/-- Floating-point types (R60). -/
def NumType.isFloat : NumType → Bool
  | .f16 | .bf16 | .f32 | .f64 => true
  | _ => false
/-- 64-bit types (R60). -/
def NumType.isWide : NumType → Bool
  | .s64 | .u64 | .f64 => true
  | _ => false
/-- Operand of a conversion (R60): a 64-bit operand names a pair. -/
def NumType.okReg (t : NumType) (r : Reg) : Bool := !t.isWide || even r
/-- INCW and DECW exist at 32 bits only; CAS reads its compare and swap values at d and after it (R62). -/
def AtomOp.okAtom (op : AtomOp) (w : Bool) (d : Reg) : Bool :=
  match op, w with
  | .incw, true | .decw, true => false
  | .cas, false => wide 2 d
  | .cas, true => wide 4 d
  | _, true => even d
  | _, false => true
/-- EXCH and CAS have no RED form (R62). -/
def AtomOp.okRed (op : AtomOp) (w : Bool) (d : Reg) : Bool :=
  match op with
  | .exch | .cas => false
  | _ => op.okAtom w d
/-- The format word of a matrix word: odd and at most 61 (R66). -/
def fmtReg (f : Reg) : Bool := f.toNat % 2 == 1 && f.toNat ≤ 61

/-- What the form of a word asks of its fields beyond what their types say. Events have no encoding. -/
def Instr.wf : Instr → Bool
  | .add64 _ d a b _ | .sub64 _ d a b _ => even d && even a && even b
  | .shl64 _ d a _ _ | .shr64 _ d a _ _ | .sar64 _ d a _ _ => even d && even a
  | .mulw _ d _ _ _ => even d
  | .icmp _ _ _ a b k => !k.wide || (even a && even b)
  | .icmpi _ _ _ _ _ k => !k.wide
  | .dcmp _ _ _ a b _ => even a && even b
  | .dadd _ d a b _ | .dsub _ d a b _ | .dmul _ d a b _ | .dfma _ d a b _ | .dmin _ d a b _ | .dmax _ d a b _
  | .dminn _ d a b _ | .dmaxn _ d a b _ => even d && even a && even b
  | .drcp _ d a _ | .drsq _ d a _ | .dsqrt _ d a _ => even d && even a
  | .cvt _ d a dst src => dst != src && (dst.isFloat || src.isFloat) && dst.okReg d && src.okReg a
  | .pke4m3 _ _ a _ _ | .pke5m2 _ _ a _ _ | .pke3m2 _ _ a _ _ | .pke2m3 _ _ a _ _ | .pke2m1 _ _ a _ _ => even a
  | .upk8 _ d _ _ _ | .upk6 _ d _ _ _ | .upk4 _ d _ _ _ => even d
  | .ld _ d a sz _ _ => even a && sz.okReg d
  | .st _ a b sz _ => even a && sz.okReg b && sz.okStore
  | .lds _ d _ sz _ | .ldc _ d _ sz _ => sz.okReg d
  | .sts _ _ b sz | .stc _ _ b sz => sz.okReg b && sz.okStore
  | .rowld _ d a _ => wide 16 d && even a
  | .rowst _ a b => wide 16 b && even a
  | .lda _ d a sz _ => even a && sz.okReg d
  | .stl _ a b sz _ => even a && sz.okReg b && sz.okStore
  | .accadd _ a b kd => even a && (kd != .acc64 || even b)
  | .publish _ a _ => even a
  | .reside _ _ a => wide 4 a
  | .unreside _ _ a => even a
  | .atom _ d a op w _ => even a && op.okAtom w d
  | .red _ d a op w => even a && op.okRed w d
  | .mma _ _ _ f _ _ | .mma64 _ _ _ f _ _ | .mdrain _ _ f => fmtReg f
  | .scld _ a _ => even a
  | .tcopy _ a | .tcast _ a | .hgath _ a | .hred _ a | .hcvt _ a => wide 8 a
  | .waitf _ msk _ => msk != 0
  | .brr _ a | .callr _ a _ => even a
  | .join _ m | .waitm _ m | .maskrd _ m _ => maskOk m
  | .leave _ m | .mkmask _ m | .maskwr _ m _ => maskOkNot0 m
  | .spawn _ a e => wide 8 a && even e
  | .barinit _ _ ph _ => ph.toNat ≤ 1
  | .rsrd _ v | .rspop _ v | .rspush _ v => even v
  | .partr _ v _ | .partw _ v _ => even v
  | _ => true

/-- The header of a word; none for NOP, which keeps its bits whole, and for an event. -/
def Instr.hdr? : Instr → Option Hdr
  | .add h _ _ _ _ => some h
  | .sub h _ _ _ _ => some h
  | .mullo h _ _ _ _ => some h
  | .mulhi h _ _ _ _ => some h
  | .mulhu h _ _ _ _ => some h
  | .min h _ _ _ _ => some h
  | .max h _ _ _ _ => some h
  | .permb h _ _ _ _ => some h
  | .and h _ _ _ _ => some h
  | .or h _ _ _ _ => some h
  | .xor h _ _ _ _ => some h
  | .andn h _ _ _ _ => some h
  | .shl h _ _ _ _ => some h
  | .shr h _ _ _ _ => some h
  | .sar h _ _ _ _ => some h
  | .rotl h _ _ _ _ => some h
  | .add64 h _ _ _ _ => some h
  | .sub64 h _ _ _ _ => some h
  | .shl64 h _ _ _ _ => some h
  | .shr64 h _ _ _ _ => some h
  | .sar64 h _ _ _ _ => some h
  | .mulw h _ _ _ _ => some h
  | .minu h _ _ _ _ => some h
  | .maxu h _ _ _ _ => some h
  | .addi h _ _ _ => some h
  | .andi h _ _ _ => some h
  | .ori h _ _ _ => some h
  | .xori h _ _ _ => some h
  | .shli h _ _ _ => some h
  | .shri h _ _ _ => some h
  | .sari h _ _ _ => some h
  | .muli h _ _ _ => some h
  | .popc h _ _ => some h
  | .clz h _ _ => some h
  | .ctz h _ _ => some h
  | .brev h _ _ => some h
  | .not h _ _ => some h
  | .neg h _ _ => some h
  | .abs h _ _ => some h
  | .sextb h _ _ => some h
  | .sexth h _ _ => some h
  | .bfe h _ _ _ _ => some h
  | .bfeu h _ _ _ _ => some h
  | .bfi h _ _ _ _ => some h
  | .funl h _ _ _ _ => some h
  | .div h _ _ _ _ => some h
  | .divu h _ _ _ _ => some h
  | .rem h _ _ _ _ => some h
  | .remu h _ _ _ _ => some h
  | .bra h _ => some h
  | .icmp h _ _ _ _ _ => some h
  | .icmpi h _ _ _ _ _ => some h
  | .fcmp h _ _ _ _ _ => some h
  | .dcmp h _ _ _ _ _ => some h
  | .pand h _ _ _ _ _ _ => some h
  | .por h _ _ _ _ _ _ => some h
  | .pxor h _ _ _ _ _ _ => some h
  | .pmov h _ _ _ _ _ _ => some h
  | .fadd h _ _ _ _ => some h
  | .fsub h _ _ _ _ => some h
  | .fmul h _ _ _ _ => some h
  | .ffma h _ _ _ _ => some h
  | .fmin h _ _ _ _ => some h
  | .fmax h _ _ _ _ => some h
  | .fminn h _ _ _ _ => some h
  | .fmaxn h _ _ _ _ => some h
  | .dadd h _ _ _ _ => some h
  | .dsub h _ _ _ _ => some h
  | .dmul h _ _ _ _ => some h
  | .dfma h _ _ _ _ => some h
  | .dmin h _ _ _ _ => some h
  | .dmax h _ _ _ _ => some h
  | .dminn h _ _ _ _ => some h
  | .dmaxn h _ _ _ _ => some h
  | .call h _ _ => some h
  | .hadd2 h _ _ _ _ => some h
  | .hmul2 h _ _ _ _ => some h
  | .hfma2 h _ _ _ _ => some h
  | .hmin2 h _ _ _ _ => some h
  | .hmax2 h _ _ _ _ => some h
  | .badd2 h _ _ _ _ => some h
  | .bmul2 h _ _ _ _ => some h
  | .bfma2 h _ _ _ _ => some h
  | .frcp h _ _ _ => some h
  | .frsq h _ _ _ => some h
  | .fsqrt h _ _ _ => some h
  | .fex2 h _ _ _ => some h
  | .flg2 h _ _ _ => some h
  | .fsin h _ _ _ => some h
  | .fcos h _ _ _ => some h
  | .ftanh h _ _ _ => some h
  | .drcp h _ _ _ => some h
  | .drsq h _ _ _ => some h
  | .dsqrt h _ _ _ => some h
  | .cvt h _ _ _ _ => some h
  | .pke4m3 h _ _ _ _ => some h
  | .pke5m2 h _ _ _ _ => some h
  | .pke3m2 h _ _ _ _ => some h
  | .pke2m3 h _ _ _ _ => some h
  | .pke2m1 h _ _ _ _ => some h
  | .upk8 h _ _ _ _ => some h
  | .upk6 h _ _ _ _ => some h
  | .upk4 h _ _ _ _ => some h
  | .sel h _ _ _ _ _ => some h
  | .shfl h _ _ _ _ => some h
  | .shflup h _ _ _ _ => some h
  | .shfldn h _ _ _ _ => some h
  | .shflx h _ _ _ _ => some h
  | .ballot h _ _ _ => some h
  | .wredadd h _ _ _ _ => some h
  | .wredmin h _ _ _ _ => some h
  | .wredmax h _ _ _ _ => some h
  | .movi h _ _ => some h
  | .movhi h _ _ => some h
  | .ld h _ _ _ _ _ => some h
  | .st h _ _ _ _ => some h
  | .lds h _ _ _ _ => some h
  | .ldc h _ _ _ _ => some h
  | .sts h _ _ _ => some h
  | .stc h _ _ _ => some h
  | .rowld h _ _ _ => some h
  | .rowst h _ _ => some h
  | .lda h _ _ _ _ => some h
  | .stl h _ _ _ _ => some h
  | .fence h _ _ _ => some h
  | .accadd h _ _ _ => some h
  | .publish h _ _ => some h
  | .reside h _ _ => some h
  | .unreside h _ _ => some h
  | .atom h _ _ _ _ _ => some h
  | .red h _ _ _ _ => some h
  | .mma h _ _ _ _ _ => some h
  | .mma64 h _ _ _ _ _ => some h
  | .scld h _ _ => some h
  | .scldScr h _ _ => some h
  | .mdrain h _ _ => some h
  | .fmtq h _ _ => some h
  | .tcopy h _ => some h
  | .tcast h _ => some h
  | .hgath h _ => some h
  | .hred h _ => some h
  | .hcvt h _ => some h
  | .waitf h _ _ => some h
  | .flagq h _ _ => some h
  | .brr h _ => some h
  | .callr h _ _ => some h
  | .ret h => some h
  | .join h _ => some h
  | .leave h _ => some h
  | .waitm h _ => some h
  | .mkmask h _ => some h
  | .maskrd h _ _ => some h
  | .maskwr h _ _ => some h
  | .spawn h _ _ => some h
  | .fexit h => some h
  | .yield h => some h
  | .barinit h _ _ _ => some h
  | .bararr h _ _ => some h
  | .barwait h _ _ => some h
  | .bararw h _ _ => some h
  | .barq h _ _ => some h
  | .rsrd h _ => some h
  | .rspop h _ => some h
  | .rspush h _ => some h
  | .win h _ => some h
  | .csrr h _ _ => some h
  | .csrw h _ _ => some h
  | .trap h _ => some h
  | .eret h => some h
  | .brk h => some h
  | .hops h _ _ _ => some h
  | .genq h _ _ => some h
  | .partr h _ _ => some h
  | .partw h _ _ => some h
  | .nop _ => none
  | .divideComplete _ => none
  | .fenceComplete _ => none
  | .resideComplete _ => none
  | .unresideComplete _ => none
  | .scldComplete _ => none
  | .mmaBufferWrite _ => none
  | .drainSend _ => none
  | .drainAck _ => none
  | .engineRecordValidate _ => none
  | .engineRecordComplete _ => none
  | .engineRecordFail _ _ => none
  | .yieldTimeout _ _ _ => none
  | .partwComplete _ => none
  | .instructionFetch _ _ => none
  | .longLatencyResult _ _ _ => none
  | .storeAck _ => none
  | .wcbDrainTimeout _ _ => none
  | .l1LineExpire _ _ => none
  | .granuleSweep _ => none
  | .generationRenewal _ => none
  | .signaturePublish _ => none
  | .warpStarving _ => none
  | .spinDemote _ => none
  | .homeRead _ => none
  | .homeWrite _ => none
  | .homeRmw _ => none
  | .homeAccumulate _ => none
  | .homeTileUpdate _ => none
  | .homeRowOperation _ => none
  | .hbmReadReturn _ _ => none
  | .hbmRefresh _ _ => none
  | .dataBankFailure _ _ => none
  | .bankRebuildStep _ => none
  | .pageWalk _ _ _ => none
  | .reserveInvalidate _ _ => none
  | .invalidateConfirm _ _ => none
  | .faultRecordWrite _ => none
  | .faultDelivery _ => none
  | .fackWrite _ _ => none
  | .queueEnable _ _ _ => none
  | .queueDisable _ _ _ => none
  | .tailWrite _ _ _ => none
  | .launchValidate _ _ => none
  | .dependenceTest _ _ => none
  | .arbitrate _ => none
  | .panelDispatch => none
  | .teamRetire _ => none
  | .abortLaunch _ _ _ => none
  | .preemptRequest _ _ => none
  | .teamSave _ => none
  | .teamFlush _ => none
  | .drainTimeout _ => none
  | .saveHandlerTimeout _ => none
  | .restoreRequest _ _ => none
  | .debugHalt _ _ => none
  | .debugRawRead _ _ => none
  | .debugViewRead _ _ => none
  | .debugWrite _ _ _ _ => none
  | .aliasClear _ => none
  | .biasFlipToHost _ _ => none
  | .biasFlipToDevice _ _ => none
  | .memrdShared _ => none
  | .memrdExclusive _ => none
  | .memwr _ _ => none
  | .birsp _ _ => none
  | .hostSnoop _ => none
  | .peerRequest _ _ => none
  | .linkRetry _ => none
  | .dieLinkFailure _ _ => none
  | .peerUnreachable _ => none
  | .functionLevelReset _ => none
  | .vdtWrite _ _ => none
  | .vdtApply _ => none
  | .grantSet _ _ => none
  | .keySlotWrite _ _ _ => none
  | .deviceReset _ => none
  | .firmwareUpdateStage _ => none
  | .thermalThrottle => none
  | .clockRestore => none
  | .thermalShutdown => none
  | .registerWrite _ _ _ _ => none
  | .partrComplete _ => none
  | .returnStackAccessComplete _ => none
  | .cxlCacheResponse _ _ _ => none

end Sys2Proof
end

