-- ==== Sys2Proof/Decode.lean ====
section
/-! DEFINITION. The decoder, total on any word and on any bytes (spec/03 R34 to R37, spec/04 R56 to R69), and after it the
encoder, written from the same tables. A word fails with illegal-encoding or reserved-field in the order of R56; an unassigned
value wins over a nonzero zero field. -/

namespace Sys2Proof

/-- Bits lo + n - 1 : lo of a word (R2). -/
def fld (w lo n : Nat) : Nat := w / 2 ^ lo % 2 ^ n
/-- The n-bit field at lo. -/
def bitsAt (n w lo : Nat) : BitVec n := BitVec.ofNat n (w / 2 ^ lo)
/-- The register number at lo. -/
def regAt (w lo : Nat) : Reg := bitsAt 6 w lo
/-- The predicate number at lo. -/
def predAt (w lo : Nat) : PredIx := bitsAt 3 w lo
/-- Bit lo. -/
def bitAt (w lo : Nat) : Bool := w / 2 ^ lo % 2 == 1

/-- The code of a ICond (R59). -/
def ICond.code : ICond → Nat
  | .eq => 0
  | .ne => 1
  | .lt => 2
  | .le => 3
  | .gt => 4
  | .ge => 5
  | .ltu => 6
  | .leu => 7
  | .gtu => 8
  | .geu => 9
  | .lt64 => 10
  | .le64 => 11
  | .gt64 => 12
  | .ge64 => 13
  | .eq64 => 14
  | .ne64 => 15
/-- The ICond of a code; none where R59 assigns none. -/
def ICond.ofCode : Nat → Option ICond
  | 0 => some .eq
  | 1 => some .ne
  | 2 => some .lt
  | 3 => some .le
  | 4 => some .gt
  | 5 => some .ge
  | 6 => some .ltu
  | 7 => some .leu
  | 8 => some .gtu
  | 9 => some .geu
  | 10 => some .lt64
  | 11 => some .le64
  | 12 => some .gt64
  | 13 => some .ge64
  | 14 => some .eq64
  | 15 => some .ne64
  | _ => none

/-- The code of a FCond (R59). -/
def FCond.code : FCond → Nat
  | .eq => 0
  | .ne => 1
  | .lt => 2
  | .le => 3
  | .gt => 4
  | .ge => 5
  | .ord => 6
  | .uno => 7
  | .ueq => 8
  | .une => 9
  | .ult => 10
  | .ule => 11
  | .ugt => 12
  | .uge => 13
/-- The FCond of a code; none where R59 assigns none. -/
def FCond.ofCode : Nat → Option FCond
  | 0 => some .eq
  | 1 => some .ne
  | 2 => some .lt
  | 3 => some .le
  | 4 => some .gt
  | 5 => some .ge
  | 6 => some .ord
  | 7 => some .uno
  | 8 => some .ueq
  | 9 => some .une
  | 10 => some .ult
  | 11 => some .ule
  | 12 => some .ugt
  | 13 => some .uge
  | _ => none

/-- The code of a NumType (R60). -/
def NumType.code : NumType → Nat
  | .s32 => 0
  | .u32 => 1
  | .s64 => 2
  | .u64 => 3
  | .f16 => 4
  | .bf16 => 5
  | .f32 => 6
  | .f64 => 7
/-- The NumType of a code; none where R60 assigns none. -/
def NumType.ofCode : Nat → Option NumType
  | 0 => some .s32
  | 1 => some .u32
  | 2 => some .s64
  | 3 => some .u64
  | 4 => some .f16
  | 5 => some .bf16
  | 6 => some .f32
  | 7 => some .f64
  | _ => none

/-- The code of a Size (R37). -/
def Size.code : Size → Nat
  | .u8 => 0
  | .s8 => 1
  | .u16 => 2
  | .s16 => 3
  | .b32 => 4
  | .b64 => 5
  | .b128 => 6
/-- The Size of a code; none where R37 assigns none. -/
def Size.ofCode : Nat → Option Size
  | 0 => some .u8
  | 1 => some .s8
  | 2 => some .u16
  | 3 => some .s16
  | 4 => some .b32
  | 5 => some .b64
  | 6 => some .b128
  | _ => none

/-- The code of a Hint (R61). -/
def Hint.code : Hint → Nat
  | .normal => 0
  | .ef => 1
  | .el => 2
  | .nl => 3
  | .ns => 4
/-- The Hint of a code; none where R61 assigns none. -/
def Hint.ofCode : Nat → Option Hint
  | 0 => some .normal
  | 1 => some .ef
  | 2 => some .el
  | 3 => some .nl
  | 4 => some .ns
  | _ => none

/-- The code of a Scope (R257). -/
def Scope.code : Scope → Nat
  | .fibre => 0
  | .warp => 1
  | .team => 2
  | .core => 3
  | .cluster => 4
  | .die => 5
  | .package => 6
  | .pod => 7
  | .host => 8
  | .peerio => 9
  | .system => 10
/-- The Scope of a code; none where R257 assigns none. -/
def Scope.ofCode : Nat → Option Scope
  | 0 => some .fibre
  | 1 => some .warp
  | 2 => some .team
  | 3 => some .core
  | 4 => some .cluster
  | 5 => some .die
  | 6 => some .package
  | 7 => some .pod
  | 8 => some .host
  | 9 => some .peerio
  | 10 => some .system
  | _ => none

/-- The code of a FenceKind (R65). -/
def FenceKind.code : FenceKind → Nat
  | .acqrel => 0
  | .acquire => 1
  | .release => 2
/-- The FenceKind of a code; none where R65 assigns none. -/
def FenceKind.ofCode : Nat → Option FenceKind
  | 0 => some .acqrel
  | 1 => some .acquire
  | 2 => some .release
  | _ => none

/-- The code of a AccKind (R65). -/
def AccKind.code : AccKind → Nat
  | .acc32 => 0
  | .acc64 => 1
  | .accx => 2
/-- The AccKind of a code; none where R65 assigns none. -/
def AccKind.ofCode : Nat → Option AccKind
  | 0 => some .acc32
  | 1 => some .acc64
  | 2 => some .accx
  | _ => none

/-- The code of a AtomOp (R62). -/
def AtomOp.code : AtomOp → Nat
  | .add => 0
  | .and => 1
  | .or => 2
  | .xor => 3
  | .min => 4
  | .max => 5
  | .minu => 6
  | .maxu => 7
  | .exch => 8
  | .cas => 9
  | .incw => 10
  | .decw => 11
  | .fadd => 12
  | .fmin => 13
  | .fmax => 14
/-- The AtomOp of a code; none where R62 assigns none. -/
def AtomOp.ofCode : Nat → Option AtomOp
  | 0 => some .add
  | 1 => some .and
  | 2 => some .or
  | 3 => some .xor
  | 4 => some .min
  | 5 => some .max
  | 6 => some .minu
  | 7 => some .maxu
  | 8 => some .exch
  | 9 => some .cas
  | 10 => some .incw
  | 11 => some .decw
  | 12 => some .fadd
  | 13 => some .fmin
  | 14 => some .fmax
  | _ => none

/-- The code of a RedType (R181). -/
def RedType.code : RedType → Nat
  | .signed => 0
  | .unsigned => 1
  | .f32 => 2
/-- The RedType of a code; none where R181 assigns none. -/
def RedType.ofCode : Nat → Option RedType
  | 0 => some .signed
  | 1 => some .unsigned
  | 2 => some .f32
  | _ => none

/-- The code of a MmaFn (R66). -/
def MmaFn.code : MmaFn → Nat
  | .start => 0
  | .chain => 1
  | .chainDrain => 2
  | .startDrain => 3
/-- The MmaFn of a code; none where R66 assigns none. -/
def MmaFn.ofCode : Nat → Option MmaFn
  | 0 => some .start
  | 1 => some .chain
  | 2 => some .chainDrain
  | 3 => some .startDrain
  | _ => none

/-- The header of a word (R34). -/
def Hdr.ofWord (w : Nat) : Hdr := ⟨bitAt w 31, bitAt w 30, predAt w 27⟩
/-- C, N and P as the number that stands at bit 27. -/
def Hdr.bits (h : Hdr) : Nat := h.c.toNat * 16 + h.n.toNat * 8 + h.p.toNat

/-- The words of major opcode 0 (R58 to R69): the instruction and the sum of its zero fields, none for a function the opcode map leaves unassigned. -/
def parseMaj0 (h : Hdr) (w : Nat) : Option (Instr × Nat) :=
  match fld w 1 3 with
  | 0 => some (.add h (regAt w 16) (regAt w 10) (regAt w 4) (bitAt w 0), 0)
  | 1 => some (.sub h (regAt w 16) (regAt w 10) (regAt w 4) (bitAt w 0), 0)
  | 2 => some (.mullo h (regAt w 16) (regAt w 10) (regAt w 4) (bitAt w 0), 0)
  | 3 => some (.mulhi h (regAt w 16) (regAt w 10) (regAt w 4) (bitAt w 0), 0)
  | 4 => some (.mulhu h (regAt w 16) (regAt w 10) (regAt w 4) (bitAt w 0), 0)
  | 5 => some (.min h (regAt w 16) (regAt w 10) (regAt w 4) (bitAt w 0), 0)
  | 6 => some (.max h (regAt w 16) (regAt w 10) (regAt w 4) (bitAt w 0), 0)
  | 7 => some (.permb h (regAt w 16) (regAt w 10) (regAt w 4) (bitAt w 0), 0)
  | _ => none
/-- The words of major opcode 1 (R58 to R69): the instruction and the sum of its zero fields, none for a function the opcode map leaves unassigned. -/
def parseMaj1 (h : Hdr) (w : Nat) : Option (Instr × Nat) :=
  match fld w 1 3 with
  | 0 => some (.and h (regAt w 16) (regAt w 10) (regAt w 4) (bitAt w 0), 0)
  | 1 => some (.or h (regAt w 16) (regAt w 10) (regAt w 4) (bitAt w 0), 0)
  | 2 => some (.xor h (regAt w 16) (regAt w 10) (regAt w 4) (bitAt w 0), 0)
  | 3 => some (.andn h (regAt w 16) (regAt w 10) (regAt w 4) (bitAt w 0), 0)
  | 4 => some (.shl h (regAt w 16) (regAt w 10) (regAt w 4) (bitAt w 0), 0)
  | 5 => some (.shr h (regAt w 16) (regAt w 10) (regAt w 4) (bitAt w 0), 0)
  | 6 => some (.sar h (regAt w 16) (regAt w 10) (regAt w 4) (bitAt w 0), 0)
  | 7 => some (.rotl h (regAt w 16) (regAt w 10) (regAt w 4) (bitAt w 0), 0)
  | _ => none
/-- The words of major opcode 2 (R58 to R69): the instruction and the sum of its zero fields, none for a function the opcode map leaves unassigned. -/
def parseMaj2 (h : Hdr) (w : Nat) : Option (Instr × Nat) :=
  match fld w 1 3 with
  | 0 => some (.add64 h (regAt w 16) (regAt w 10) (regAt w 4) (bitAt w 0), 0)
  | 1 => some (.sub64 h (regAt w 16) (regAt w 10) (regAt w 4) (bitAt w 0), 0)
  | 2 => some (.shl64 h (regAt w 16) (regAt w 10) (regAt w 4) (bitAt w 0), 0)
  | 3 => some (.shr64 h (regAt w 16) (regAt w 10) (regAt w 4) (bitAt w 0), 0)
  | 4 => some (.sar64 h (regAt w 16) (regAt w 10) (regAt w 4) (bitAt w 0), 0)
  | 5 => some (.mulw h (regAt w 16) (regAt w 10) (regAt w 4) (bitAt w 0), 0)
  | 6 => some (.minu h (regAt w 16) (regAt w 10) (regAt w 4) (bitAt w 0), 0)
  | 7 => some (.maxu h (regAt w 16) (regAt w 10) (regAt w 4) (bitAt w 0), 0)
  | _ => none
/-- The words of major opcode 3 (R58 to R69): the instruction and the sum of its zero fields, none for a function the opcode map leaves unassigned. -/
def parseMaj3 (h : Hdr) (w : Nat) : Option (Instr × Nat) :=
  match fld w 0 3 with
  | 0 => some (.addi h (regAt w 16) (regAt w 10) (bitsAt 7 w 3), 0)
  | 1 => some (.andi h (regAt w 16) (regAt w 10) (bitsAt 7 w 3), 0)
  | 2 => some (.ori h (regAt w 16) (regAt w 10) (bitsAt 7 w 3), 0)
  | 3 => some (.xori h (regAt w 16) (regAt w 10) (bitsAt 7 w 3), 0)
  | 4 => some (.shli h (regAt w 16) (regAt w 10) (bitsAt 7 w 3), 0)
  | 5 => some (.shri h (regAt w 16) (regAt w 10) (bitsAt 7 w 3), 0)
  | 6 => some (.sari h (regAt w 16) (regAt w 10) (bitsAt 7 w 3), 0)
  | 7 => some (.muli h (regAt w 16) (regAt w 10) (bitsAt 7 w 3), 0)
  | _ => none
/-- The words of major opcode 4 (R58 to R69): the instruction and the sum of its zero fields, none for a function the opcode map leaves unassigned. -/
def parseMaj4 (h : Hdr) (w : Nat) : Option (Instr × Nat) :=
  match fld w 4 6 with
  | 0 => some (.popc h (regAt w 16) (regAt w 10), fld w 0 4)
  | 1 => some (.clz h (regAt w 16) (regAt w 10), fld w 0 4)
  | 2 => some (.ctz h (regAt w 16) (regAt w 10), fld w 0 4)
  | 3 => some (.brev h (regAt w 16) (regAt w 10), fld w 0 4)
  | 4 => some (.not h (regAt w 16) (regAt w 10), fld w 0 4)
  | 5 => some (.neg h (regAt w 16) (regAt w 10), fld w 0 4)
  | 6 => some (.abs h (regAt w 16) (regAt w 10), fld w 0 4)
  | 7 => some (.sextb h (regAt w 16) (regAt w 10), fld w 0 4)
  | 8 => some (.sexth h (regAt w 16) (regAt w 10), fld w 0 4)
  | _ => none
/-- The words of major opcode 5 (R58 to R69): the instruction and the sum of its zero fields, none for a function the opcode map leaves unassigned. -/
def parseMaj5 (h : Hdr) (w : Nat) : Option (Instr × Nat) :=
  match fld w 1 3 with
  | 0 => some (.bfe h (regAt w 16) (regAt w 10) (regAt w 4) (bitAt w 0), 0)
  | 1 => some (.bfeu h (regAt w 16) (regAt w 10) (regAt w 4) (bitAt w 0), 0)
  | 2 => some (.bfi h (regAt w 16) (regAt w 10) (regAt w 4) (bitAt w 0), 0)
  | 3 => some (.funl h (regAt w 16) (regAt w 10) (regAt w 4) (bitAt w 0), 0)
  | 4 => some (.div h (regAt w 16) (regAt w 10) (regAt w 4) (bitAt w 0), 0)
  | 5 => some (.divu h (regAt w 16) (regAt w 10) (regAt w 4) (bitAt w 0), 0)
  | 6 => some (.rem h (regAt w 16) (regAt w 10) (regAt w 4) (bitAt w 0), 0)
  | 7 => some (.remu h (regAt w 16) (regAt w 10) (regAt w 4) (bitAt w 0), 0)
  | _ => none
/-- The words of major opcode 6 (R58 to R69): the instruction and the sum of its zero fields, none for a function the opcode map leaves unassigned. -/
def parseMaj6 (h : Hdr) (w : Nat) : Option (Instr × Nat) :=
  some (.bra h (bitsAt 22 w 0), 0)
/-- The words of major opcode 7 (R58 to R69): the instruction and the sum of its zero fields, none for a function the opcode map leaves unassigned. -/
def parseMaj7 (h : Hdr) (w : Nat) : Option (Instr × Nat) :=
  (ICond.ofCode (fld w 0 4)).bind fun k => some (.icmp h (predAt w 19) (predAt w 16) (regAt w 10) (regAt w 4) k, 0)
/-- The words of major opcode 8 (R58 to R69): the instruction and the sum of its zero fields, none for a function the opcode map leaves unassigned. -/
def parseMaj8 (h : Hdr) (w : Nat) : Option (Instr × Nat) :=
  (ICond.ofCode (fld w 0 4)).bind fun k => some (.icmpi h (predAt w 19) (predAt w 16) (regAt w 10) (regAt w 4) k, 0)
/-- The words of major opcode 9 (R58 to R69): the instruction and the sum of its zero fields, none for a function the opcode map leaves unassigned. -/
def parseMaj9 (h : Hdr) (w : Nat) : Option (Instr × Nat) :=
  (FCond.ofCode (fld w 0 4)).bind fun k => some (.fcmp h (predAt w 19) (predAt w 16) (regAt w 10) (regAt w 4) k, 0)
/-- The words of major opcode 10 (R58 to R69): the instruction and the sum of its zero fields, none for a function the opcode map leaves unassigned. -/
def parseMaj10 (h : Hdr) (w : Nat) : Option (Instr × Nat) :=
  (FCond.ofCode (fld w 0 4)).bind fun k => some (.dcmp h (predAt w 19) (predAt w 16) (regAt w 10) (regAt w 4) k, 0)
/-- The words of major opcode 11 (R58 to R69): the instruction and the sum of its zero fields, none for a function the opcode map leaves unassigned. -/
def parseMaj11 (h : Hdr) (w : Nat) : Option (Instr × Nat) :=
  match fld w 5 3 with
  | 0 => some (.pand h (predAt w 19) (predAt w 16) (predAt w 13) (predAt w 10) (bitAt w 9) (bitAt w 8), fld w 0 5)
  | 1 => some (.por h (predAt w 19) (predAt w 16) (predAt w 13) (predAt w 10) (bitAt w 9) (bitAt w 8), fld w 0 5)
  | 2 => some (.pxor h (predAt w 19) (predAt w 16) (predAt w 13) (predAt w 10) (bitAt w 9) (bitAt w 8), fld w 0 5)
  | 3 => some (.pmov h (predAt w 19) (predAt w 16) (predAt w 13) (predAt w 10) (bitAt w 9) (bitAt w 8), fld w 0 5)
  | _ => none
/-- The words of major opcode 12 (R58 to R69): the instruction and the sum of its zero fields, none for a function the opcode map leaves unassigned. -/
def parseMaj12 (h : Hdr) (w : Nat) : Option (Instr × Nat) :=
  match fld w 1 3 with
  | 0 => some (.fadd h (regAt w 16) (regAt w 10) (regAt w 4) (bitAt w 0), 0)
  | 1 => some (.fsub h (regAt w 16) (regAt w 10) (regAt w 4) (bitAt w 0), 0)
  | 2 => some (.fmul h (regAt w 16) (regAt w 10) (regAt w 4) (bitAt w 0), 0)
  | 3 => some (.ffma h (regAt w 16) (regAt w 10) (regAt w 4) (bitAt w 0), 0)
  | 4 => some (.fmin h (regAt w 16) (regAt w 10) (regAt w 4) (bitAt w 0), 0)
  | 5 => some (.fmax h (regAt w 16) (regAt w 10) (regAt w 4) (bitAt w 0), 0)
  | 6 => some (.fminn h (regAt w 16) (regAt w 10) (regAt w 4) (bitAt w 0), 0)
  | 7 => some (.fmaxn h (regAt w 16) (regAt w 10) (regAt w 4) (bitAt w 0), 0)
  | _ => none
/-- The words of major opcode 13 (R58 to R69): the instruction and the sum of its zero fields, none for a function the opcode map leaves unassigned. -/
def parseMaj13 (h : Hdr) (w : Nat) : Option (Instr × Nat) :=
  match fld w 1 3 with
  | 0 => some (.dadd h (regAt w 16) (regAt w 10) (regAt w 4) (bitAt w 0), 0)
  | 1 => some (.dsub h (regAt w 16) (regAt w 10) (regAt w 4) (bitAt w 0), 0)
  | 2 => some (.dmul h (regAt w 16) (regAt w 10) (regAt w 4) (bitAt w 0), 0)
  | 3 => some (.dfma h (regAt w 16) (regAt w 10) (regAt w 4) (bitAt w 0), 0)
  | 4 => some (.dmin h (regAt w 16) (regAt w 10) (regAt w 4) (bitAt w 0), 0)
  | 5 => some (.dmax h (regAt w 16) (regAt w 10) (regAt w 4) (bitAt w 0), 0)
  | 6 => some (.dminn h (regAt w 16) (regAt w 10) (regAt w 4) (bitAt w 0), 0)
  | 7 => some (.dmaxn h (regAt w 16) (regAt w 10) (regAt w 4) (bitAt w 0), 0)
  | _ => none
/-- The words of major opcode 14 (R58 to R69): the instruction and the sum of its zero fields, none for a function the opcode map leaves unassigned. -/
def parseMaj14 (h : Hdr) (w : Nat) : Option (Instr × Nat) :=
  some (.call h (bitsAt 16 w 6) (regAt w 0), 0)
/-- The words of major opcode 15 (R58 to R69): the instruction and the sum of its zero fields, none for a function the opcode map leaves unassigned. -/
def parseMaj15 (h : Hdr) (w : Nat) : Option (Instr × Nat) :=
  match fld w 1 3 with
  | 0 => some (.hadd2 h (regAt w 16) (regAt w 10) (regAt w 4) (bitAt w 0), 0)
  | 1 => some (.hmul2 h (regAt w 16) (regAt w 10) (regAt w 4) (bitAt w 0), 0)
  | 2 => some (.hfma2 h (regAt w 16) (regAt w 10) (regAt w 4) (bitAt w 0), 0)
  | 3 => some (.hmin2 h (regAt w 16) (regAt w 10) (regAt w 4) (bitAt w 0), 0)
  | 4 => some (.hmax2 h (regAt w 16) (regAt w 10) (regAt w 4) (bitAt w 0), 0)
  | 5 => some (.badd2 h (regAt w 16) (regAt w 10) (regAt w 4) (bitAt w 0), 0)
  | 6 => some (.bmul2 h (regAt w 16) (regAt w 10) (regAt w 4) (bitAt w 0), 0)
  | 7 => some (.bfma2 h (regAt w 16) (regAt w 10) (regAt w 4) (bitAt w 0), 0)
  | _ => none
/-- The words of major opcode 16 (R58 to R69): the instruction and the sum of its zero fields, none for a function the opcode map leaves unassigned. -/
def parseMaj16 (h : Hdr) (w : Nat) : Option (Instr × Nat) :=
  match fld w 4 6 with
  | 0 => some (.frcp h (regAt w 16) (regAt w 10) (bitsAt 4 w 0), 0)
  | 1 => some (.frsq h (regAt w 16) (regAt w 10) (bitsAt 4 w 0), 0)
  | 2 => some (.fsqrt h (regAt w 16) (regAt w 10) (bitsAt 4 w 0), 0)
  | 3 => some (.fex2 h (regAt w 16) (regAt w 10) (bitsAt 4 w 0), 0)
  | 4 => some (.flg2 h (regAt w 16) (regAt w 10) (bitsAt 4 w 0), 0)
  | 5 => some (.fsin h (regAt w 16) (regAt w 10) (bitsAt 4 w 0), 0)
  | 6 => some (.fcos h (regAt w 16) (regAt w 10) (bitsAt 4 w 0), 0)
  | 7 => some (.ftanh h (regAt w 16) (regAt w 10) (bitsAt 4 w 0), 0)
  | 8 => some (.drcp h (regAt w 16) (regAt w 10) (bitsAt 4 w 0), 0)
  | 9 => some (.drsq h (regAt w 16) (regAt w 10) (bitsAt 4 w 0), 0)
  | 10 => some (.dsqrt h (regAt w 16) (regAt w 10) (bitsAt 4 w 0), 0)
  | _ => none
/-- The words of major opcode 17 (R58 to R69): the instruction and the sum of its zero fields, none for a function the opcode map leaves unassigned. -/
def parseMaj17 (h : Hdr) (w : Nat) : Option (Instr × Nat) :=
  (NumType.ofCode (fld w 7 3)).bind fun dst => (NumType.ofCode (fld w 4 3)).bind fun src => some (.cvt h (regAt w 16) (regAt w 10) dst src, fld w 0 4)
/-- The words of major opcode 18 (R58 to R69): the instruction and the sum of its zero fields, none for a function the opcode map leaves unassigned. -/
def parseMaj18 (h : Hdr) (w : Nat) : Option (Instr × Nat) :=
  match fld w 1 3 with
  | 0 => some (.pke4m3 h (regAt w 16) (regAt w 10) (regAt w 4) (bitAt w 0), 0)
  | 1 => some (.pke5m2 h (regAt w 16) (regAt w 10) (regAt w 4) (bitAt w 0), 0)
  | 2 => some (.pke3m2 h (regAt w 16) (regAt w 10) (regAt w 4) (bitAt w 0), 0)
  | 3 => some (.pke2m3 h (regAt w 16) (regAt w 10) (regAt w 4) (bitAt w 0), 0)
  | 4 => some (.pke2m1 h (regAt w 16) (regAt w 10) (regAt w 4) (bitAt w 0), 0)
  | 5 => some (.upk8 h (regAt w 16) (regAt w 10) (regAt w 4) (bitAt w 0), 0)
  | 6 => some (.upk6 h (regAt w 16) (regAt w 10) (regAt w 4) (bitAt w 0), 0)
  | 7 => some (.upk4 h (regAt w 16) (regAt w 10) (regAt w 4) (bitAt w 0), 0)
  | _ => none
/-- The words of major opcode 19 (R58 to R69): the instruction and the sum of its zero fields, none for a function the opcode map leaves unassigned. -/
def parseMaj19 (h : Hdr) (w : Nat) : Option (Instr × Nat) :=
  some (.sel h (regAt w 16) (regAt w 10) (regAt w 4) (predAt w 1) (bitAt w 0), 0)
/-- The words of major opcode 20 (R58 to R69): the instruction and the sum of its zero fields, none for a function the opcode map leaves unassigned. -/
def parseMaj20 (h : Hdr) (w : Nat) : Option (Instr × Nat) :=
  match fld w 1 3 with
  | 0 => some (.shfl h (regAt w 16) (regAt w 10) (regAt w 4) (bitAt w 0), 0)
  | 1 => some (.shflup h (regAt w 16) (regAt w 10) (regAt w 4) (bitAt w 0), 0)
  | 2 => some (.shfldn h (regAt w 16) (regAt w 10) (regAt w 4) (bitAt w 0), 0)
  | 3 => some (.shflx h (regAt w 16) (regAt w 10) (regAt w 4) (bitAt w 0), 0)
  | 4 => some (.ballot h (regAt w 16) (predAt w 10) (bitAt w 13), fld w 14 2 + fld w 4 6 + fld w 0 1)
  | 5 => (RedType.ofCode (fld w 4 6)).bind fun ty => some (.wredadd h (regAt w 16) (regAt w 10) ty (bitAt w 0), 0)
  | 6 => (RedType.ofCode (fld w 4 6)).bind fun ty => some (.wredmin h (regAt w 16) (regAt w 10) ty (bitAt w 0), 0)
  | 7 => (RedType.ofCode (fld w 4 6)).bind fun ty => some (.wredmax h (regAt w 16) (regAt w 10) ty (bitAt w 0), 0)
  | _ => none
/-- The words of major opcode 21 (R58 to R69): the instruction and the sum of its zero fields, none for a function the opcode map leaves unassigned. -/
def parseMaj21 (h : Hdr) (w : Nat) : Option (Instr × Nat) :=
  some (.movi h (regAt w 16) (bitsAt 16 w 0), 0)
/-- The words of major opcode 22 (R58 to R69): the instruction and the sum of its zero fields, none for a function the opcode map leaves unassigned. -/
def parseMaj22 (h : Hdr) (w : Nat) : Option (Instr × Nat) :=
  some (.movhi h (regAt w 16) (bitsAt 16 w 0), 0)
/-- The words of major opcode 23 (R58 to R69): the instruction and the sum of its zero fields, none for a function the opcode map leaves unassigned. -/
def parseMaj23 (h : Hdr) (w : Nat) : Option (Instr × Nat) :=
  (Size.ofCode (fld w 7 3)).bind fun sz => (Hint.ofCode (fld w 4 3)).bind fun ch => some (.ld h (regAt w 16) (regAt w 10) sz ch (bitsAt 4 w 0), 0)
/-- The words of major opcode 24 (R58 to R69): the instruction and the sum of its zero fields, none for a function the opcode map leaves unassigned. -/
def parseMaj24 (h : Hdr) (w : Nat) : Option (Instr × Nat) :=
  (Size.ofCode (fld w 7 3)).bind fun sz => (Hint.ofCode (fld w 4 3)).bind fun ch => some (.st h (regAt w 16) (regAt w 10) sz ch, fld w 0 4)
/-- The words of major opcode 25 (R58 to R69): the instruction and the sum of its zero fields, none for a function the opcode map leaves unassigned. -/
def parseMaj25 (h : Hdr) (w : Nat) : Option (Instr × Nat) :=
  match fld w 19 3 with
  | 0 => (Size.ofCode (fld w 4 3)).bind fun sz => some (.lds h (regAt w 13) (regAt w 7) sz (bitsAt 4 w 0), 0)
  | 2 => (Size.ofCode (fld w 4 3)).bind fun sz => some (.ldc h (regAt w 13) (regAt w 7) sz (bitsAt 4 w 0), 0)
  | 1 => (Size.ofCode (fld w 4 3)).bind fun sz => some (.sts h (regAt w 13) (regAt w 7) sz, fld w 0 4)
  | 3 => (Size.ofCode (fld w 4 3)).bind fun sz => some (.stc h (regAt w 13) (regAt w 7) sz, fld w 0 4)
  | 4 => some (.rowld h (regAt w 13) (regAt w 7) (bitsAt 4 w 0), fld w 4 3)
  | 5 => some (.rowst h (regAt w 13) (regAt w 7), fld w 4 3 + fld w 0 4)
  | _ => none
/-- The words of major opcode 26 (R58 to R69): the instruction and the sum of its zero fields, none for a function the opcode map leaves unassigned. -/
def parseMaj26 (h : Hdr) (w : Nat) : Option (Instr × Nat) :=
  match fld w 19 3 with
  | 0 => (Size.ofCode (fld w 4 3)).bind fun sz => (Scope.ofCode (fld w 0 4)).bind fun sc => some (.lda h (regAt w 13) (regAt w 7) sz sc, 0)
  | 1 => (Size.ofCode (fld w 4 3)).bind fun sz => (Scope.ofCode (fld w 0 4)).bind fun sc => some (.stl h (regAt w 13) (regAt w 7) sz sc, 0)
  | 2 => (FenceKind.ofCode (fld w 4 2)).bind fun k => (Scope.ofCode (fld w 0 4)).bind fun sc => some (.fence h (bitAt w 6) k sc, fld w 7 12)
  | 3 => (AccKind.ofCode (fld w 5 2)).bind fun kd => some (.accadd h (regAt w 13) (regAt w 7) kd, fld w 0 5)
  | 4 => (Scope.ofCode (fld w 0 4)).bind fun sc => some (.publish h (regAt w 13) sc, fld w 4 9)
  | 5 => some (.reside h (regAt w 13) (regAt w 7), fld w 0 7)
  | 6 => some (.unreside h (regAt w 13) (regAt w 7), fld w 0 7)
  | _ => none
/-- The words of major opcode 27 (R58 to R69): the instruction and the sum of its zero fields, none for a function the opcode map leaves unassigned. -/
def parseMaj27 (h : Hdr) (w : Nat) : Option (Instr × Nat) :=
  match fld w 4 1 with
  | 0 => (AtomOp.ofCode (fld w 6 4)).bind fun op => some (.atom h (regAt w 16) (regAt w 10) op (bitAt w 5) (bitsAt 4 w 0), 0)
  | 1 => (AtomOp.ofCode (fld w 6 4)).bind fun op => some (.red h (regAt w 16) (regAt w 10) op (bitAt w 5), fld w 0 4)
  | _ => none
/-- The words of major opcode 28 (R58 to R69): the instruction and the sum of its zero fields, none for a function the opcode map leaves unassigned. -/
def parseMaj28 (h : Hdr) (w : Nat) : Option (Instr × Nat) :=
  match fld w 19 3 with
  | 0 => (MmaFn.ofCode (fld w 3 2)).bind fun fn => some (.mma h (predAt w 16) (predAt w 13) (regAt w 7) (bitsAt 2 w 5) fn, fld w 0 3)
  | 1 => (MmaFn.ofCode (fld w 3 2)).bind fun fn => some (.mma64 h (predAt w 16) (predAt w 13) (regAt w 7) (bitsAt 2 w 5) fn, fld w 0 3)
  | 2 =>
    match fld w 12 1 with
    | 0 => some (.scld h (regAt w 13) (regAt w 6), fld w 0 6)
    | 1 => some (.scldScr h (regAt w 13) (regAt w 6), fld w 0 6)
    | _ => none
  | 3 => some (.mdrain h (bitsAt 2 w 17) (regAt w 11), fld w 0 11)
  | 4 => some (.fmtq h (regAt w 13) (regAt w 7), fld w 0 7)
  | _ => none
/-- The words of major opcode 29 (R58 to R69): the instruction and the sum of its zero fields, none for a function the opcode map leaves unassigned. -/
def parseMaj29 (h : Hdr) (w : Nat) : Option (Instr × Nat) :=
  match fld w 19 3 with
  | 0 => some (.tcopy h (regAt w 13), fld w 0 13)
  | 1 => some (.tcast h (regAt w 13), fld w 0 13)
  | 2 => some (.hgath h (regAt w 13), fld w 0 13)
  | 3 => some (.hred h (regAt w 13), fld w 0 13)
  | 4 => some (.hcvt h (regAt w 13), fld w 0 13)
  | 5 => some (.waitf h (bitsAt 12 w 7) (bitAt w 6), fld w 0 6)
  | 6 => some (.flagq h (regAt w 13) (bitsAt 4 w 0), fld w 4 9)
  | _ => none
/-- The words of major opcode 30 (R58 to R69): the instruction and the sum of its zero fields, none for a function the opcode map leaves unassigned. -/
def parseMaj30 (h : Hdr) (w : Nat) : Option (Instr × Nat) :=
  match fld w 19 3 with
  | 0 => some (.brr h (regAt w 13), fld w 0 13)
  | 1 => some (.callr h (regAt w 13) (regAt w 0), fld w 6 7)
  | 2 => some (.ret h, fld w 0 19)
  | 3 =>
    match fld w 16 3 with
    | 0 => some (.join h (bitsAt 4 w 12), fld w 6 6 + fld w 0 6)
    | 1 => some (.leave h (bitsAt 4 w 12), fld w 6 6 + fld w 0 6)
    | 2 => some (.waitm h (bitsAt 4 w 12), fld w 6 6 + fld w 0 6)
    | 3 => some (.mkmask h (bitsAt 4 w 12), fld w 6 6 + fld w 0 6)
    | 4 => some (.maskrd h (bitsAt 4 w 12) (regAt w 6), fld w 0 6)
    | 5 => some (.maskwr h (bitsAt 4 w 12) (regAt w 6), fld w 0 6)
    | _ => none
  | 4 => some (.spawn h (regAt w 13) (regAt w 7), fld w 0 7)
  | 5 =>
    match fld w 18 1 with
    | 0 => some (.fexit h, fld w 0 18)
    | 1 => some (.yield h, fld w 0 18)
    | _ => none
  | 6 =>
    match fld w 16 3 with
    | 0 => some (.barinit h (bitsAt 4 w 12) (bitsAt 2 w 10) (regAt w 4), fld w 0 4)
    | 1 => some (.bararr h (bitsAt 4 w 12) (bitsAt 2 w 10), fld w 4 6 + fld w 0 4)
    | 2 => some (.barwait h (bitsAt 4 w 12) (bitsAt 2 w 10), fld w 4 6 + fld w 0 4)
    | 3 => some (.bararw h (bitsAt 4 w 12) (bitsAt 2 w 10), fld w 4 6 + fld w 0 4)
    | 4 => some (.barq h (bitsAt 4 w 12) (regAt w 4), fld w 10 2 + fld w 0 4)
    | _ => none
  | 7 =>
    match fld w 17 2 with
    | 0 => some (.rsrd h (regAt w 11), fld w 0 11)
    | 1 => some (.rspop h (regAt w 11), fld w 0 11)
    | 2 => some (.rspush h (regAt w 11), fld w 0 11)
    | 3 => some (.win h (regAt w 11), fld w 0 11)
    | _ => none
  | _ => none
/-- The words of major opcode 31 (R58 to R69): the instruction and the sum of its zero fields, none for a function the opcode map leaves unassigned. -/
def parseMaj31 (h : Hdr) (w : Nat) : Option (Instr × Nat) :=
  match fld w 19 3 with
  | 0 => some (.csrr h (regAt w 13) (bitsAt 12 w 1), fld w 0 1)
  | 1 => some (.csrw h (regAt w 13) (bitsAt 12 w 1), fld w 0 1)
  | 2 => some (.trap h (bitsAt 8 w 11), fld w 0 11)
  | 3 => some (.eret h, fld w 0 19)
  | 4 => some (.brk h, fld w 0 19)
  | 5 => some (.hops h (regAt w 13) (regAt w 7) (regAt w 1), fld w 0 1)
  | 6 => some (.genq h (regAt w 13) (regAt w 7), fld w 0 7)
  | 7 =>
    match fld w 18 1 with
    | 0 => some (.partr h (regAt w 12) (regAt w 6), fld w 0 6)
    | 1 => some (.partw h (regAt w 12) (regAt w 6), fld w 0 6)
    | _ => none
  | _ => none
/-- A word by its major opcode (R34, R58, R63); majors that R58 and R63 do not name are none. -/
def parseWord (h : Hdr) (w : Nat) : Option (Instr × Nat) :=
  match fld w 22 5 with
  | 0 => parseMaj0 h w
  | 1 => parseMaj1 h w
  | 2 => parseMaj2 h w
  | 3 => parseMaj3 h w
  | 4 => parseMaj4 h w
  | 5 => parseMaj5 h w
  | 6 => parseMaj6 h w
  | 7 => parseMaj7 h w
  | 8 => parseMaj8 h w
  | 9 => parseMaj9 h w
  | 10 => parseMaj10 h w
  | 11 => parseMaj11 h w
  | 12 => parseMaj12 h w
  | 13 => parseMaj13 h w
  | 14 => parseMaj14 h w
  | 15 => parseMaj15 h w
  | 16 => parseMaj16 h w
  | 17 => parseMaj17 h w
  | 18 => parseMaj18 h w
  | 19 => parseMaj19 h w
  | 20 => parseMaj20 h w
  | 21 => parseMaj21 h w
  | 22 => parseMaj22 h w
  | 23 => parseMaj23 h w
  | 24 => parseMaj24 h w
  | 25 => parseMaj25 h w
  | 26 => parseMaj26 h w
  | 27 => parseMaj27 h w
  | 28 => parseMaj28 h w
  | 29 => parseMaj29 h w
  | 30 => parseMaj30 h w
  | 31 => parseMaj31 h w
  | _ => none

/-- The two decode traps (R36): illegal-encoding 0x01 and reserved-field 0x02. -/
inductive DecodeFail where
  | illegal | reserved
  deriving DecidableEq, Repr

/-- The trap code of a decode failure (R350). -/
def DecodeFail.code : DecodeFail → BitVec 8
  | .illegal => 0x01
  | .reserved => 0x02

/-- A word is never when its guard is negated p7 (R35): bits 30:27 are all ones. -/
def isNever (w : Nat) : Bool := fld w 27 4 == 15

/-- Decodes word number idx of its packet (R35, R36, R56). A never word is a NOP whatever else it holds. Any other word fails
as illegal with C = 1 on word 2, with an unassigned value, or with a register or value its form forbids, and as reserved when
only its zero fields are wrong. -/
def decodeWord (idx w : Nat) : Except DecodeFail Instr :=
  if isNever w then .ok (.nop (BitVec.ofNat 28 (fld w 31 1 * 2 ^ 27 + fld w 0 27)))
  else if idx == 2 && bitAt w 31 then .error .illegal
  else match parseWord (Hdr.ofWord w) w with
    | none => .error .illegal
    | some (i, z) =>
      if !i.wf then .error .illegal else if z != 0 then .error .reserved else .ok i

/-- The bytes of a word, lowest address first (R2, R29). -/
def bytesOfWord (w : Nat) : List Byte :=
  [BitVec.ofNat 8 w, BitVec.ofNat 8 (w / 2 ^ 8), BitVec.ofNat 8 (w / 2 ^ 16), BitVec.ofNat 8 (w / 2 ^ 24)]

/-- A little-endian number (R2). -/
def ofBytes : List Byte → Nat
  | [] => 0
  | b :: bs => b.toNat + 256 * ofBytes bs

/-- Decodes the four bytes of word idx of a packet; fewer than four bytes are no word. -/
def decodeBytes (idx : Nat) (bs : List Byte) : Except DecodeFail Instr :=
  if bs.length < 4 then .error .illegal else decodeWord idx (ofBytes (bs.take 4))

/-- What the decoder reads from a word of the table, laid out as the hardware stores it, as word 0 of a packet. -/
def decodeTableWord (nbits w : Nat) : Option Instr :=
  match decodeBytes 0 (bytesOfWord (w % 2 ^ nbits)) with
  | .ok i => some i
  | .error _ => none

/-- The chain bit of a decoded word: a never word's is ignored (R35). -/
def Instr.chains : Instr → Bool
  | .nop _ => false
  | i => match i.hdr? with
    | some h => h.c
    | none => false

/-- The length of the issue group that starts at word idx: it ends at the first word whose C is 0 or that is never, and at
word 2 (R30, R35). -/
def groupLength (ws : List Nat) (idx : Nat) : Nat :=
  match idx with
  | 0 => if joins (ws.getD 0 0) then (if joins (ws.getD 1 0) then 3 else 2) else 1
  | 1 => if joins (ws.getD 1 0) then 2 else 1
  | _ => 1
where
  /-- A word joins the next one when C = 1 and it is not never. -/
  joins (w : Nat) : Bool := !isNever w && bitAt w 31

/-- The 32 bits of an instruction word (R34, R37, R58 to R69); 0 for a row of the table that is no word. -/
def encode : Instr → Nat
  | .add h d a b x => h.bits * 134217728 + 0 + d.toNat * 65536 + a.toNat * 1024 + b.toNat * 16 + x.toNat
  | .sub h d a b x => h.bits * 134217728 + 2 + d.toNat * 65536 + a.toNat * 1024 + b.toNat * 16 + x.toNat
  | .mullo h d a b x => h.bits * 134217728 + 4 + d.toNat * 65536 + a.toNat * 1024 + b.toNat * 16 + x.toNat
  | .mulhi h d a b x => h.bits * 134217728 + 6 + d.toNat * 65536 + a.toNat * 1024 + b.toNat * 16 + x.toNat
  | .mulhu h d a b x => h.bits * 134217728 + 8 + d.toNat * 65536 + a.toNat * 1024 + b.toNat * 16 + x.toNat
  | .min h d a b x => h.bits * 134217728 + 10 + d.toNat * 65536 + a.toNat * 1024 + b.toNat * 16 + x.toNat
  | .max h d a b x => h.bits * 134217728 + 12 + d.toNat * 65536 + a.toNat * 1024 + b.toNat * 16 + x.toNat
  | .permb h d a b x => h.bits * 134217728 + 14 + d.toNat * 65536 + a.toNat * 1024 + b.toNat * 16 + x.toNat
  | .and h d a b x => h.bits * 134217728 + 4194304 + d.toNat * 65536 + a.toNat * 1024 + b.toNat * 16 + x.toNat
  | .or h d a b x => h.bits * 134217728 + 4194306 + d.toNat * 65536 + a.toNat * 1024 + b.toNat * 16 + x.toNat
  | .xor h d a b x => h.bits * 134217728 + 4194308 + d.toNat * 65536 + a.toNat * 1024 + b.toNat * 16 + x.toNat
  | .andn h d a b x => h.bits * 134217728 + 4194310 + d.toNat * 65536 + a.toNat * 1024 + b.toNat * 16 + x.toNat
  | .shl h d a b x => h.bits * 134217728 + 4194312 + d.toNat * 65536 + a.toNat * 1024 + b.toNat * 16 + x.toNat
  | .shr h d a b x => h.bits * 134217728 + 4194314 + d.toNat * 65536 + a.toNat * 1024 + b.toNat * 16 + x.toNat
  | .sar h d a b x => h.bits * 134217728 + 4194316 + d.toNat * 65536 + a.toNat * 1024 + b.toNat * 16 + x.toNat
  | .rotl h d a b x => h.bits * 134217728 + 4194318 + d.toNat * 65536 + a.toNat * 1024 + b.toNat * 16 + x.toNat
  | .add64 h d a b x => h.bits * 134217728 + 8388608 + d.toNat * 65536 + a.toNat * 1024 + b.toNat * 16 + x.toNat
  | .sub64 h d a b x => h.bits * 134217728 + 8388610 + d.toNat * 65536 + a.toNat * 1024 + b.toNat * 16 + x.toNat
  | .shl64 h d a b x => h.bits * 134217728 + 8388612 + d.toNat * 65536 + a.toNat * 1024 + b.toNat * 16 + x.toNat
  | .shr64 h d a b x => h.bits * 134217728 + 8388614 + d.toNat * 65536 + a.toNat * 1024 + b.toNat * 16 + x.toNat
  | .sar64 h d a b x => h.bits * 134217728 + 8388616 + d.toNat * 65536 + a.toNat * 1024 + b.toNat * 16 + x.toNat
  | .mulw h d a b x => h.bits * 134217728 + 8388618 + d.toNat * 65536 + a.toNat * 1024 + b.toNat * 16 + x.toNat
  | .minu h d a b x => h.bits * 134217728 + 8388620 + d.toNat * 65536 + a.toNat * 1024 + b.toNat * 16 + x.toNat
  | .maxu h d a b x => h.bits * 134217728 + 8388622 + d.toNat * 65536 + a.toNat * 1024 + b.toNat * 16 + x.toNat
  | .addi h d a i => h.bits * 134217728 + 12582912 + d.toNat * 65536 + a.toNat * 1024 + i.toNat * 8
  | .andi h d a i => h.bits * 134217728 + 12582913 + d.toNat * 65536 + a.toNat * 1024 + i.toNat * 8
  | .ori h d a i => h.bits * 134217728 + 12582914 + d.toNat * 65536 + a.toNat * 1024 + i.toNat * 8
  | .xori h d a i => h.bits * 134217728 + 12582915 + d.toNat * 65536 + a.toNat * 1024 + i.toNat * 8
  | .shli h d a i => h.bits * 134217728 + 12582916 + d.toNat * 65536 + a.toNat * 1024 + i.toNat * 8
  | .shri h d a i => h.bits * 134217728 + 12582917 + d.toNat * 65536 + a.toNat * 1024 + i.toNat * 8
  | .sari h d a i => h.bits * 134217728 + 12582918 + d.toNat * 65536 + a.toNat * 1024 + i.toNat * 8
  | .muli h d a i => h.bits * 134217728 + 12582919 + d.toNat * 65536 + a.toNat * 1024 + i.toNat * 8
  | .popc h d a => h.bits * 134217728 + 16777216 + d.toNat * 65536 + a.toNat * 1024
  | .clz h d a => h.bits * 134217728 + 16777232 + d.toNat * 65536 + a.toNat * 1024
  | .ctz h d a => h.bits * 134217728 + 16777248 + d.toNat * 65536 + a.toNat * 1024
  | .brev h d a => h.bits * 134217728 + 16777264 + d.toNat * 65536 + a.toNat * 1024
  | .not h d a => h.bits * 134217728 + 16777280 + d.toNat * 65536 + a.toNat * 1024
  | .neg h d a => h.bits * 134217728 + 16777296 + d.toNat * 65536 + a.toNat * 1024
  | .abs h d a => h.bits * 134217728 + 16777312 + d.toNat * 65536 + a.toNat * 1024
  | .sextb h d a => h.bits * 134217728 + 16777328 + d.toNat * 65536 + a.toNat * 1024
  | .sexth h d a => h.bits * 134217728 + 16777344 + d.toNat * 65536 + a.toNat * 1024
  | .bfe h d a b x => h.bits * 134217728 + 20971520 + d.toNat * 65536 + a.toNat * 1024 + b.toNat * 16 + x.toNat
  | .bfeu h d a b x => h.bits * 134217728 + 20971522 + d.toNat * 65536 + a.toNat * 1024 + b.toNat * 16 + x.toNat
  | .bfi h d a b x => h.bits * 134217728 + 20971524 + d.toNat * 65536 + a.toNat * 1024 + b.toNat * 16 + x.toNat
  | .funl h d a b x => h.bits * 134217728 + 20971526 + d.toNat * 65536 + a.toNat * 1024 + b.toNat * 16 + x.toNat
  | .div h d a b x => h.bits * 134217728 + 20971528 + d.toNat * 65536 + a.toNat * 1024 + b.toNat * 16 + x.toNat
  | .divu h d a b x => h.bits * 134217728 + 20971530 + d.toNat * 65536 + a.toNat * 1024 + b.toNat * 16 + x.toNat
  | .rem h d a b x => h.bits * 134217728 + 20971532 + d.toNat * 65536 + a.toNat * 1024 + b.toNat * 16 + x.toNat
  | .remu h d a b x => h.bits * 134217728 + 20971534 + d.toNat * 65536 + a.toNat * 1024 + b.toNat * 16 + x.toNat
  | .bra h off => h.bits * 134217728 + 25165824 + off.toNat
  | .icmp h pd pe a b k => h.bits * 134217728 + 29360128 + pd.toNat * 524288 + pe.toNat * 65536 + a.toNat * 1024 + b.toNat * 16 + k.code
  | .icmpi h pd pe a i k => h.bits * 134217728 + 33554432 + pd.toNat * 524288 + pe.toNat * 65536 + a.toNat * 1024 + i.toNat * 16 + k.code
  | .fcmp h pd pe a b k => h.bits * 134217728 + 37748736 + pd.toNat * 524288 + pe.toNat * 65536 + a.toNat * 1024 + b.toNat * 16 + k.code
  | .dcmp h pd pe a b k => h.bits * 134217728 + 41943040 + pd.toNat * 524288 + pe.toNat * 65536 + a.toNat * 1024 + b.toNat * 16 + k.code
  | .pand h pd pe pa pb na nb => h.bits * 134217728 + 46137344 + pd.toNat * 524288 + pe.toNat * 65536 + pa.toNat * 8192 + pb.toNat * 1024 + na.toNat * 512 + nb.toNat * 256
  | .por h pd pe pa pb na nb => h.bits * 134217728 + 46137376 + pd.toNat * 524288 + pe.toNat * 65536 + pa.toNat * 8192 + pb.toNat * 1024 + na.toNat * 512 + nb.toNat * 256
  | .pxor h pd pe pa pb na nb => h.bits * 134217728 + 46137408 + pd.toNat * 524288 + pe.toNat * 65536 + pa.toNat * 8192 + pb.toNat * 1024 + na.toNat * 512 + nb.toNat * 256
  | .pmov h pd pe pa pb na nb => h.bits * 134217728 + 46137440 + pd.toNat * 524288 + pe.toNat * 65536 + pa.toNat * 8192 + pb.toNat * 1024 + na.toNat * 512 + nb.toNat * 256
  | .fadd h d a b x => h.bits * 134217728 + 50331648 + d.toNat * 65536 + a.toNat * 1024 + b.toNat * 16 + x.toNat
  | .fsub h d a b x => h.bits * 134217728 + 50331650 + d.toNat * 65536 + a.toNat * 1024 + b.toNat * 16 + x.toNat
  | .fmul h d a b x => h.bits * 134217728 + 50331652 + d.toNat * 65536 + a.toNat * 1024 + b.toNat * 16 + x.toNat
  | .ffma h d a b x => h.bits * 134217728 + 50331654 + d.toNat * 65536 + a.toNat * 1024 + b.toNat * 16 + x.toNat
  | .fmin h d a b x => h.bits * 134217728 + 50331656 + d.toNat * 65536 + a.toNat * 1024 + b.toNat * 16 + x.toNat
  | .fmax h d a b x => h.bits * 134217728 + 50331658 + d.toNat * 65536 + a.toNat * 1024 + b.toNat * 16 + x.toNat
  | .fminn h d a b x => h.bits * 134217728 + 50331660 + d.toNat * 65536 + a.toNat * 1024 + b.toNat * 16 + x.toNat
  | .fmaxn h d a b x => h.bits * 134217728 + 50331662 + d.toNat * 65536 + a.toNat * 1024 + b.toNat * 16 + x.toNat
  | .dadd h d a b x => h.bits * 134217728 + 54525952 + d.toNat * 65536 + a.toNat * 1024 + b.toNat * 16 + x.toNat
  | .dsub h d a b x => h.bits * 134217728 + 54525954 + d.toNat * 65536 + a.toNat * 1024 + b.toNat * 16 + x.toNat
  | .dmul h d a b x => h.bits * 134217728 + 54525956 + d.toNat * 65536 + a.toNat * 1024 + b.toNat * 16 + x.toNat
  | .dfma h d a b x => h.bits * 134217728 + 54525958 + d.toNat * 65536 + a.toNat * 1024 + b.toNat * 16 + x.toNat
  | .dmin h d a b x => h.bits * 134217728 + 54525960 + d.toNat * 65536 + a.toNat * 1024 + b.toNat * 16 + x.toNat
  | .dmax h d a b x => h.bits * 134217728 + 54525962 + d.toNat * 65536 + a.toNat * 1024 + b.toNat * 16 + x.toNat
  | .dminn h d a b x => h.bits * 134217728 + 54525964 + d.toNat * 65536 + a.toNat * 1024 + b.toNat * 16 + x.toNat
  | .dmaxn h d a b x => h.bits * 134217728 + 54525966 + d.toNat * 65536 + a.toNat * 1024 + b.toNat * 16 + x.toNat
  | .call h off sh => h.bits * 134217728 + 58720256 + off.toNat * 64 + sh.toNat
  | .hadd2 h d a b x => h.bits * 134217728 + 62914560 + d.toNat * 65536 + a.toNat * 1024 + b.toNat * 16 + x.toNat
  | .hmul2 h d a b x => h.bits * 134217728 + 62914562 + d.toNat * 65536 + a.toNat * 1024 + b.toNat * 16 + x.toNat
  | .hfma2 h d a b x => h.bits * 134217728 + 62914564 + d.toNat * 65536 + a.toNat * 1024 + b.toNat * 16 + x.toNat
  | .hmin2 h d a b x => h.bits * 134217728 + 62914566 + d.toNat * 65536 + a.toNat * 1024 + b.toNat * 16 + x.toNat
  | .hmax2 h d a b x => h.bits * 134217728 + 62914568 + d.toNat * 65536 + a.toNat * 1024 + b.toNat * 16 + x.toNat
  | .badd2 h d a b x => h.bits * 134217728 + 62914570 + d.toNat * 65536 + a.toNat * 1024 + b.toNat * 16 + x.toNat
  | .bmul2 h d a b x => h.bits * 134217728 + 62914572 + d.toNat * 65536 + a.toNat * 1024 + b.toNat * 16 + x.toNat
  | .bfma2 h d a b x => h.bits * 134217728 + 62914574 + d.toNat * 65536 + a.toNat * 1024 + b.toNat * 16 + x.toNat
  | .frcp h d a la => h.bits * 134217728 + 67108864 + d.toNat * 65536 + a.toNat * 1024 + la.toNat
  | .frsq h d a la => h.bits * 134217728 + 67108880 + d.toNat * 65536 + a.toNat * 1024 + la.toNat
  | .fsqrt h d a la => h.bits * 134217728 + 67108896 + d.toNat * 65536 + a.toNat * 1024 + la.toNat
  | .fex2 h d a la => h.bits * 134217728 + 67108912 + d.toNat * 65536 + a.toNat * 1024 + la.toNat
  | .flg2 h d a la => h.bits * 134217728 + 67108928 + d.toNat * 65536 + a.toNat * 1024 + la.toNat
  | .fsin h d a la => h.bits * 134217728 + 67108944 + d.toNat * 65536 + a.toNat * 1024 + la.toNat
  | .fcos h d a la => h.bits * 134217728 + 67108960 + d.toNat * 65536 + a.toNat * 1024 + la.toNat
  | .ftanh h d a la => h.bits * 134217728 + 67108976 + d.toNat * 65536 + a.toNat * 1024 + la.toNat
  | .drcp h d a la => h.bits * 134217728 + 67108992 + d.toNat * 65536 + a.toNat * 1024 + la.toNat
  | .drsq h d a la => h.bits * 134217728 + 67109008 + d.toNat * 65536 + a.toNat * 1024 + la.toNat
  | .dsqrt h d a la => h.bits * 134217728 + 67109024 + d.toNat * 65536 + a.toNat * 1024 + la.toNat
  | .cvt h d a dst src => h.bits * 134217728 + 71303168 + d.toNat * 65536 + a.toNat * 1024 + dst.code * 128 + src.code * 16
  | .pke4m3 h d a b x => h.bits * 134217728 + 75497472 + d.toNat * 65536 + a.toNat * 1024 + b.toNat * 16 + x.toNat
  | .pke5m2 h d a b x => h.bits * 134217728 + 75497474 + d.toNat * 65536 + a.toNat * 1024 + b.toNat * 16 + x.toNat
  | .pke3m2 h d a b x => h.bits * 134217728 + 75497476 + d.toNat * 65536 + a.toNat * 1024 + b.toNat * 16 + x.toNat
  | .pke2m3 h d a b x => h.bits * 134217728 + 75497478 + d.toNat * 65536 + a.toNat * 1024 + b.toNat * 16 + x.toNat
  | .pke2m1 h d a b x => h.bits * 134217728 + 75497480 + d.toNat * 65536 + a.toNat * 1024 + b.toNat * 16 + x.toNat
  | .upk8 h d a b x => h.bits * 134217728 + 75497482 + d.toNat * 65536 + a.toNat * 1024 + b.toNat * 16 + x.toNat
  | .upk6 h d a b x => h.bits * 134217728 + 75497484 + d.toNat * 65536 + a.toNat * 1024 + b.toNat * 16 + x.toNat
  | .upk4 h d a b x => h.bits * 134217728 + 75497486 + d.toNat * 65536 + a.toNat * 1024 + b.toNat * 16 + x.toNat
  | .sel h d a b q neg => h.bits * 134217728 + 79691776 + d.toNat * 65536 + a.toNat * 1024 + b.toNat * 16 + q.toNat * 2 + neg.toNat
  | .shfl h d a b x => h.bits * 134217728 + 83886080 + d.toNat * 65536 + a.toNat * 1024 + b.toNat * 16 + x.toNat
  | .shflup h d a b x => h.bits * 134217728 + 83886082 + d.toNat * 65536 + a.toNat * 1024 + b.toNat * 16 + x.toNat
  | .shfldn h d a b x => h.bits * 134217728 + 83886084 + d.toNat * 65536 + a.toNat * 1024 + b.toNat * 16 + x.toNat
  | .shflx h d a b x => h.bits * 134217728 + 83886086 + d.toNat * 65536 + a.toNat * 1024 + b.toNat * 16 + x.toNat
  | .ballot h d q neg => h.bits * 134217728 + 83886088 + d.toNat * 65536 + neg.toNat * 8192 + q.toNat * 1024
  | .wredadd h d a ty x => h.bits * 134217728 + 83886090 + d.toNat * 65536 + a.toNat * 1024 + ty.code * 16 + x.toNat
  | .wredmin h d a ty x => h.bits * 134217728 + 83886092 + d.toNat * 65536 + a.toNat * 1024 + ty.code * 16 + x.toNat
  | .wredmax h d a ty x => h.bits * 134217728 + 83886094 + d.toNat * 65536 + a.toNat * 1024 + ty.code * 16 + x.toNat
  | .movi h d i => h.bits * 134217728 + 88080384 + d.toNat * 65536 + i.toNat
  | .movhi h d i => h.bits * 134217728 + 92274688 + d.toNat * 65536 + i.toNat
  | .ld h d a sz ch la => h.bits * 134217728 + 96468992 + d.toNat * 65536 + a.toNat * 1024 + sz.code * 128 + ch.code * 16 + la.toNat
  | .st h a b sz ch => h.bits * 134217728 + 100663296 + a.toNat * 65536 + b.toNat * 1024 + sz.code * 128 + ch.code * 16
  | .lds h d a sz la => h.bits * 134217728 + 104857600 + d.toNat * 8192 + a.toNat * 128 + sz.code * 16 + la.toNat
  | .ldc h d a sz la => h.bits * 134217728 + 105906176 + d.toNat * 8192 + a.toNat * 128 + sz.code * 16 + la.toNat
  | .sts h a b sz => h.bits * 134217728 + 105381888 + a.toNat * 8192 + b.toNat * 128 + sz.code * 16
  | .stc h a b sz => h.bits * 134217728 + 106430464 + a.toNat * 8192 + b.toNat * 128 + sz.code * 16
  | .rowld h d a la => h.bits * 134217728 + 106954752 + d.toNat * 8192 + a.toNat * 128 + la.toNat
  | .rowst h a b => h.bits * 134217728 + 107479040 + a.toNat * 8192 + b.toNat * 128
  | .lda h d a sz sc => h.bits * 134217728 + 109051904 + d.toNat * 8192 + a.toNat * 128 + sz.code * 16 + sc.code
  | .stl h a b sz sc => h.bits * 134217728 + 109576192 + a.toNat * 8192 + b.toNat * 128 + sz.code * 16 + sc.code
  | .fence h ack k sc => h.bits * 134217728 + 110100480 + ack.toNat * 64 + k.code * 16 + sc.code
  | .accadd h a b kd => h.bits * 134217728 + 110624768 + a.toNat * 8192 + b.toNat * 128 + kd.code * 32
  | .publish h a sc => h.bits * 134217728 + 111149056 + a.toNat * 8192 + sc.code
  | .reside h d a => h.bits * 134217728 + 111673344 + d.toNat * 8192 + a.toNat * 128
  | .unreside h d a => h.bits * 134217728 + 112197632 + d.toNat * 8192 + a.toNat * 128
  | .atom h d a op w la => h.bits * 134217728 + 113246208 + d.toNat * 65536 + a.toNat * 1024 + op.code * 64 + w.toNat * 32 + la.toNat
  | .red h d a op w => h.bits * 134217728 + 113246224 + d.toNat * 65536 + a.toNat * 1024 + op.code * 64 + w.toNat * 32
  | .mma h fa fb f db fn => h.bits * 134217728 + 117440512 + fa.toNat * 65536 + fb.toNat * 8192 + f.toNat * 128 + db.toNat * 32 + fn.code * 8
  | .mma64 h fa fb f db fn => h.bits * 134217728 + 117964800 + fa.toNat * 65536 + fb.toNat * 8192 + f.toNat * 128 + db.toNat * 32 + fn.code * 8
  | .scld h a col => h.bits * 134217728 + 118489088 + a.toNat * 8192 + col.toNat * 64
  | .scldScr h a col => h.bits * 134217728 + 118493184 + a.toNat * 8192 + col.toNat * 64
  | .mdrain h db f => h.bits * 134217728 + 119013376 + db.toNat * 131072 + f.toNat * 2048
  | .fmtq h d f => h.bits * 134217728 + 119537664 + d.toNat * 8192 + f.toNat * 128
  | .tcopy h a => h.bits * 134217728 + 121634816 + a.toNat * 8192
  | .tcast h a => h.bits * 134217728 + 122159104 + a.toNat * 8192
  | .hgath h a => h.bits * 134217728 + 122683392 + a.toNat * 8192
  | .hred h a => h.bits * 134217728 + 123207680 + a.toNat * 8192
  | .hcvt h a => h.bits * 134217728 + 123731968 + a.toNat * 8192
  | .waitf h msk any => h.bits * 134217728 + 124256256 + msk.toNat * 128 + any.toNat * 64
  | .flagq h d la => h.bits * 134217728 + 124780544 + d.toNat * 8192 + la.toNat
  | .brr h a => h.bits * 134217728 + 125829120 + a.toNat * 8192
  | .callr h a sh => h.bits * 134217728 + 126353408 + a.toNat * 8192 + sh.toNat
  | .ret h => h.bits * 134217728 + 126877696
  | .join h m => h.bits * 134217728 + 127401984 + m.toNat * 4096
  | .leave h m => h.bits * 134217728 + 127467520 + m.toNat * 4096
  | .waitm h m => h.bits * 134217728 + 127533056 + m.toNat * 4096
  | .mkmask h m => h.bits * 134217728 + 127598592 + m.toNat * 4096
  | .maskrd h m v => h.bits * 134217728 + 127664128 + m.toNat * 4096 + v.toNat * 64
  | .maskwr h m v => h.bits * 134217728 + 127729664 + m.toNat * 4096 + v.toNat * 64
  | .spawn h a e => h.bits * 134217728 + 127926272 + a.toNat * 8192 + e.toNat * 128
  | .fexit h => h.bits * 134217728 + 128450560
  | .yield h => h.bits * 134217728 + 128712704
  | .barinit h bar ph v => h.bits * 134217728 + 128974848 + bar.toNat * 4096 + ph.toNat * 1024 + v.toNat * 16
  | .bararr h bar ph => h.bits * 134217728 + 129040384 + bar.toNat * 4096 + ph.toNat * 1024
  | .barwait h bar ph => h.bits * 134217728 + 129105920 + bar.toNat * 4096 + ph.toNat * 1024
  | .bararw h bar ph => h.bits * 134217728 + 129171456 + bar.toNat * 4096 + ph.toNat * 1024
  | .barq h bar v => h.bits * 134217728 + 129236992 + bar.toNat * 4096 + v.toNat * 16
  | .rsrd h v => h.bits * 134217728 + 129499136 + v.toNat * 2048
  | .rspop h v => h.bits * 134217728 + 129630208 + v.toNat * 2048
  | .rspush h v => h.bits * 134217728 + 129761280 + v.toNat * 2048
  | .win h v => h.bits * 134217728 + 129892352 + v.toNat * 2048
  | .csrr h d num => h.bits * 134217728 + 130023424 + d.toNat * 8192 + num.toNat * 2
  | .csrw h a num => h.bits * 134217728 + 130547712 + a.toNat * 8192 + num.toNat * 2
  | .trap h code => h.bits * 134217728 + 131072000 + code.toNat * 2048
  | .eret h => h.bits * 134217728 + 131596288
  | .brk h => h.bits * 134217728 + 132120576
  | .hops h d a b => h.bits * 134217728 + 132644864 + d.toNat * 8192 + a.toNat * 128 + b.toNat * 2
  | .genq h d a => h.bits * 134217728 + 133169152 + d.toNat * 8192 + a.toNat * 128
  | .partr h v s => h.bits * 134217728 + 133693440 + v.toNat * 4096 + s.toNat * 64
  | .partw h v s => h.bits * 134217728 + 133955584 + v.toNat * 4096 + s.toNat * 64
  | .nop rest => (rest.toNat / 134217728) * 2147483648 + 2013265920 + rest.toNat % 134217728
  | .divideComplete _ => 0
  | .fenceComplete _ => 0
  | .resideComplete _ => 0
  | .unresideComplete _ => 0
  | .scldComplete _ => 0
  | .mmaBufferWrite _ => 0
  | .drainSend _ => 0
  | .drainAck _ => 0
  | .engineRecordValidate _ => 0
  | .engineRecordComplete _ => 0
  | .engineRecordFail _ _ => 0
  | .yieldTimeout _ _ _ => 0
  | .partwComplete _ => 0
  | .instructionFetch _ _ => 0
  | .longLatencyResult _ _ _ => 0
  | .storeAck _ => 0
  | .wcbDrainTimeout _ _ => 0
  | .l1LineExpire _ _ => 0
  | .granuleSweep _ => 0
  | .generationRenewal _ => 0
  | .signaturePublish _ => 0
  | .warpStarving _ => 0
  | .spinDemote _ => 0
  | .homeRead _ => 0
  | .homeWrite _ => 0
  | .homeRmw _ => 0
  | .homeAccumulate _ => 0
  | .homeTileUpdate _ => 0
  | .homeRowOperation _ => 0
  | .hbmReadReturn _ _ => 0
  | .hbmRefresh _ _ => 0
  | .dataBankFailure _ _ => 0
  | .bankRebuildStep _ => 0
  | .pageWalk _ _ _ => 0
  | .reserveInvalidate _ _ => 0
  | .invalidateConfirm _ _ => 0
  | .faultRecordWrite _ => 0
  | .faultDelivery _ => 0
  | .fackWrite _ _ => 0
  | .queueEnable _ _ _ => 0
  | .queueDisable _ _ _ => 0
  | .tailWrite _ _ _ => 0
  | .launchValidate _ _ => 0
  | .dependenceTest _ _ => 0
  | .arbitrate _ => 0
  | .panelDispatch => 0
  | .teamRetire _ => 0
  | .abortLaunch _ _ _ => 0
  | .preemptRequest _ _ => 0
  | .teamSave _ => 0
  | .teamFlush _ => 0
  | .drainTimeout _ => 0
  | .saveHandlerTimeout _ => 0
  | .restoreRequest _ _ => 0
  | .debugHalt _ _ => 0
  | .debugRawRead _ _ => 0
  | .debugViewRead _ _ => 0
  | .debugWrite _ _ _ _ => 0
  | .aliasClear _ => 0
  | .biasFlipToHost _ _ => 0
  | .biasFlipToDevice _ _ => 0
  | .memrdShared _ => 0
  | .memrdExclusive _ => 0
  | .memwr _ _ => 0
  | .birsp _ _ => 0
  | .hostSnoop _ => 0
  | .peerRequest _ _ => 0
  | .linkRetry _ => 0
  | .dieLinkFailure _ _ => 0
  | .peerUnreachable _ => 0
  | .functionLevelReset _ => 0
  | .vdtWrite _ _ => 0
  | .vdtApply _ => 0
  | .grantSet _ _ => 0
  | .keySlotWrite _ _ _ => 0
  | .deviceReset _ => 0
  | .firmwareUpdateStage _ => 0
  | .thermalThrottle => 0
  | .clockRestore => 0
  | .thermalShutdown => 0
  | .registerWrite _ _ _ _ => 0
  | .partrComplete _ => 0
  | .returnStackAccessComplete _ => 0
  | .cxlCacheResponse _ _ _ => 0

/-- The units of R39; the FP32 unit takes two words of a group (R40). -/
inductive ExecUnit where
  | integer | fp32 | fp64 | sfu | memory | matrix | branch | none
  deriving DecidableEq, Repr

/-- The unit that runs a word (R39): by major opcode, GENQ apart. -/
def Instr.unit (i : Instr) : ExecUnit :=
  match i with
  | .nop _ => .none
  | .genq .. => .memory
  | i => match i.hdr? with
    | none => .none
    | some _ => unitOfMaj (fld (encode i) 22 5)
where
  /-- The unit of a major opcode. -/
  unitOfMaj : Nat → ExecUnit
    | 0 | 1 | 2 | 3 | 4 | 5 | 7 | 8 | 11 | 19 | 20 | 21 | 22 => .integer
    | 9 | 12 | 15 | 17 | 18 => .fp32
    | 10 | 13 => .fp64
    | 16 => .sfu
    | 23 | 24 | 25 | 26 | 27 | 29 => .memory
    | 28 => .matrix
    | _ => .branch

/-- A long-latency word's lookahead (R44); none for every other word. LDA counts with 0. -/
def Instr.lookahead : Instr → Option Nat
  | .ld _ _ _ _ _ la | .lds _ _ _ _ la | .ldc _ _ _ _ la | .rowld _ _ _ la | .atom _ _ _ _ _ la
  | .flagq _ _ la | .frcp _ _ _ la | .frsq _ _ _ la | .fsqrt _ _ _ la | .fex2 _ _ _ la | .flg2 _ _ _ la
  | .fsin _ _ _ la | .fcos _ _ _ la | .ftanh _ _ _ la | .drcp _ _ _ la | .drsq _ _ _ la | .dsqrt _ _ _ la => some la.toNat
  | .lda .. => some 0
  | _ => none

/-- The word of a group that breaks R40: the second of two words of one unit, or the third FP32 word. -/
def groupRuleFail (is : List Instr) : Option Nat :=
  (List.range is.length).find? fun k =>
    match is[k]? with
    | none => false
    | some i => i.unit != .none &&
        ((is.take k).filter fun j => j.unit == i.unit).length ≥ (if i.unit == .fp32 then 2 else 1)

/-- Decodes a group whole (R36): first each word's own checks in packet order, the lookahead rule of R45 among them, then the
group rule of R40. A failure names the word of the packet. A word that breaks both the lookahead rule and a zero field fails as reserved
(DESIGN CHOICE, log entry 73): R56 gives no place to the lookahead rule. -/
def decodeGroup (ws : List Nat) (idx : Nat) : Except (DecodeFail × Nat) (List Instr) :=
  let n := groupLength ws idx
  let own := (List.range n).map fun k =>
    match decodeWord (idx + k) (ws.getD (idx + k) 0) with
    | .error e => (Except.error (e, idx + k) : Except (DecodeFail × Nat) Instr)
    | .ok i => match i.lookahead with
      | some la => if la < n - 1 - k then .error (.illegal, idx + k) else .ok i
      | none => .ok i
  match own.mapM id with
  | .error e => .error e
  | .ok is => match groupRuleFail is with
    | some k => .error (.illegal, idx + k)
    | none => .ok is

end Sys2Proof
end

