-- ==== Sys2Proof/Machine/State.lean ====
section
/-! DEFINITION. Everything the spec gives the machine, as plain data, the reasons a step can stop, and the machine after reset.
Sparse things (memory, core-store granules, fibres, warps, teams, cores) are lists of key and value with rising keys; a key that
is not listed has the default of its kind. -/

namespace Sys2Proof.Machine

/-- Sparse data by a number, keys rising. -/
abbrev Assoc (α : Type) := List (Nat × α)

/-- The wait record of a fibre (R168, R178, R343, R175, R367). -/
inductive Wait where
  | none
  | mask (join : Bool) (k : Nat) (j : Mask)
  | bar (b : Nat) (target : Word)
  | flags (msk : BitVec 12) (any : Bool)
  | yield (others : List Nat) (since : Nat)
  | eret
  deriving DecidableEq, Repr

/-- A fibre (R13, R24, R28). `held` is the part of the return stack in hardware, newest first (R21). `kept` is the wait a handler
batch of waiting fibres keeps (R366); `rpc` and `rword` are the word that made it wait (R343, R366);
`hpc` and `hword` are where it goes on after a handler (R362, R367); `wide` says that a home-served read came back wide since the last acquire FENCE (R268);
`left_` lists the blocks that were spilled or discarded and are not resident now (R16). -/
structure Fibre where
  live : Bool
  pc : Pc
  word : Nat
  preds : BitVec 7
  wb : Nat
  floor : Nat
  nres : Nat
  held : List DWord
  depth : Nat
  rsbase : DWord
  spill : DWord
  acks : Nat
  lastseq : DWord
  fid : Nat
  epred : BitVec 7
  wait : Wait
  kept : Wait
  batch : Nat
  since : Nat
  rpc : Pc
  rword : Nat
  hpc : Pc
  hword : Nat
  wide : Bool
  left_ : List Nat
  deriving DecidableEq, Repr

/-- A completion flag: F, its error bit with the code, and its pending count (R342). -/
structure FlagSt where
  f : Bool
  er : Bool
  code : BitVec 8
  n : Nat
  deriving DecidableEq, Repr

/-- An allowance counter: the word it counts for and the value left in each fibre that waits for it (R45). -/
structure Counter where
  id : Nat
  vals : List (Nat × Nat)
  deriving DecidableEq, Repr

/-- A word that holds its batch or its whole warp until an item completes (R354). -/
structure Hold where
  id : Nat
  lanes : Mask
  whole : Bool
  deriving DecidableEq, Repr

/-- A pending word: its packet and word, the packet's words (none where it is the resume point of a handler), its done mask, its code
(R352, R359), how many halts of the team were open when it was recorded, and the fibres that go on after its group where it is a resume point. -/
structure Pend where
  pc : Pc
  word : Nat
  ws : List Nat
  done : Mask
  code : BitVec 8
  lvl : Nat
  lanes : Mask
  deriving DecidableEq, Repr

/-- The spin detector (R201). -/
structure Spin where
  armed : Bool
  pc : Pc
  lanes : Mask
  count : Nat
  demoted : Bool
  deriving DecidableEq, Repr

/-- The word that a late lane fault of a load names: its packet, word and the packet's words. -/
structure Where_ where
  pc : Pc
  word : Nat
  ws : List Nat
  deriving DecidableEq, Repr

/-- A fault that waits for the warp's next group boundary (R366, R433, R434): code, whether a leaf's rights refused it, DB byte,
address, lanes that raised the code, lanes that are not done; the word it names when it is a lane fault of a word in flight (log
entry 13); the name under which what it reports is held, else 0. -/
structure LateFault where
  code : BitVec 8
  leaf : Bool
  db : BitVec 8
  addr : DWord
  lanes : Mask
  undone : Mask
  src : Option Where_
  key : Nat
  deriving DecidableEq, Repr

/-- Attributes of a translated access (R247): class, key, tracked; the table lines it was read from (R250). -/
structure Attr where
  cls : Nat
  key : Nat
  tracked : Bool
  via : List Nat
  deriving DecidableEq, Repr

/-- Attributes of an access that no leaf gives any. -/
def Attr.plain : Attr := ⟨0, 0, false, []⟩

/-- Where a home serves an access from: nowhere but the home itself (host, peer, PINS, ACCX), a PINB contract, a cache row that holds a
block, a row of a KVR contract, or HBM without allocation (R224, R227, R234, R244). -/
inductive Spot where
  | fixed
  | pinb (cid : Nat)
  | row (key block : Nat)
  | kv (cid slice pos : Nat)
  | hbm
  deriving DecidableEq, Repr

/-- An ACCADD lane with its operand; of one that its home refused, `key` is the fault that reports it (R433). -/
structure HeldAcc where
  key : Nat
  lane : Nat
  addr : DWord
  pa : Nat
  kd : AccKind
  x : DWord
  at_ : Attr
  deriving DecidableEq, Repr

/-- A late result whose spill write faulted (R434): lane, the words with their logical registers; or bytes of a frame, with their address, whose
home could not take them (DEDUCED, log entry 20); the fault that reports it. -/
structure HeldWrite where
  key : Nat
  lane : Nat
  regs : List (Nat × Word)
  va : DWord
  bytes : List Byte
  deriving DecidableEq, Repr

/-- A warp (R152, R153, R165, R199 to R201, R342). `ibuf` holds the packets in hand; `pend` is the pending words of its stops (R352), `replay`
the words to perform again before anything else (R365, R367);
`bpSkip` the fibres whose next group skips the breakpoint test (R383). -/
structure Warp where
  live : Bool
  masks : Vector Mask 12
  flags : Vector FlagSt 12
  counters : List Counter
  cur : Nat
  row : Nat
  holds : List Hold
  pend : List Pend
  replay : List Pend
  skid : Nat
  skidLeft : Nat
  skidPkts : List Pc
  spin : Spin
  nextStart : Nat
  lastIssue : Nat
  starving : Bool
  ibuf : List (Pc × List Nat)
  ctxNum : Nat
  late : List LateFault
  bpSkip : Mask
  heldAcc : List HeldAcc
  heldWrites : List HeldWrite
  nextBatch : Nat
  deriving DecidableEq, Repr

/-- A barrier (R176). -/
structure Barrier where
  e : Nat
  phase : Word
  cnt : Vector Nat 4
  ov : Bool
  deriving DecidableEq, Repr

/-- The kinds of a stop (R351), the debugger's and pre-emption's own among them (R370, R382). -/
inductive TrapKind where
  | precise | lane | after | drain | debug | preempt
  deriving DecidableEq, Repr

/-- Where a halt stands (R352, R357, R360, R362, R374, R379, R384): warps come to a stop; the record waits for a response; the handler
runs; one group is stepped; held for pre-emption; the save or the restore handler runs. -/
inductive HaltPhase where
  | stopping | recorded | handler | stepping | held | saving | restoring
  deriving DecidableEq, Repr

/-- The halt of a team and what its record says (R352, R358); `failed` is the word of the packet that its check found failing (R36; log
entry 72); `ended` is the cycle at which the halt was complete; `dbg` says that its record went to the debugger (R350, R382); `key` names what is held with the
fault it reports (R433, R434). -/
structure Halt where
  kind : TrapKind
  phase : HaltPhase
  code : BitVec 8
  swcode : BitVec 8
  warp : Nat
  lanes : Mask
  pc : Pc
  word : Nat
  rpl : Bool
  wt : Bool
  addr : DWord
  done : Mask
  flanes : Mask
  db : BitVec 8
  service : Bool
  ws : List Nat
  seq : Nat
  failed : Nat
  ended : Option Nat
  dbg : Bool
  key : Nat
  deriving DecidableEq, Repr

/-- The core-store bytes of a team (R156, R202, R206): first granule of the windows and of the scratch, granules of each,
current generation, generations whose late writes are accepted. -/
structure Grant where
  win : List (Nat × Nat)
  scr : List (Nat × Nat)
  gen : BitVec 16
  accepted : List (BitVec 16)
  deriving DecidableEq, Repr

/-- Where a resident team stands. -/
inductive TeamPhase where
  | placed | running | retired
  deriving DecidableEq, Repr

/-- A team (R24, R151, R161, R176). `launch` is the key of its launch; `halts` is its stop, newest first (a handler batch may stop
again, R363); handler CSRs are those of R361; `begun` says that a group of it has issued (R173). -/
structure Team where
  phase : TeamPhase
  launch : Nat
  core : Nat
  warps : Nat
  teamid : Nat
  panelid : Nat
  stage : Nat
  gen : BitVec 16
  exsum : BitVec 9
  alloc : Nat
  scratch : Nat
  strict : Bool
  grant : Grant
  barriers : Vector Barrier 16
  fibres : Nat
  begun : Bool
  spawned : Bool
  hasSpawned : Bool
  rp : Nat
  draining : Bool
  halts : List Halt
  epc : DWord
  frec : DWord
  cause : Word
  donemask : Word
  faddr : DWord
  slot : Option Nat
  deriving DecidableEq, Repr

/-- A core-store granule: its 64 bytes as sixteen words, little-endian within a word, and their tag (R15, R206). -/
structure Granule where
  tag : BitVec 16
  data : Vector Word 16
  deriving DecidableEq, Repr

/-- An operand-latch entry (R43): the register slots it is tagged with (two for a pair), the uses left, the cycle of its group. -/
structure Latch where
  warp : Nat
  slots : List Nat
  uses : Nat
  seq : Nat
  deriving DecidableEq, Repr

/-- An L1 line: the bytes it holds, by offset, and the cycle of its fill or last refresh (R215). -/
structure L1Line where
  bytes : Assoc Byte
  at_ : Nat
  ef : Bool
  deriving DecidableEq, Repr

/-- What a part of a write comes from: a store word of a lane, which counts (R50); a late result bound to a spilled register (R210); a spill
or a return-stack entry (R18, R21). -/
inductive Origin where
  | store (src : Where_)
  | late (reg : Nat)
  | frame
  deriving DecidableEq, Repr

/-- Bytes of one write of one lane at an offset of the line, with the attributes of its own translation (R252). -/
structure WPart where
  lane : Nat
  off : Nat
  bytes : List Byte
  va : DWord
  at_ : Attr
  org : Origin
  deriving DecidableEq, Repr

/-- A write-combining entry (R216): one line of one warp. `rels` are the releases merged into it, by lane and scope. -/
structure Wcb where
  id : Nat
  warp : Nat
  line : Nat
  parts : List WPart
  opened : Nat
  hint : Hint
  ctx : Nat
  rels : List (Nat × Scope)
  deriving DecidableEq, Repr

/-- The state of a drain buffer (R307). -/
inductive BufState where
  | free | open_ | draining | pending
  deriving DecidableEq, Repr

/-- A drain (R308 to R313): buffer of a core, owner warp, flag, kind of accumulation, target (global, or scratch under a generation),
the tile as it is sent, the fault its home reported, the acknowledgement it waits for. -/
structure DrainReq where
  core : Nat
  buf : Nat
  warp : Nat
  flag : Nat
  acc : Nat
  scratch : Bool
  gen : BitVec 16
  va : DWord
  pa : Nat
  ctx : Nat
  at_ : Attr
  elems : List DWord
  fault : BitVec 8
  ackId : Nat
  deriving DecidableEq, Repr

/-- A drain buffer (R307): owner, precision, elements, and the drain that a fault has left Pending. -/
structure Buf where
  st : BufState
  warp : Nat
  wide : Bool
  elems : List DWord
  pend : Option DrainReq
  deriving DecidableEq, Repr

/-- The divide in progress (R103): warp, the hold of that warp, destination logical registers and results by lane, bits. -/
structure DivJob where
  warp : Nat
  hold : Nat
  vals : List (Nat × Nat × Word)
  exs : BitVec 9
  due : Nat
  deriving DecidableEq, Repr

/-- A core (R202, R206, R43, R103, R119, R215, R216, R267, R301, R307, R355). -/
structure Core where
  ctx : Option Nat
  gen : BitVec 16
  nextGrant : Nat
  latch : List Latch
  divider : Option DivJob
  sfuUntil : Nat
  matrixUntil : Nat
  memUntil : Nat
  portUntil : Nat
  issueUntil : Nat
  l1 : Assoc L1Line
  wcb : List Wcb
  scale : Assoc Byte
  bufs : Vector Buf 4
  sig : List (Nat × Nat × Nat)
  publishing : Option (Nat × List Nat)
  stalled : Bool
  bps : Vector DWord 8
  wps : Vector DWord 4
  deriving DecidableEq, Repr

/-- What the device keeps of a saved team beside its slot: what R376 to R378 give no place, the halts, the handler registers and
what the fibres and warps of a handler batch keep, the requests of Pending buffers (R380). -/
structure Saved where
  team : Team
  handle : Nat
  warps : Assoc Warp
  fibres : Assoc Fibre
  bufs : List Buf
  deriving DecidableEq, Repr

/-- A translation cache entry (R249, R250): owner (a core, or 100000 + cluster), context, virtual page and its size in bits,
physical page, leaf bits, lines it shares. A view's entry maps its index. -/
structure Tlb where
  owner : Nat
  ctx : Nat
  view : Bool
  va : Nat
  bits : Nat
  pa : Nat
  leaf : DWord
  via : List Nat
  deriving DecidableEq, Repr

/-- A row of a cache way (R220): block PA[51:11], class, age, valid and dirty sectors. -/
structure Row where
  block : Nat
  cls : Nat
  age : Nat
  valid : BitVec 64
  dirty : BitVec 64
  deriving DecidableEq, Repr

/-- A row of a KV-reserve contract (R220, R233): slice, position, age, valid and dirty sectors. -/
structure KvRow where
  slice : Nat
  pos : Nat
  age : Nat
  valid : BitVec 64
  dirty : BitVec 64
  deriving DecidableEq, Repr

/-- A residency contract (R227, R229, R233). `grans` are its physical granules in order; `saved` is what HBM holds behind a PINS
range; `high` is N of each slice; `filled` and `dirty` are the valid and the dirty sectors of a PINB range (R220). -/
structure Contract where
  id : Nat
  ctx : Nat
  kind : Nat
  base : DWord
  cls : Nat
  c : Nat
  hd : Nat
  w : Nat
  grans : List Nat
  rows : List KvRow
  high : List (Nat × Int)
  saved : List Host.Cell
  filled : List Nat
  dirty : List Nat
  deriving DecidableEq, Repr

/-- A lost marker (R235). -/
structure Lost where
  ctx : Nat
  base : DWord
  grans : List Nat
  deriving DecidableEq, Repr

/-- An error in the skein (R237, R238): the 32-byte word it hit, by the number PA / 32 of a data sector, or by a block PA / 2048 and a quarter of
its parity line; and whether more than one bit is wrong. -/
structure Upset where
  parity : Bool
  at_ : Nat
  quarter : Nat
  double : Bool
  deriving DecidableEq, Repr

/-- One lane of a load: address, size in bytes, size code, first logical register, the attributes of its own translation (R252), its own
pending bytes (R143). -/
structure LoadLane where
  lane : Nat
  va : DWord
  pa : Nat
  sz : Size
  dst : Nat
  at_ : Attr
  own : List (Nat × Byte)
  deriving DecidableEq, Repr

/-- Where a long-latency result goes: warp, the generation it carries, its counter (R210). -/
structure Dest where
  warp : Nat
  core : Nat
  gen : BitVec 16
  cid : Nat
  deriving DecidableEq, Repr

/-- A read of one line on its way (R240, R258); `scale` says that its bytes go to the scale store (R322). -/
structure ReadReq where
  dest : Dest
  ctx : Nat
  line : Nat
  lo : Nat
  n : Nat
  lanes : List LoadLane
  hint : Hint
  scope : Option Scope
  scale : Bool
  src : Where_
  deriving DecidableEq, Repr

/-- A write of one line on its way (R258); `sent` is its place in the order of what its core has sent (R259). -/
structure WriteReq where
  sent : Nat
  core : Nat
  warp : Nat
  ctx : Nat
  line : Nat
  parts : List WPart
  hint : Hint
  deriving DecidableEq, Repr

/-- One lane of an atomic: old value's first logical register, operand and, for CAS, swap value. -/
structure RmwLane where
  lane : Nat
  va : DWord
  pa : Nat
  dst : Nat
  v : DWord
  c : DWord
  deriving DecidableEq, Repr

/-- An ATOM or RED on its way (R277). -/
structure RmwReq where
  dest : Dest
  ctx : Nat
  ret : Bool
  op : AtomOp
  w : Bool
  lane : RmwLane
  at_ : Attr
  src : Where_
  deriving DecidableEq, Repr

/-- An ACCADD's lanes of one line (R281). -/
structure AccReq where
  core : Nat
  warp : Nat
  ctx : Nat
  kd : AccKind
  line : Nat
  lanes : List HeldAcc
  deriving DecidableEq, Repr

/-- A ROWLD or ROWST (R290). -/
structure RowReq where
  dest : Dest
  ctx : Nat
  va : DWord
  pa : Nat
  store : Option (List Word)
  lanes : Mask
  dst : List (Nat × Nat)
  at_ : Attr
  src : Where_
  deriving DecidableEq, Repr

/-- A RESIDE or UNRESIDE in progress (R286, R287): the lanes still to run, each with its status register and record; the lanes with the logical
registers that a later word of its group has written (R41). -/
structure ResideJob where
  release : Bool
  warp : Nat
  lanes : List (Nat × Nat × BitVec 128)
  src : Where_
  done : Mask
  faulted : List (Nat × BitVec 8 × Bool × DWord)
  skip : List (Nat × Nat)
  deriving DecidableEq, Repr

/-- A PARTR or PARTW in progress (R222); `skip` as in a RESIDE. -/
structure PartJob where
  write : Bool
  warp : Nat
  lanes : List (Nat × Nat × Nat × DWord)
  skip : List (Nat × Nat)
  deriving DecidableEq, Repr

/-- A return-stack access (R134): lane, whether the entry goes back into the held stack, the entry read, the first logical register it goes into;
`skip` as in a RESIDE. -/
structure RsJob where
  warp : Nat
  lanes : List (Nat × Bool × DWord × Nat)
  skip : List (Nat × Nat)
  deriving DecidableEq, Repr

/-- A block product on its way to its buffer (R304, R314). -/
structure MmaJob where
  core : Nat
  buf : Nat
  sums : List DWord
  exs : BitVec 9
  team : Nat
  deriving DecidableEq, Repr

/-- The engines (R327, R328). -/
inductive EngKind where
  | tcopy | tcast | hgath | hred | hcvt
  deriving DecidableEq, Repr

/-- An engine word that holds its batch: the records still to accept by lane, the lanes that faulted (R329 to R331). -/
structure SubmitJob where
  kind : EngKind
  warp : Nat
  lanes : List (Nat × BitVec 256)
  src : Where_
  faulted : List (Nat × BitVec 8 × Bool × DWord)
  deriving DecidableEq, Repr

/-- A page of an engine's access: virtual page (VA / 65536), physical page, attributes (R330). -/
structure EngPage where
  va : Nat
  pa : Nat
  at_ : Attr
  deriving DecidableEq, Repr

/-- An accepted engine record (R331 to R341): which engine holds it, its pages for source and destination, the indices read at validation,
the destination teams with their generation and barrier phase, the view entry, its written half and the address there, and how far it has come: 0 nothing
read, 1 the writes that `runs` still lists, 2 waiting for acknowledgements, 3 published and waiting for that one. -/
structure EngJob where
  kind : EngKind
  core : Nat
  warp : Nat
  ctx : Nat
  engine : Nat
  recw : BitVec 256
  srcPages : List EngPage
  dstPages : List EngPage
  idx : List Nat
  targets : List (Nat × BitVec 16 × Word × Nat)
  entry : Nat
  half : Nat
  dbase : Nat
  stage : Nat
  runs : List (Nat × List Byte)
  acks : List Nat
  exs : BitVec 9
  deriving DecidableEq, Repr

/-- A flip of a view on its way to the home of its entry, for the lanes that named it, with the address that the lowest of them gave (R285). -/
structure FlipReq where
  core : Nat
  warp : Nat
  entry : Nat
  va : DWord
  lanes : List Nat
  src : Where_
  deriving DecidableEq, Repr

/-- A FENCE, or the fence or release part of another word, that holds a batch (R276, R285, R329). -/
structure FenceJob where
  warp : Nat
  lanes : Mask
  k : FenceKind
  ack : Bool
  sc : Scope
  flips : List FlipReq
  deriving DecidableEq, Repr

/-- What the host is asked for (R404, R411, R414): the granule, whether to write it, the function under whose requester ID, the warp that waits (0 for a granule of
the mailbox window, and for an item that waits by itself), whether the leaf is tracked. -/
structure Ask where
  line : Nat
  excl : Bool
  fn : Nat
  warp : Nat
  tracked : Bool
  deriving DecidableEq, Repr

/-- An access that waits for the host (R411, R414): the item that goes on when its response comes, 0 for an access made within a step, which finds the answer
here: whether the host refused it. -/
structure HostWait where
  inner : Nat
  ask : Ask
  refused : Option Bool
  deriving DecidableEq, Repr

/-- An acknowledgement on its way (R50, R258): fibres whose counts fall, tag, bits, invalidations whose confirmation is still open, by line, die and
whether they have reached the die's reserve, and items that must be gone first (R250, R399). -/
structure AckMsg where
  warp : Nat
  core : Nat
  lanes : List Nat
  seq : Option DWord
  exs : BitVec 9
  dies : List (Nat × Nat × Bool)
  gate : List Nat
  held : List HeldAcc
  code : BitVec 8
  out : Nat
  deriving DecidableEq, Repr

/-- A long-latency result (R210): per lane the logical registers and words still to write and the bits for csr.exsum, whether L1 is
invalidated with it (R274), cores whose publish it waits for (R268), the acknowledgement of its own write that it waits for, whether it answers a request of
the memory pipe (R9), whether its lanes share one counter until all of them have it (R290). -/
structure ResultMsg where
  dest : Dest
  vals : List (Nat × List (Nat × Word))
  exs : List (Nat × BitVec 9)
  inval : Bool
  pubs : List Nat
  seq : Option DWord
  tag : Option Nat
  req : Bool
  joint : Bool
  deriving DecidableEq, Repr

/-- A scratch write or read on its way to another core's store (R288): target granule and the generation it carries. -/
structure LateScr where
  warp : Nat
  lane : Nat
  core : Nat
  team : Nat
  gen : BitVec 16
  off : Nat
  bytes : List Byte
  deriving DecidableEq, Repr

/-- One lane of an LDC: team, offset, size, first logical register (R288). -/
structure LdcLane where
  lane : Nat
  core : Nat
  team : Nat
  off : Nat
  sz : Size
  dst : Nat
  deriving DecidableEq, Repr

/-- An LDC on its way to core stores (R256, R288); `rest` is the time from its reading to its result. -/
structure LdcReq where
  dest : Dest
  lanes : List LdcLane
  rest : Nat
  deriving DecidableEq, Repr

/-- An SCLD on its way (R322 to R324): reads still to end, when the others have all returned, the cycles in which the requests of its memory pipe among them
return (R9), the bytes for the scale store by lane and place, lanes that faulted meanwhile and write none. -/
structure ScldReq where
  core : Nat
  warp : Nat
  reads : Nat
  due : Nat
  dues : List Nat
  writes : List (Nat × Nat × Byte)
  lost : List Nat
  deriving DecidableEq, Repr

/-- What a port or a host access last answered (R213, R381, R411). -/
structure PortAnswer where
  ok : Bool
  tag : BitVec 16
  data : LineData
  deriving DecidableEq, Repr

/-- Started work; `remake` is a held write of a frame on its way again (R434); `port` is the answer of an access of the host or a peer that must follow other accesses (R250). -/
inductive Item where
  | result (m : ResultMsg)
  | read (r : ReadReq)
  | hbm (r : ReadReq) (spot : Spot) (miss : List Nat)
  | write (r : WriteReq)
  | ack (m : AckMsg)
  | rmw (r : RmwReq)
  | acc (r : AccReq)
  | row (r : RowReq)
  | fence (j : FenceJob)
  | reside (j : ResideJob)
  | part (j : PartJob)
  | rs (j : RsJob)
  | scld (r : ScldReq)
  | mma (j : MmaJob)
  | drain (j : DrainReq)
  | tile (j : DrainReq)
  | drainAck (j : DrainReq)
  | submit (j : SubmitJob)
  | engine (j : EngJob)
  | flagq (dest : Dest) (lanes : List (Nat × Nat))
  | stc (w : List LateScr)
  | ldc (r : LdcReq)
  | flip (r : FlipReq)
  | host (w : HostWait)
  | remake (warp : Nat) (h : HeldWrite)
  | port (gate : List Nat) (ans : PortAnswer)
  deriving DecidableEq, Repr

/-- An outstanding write of a fibre (R50, R262): the fibre, the item or entry that carries it, its line, its home die, whether it has been
sent, and what it reaches: 0 device, 1 peer, 2 host, 3 scratch. -/
structure OutWrite where
  id : Nat
  fibre : Nat
  line : Nat
  die : Nat
  sent : Bool
  dest : Nat
  deriving DecidableEq, Repr

/-- A launch record's fields (R188). -/
structure LaunchRec where
  entry : Pc
  param : DWord
  spillb : DWord
  rsb : DWord
  spills : Nat
  rss : Nat
  panels : Nat
  scratch : Nat
  fibres : Nat
  win : Nat
  stages : Nat
  width : Nat
  prio : Nat
  persistent : Bool
  idempotent : Bool
  strict : Bool
  hint : DWord
  deps : List DWord
  tag : DWord
  deriving DecidableEq, Repr

/-- A launch that a queue has taken (R193, R194); `places` gives the core at which each team was dispatched: it fixes the panel views (R205). -/
structure Launch where
  fn : Nat
  q : Nat
  seq : Nat
  ctx : Nat
  r : LaunchRec
  nextPanel : Nat
  undispatched : List Nat
  retiredTeams : Nat
  spawnedTeams : Nat
  exsum : BitVec 9
  faults : Nat
  start : Option Nat
  order : Nat
  epoch : Nat
  ending : Option Nat
  places : List (Nat × Nat)
  deriving DecidableEq, Repr

/-- A queue (R185). `head` counts records consumed; `valid` is the validated record at the head and
whether its dependences are met; `statuses` are the completed sequences with their status, `aborted` the sequences to abort at the head
(R408); `epoch` counts enables. -/
structure Queue where
  ring : DWord
  cring : DWord
  tail : Word
  head : Word
  logn : Nat
  weight : Nat
  ctx : Nat
  en : Bool
  irq : Bool
  err : Bool
  errcode : Nat
  done : Word
  credit : Nat
  valid : Option (LaunchRec × Bool)
  statuses : List (Nat × Nat)
  aborted : List Nat
  epoch : Nat
  deriving DecidableEq, Repr

/-- A context's registers (R245, R356, R370, R376, R381, R382, R392, R406); of the request for pre-emption in progress, the cores that the teams it takes off
use, and whether a launch of one of them has become FAULTED (R370). -/
structure Ctx where
  fn : Nat
  troot : DWord
  vtroot : DWord
  dblmap : DWord
  fring : DWord
  fhead : Word
  ftail : Word
  trapvec : DWord
  preq : DWord
  pcores : DWord
  saveb : DWord
  savesz : DWord
  nslot : DWord
  savevec : DWord
  restvec : DWord
  rstat : DWord
  cycles : Nat
  dbgctl : DWord
  bp : Vector DWord 8
  wp : Vector DWord 4
  vdt : DWord
  vdtNext : Option DWord
  slots : List Nat
  takeCores : List Nat
  takeFault : Bool
  openRecs : List (Nat × Nat)
  deriving DecidableEq, Repr

/-- A function (R406 to R408, R421, R422, R426). -/
structure Func where
  grant : Option GrantRec
  keys : List (Nat × Nat)
  fstat : DWord
  abort : DWord
  bias : DWord
  bstat : DWord
  served : List (Nat × Nat)
  turn : Nat
  deriving DecidableEq, Repr

/-- Firmware (R427 to R432): `minRoot` and `minMain` are the least versions its configuration blocks allow (R428). -/
structure Firmware where
  recovery : Bool
  blocksOk : Bool
  rootVersion : Nat
  mainVersion : Nat
  minRoot : Nat
  minMain : Nat
  staged : List FirmwareImage
  mhz : Nat
  shut : Bool
  deriving DecidableEq, Repr

/-- The sources of the Needle's log (R430): a codeword of HBM, a slice, a die link, an Ossel link, a page mapped both tracked and untracked
(R253), the thermal limit; a fault reported to a context has the source of its own. -/
inductive LogSource where
  | hbm | slice | dieLink | ossel | mapping | thermal | fault
  deriving DecidableEq, Repr

/-- An entry of the Needle's log (R430): cycle stamp, source, and the PA, granule or other numbers concerned. -/
structure LogRec where
  stamp : Nat
  source : LogSource
  what : List Nat
  deriving DecidableEq, Repr

/-- A line that a die's remote-line reserve holds: the die, the line, its way and age, the bytes filled (R398, R399). -/
structure ResLine where
  die : Nat
  line : Nat
  way : Nat
  age : Nat
  bytes : Assoc Byte
  deriving DecidableEq, Repr

/-- Directory state of a mailbox-window granule (R410). -/
inductive MbState where
  | i | s | o | h
  deriving DecidableEq, Repr

/-- The group in hand (R30, R41): warp (key team × 32 + warp), fibres of the batch, those of them a replayed word still runs in (R365), packet, its words, the group's first word, the
word being run, the words of the group after it, whether it cannot issue yet,
whether a transfer was taken (R39), whether it changed what the spin detector
watches (R201), the group's read cycles (R42), the first name that work the group starts may get, and the write-combining entries that a
group that cannot issue yet needs sent (R216, R262) and the granules it needs the host to give back, whether to write (R411). -/
structure Issue where
  warp : Nat
  lanes : Mask
  only : Mask
  pc : Pc
  ws : List Nat
  first : Nat
  word : Nat
  after : Nat
  stop : Bool
  xfer : Bool
  changed : Bool
  cyc : Nat
  name0 : Nat
  push : List Nat
  asks : List Ask
  deriving DecidableEq, Repr

/-- The data a group reads and writes besides memory: core-store granules, fibres, warps. -/
structure Local where
  gran : Assoc Granule
  fibres : Assoc Fibre
  warps : Assoc Warp
  deriving DecidableEq, Repr

/-- A word of an issued group that has still to take effect: it comes after a word that holds the batch, or its release is not met yet
(R262, R264). It keeps its batch under a hold of its own; `behind` is the hold it comes after; the group and the registers are those of its issue; `lost` is what it
writes, by lane and logical register, that a later word of its group has written (R41). -/
structure Tail where
  hold : Nat
  behind : Option Nat
  iss : Issue
  pre : Local
  lost : List (Nat × Nat)
  deriving DecidableEq, Repr

/-- What happens in the memory of a pod peer, of which this device sees only what its own accesses meet (R418, R420; DESIGN CHOICE, log entry 17): bytes are
written there, a granule becomes an ACCX range of the peer or ceases to be one, accesses to a line meet a fault of their home (0 ends that). -/
inductive PeerMove where
  | bytes (pa : Nat) (bs : List Byte)
  | accx (gran : Nat) (on : Bool)
  | fault (line : Nat) (code : BitVec 8)
  deriving DecidableEq, Repr

/-- One move of the outside or of the device: an event of the table, the merge of the batches of two lanes that have met (R154), an error
in the skein (R238), a change in a peer's memory (R418). -/
inductive Act where
  | ev (i : Instr)
  | merge (warp a b : Nat)
  | upset (u : Upset)
  | peer (m : PeerMove)
  deriving DecidableEq, Repr

/-- Started work with the cycle it falls due at. -/
structure Timed where
  due : Nat
  ev : Instr
  deriving DecidableEq, Repr

/-- The machine. -/
structure State where
  loc : Local
  pre : Local
  iss : Issue
  tails : List Tail
  teams : Assoc Team
  cores : Assoc Core
  clock : Nat
  nextId : Nat
  nextTeam : Nat
  agenda : List Act
  queue : List Timed
  evPhase : Bool
  choices : List Nat
  items : Assoc Item
  outs : List OutWrite
  mem : List Host.Cell
  parts : Assoc DWord
  rows : Assoc Row
  contracts : List Contract
  lost : List Lost
  accx : Assoc (BitVec 128)
  seqs : Assoc DWord
  track : Assoc (Nat × Bool)
  tlbs : List Tlb
  reserve : List ResLine
  sharers : List (Nat × Nat)
  bad : List Nat
  keyOf : Assoc Nat
  upsets : List Upset
  failedBanks : List (Nat × Nat × Nat)
  deadLinks : List (Nat × Nat)
  deadPeers : List Nat
  peerAccx : List Nat
  peerFaults : Assoc (BitVec 8)
  hostBias : List Nat
  mbOn : Bool
  mbbase : DWord
  mbhost : DWord
  pod : Nat
  peerRanges : List (Nat × Nat × Nat × Bool × Bool)
  mbox : Assoc MbState
  hostLines : List (Nat × Nat × Bool)
  refresh : Assoc (Nat × Int)
  launches : Assoc Launch
  queues : Assoc Queue
  ctxs : Assoc Ctx
  funcs : Assoc Func
  fnTurn : Nat
  harvest : List (Nat × Nat)
  firmware : Firmware
  log : List LogRec
  irqs : List Nat
  port : PortAnswer
  saved : Assoc Saved
  deriving DecidableEq, Repr

/-- Why the machine stops. -/
inductive Fault where
  /-- Raised by an event that names a core, die, ply, queue, function or context the machine does not have (R7 to R12). Safe: no
  such event can happen. -/
  | noSuchUnit
  deriving DecidableEq, Repr

/-- Why an instruction has no meaning. -/
inductive Refusal where
  /-- Raised by exec's arm of an instruction that has no meaning yet. Safe. -/
  | notModelled (mnemonic : String)
  /-- Raised by encode's other side: a word of the program store that step cannot decode raises a trap instead, so nothing raises
  this. Safe. -/
  | notAWord
  deriving DecidableEq, Repr

def FlagSt.zero : FlagSt := ⟨false, false, 0, 0⟩
def Spin.free : Spin := ⟨false, 0, 0, 0, false⟩
def Buf.empty : Buf := ⟨.free, 0, false, [], none⟩
/-- A fibre that is not there: it has ended. -/
def Fibre.absent : Fibre :=
  ⟨false, 0, 0, 0, 0, 0, 4, [], 0, 0, 0, 0, 0, 0, 0, .none, .none, 0, 0, 0, 0, 0, 0, false, []⟩
/-- A warp that is not there. -/
def Warp.absent : Warp :=
  ⟨false, Vector.replicate 12 0, Vector.replicate 12 FlagSt.zero, [], 0, 0, [], [], [], 0, 0, [], Spin.free, 0, 0, false, [], 0, [],
    0, [], [], 1⟩
def Grant.none_ : Grant := ⟨[], [], 0, []⟩
/-- A team that is not there. -/
def Team.absent : Team :=
  ⟨.retired, 0, 0, 0, 0, 0, 0, 0, 0, 64, 0, false, Grant.none_, Vector.replicate 16 ⟨0, 0, Vector.replicate 4 0, false⟩, 0, false, false, false, 0,
    false, [], 0, 0, 0, 0, 0, none⟩
/-- A core that has run nothing since reset (DESIGN CHOICE, log entries 1, 2). -/
def Core.idle : Core :=
  ⟨none, 0, 0, [], none, 0, 0, 0, 0, 0, [], [], [], Vector.replicate 4 Buf.empty, [], none, false, Vector.replicate 8 0, Vector.replicate 4 0⟩
def Granule.void : Granule := ⟨0, Vector.replicate 16 0⟩
def Barrier.start (e : Nat) : Barrier := ⟨e, 0, Vector.replicate 4 0, false⟩
def Ctx.reset : Ctx :=
  ⟨0, 0, 0, 0, 0, 0, 0, 0, 0, 0, 0, 0, 0, 0, 0, 0, 0, 0, Vector.replicate 8 0, Vector.replicate 4 0, 0, none, [], [], false, []⟩
def Queue.reset : Queue := ⟨0, 0, 0, 0, 0, 0, 0, false, false, false, 0, 0, 0, none, [], [], 0⟩
def Func.reset : Func := ⟨none, [], 0, 0, 0, 0, [], 0⟩
def Local.empty : Local := ⟨[], [], []⟩
def Issue.none_ : Issue := ⟨0, 0, BitVec.allOnes 32, 0, [], 0, 0, 0, false, false, false, 1, 0, [], []⟩
/-- The value of a partition register at reset (R221). -/
def partReset : DWord := 0x0010101000000000

/-- The machine right after reset. Lists that hold only what differs from a default are empty; log entries 1 to 6 (DESIGN CHOICE) name the values
the spec does not give. -/
def State.reset : State where
  loc := Local.empty
  pre := Local.empty
  iss := Issue.none_
  tails := []
  teams := []
  cores := []
  clock := 0
  nextId := 1
  nextTeam := 1
  agenda := []
  queue := []
  evPhase := false
  choices := []
  items := []
  outs := []
  mem := []
  parts := []
  rows := []
  contracts := []
  lost := []
  accx := []
  seqs := []
  track := []
  tlbs := []
  reserve := []
  sharers := []
  bad := []
  keyOf := []
  upsets := []
  failedBanks := []
  deadLinks := []
  deadPeers := []
  peerAccx := []
  peerFaults := []
  hostBias := []
  mbOn := false
  mbbase := 0
  mbhost := 0
  pod := 0
  peerRanges := []
  mbox := []
  hostLines := []
  refresh := []
  launches := []
  queues := []
  ctxs := []
  funcs := []
  fnTurn := 0
  harvest := (List.range 16).flatMap fun c => [(c, 46), (c, 47)]
  firmware := ⟨false, true, 0, 0, 0, 0, [], 2000, false⟩
  log := []
  irqs := []
  port := ⟨false, 0, 0⟩
  saved := []

end Sys2Proof.Machine
end

