-- ==== Sys2Proof/Machine/Ops.lean ====
section
/-! DEFINITION. The named operations over registers, fibres, warps, teams and cores: sparse tables, the batch in hand, the register
window and its granules (spec/02, spec/13), exception bits, flags of a group, traps (spec/24) and timed work. -/

namespace Sys2Proof.Machine

/-! ### Tables -/

/-- What a table lists for a key. -/
def aget {α : Type} : Assoc α → Nat → Option α
  | [], _ => none
  | (k', v) :: t, k => if k' = k then some v else aget t k
/-- Lists a value for a key, keys rising. -/
def aset {α : Type} : Assoc α → Nat → α → Assoc α
  | [], k, v => [(k, v)]
  | (k', v') :: t, k, v => if k' < k then (k', v') :: aset t k v else if k' = k then (k, v) :: t else (k, v) :: (k', v') :: t
/-- Removes a key. -/
def adel {α : Type} : Assoc α → Nat → Assoc α
  | [], _ => []
  | (k', v) :: t, k => if k' = k then adel t k else (k', v) :: adel t k

/-- Puts an element before the first one it may stand before; sorts by that, equal ones in the order they come. -/
def insertBy {α : Type} (le : α → α → Bool) (x : α) : List α → List α
  | [] => [x]
  | y :: t => if le x y then x :: y :: t else y :: insertBy le x t
def sortBy {α : Type} (le : α → α → Bool) : List α → List α
  | [] => []
  | x :: t => insertBy le x (sortBy le t)

/-- Lanes 0 to 31. -/
def allLanes : List Nat :=
  [0, 1, 2, 3, 4, 5, 6, 7, 8, 9, 10, 11, 12, 13, 14, 15, 16, 17, 18, 19, 20, 21, 22, 23, 24, 25, 26, 27, 28, 29, 30, 31]
/-- The lanes of a mask, rising. -/
def lanesOf (m : Mask) : List Nat := allLanes.filter fun l => m.getLsbD l
/-- The mask of a list of lanes. -/
def maskOf (ls : List Nat) : Mask := ls.foldl (fun m l => m ||| BitVec.twoPow 32 l) 0

/-- The team of a warp key, the warp within its team. -/
def teamOf (w : Nat) : Nat := w / 32
def warpIx (w : Nat) : Nat := w % 32
/-- The key of a warp of a team, of a fibre of a warp. -/
def warpKey (t w : Nat) : Nat := t * 32 + w
def fibKey (w l : Nat) : Nat := w * 32 + l

def Local.fib (l : Local) (k : Nat) : Fibre := (aget l.fibres k).getD Fibre.absent
def Local.warp (l : Local) (w : Nat) : Warp := (aget l.warps w).getD Warp.absent
def Local.granule (l : Local) (g : Nat) : Granule := (aget l.gran g).getD Granule.void

namespace State
def team (s : State) (t : Nat) : Team := (aget s.teams t).getD Team.absent
def setTeam (s : State) (t : Nat) (x : Team) : State := { s with teams := aset s.teams t x }
def core (s : State) (c : Nat) : Core := (aget s.cores c).getD Core.idle
def setCore (s : State) (c : Nat) (x : Core) : State := { s with cores := aset s.cores c x }
def fib (s : State) (k : Nat) : Fibre := s.loc.fib k
def setFib (s : State) (k : Nat) (f : Fibre) : State := { s with loc := { s.loc with fibres := aset s.loc.fibres k f } }
def warp (s : State) (w : Nat) : Warp := s.loc.warp w
def setWarp (s : State) (w : Nat) (x : Warp) : State := { s with loc := { s.loc with warps := aset s.loc.warps w x } }
def granule (s : State) (g : Nat) : Granule := s.loc.granule g
def setGranule (s : State) (g : Nat) (x : Granule) : State := { s with loc := { s.loc with gran := aset s.loc.gran g x } }
def ctx (s : State) (c : Nat) : Ctx := (aget s.ctxs c).getD Ctx.reset
def setCtx (s : State) (c : Nat) (x : Ctx) : State := { s with ctxs := aset s.ctxs c x }
def func (s : State) (f : Nat) : Func := (aget s.funcs f).getD Func.reset
def setFunc (s : State) (f : Nat) (x : Func) : State := { s with funcs := aset s.funcs f x }
/-- Queue q of a function. -/
def queueOf (s : State) (fn q : Nat) : Queue := (aget s.queues (fn * 64 + q)).getD Queue.reset
def setQueue (s : State) (fn q : Nat) (x : Queue) : State := { s with queues := aset s.queues (fn * 64 + q) x }

/-- The team of the group in hand. -/
def myTeam (s : State) : Team := s.team (teamOf s.iss.warp)
def myWarp (s : State) : Warp := s.warp s.iss.warp
/-- A fibre of the batch's warp as it stands now, and as it stood before the group (R41). -/
def lane (s : State) (l : Nat) : Fibre := s.fib (fibKey s.iss.warp l)
def laneBefore (s : State) (l : Nat) : Fibre := s.pre.fib (fibKey s.iss.warp l)
def setLane (s : State) (l : Nat) (f : Fibre) : State := s.setFib (fibKey s.iss.warp l) f

/-- The word cannot issue in this cycle: it waits for something, or a unit it needs is taken (R199). -/
def stopped (s : State) : State := { s with iss := { s.iss with stop := true } }
/-- The word cannot issue before entries of the write-combining buffer have been sent (R216, R262). -/
def stoppedBehind (s : State) (ids : List Nat) : State := { s with iss := { s.iss with stop := true, push := s.iss.push ++ ids } }
/-- Marks a change that the spin detector watches (R201). -/
def marked (s : State) : State := { s with iss := { s.iss with changed := true } }
/-- Marks it for a word that issues in some lane; one without an active fibre does nothing (R35, R201; DEDUCED, log entry 93). -/
def markedFor (s : State) (ls : List Nat) : State := if ls.isEmpty then s else s.marked
/-- A fresh name for started work. -/
def named (s : State) : State := { s with nextId := s.nextId + 1 }
end State

/-- A predicate of a fibre; p7 reads 1 (R13). -/
def Fibre.pred (f : Fibre) (p : Nat) : Bool := if p = 7 then true else f.preds.getLsbD p
/-- Writes a predicate; a write to p7 is discarded (R13). -/
def Fibre.setPred (f : Fibre) (p : Nat) (b : Bool) : Fibre :=
  if p < 7 then { f with preds := if b then f.preds ||| BitVec.twoPow 7 p else f.preds &&& ~~~(BitVec.twoPow 7 p) } else f
/-- The guard of a word in a fibre (R35). -/
def guardTrue (h : Hdr) (f : Fibre) : Bool := f.pred h.p.toNat != h.n

namespace State
/-- The active fibres of the batch for a word, rising: members whose guard, read before the group, is true (R6, R35). -/
def active (s : State) (h : Hdr) : List Nat := (lanesOf (s.iss.lanes &&& s.iss.only)).filter fun l => guardTrue h (s.laneBefore l)
end State

/-! ### The register window (R13 to R15, R206 to R209) -/

/-- Granule i of a run of places: (first granule, how many) each. -/
def placeAt : List (Nat × Nat) → Nat → Nat
  | [], i => i
  | (b, n) :: t, i => if i < n then b + i else placeAt t (i - n)
/-- The granule that holds logical register lr of a lane: block floor((lr mod A) / 16) of the fibre's part of the windows. -/
def Team.regGranule (t : Team) (w l lr : Nat) : Nat :=
  t.core * 16384 + placeAt t.grant.win ((warpIx w * 32 + l) * (t.alloc / 16) + lr % t.alloc / 16)
/-- What a granule reads to a generation (R208): its contents under that tag, else zero. -/
def Granule.read (g : Granule) (gen : BitVec 16) (i : Nat) : Word := if g.tag = gen then g.data.toList.getD i 0 else 0
/-- A granule after a write of one word under a generation (R209): a foreign tag is claimed, its other bytes become zero. -/
def Granule.write (g : Granule) (gen : BitVec 16) (i : Nat) (v : Word) : Granule :=
  if h : i < 16 then ⟨gen, (if g.tag = gen then g.data else Vector.replicate 16 0).set i v⟩ else g

/-- Logical register lr of a lane of a warp, as a Local holds it. -/
def Local.readLogical (x : Local) (t : Team) (w l lr : Nat) : Word := (x.granule (t.regGranule w l lr)).read t.grant.gen (lr % 16)

namespace State
/-- Logical register lr of a lane of any warp, now. -/
def logical (s : State) (w l lr : Nat) : Word := s.loc.readLogical (s.team (teamOf w)) w l lr
/-- Writes logical register lr of a lane of any warp. -/
def setLogical (s : State) (w l lr : Nat) (v : Word) : State :=
  let t := s.team (teamOf w)
  let g := t.regGranule w l lr
  s.setGranule g ((s.granule g).write t.grant.gen (lr % 16) v)
/-- Drops operand-latch entries of written registers of a warp (R43). -/
def dropSlots (s : State) (w : Nat) (lrs : List Nat) : State :=
  let t := s.team (teamOf w)
  let x := s.core t.core
  s.setCore t.core { x with latch := x.latch.filter fun e => !(e.warp == w && lrs.any fun r => e.slots.contains (r % t.alloc)) }
/-- The loop that a warp's spin detector watches has changed something in a lane: arming, count and demotion end at once (R164, R201). -/
def spinChanged (s : State) (w l : Nat) : State :=
  let x := s.warp w
  if x.spin.lanes.getLsbD l then s.setWarp w { x with spin := Spin.free } else s
/-- Writes logical register lr of a lane after its word has left the port: its latch entry is gone (R43), and a value that differs ends the
spin detector's watch (R201). -/
def lateReg (s : State) (w l lr : Nat) (v : Word) : State :=
  let s0 := if s.logical w l lr = v then s else s.spinChanged w l
  (s0.setLogical w l lr v).dropSlots w [lr]
/-- The same for a pair of logical registers. -/
def latePair (s : State) (w l lr : Nat) (v : DWord) : State :=
  (s.lateReg w l lr (v.setWidth 32)).lateReg w l (lr + 1) ((v >>> 32).setWidth 32)
/-- Source register vn of a lane of the batch, as it stood before the group (R41); windows count from WB (R13). -/
def src (s : State) (l : Nat) (r : Nat) : Word := s.pre.readLogical s.myTeam s.iss.warp l ((s.laneBefore l).wb + r)
/-- Source pair xn (R14). -/
def srcPair (s : State) (l : Nat) (r : Nat) : DWord := s.src l (r + 1) ++ s.src l r
/-- Writes vn of a lane of the batch, in the window as it stood before the group. -/
def setReg (s : State) (l : Nat) (r : Nat) (v : Word) : State :=
  let lr := (s.laneBefore l).wb + r
  let s' := s.setLogical s.iss.warp l lr v
  if s.logical s.iss.warp l lr = v then s' else s'.marked
/-- Writes pair xn: bits 31:0 into vn, bits 63:32 into the next (R14). -/
def setPair (s : State) (l : Nat) (r : Nat) (v : DWord) : State :=
  (s.setReg l r (v.setWidth 32)).setReg l (r + 1) ((v >>> 32).setWidth 32)
/-- Writes a predicate of a lane. -/
def setPredOf (s : State) (l : Nat) (p : Nat) (b : Bool) : State :=
  let f := s.lane l
  let s' := s.setLane l (f.setPred p b)
  if f.pred p = b || p = 7 then s' else s'.marked

/-- One register of every active fibre. -/
def writeRegs (s : State) (h : Hdr) (d : Reg) (val : Nat → Word) : State :=
  (s.active h).foldl (fun t l => t.setReg l d.toNat (val l)) s
/-- One pair of every active fibre. -/
def writePairs (s : State) (h : Hdr) (d : Reg) (val : Nat → DWord) : State :=
  (s.active h).foldl (fun t l => t.setPair l d.toNat (val l)) s
/-- A condition into pd and its complement into pe, pe last (R38). -/
def writePreds (s : State) (h : Hdr) (pd pe : PredIx) (val : Nat → Bool) : State :=
  (s.active h).foldl (fun t l => (t.setPredOf l pd.toNat (val l)).setPredOf l pe.toNat (!val l)) s

/-- ORs bits into a team's csr.exsum (R93). -/
def addEx (s : State) (t : Nat) (b : BitVec 9) : State :=
  let x := s.team t
  s.setTeam t { x with exsum := x.exsum ||| b }
/-- ORs bits into the batch's team. -/
def raiseEx (s : State) (b : BitVec 9) : State := s.addEx (teamOf s.iss.warp) b

/-! ### Device choices and timed work -/

/-- The next choice the device makes among n, 0 when the outside names none. -/
def choice (s : State) (n : Nat) : Nat := s.choices.headD 0 % n
def chosen (s : State) : State := { s with choices := s.choices.tail }
/-- Puts an event into the queue, in the order of due cycles, later ones after earlier ones of the same cycle. -/
def later (s : State) (delay : Nat) (e : Instr) : State :=
  { s with queue := insertTimed s.queue ⟨s.clock + delay, e⟩ }
where
  /-- Inserts by due cycle. -/
  insertTimed : List Timed → Timed → List Timed
    | [], x => [x]
    | y :: ys, x => if x.due < y.due then x :: y :: ys else y :: insertTimed ys x
def item (s : State) (id : Nat) : Option Item := aget s.items id
def putItem (s : State) (id : Nat) (i : Item) : State := { s with items := aset s.items id i }
def dropItem (s : State) (id : Nat) : State := { s with items := adel s.items id }
/-- Starts work under the next name. -/
def start (s : State) (i : Item) : State := (s.putItem s.nextId i).named

/-- Adds an entry to the Needle's log. -/
def needle (s : State) (src : LogSource) (what : List Nat) : State := { s with log := s.log ++ [⟨s.clock, src, what⟩] }
end State

/-! ### Batches (R152 to R154) -/

/-- What tells two groups of live fibres of a warp apart: their batch, packet and word. -/
def sameBatch (a b : Fibre) : Bool := a.live && b.live && a.batch == b.batch && a.pc == b.pc && a.word == b.word

namespace State
/-- The batch of a lane: the live fibres of its warp that share its batch number and stand where it stands, waiting like it. -/
def batchOf (s : State) (w l : Nat) : Mask :=
  let f := s.fib (fibKey w l)
  maskOf (allLanes.filter fun k => let g := s.fib (fibKey w k); sameBatch f g && g.wait == f.wait)
/-- Gives the lanes of a mask a batch number of their own. -/
def rebatch (s : State) (w : Nat) (m : Mask) : State :=
  let x := s.warp w
  let s1 := (lanesOf m).foldl (fun s l => s.setFib (fibKey w l) { s.fib (fibKey w l) with batch := x.nextBatch }) s
  s1.setWarp w { s1.warp w with nextBatch := x.nextBatch + 1 }
/-- Puts fibres at a packet and word. -/
def sendTo (s : State) (w : Nat) (ls : List Nat) (pc : Pc) (word : Nat) : State :=
  ls.foldl (fun s l => s.setFib (fibKey w l) { s.fib (fibKey w l) with pc := pc, word := word }) s
/-- Live fibres of a warp as a mask. -/
def liveMask (s : State) (w : Nat) : Mask := maskOf (allLanes.filter fun l => (s.fib (fibKey w l)).live)
/-- Waits of the fibres of a warp end in the lanes of a mask. -/
def endWaits (s : State) (w : Nat) (m : Mask) : State :=
  (lanesOf m).foldl (fun s l => s.setFib (fibKey w l) { s.fib (fibKey w l) with wait := .none, since := s.clock }) s
/-- Drops the operand-latch entries of a warp (R43). -/
def dropLatch (s : State) (w : Nat) : State :=
  let c := (s.team (teamOf w)).core
  let x := s.core c
  s.setCore c { x with latch := x.latch.filter fun e => e.warp != w }
/-- Ends the spin detector's watch of a warp (R201). -/
def endSpin (s : State) (w : Nat) : State := s.setWarp w { s.warp w with spin := Spin.free }
end State

/-! ### Traps (R350 to R354) -/

/-- The class of a trap code (R350): service, else handler. A permission trap of a leaf is service as well; its origin says so. -/
def serviceCode (code : BitVec 8) (fromLeaf : Bool) : Bool :=
  code == 0x10 || code == 0x20 || code == 0x21 || (code == 0x11 && fromLeaf)

/-- What a trap says besides where it stands. -/
structure TrapInfo where
  kind : TrapKind
  code : BitVec 8
  leaf : Bool
  swcode : BitVec 8
  addr : DWord
  flanes : Mask
  done : Mask
  deriving DecidableEq, Repr

/-- The number of words of the group that starts at word i of a packet (R30). -/
def groupEnd (ws : List Nat) (i : Nat) : Nat := i + groupLength ws i

/-- The place of the group after word i's group: packet and word (R30). -/
def nextPlace (ws : List Nat) (pc : Pc) (first : Nat) : Pc × Nat :=
  let e := groupEnd ws first
  if e < 3 then (pc, e) else (pc + 1, 0)

namespace State
/-- Stops the trapping warp and every sibling: a sibling's skid is the device's choice, at most 12 groups (R352); a stop for pre-emption within another one
leaves the count of that one (R377). A halted warp loses its latch entries and the spin detector's watch (R43, R201). -/
def setSkids (s : State) (t trapper : Nat) : State :=
  (List.range (s.team t).warps).foldl (fun s i =>
    let w := warpKey t i
    let quiet := i = trapper || 1 < (s.team t).halts.length
    let n := if quiet then 0 else s.choice 13
    let s1 := if quiet then s else s.chosen
    let kept := 1 < (s.team t).halts.length && (s.team t).halts.head?.any fun h => h.kind == .preempt
    (s1.setWarp w { s1.warp w with skid := if kept then (s1.warp w).skid else 0, skidLeft := n, skidPkts := [], spin := Spin.free }).dropLatch w) s

/-- The halt a trap of the word in hand begins (R351, R358). -/
def haltOf (s : State) (i : TrapInfo) : Halt :=
  let place := match i.kind with
    | .precise => (s.iss.pc, s.iss.first)
    | .lane => (s.iss.pc, s.iss.word)
    | _ => nextPlace s.iss.ws s.iss.pc s.iss.first
  { kind := i.kind, phase := .stopping, code := i.code, swcode := i.swcode, warp := warpIx s.iss.warp, lanes := s.iss.lanes,
    pc := place.1, word := place.2, rpl := i.kind == .lane, wt := false, addr := i.addr, done := i.done, flanes := i.flanes,
    db := 0, service := serviceCode i.code i.leaf, ws := s.iss.ws, seq := 0, failed := s.iss.word, ended := none, dbg := false, key := 0 }

/-- Where the batch stands when its halt begins: a precise trap puts its fibres back at the group's first word (R351). -/
def parkBatch (s : State) (precise : Bool) : State :=
  if precise then s.sendTo s.iss.warp (lanesOf s.iss.lanes) s.iss.pc s.iss.first else s

/-- Records the word in hand, or the word a halt names, as the warp's pending word (R352). -/
def pendWord (s : State) (pc : Pc) (word : Nat) (ws : List Nat) (done : Mask) (code : BitVec 8) : State :=
  let w := s.myWarp
  let lvl := (s.team (teamOf s.iss.warp)).halts.length
  s.setWarp s.iss.warp { w with pend := w.pend ++ [⟨pc, word, ws, done, code, lvl, 0⟩], skidLeft := 0 }

/-- Begins a halt of a team for a trap of one of its warps (R352): the halt, the skids, the watch of the spin detector; the record
follows once the halt is complete. Where the team was stepped, the new halt takes the place of the old one (R384). In a team whose launch has ended no halt
begins (R363). -/
def beginHalt (s : State) (w : Nat) (h : Halt) : State :=
  let tk := teamOf w
  let t := s.team tk
  let rest := if (t.halts.head?.map Halt.phase) == some .stepping then t.halts.tail else t.halts
  if ((aget s.launches t.launch).bind Launch.ending).isSome then s
  else ((s.setTeam tk { t with halts := h :: rest }).setSkids tk (warpIx w)).later 1 (.faultRecordWrite tk)

/-- Takes a trap of the word in hand (R350 to R352): the team halts, its halt says what the record will say, and the batch's
fibres stand at the resume point. In a team that is halted already, a lane fault becomes the warp's pending word, an after-kind
trap of the same group takes the lane fault's place, a fault of a word that takes effect after its group is pending as well (R354), and any other trap
keeps the group from issuing. -/
def takeTrap (s : State) (i : TrapInfo) : State :=
  let tk := teamOf s.iss.warp
  let begin_ (s : State) : State := let s2 := s.parkBatch (i.kind == .precise); s2.beginHalt s.iss.warp (s2.haltOf i)
  match (s.team tk).halts with
  | [] => begin_ s
  | h :: rest =>
    if h.phase = .handler || h.phase = .stepping || h.phase = .saving || h.phase = .restoring then begin_ s
    else if i.kind = .lane then s.pendWord s.iss.pc s.iss.word s.iss.ws i.done i.code
    else if i.kind = .after && h.kind = .lane && h.warp = warpIx s.iss.warp then
      let s1 := s.pendWord h.pc h.word h.ws h.done h.code
      s1.setTeam tk { s1.team tk with halts := s1.haltOf i :: rest }
    else if s.iss.name0 != 0 then s.pendWord s.iss.pc s.iss.word s.iss.ws i.done i.code
    else s.stopped

/-- A precise trap of the word in hand: no word of the group takes effect (R351). -/
def trapPrecise (s : State) (code : BitVec 8) (leaf : Bool) (flanes : List Nat) (addr : DWord) : State :=
  s.takeTrap ⟨.precise, code, leaf, 0, addr, maskOf flanes, ~~~s.iss.lanes⟩
/-- An after-kind trap (R351, R367). -/
def trapAfter (s : State) (code swcode : BitVec 8) (flanes : List Nat) : State :=
  s.takeTrap ⟨.after, code, false, swcode, 0, maskOf flanes, ~~~s.iss.lanes⟩
/-- A lane fault (R351, R358): each faulting lane with its code, whether a leaf refused it, its address. The lowest lane decides. -/
def trapLanes (s : State) (fs : List (Nat × BitVec 8 × Bool × DWord)) : State :=
  match fs with
  | [] => s
  | (_, code, leaf, addr) :: _ =>
    s.takeTrap ⟨.lane, code, leaf, 0, addr, maskOf ((fs.filter fun f => f.2.1 == code).map (·.1)), ~~~(maskOf (fs.map (·.1)))⟩

end State

/-! ### Long-latency results (R44 to R46, R210) -/

namespace State
/-- A new allowance counter for a word of the batch in its active fibres (R45), under the next name. -/
def withCounter (s : State) (ls : List Nat) (la : Nat) : State :=
  let w := s.myWarp
  (s.setWarp s.iss.warp { w with counters := w.counters ++ [⟨s.nextId, ls.map fun l => (l, la - s.iss.after)⟩] }).named
/-- Runs a long-latency word: nothing without an active fibre (R46), no issue without a free counter (R45), else the counter and
the rest, which gets the counter's name. -/
def longWord (s : State) (ls : List Nat) (la : Nat) (k : State → Nat → State) : State :=
  if ls.isEmpty then s else if 8 ≤ s.myWarp.counters.length then s.stopped else k (s.withCounter ls la) s.nextId
/-- Where the batch's results go (R210). -/
def destOf (s : State) (cid : Nat) : Dest := ⟨s.iss.warp, s.myTeam.core, s.myTeam.grant.gen, cid⟩
/-- Sends a result that falls due after a delay. -/
def startResult (s : State) (m : ResultMsg) (delay : Nat) : State :=
  (s.start (.result m)).later delay (.longLatencyResult s.nextId (BitVec.allOnes 32) (BitVec.allOnes 16))
/-- The logical number of vn of a lane of the batch (R133). -/
def logicalOf (s : State) (l : Nat) (r : Nat) : Nat := (s.laneBefore l).wb + r
/-- Holds lanes of the batch's warp, or the whole warp, until an item ends (R354). -/
def holdFor (s : State) (id : Nat) (ls : List Nat) (whole : Bool) : State :=
  s.setWarp s.iss.warp { s.myWarp with holds := s.myWarp.holds ++ [⟨id, maskOf ls, whole⟩] }
/-- Ends a hold. -/
def unhold (s : State) (w id : Nat) : State := s.setWarp w { s.warp w with holds := (s.warp w).holds.filter fun h => h.id != id }
end State

end Sys2Proof.Machine
end

