-- ==== Sys2Proof/Machine/Operands.lean ====
section
/-! DEFINITION. Operand forms: immediates, shift amounts, signed and unsigned readings, and the registers a word reads (R42). -/

namespace Sys2Proof.Machine

/-- What a step can answer. -/
abbrev Out := Host.Outcome State Fault Refusal

/-- A 7-bit immediate, sign-extended and not (R99). -/
def immS (i : BitVec 7) : Word := i.signExtend 32
def immU (i : BitVec 7) : Nat := i.toNat
/-- A predicate operand, negated or not (R107, R108). -/
def State.srcPred (s : State) (l : Nat) (p : PredIx) (neg : Bool) : Bool := (s.laneBefore l).pred p.toNat != neg
/-- A 32-bit value, a pair's value from its two registers (R14). -/
def State.srcR (s : State) (r : Reg) (l : Nat) : Word := s.src l r.toNat
def State.srcX (s : State) (r : Reg) (l : Nat) : DWord := s.srcPair l r.toNat

/-- Shifts under R95. -/
def shl32 (v : Word) (n : Nat) : Word := if 32 ≤ n then 0 else v <<< n
def shr32 (v : Word) (n : Nat) : Word := if 32 ≤ n then 0 else v >>> n
def sar32 (v : Word) (n : Nat) : Word := if 32 ≤ n then (if v.msb then BitVec.allOnes 32 else 0) else v.sshiftRight n
def shl64 (v : DWord) (n : Nat) : DWord := if 64 ≤ n then 0 else v <<< n
def shr64 (v : DWord) (n : Nat) : DWord := if 64 ≤ n then 0 else v >>> n
def sar64 (v : DWord) (n : Nat) : DWord := if 64 ≤ n then (if v.msb then BitVec.allOnes 64 else 0) else v.sshiftRight n

/-- Width and writability of a CSR number; none where R137 and R361 assign none. -/
structure CsrInfo where
  wide : Bool
  writable : Bool
  handler : Bool
  deriving DecidableEq, Repr

def csrInfo (n : Nat) : Option CsrInfo :=
  if (1 ≤ n && n ≤ 9) || (0x80 ≤ n && n ≤ 0x8F) then some ⟨false, false, false⟩
  else if n = 0x10 || n = 0x12 then some ⟨true, true, false⟩
  else if n = 0x14 then some ⟨false, true, false⟩
  else if n = 0x16 || n = 0x18 || n = 0x1A then some ⟨true, false, false⟩
  else if n = 0x100 then some ⟨true, true, true⟩
  else if n = 0x102 || n = 0x104 || n = 0x10A then some ⟨true, false, true⟩
  else if n = 0x106 then some ⟨false, false, true⟩
  else if n = 0x107 || n = 0x108 then some ⟨false, true, true⟩
  else none

/-- n registers from r on. -/
def regRun (r : Reg) (n : Nat) : List Nat := (List.range n).map (r.toNat + ·)

/-- The data registers a word reads through the issue port, pairs and wide operands register by register, a destination that the word reads
among them (R42, R110). The images of a matrix word are read over another path (R297). -/
def readsOf : Instr → List Nat
  | .add _ _ a b _ | .sub _ _ a b _ | .mullo _ _ a b _ | .mulhi _ _ a b _ | .mulhu _ _ a b _ | .min _ _ a b _ | .max _ _ a b _
  | .and _ _ a b _ | .or _ _ a b _ | .xor _ _ a b _ | .andn _ _ a b _ | .shl _ _ a b _ | .shr _ _ a b _ | .sar _ _ a b _
  | .rotl _ _ a b _ | .mulw _ _ a b _ | .minu _ _ a b _ | .maxu _ _ a b _ | .bfe _ _ a b _ | .bfeu _ _ a b _ | .div _ _ a b _
  | .divu _ _ a b _ | .rem _ _ a b _ | .remu _ _ a b _ | .fcmp _ _ _ a b _ | .fadd _ _ a b _ | .fsub _ _ a b _
  | .fmul _ _ a b _ | .fmin _ _ a b _ | .fmax _ _ a b _ | .fminn _ _ a b _ | .fmaxn _ _ a b _ | .hadd2 _ _ a b _
  | .hmul2 _ _ a b _ | .hmin2 _ _ a b _ | .hmax2 _ _ a b _ | .badd2 _ _ a b _ | .bmul2 _ _ a b _ | .upk8 _ _ a b _
  | .upk6 _ _ a b _ | .upk4 _ _ a b _ | .sel _ _ a b _ _ | .shfl _ _ a b _ | .shflup _ _ a b _ | .shfldn _ _ a b _
  | .shflx _ _ a b _ => [a.toNat, b.toNat]
  | .hops _ _ a b => [a.toNat, b.toNat]
  | .permb _ d a b _ | .bfi _ d a b _ | .funl _ d a b _ | .ffma _ d a b _ | .hfma2 _ d a b _ | .bfma2 _ d a b _ =>
    [a.toNat, b.toNat, d.toNat]
  | .add64 _ _ a b _ | .sub64 _ _ a b _ | .dcmp _ _ _ a b _ | .dadd _ _ a b _ | .dsub _ _ a b _ | .dmul _ _ a b _
  | .dmin _ _ a b _ | .dmax _ _ a b _ | .dminn _ _ a b _ | .dmaxn _ _ a b _ => regRun a 2 ++ regRun b 2
  | .dfma _ d a b _ => regRun a 2 ++ regRun b 2 ++ regRun d 2
  | .shl64 _ _ a b _ | .shr64 _ _ a b _ | .sar64 _ _ a b _ => regRun a 2 ++ [b.toNat]
  | .addi _ _ a _ | .andi _ _ a _ | .ori _ _ a _ | .xori _ _ a _ | .shli _ _ a _ | .shri _ _ a _ | .sari _ _ a _ | .muli _ _ a _
  | .popc _ _ a | .clz _ _ a | .ctz _ _ a | .brev _ _ a | .not _ _ a | .neg _ _ a | .abs _ _ a | .sextb _ _ a | .sexth _ _ a
  | .icmpi _ _ _ a _ _ | .frcp _ _ a _ | .frsq _ _ a _ | .fsqrt _ _ a _ | .fex2 _ _ a _ | .flg2 _ _ a _ | .fsin _ _ a _
  | .fcos _ _ a _ | .ftanh _ _ a _ | .wredadd _ _ a _ _ | .wredmin _ _ a _ _ | .wredmax _ _ a _ _ | .lds _ _ a _ _
  | .ldc _ _ a _ _ | .genq _ _ a => [a.toNat]
  | .icmp _ _ _ a b k => if k.wide then regRun a 2 ++ regRun b 2 else [a.toNat, b.toNat]
  | .drcp _ _ a _ | .drsq _ _ a _ | .dsqrt _ _ a _ | .ld _ _ a _ _ _ | .lda _ _ a _ _ | .rowld _ _ a _ | .publish _ a _
  | .unreside _ _ a | .brr _ a | .callr _ a _ => regRun a 2
  | .cvt _ _ a _ src => if src.isWide then regRun a 2 else [a.toNat]
  | .pke4m3 _ d a b _ | .pke5m2 _ d a b _ | .pke3m2 _ d a b _ | .pke2m3 _ d a b _ | .pke2m1 _ d a b _ =>
    regRun a 2 ++ [b.toNat, d.toNat]
  | .movhi _ d _ => [d.toNat]
  | .st _ a b sz _ | .stl _ a b sz _ => regRun a 2 ++ regRun b sz.regs
  | .sts _ a b sz | .stc _ a b sz => a.toNat :: regRun b sz.regs
  | .rowst _ a b => regRun a 2 ++ regRun b 16
  | .accadd _ a b kd => regRun a 2 ++ regRun b (if kd == .acc64 then 2 else 1)
  | .reside _ _ a => regRun a 4
  | .atom _ d a op w _ | .red _ d a op w => regRun a 2 ++ regRun d ((if op == .cas then 2 else 1) * (if w then 2 else 1))
  | .mma _ _ _ f _ fn | .mma64 _ _ _ f _ fn => regRun f (if fn == .start || fn == .chain then 1 else 3)
  | .scld _ a col => regRun a 2 ++ [col.toNat]
  | .scldScr _ a col => [a.toNat, col.toNat]
  | .mdrain _ _ f => regRun f 3
  | .fmtq _ _ f => [f.toNat]
  | .tcopy _ a | .tcast _ a | .hgath _ a | .hred _ a | .hcvt _ a => regRun a 8
  | .maskwr _ _ v => [v.toNat]
  | .spawn _ a e => regRun a 8 ++ regRun e 2
  | .barinit _ _ _ v => [v.toNat]
  | .rsrd _ v | .win _ v => [v.toNat]
  | .rspush _ v => regRun v 2
  | .csrw _ a n => regRun a (if n == 0x010 || n == 0x012 || n == 0x100 then 2 else 1)
  | .partr _ _ s => [s.toNat]
  | .partw _ v s => regRun v 2 ++ [s.toNat]
  | _ => []

/-- The data registers a word writes when it issues; results that arrive later drop their latch entries then (R43). -/
def writesOf : Instr → List Nat
  | .add _ d _ _ _ | .sub _ d _ _ _ | .mullo _ d _ _ _ | .mulhi _ d _ _ _ | .mulhu _ d _ _ _ | .min _ d _ _ _ | .max _ d _ _ _
  | .permb _ d _ _ _ | .and _ d _ _ _ | .or _ d _ _ _ | .xor _ d _ _ _ | .andn _ d _ _ _ | .shl _ d _ _ _ | .shr _ d _ _ _
  | .sar _ d _ _ _ | .rotl _ d _ _ _ | .minu _ d _ _ _ | .maxu _ d _ _ _ | .bfe _ d _ _ _ | .bfeu _ d _ _ _ | .bfi _ d _ _ _
  | .funl _ d _ _ _ | .fadd _ d _ _ _ | .fsub _ d _ _ _ | .fmul _ d _ _ _ | .ffma _ d _ _ _ | .fmin _ d _ _ _ | .fmax _ d _ _ _
  | .fminn _ d _ _ _ | .fmaxn _ d _ _ _ | .hadd2 _ d _ _ _ | .hmul2 _ d _ _ _ | .hfma2 _ d _ _ _ | .hmin2 _ d _ _ _
  | .hmax2 _ d _ _ _ | .badd2 _ d _ _ _ | .bmul2 _ d _ _ _ | .bfma2 _ d _ _ _ | .pke4m3 _ d _ _ _ | .pke5m2 _ d _ _ _
  | .pke3m2 _ d _ _ _ | .pke2m3 _ d _ _ _ | .pke2m1 _ d _ _ _ | .sel _ d _ _ _ _ | .shfl _ d _ _ _ | .shflup _ d _ _ _
  | .shfldn _ d _ _ _ | .shflx _ d _ _ _ | .hops _ d _ _ => [d.toNat]
  | .addi _ d _ _ | .andi _ d _ _ | .ori _ d _ _ | .xori _ d _ _ | .shli _ d _ _ | .shri _ d _ _ | .sari _ d _ _ | .muli _ d _ _
  | .popc _ d _ | .clz _ d _ | .ctz _ d _ | .brev _ d _ | .not _ d _ | .neg _ d _ | .abs _ d _ | .sextb _ d _ | .sexth _ d _
  | .ballot _ d _ _ | .wredadd _ d _ _ _ | .wredmin _ d _ _ _ | .wredmax _ d _ _ _ | .movi _ d _ | .movhi _ d _ | .fmtq _ d _
  | .genq _ d _ => [d.toNat]
  | .maskrd _ _ v | .barq _ _ v => [v.toNat]
  | .spawn _ a _ => [a.toNat]
  | .add64 _ d _ _ _ | .sub64 _ d _ _ _ | .shl64 _ d _ _ _ | .shr64 _ d _ _ _ | .sar64 _ d _ _ _ | .mulw _ d _ _ _
  | .dadd _ d _ _ _ | .dsub _ d _ _ _ | .dmul _ d _ _ _ | .dfma _ d _ _ _ | .dmin _ d _ _ _ | .dmax _ d _ _ _
  | .dminn _ d _ _ _ | .dmaxn _ d _ _ _ | .upk8 _ d _ _ _ | .upk6 _ d _ _ _ | .upk4 _ d _ _ _ => regRun d 2
  | .cvt _ d _ dst _ => if dst.isWide then regRun d 2 else [d.toNat]
  | .csrr _ d n => if (csrInfo n.toNat).any CsrInfo.wide then regRun d 2 else [d.toNat]
  | .rsrd _ d => regRun d 2
  | _ => []
/-- The data registers a word writes in all: when it issues, or later but still ahead of every later group of its batch (R41). -/
def destsOf : Instr → List Nat
  | .div _ d _ _ _ | .divu _ d _ _ _ | .rem _ d _ _ _ | .remu _ d _ _ _ | .reside _ d _ | .unreside _ d _ => [d.toNat]
  | .partr _ v _ | .partw _ v _ | .rspop _ v => regRun v 2
  | i => writesOf i

/-- The read cycles of a group that reads registers from the banks (R42): the most it reads from one bank of a lane pair, at least 1. A
register that the group names twice counts twice (DESIGN CHOICE, log entry 74). -/
def readCycles (wb : Nat) (rs : List Nat) : Nat :=
  (List.range 4).foldl (fun c b => Nat.max c ((rs.filter fun r => (wb + r) % 4 == b).length)) 1

/-- The source a word with H = 1 holds: both registers where a names a pair (R43). -/
def holdsOf : Instr → List Nat
  | i =>
    if heldBit i then
      match i with
      | .add64 _ _ a _ _ | .sub64 _ _ a _ _ | .shl64 _ _ a _ _ | .shr64 _ _ a _ _ | .sar64 _ _ a _ _ | .dadd _ _ a _ _
      | .dsub _ _ a _ _ | .dmul _ _ a _ _ | .dfma _ _ a _ _ | .dmin _ _ a _ _ | .dmax _ _ a _ _ | .dminn _ _ a _ _
      | .dmaxn _ _ a _ _ | .pke4m3 _ _ a _ _ | .pke5m2 _ _ a _ _ | .pke3m2 _ _ a _ _ | .pke2m3 _ _ a _ _
      | .pke2m1 _ _ a _ _ => regRun a 2
      | i => (readsOf i).take 1
    else []
where
  /-- Bit 0 of the RRR majors but SEL and BALLOT (R37, R58, R181). -/
  heldBit (i : Instr) : Bool :=
    match i with
    | .sel .. | .ballot .. | .nop _ => false
    | i => i.hdr?.isSome && ([0, 1, 2, 5, 12, 13, 15, 18, 20].contains (fld (encode i) 22 5)) && encode i % 2 == 1

/-- The slot of vn in its fibre's allocation (R15). -/
def slotIn (wb alloc r : Nat) : Nat := (wb + r) % alloc
/-- A word of a warp issues: each entry of the warp loses a use, and one without uses is freed (R43). -/
def latchSpend (w : Nat) (l : List Latch) : List Latch :=
  (l.map fun e => if e.warp == w then { e with uses := e.uses - 1 } else e).filter fun e => e.uses != 0
/-- A word holds slots (R43): one entry with two uses, in place of the warp's entries of those slots; where three are live, the one with the
fewest uses left, the oldest among equals, is evicted. -/
def latchPlace (w now : Nat) (slots : List Nat) (l : List Latch) : List Latch :=
  if slots.isEmpty then l
  else
    let l1 := l.filter fun e => !(e.warp == w && e.slots.any slots.contains)
    let best (a b : Latch) : Latch := if b.uses < a.uses || (b.uses == a.uses && decide (b.seq < a.seq)) then b else a
    let room := match l1 with
      | a :: b :: c :: t => l1.erase (best a ((b :: c :: t).foldl best b))
      | _ => l1
    room ++ [⟨w, slots, 2, now⟩]
/-- A group of a warp reads and holds, word by word (R42, R43; log entry 74): the registers it reads from the banks, and the latch. An entry
of an earlier group supplies the words that find it with a use left. -/
def latchGroup (w wb alloc now : Nat) : List Instr → List Latch → List Nat × List Latch
  | [], l => ([], l)
  | i :: is, l =>
    let supplied (r : Nat) : Bool := l.any fun e => e.warp == w && decide (e.seq < now) && e.slots.contains (slotIn wb alloc r)
    let next := latchGroup w wb alloc now is (latchPlace w now ((holdsOf i).map (slotIn wb alloc)) (latchSpend w l))
    ((readsOf i).filter (fun r => !supplied r) ++ next.1, next.2)

/-- The reissue distance of a word (R39). -/
def distanceOf (i : Instr) (taken : Bool) : Nat :=
  match i with
  | .nop _ => 1
  | .shfl .. | .shflup .. | .shfldn .. | .shflx .. | .ballot .. | .wredadd .. | .wredmin .. | .wredmax .. => 4
  | i => match i.unit with
    | .integer | .sfu | .memory => 2
    | .fp32 | .fp64 => 4
    | .matrix => 1
    | .branch => if taken then 4 else 2
    | .none => 1

end Sys2Proof.Machine
end

