-- ==== Sys2Proof/Machine/Flags.lean ====
section
/-! DEFINITION. Conditions and exception bits: integer compares (R105), floating-point compares with the invalid bit (R115), and the
OR of a batch's bits (R92, R93). -/

namespace Sys2Proof.Machine

/-- Integer conditions on 32-bit operands; the wide ones answer on pairs (R105). -/
def icond (k : ICond) (a b : Word) : Bool :=
  match k with
  | .eq => a == b
  | .ne => a != b
  | .lt => a.slt b
  | .le => a.sle b
  | .gt => b.slt a
  | .ge => b.sle a
  | .ltu => a.ult b
  | .leu => a.ule b
  | .gtu => b.ult a
  | .geu => b.ule a
  | _ => false
def icond64 (k : ICond) (a b : DWord) : Bool :=
  match k with
  | .lt64 => a.slt b
  | .le64 => a.sle b
  | .gt64 => b.slt a
  | .ge64 => b.sle a
  | .eq64 => a == b
  | .ne64 => a != b
  | _ => false
/-- The immediate of ICMPI: sign-extended for K 0 to 5, zero-extended for K 6 to 9 (R106). -/
def icmpImm (k : ICond) (i : BitVec 6) : Word :=
  match k with
  | .ltu | .leu | .gtu | .geu => i.setWidth 32
  | _ => i.signExtend 32

/-- Floating-point conditions (R115). -/
def fcond (k : FCond) (x y : FVal) : Bool :=
  let un := x.isNan || y.isNan
  let lt := !un && fvLt x y
  let gt := !un && fvLt y x
  let eq := !un && fvEq x y
  match k with
  | .eq => eq
  | .ne => !un && !eq
  | .lt => lt
  | .le => lt || eq
  | .gt => gt
  | .ge => gt || eq
  | .ord => !un
  | .uno => un
  | .ueq => un || eq
  | .une => un || !eq
  | .ult => un || lt
  | .ule => un || lt || eq
  | .ugt => un || gt
  | .uge => un || gt || eq
/-- Whether a compare sets invalid (R115): the ordered relations on any NaN, the others on a signalling one. -/
def fcondInvalid (k : FCond) (x y : FVal) : Bool :=
  match k with
  | .lt | .le | .gt | .ge => x.isNan || y.isNan
  | _ => x.isSig || y.isSig

/-- The bits of every active fibre together (R92). -/
def orBits (ls : List Nat) (f : Nat → Exs) : Exs := ls.foldl (fun b l => b ||| f l) 0

end Sys2Proof.Machine
end

