-- ==== Sys2Proof/Machine/Integer.lean ====
section
/-! DEFINITION. Integer, bit-field, compare and predicate instructions (spec/06): each acts in every active fibre, reads the state
before the group and writes registers or predicates (R94). The hold bit touches the operand latch alone, which Step keeps. -/

namespace Sys2Proof.Machine

/-- A three-register form: vd := f(va, vb) in every active fibre (R96). -/
def alu (s : State) (h : Hdr) (d a b : Reg) (f : Word → Word → Word) : Out :=
  .next (s.writeRegs h d fun l => f (s.srcR a l) (s.srcR b l))
/-- A form that reads the old vd as well. -/
def alu3 (s : State) (h : Hdr) (d a b : Reg) (f : Word → Word → Word → Word) : Out :=
  .next (s.writeRegs h d fun l => f (s.srcR a l) (s.srcR b l) (s.srcR d l))
/-- xd := f(xa, xb). -/
def alu64 (s : State) (h : Hdr) (d a b : Reg) (f : DWord → DWord → DWord) : Out :=
  .next (s.writePairs h d fun l => f (s.srcX a l) (s.srcX b l))
/-- xd := f(xa, U(vb)). -/
def aluSh64 (s : State) (h : Hdr) (d a b : Reg) (f : DWord → Nat → DWord) : Out :=
  .next (s.writePairs h d fun l => f (s.srcX a l) (s.srcR b l).toNat)
/-- vd := f(va). -/
def alu1 (s : State) (h : Hdr) (d a : Reg) (f : Word → Word) : Out := .next (s.writeRegs h d fun l => f (s.srcR a l))

/-- Byte i of the result of PERMB (R97). -/
def permbByte (va old vb : Word) (i : Nat) : BitVec 8 :=
  let sel := (vb.toNat / 16 ^ i) % 16
  if 8 ≤ sel then 0 else BitVec.ofNat 8 ((old.toNat * 2 ^ 32 + va.toNat) / 2 ^ (8 * sel))
def permbWord (va vb old : Word) : Word :=
  permbByte va old vb 3 ++ permbByte va old vb 2 ++ permbByte va old vb 1 ++ permbByte va old vb 0
/-- pos and len of a field descriptor (R101). -/
def fieldPos (vb : Word) : Nat := vb.toNat % 256
def fieldLen (vb : Word) : Nat := Nat.min (vb.toNat / 256 % 256) 32
/-- BFE and BFEU (R101): bit k of the field is bit pos + k of va, past bit 31 its sign or 0; past the field the field's sign or 0. -/
def bfeBit (sgn : Bool) (va : Word) (t : Nat) : Bool := if t ≤ 31 then va.getLsbD t else sgn && va.msb
def bfeWord (sgn : Bool) (va vb : Word) : Word :=
  let pos := fieldPos vb
  let len := fieldLen vb
  if len = 0 then 0 else
    BitVec.ofNat 32 (allLanes.foldl (fun n k =>
      n + (if k < len then bfeBit sgn va (pos + k) else sgn && bfeBit sgn va (pos + (len - 1))).toNat * 2 ^ k) 0)
/-- BFI (R101). -/
def bfiWord (va vb old : Word) : Word :=
  let pos := fieldPos vb
  let len := fieldLen vb
  BitVec.ofNat 32 (allLanes.foldl (fun n k =>
    n + (if pos ≤ k && k < pos + len then va.getLsbD (k - pos) else old.getLsbD k).toNat * 2 ^ k) 0)
/-- FUNL (R101). -/
def funlWord (va vb old : Word) : Word :=
  BitVec.ofNat 32 ((va.toNat * 2 ^ 32 + old.toNat) * 2 ^ (vb.toNat % 64) % 2 ^ 64 / 2 ^ 32)
/-- Counts over the bits of a word (R100). -/
def popcount (v : Word) : Nat := (allLanes.filter fun k => v.getLsbD k).length
def clzCount (v : Word) : Nat := if v = 0 then 32 else 31 - Nat.log2 v.toNat
def ctzCount (v : Word) : Nat := (allLanes.find? fun k => v.getLsbD k).getD 32
def brevWord (v : Word) : Word := BitVec.ofNat 32 (allLanes.foldl (fun n k => n + (v.getLsbD k).toNat * 2 ^ (31 - k)) 0)
/-- The high half of a signed product (R96), the whole signed product (R98). -/
def mulhiWord (a b : Word) : Word := BitVec.ofInt 32 (a.toInt * b.toInt / 2 ^ 32)
def mulwWord (a b : Word) : DWord := BitVec.ofInt 64 (a.toInt * b.toInt)

/-- ADD (R96). -/
def execAdd (h : Hdr) (d a b : Reg) (_x : Bool) (s : State) : Out := alu s h d a b (fun x y => x + y)
/-- SUB (R96). -/
def execSub (h : Hdr) (d a b : Reg) (_x : Bool) (s : State) : Out := alu s h d a b (fun x y => x - y)
/-- MULLO (R96). -/
def execMullo (h : Hdr) (d a b : Reg) (_x : Bool) (s : State) : Out := alu s h d a b (fun x y => x * y)
/-- MULHI (R96). -/
def execMulhi (h : Hdr) (d a b : Reg) (_x : Bool) (s : State) : Out := alu s h d a b (mulhiWord)
/-- MULHU (R96). -/
def execMulhu (h : Hdr) (d a b : Reg) (_x : Bool) (s : State) : Out := alu s h d a b (fun x y => BitVec.ofNat 32 (x.toNat * y.toNat / 2 ^ 32))
/-- MIN (R96). -/
def execMin (h : Hdr) (d a b : Reg) (_x : Bool) (s : State) : Out := alu s h d a b (fun x y => if x.slt y then x else y)
/-- MAX (R96). -/
def execMax (h : Hdr) (d a b : Reg) (_x : Bool) (s : State) : Out := alu s h d a b (fun x y => if x.slt y then y else x)
/-- AND (R96). -/
def execAnd (h : Hdr) (d a b : Reg) (_x : Bool) (s : State) : Out := alu s h d a b (fun x y => x &&& y)
/-- OR (R96). -/
def execOr (h : Hdr) (d a b : Reg) (_x : Bool) (s : State) : Out := alu s h d a b (fun x y => x ||| y)
/-- XOR (R96). -/
def execXor (h : Hdr) (d a b : Reg) (_x : Bool) (s : State) : Out := alu s h d a b (fun x y => x ^^^ y)
/-- ANDN (R96). -/
def execAndn (h : Hdr) (d a b : Reg) (_x : Bool) (s : State) : Out := alu s h d a b (fun x y => x &&& ~~~y)
/-- SHL (R96). -/
def execShl (h : Hdr) (d a b : Reg) (_x : Bool) (s : State) : Out := alu s h d a b (fun x y => shl32 x y.toNat)
/-- SHR (R96). -/
def execShr (h : Hdr) (d a b : Reg) (_x : Bool) (s : State) : Out := alu s h d a b (fun x y => shr32 x y.toNat)
/-- SAR (R96). -/
def execSar (h : Hdr) (d a b : Reg) (_x : Bool) (s : State) : Out := alu s h d a b (fun x y => sar32 x y.toNat)
/-- ROTL (R96). -/
def execRotl (h : Hdr) (d a b : Reg) (_x : Bool) (s : State) : Out := alu s h d a b (fun x y => x.rotateLeft (y.toNat % 32))
/-- MINU (R98). -/
def execMinu (h : Hdr) (d a b : Reg) (_x : Bool) (s : State) : Out := alu s h d a b (fun x y => if x.ult y then x else y)
/-- MAXU (R98). -/
def execMaxu (h : Hdr) (d a b : Reg) (_x : Bool) (s : State) : Out := alu s h d a b (fun x y => if x.ult y then y else x)
/-- BFE (R101). -/
def execBfe (h : Hdr) (d a b : Reg) (_x : Bool) (s : State) : Out := alu s h d a b (bfeWord true)
/-- BFEU (R101). -/
def execBfeu (h : Hdr) (d a b : Reg) (_x : Bool) (s : State) : Out := alu s h d a b (bfeWord false)
/-- PERMB (R97). -/
def execPermb (h : Hdr) (d a b : Reg) (_x : Bool) (s : State) : Out := alu3 s h d a b permbWord
/-- BFI (R101). -/
def execBfi (h : Hdr) (d a b : Reg) (_x : Bool) (s : State) : Out := alu3 s h d a b bfiWord
/-- FUNL (R101). -/
def execFunl (h : Hdr) (d a b : Reg) (_x : Bool) (s : State) : Out := alu3 s h d a b funlWord
/-- ADD64 (R98). -/
def execAdd64 (h : Hdr) (d a b : Reg) (_x : Bool) (s : State) : Out := alu64 s h d a b (fun x y => x + y)
/-- SUB64 (R98). -/
def execSub64 (h : Hdr) (d a b : Reg) (_x : Bool) (s : State) : Out := alu64 s h d a b (fun x y => x - y)
/-- SHL64 (R98). -/
def execShl64 (h : Hdr) (d a b : Reg) (_x : Bool) (s : State) : Out := aluSh64 s h d a b shl64
/-- SHR64 (R98). -/
def execShr64 (h : Hdr) (d a b : Reg) (_x : Bool) (s : State) : Out := aluSh64 s h d a b shr64
/-- SAR64 (R98). -/
def execSar64 (h : Hdr) (d a b : Reg) (_x : Bool) (s : State) : Out := aluSh64 s h d a b sar64
/-- MULW (R98). -/
def execMulw (h : Hdr) (d a b : Reg) (_x : Bool) (s : State) : Out :=
  .next (s.writePairs h d fun l => mulwWord (s.srcR a l) (s.srcR b l))
/-- ADDI (R99). -/
def execAddi (h : Hdr) (d a : Reg) (i : BitVec 7) (s : State) : Out := alu1 s h d a (fun x => x + immS i)
/-- ANDI (R99). -/
def execAndi (h : Hdr) (d a : Reg) (i : BitVec 7) (s : State) : Out := alu1 s h d a (fun x => x &&& immS i)
/-- ORI (R99). -/
def execOri (h : Hdr) (d a : Reg) (i : BitVec 7) (s : State) : Out := alu1 s h d a (fun x => x ||| immS i)
/-- XORI (R99). -/
def execXori (h : Hdr) (d a : Reg) (i : BitVec 7) (s : State) : Out := alu1 s h d a (fun x => x ^^^ immS i)
/-- SHLI (R99). -/
def execShli (h : Hdr) (d a : Reg) (i : BitVec 7) (s : State) : Out := alu1 s h d a (fun x => shl32 x (immU i))
/-- SHRI (R99). -/
def execShri (h : Hdr) (d a : Reg) (i : BitVec 7) (s : State) : Out := alu1 s h d a (fun x => shr32 x (immU i))
/-- SARI (R99). -/
def execSari (h : Hdr) (d a : Reg) (i : BitVec 7) (s : State) : Out := alu1 s h d a (fun x => sar32 x (immU i))
/-- MULI (R99). -/
def execMuli (h : Hdr) (d a : Reg) (i : BitVec 7) (s : State) : Out := alu1 s h d a (fun x => x * immS i)
/-- POPC (R100). -/
def execPopc (h : Hdr) (d a : Reg) (s : State) : Out := alu1 s h d a (fun x => BitVec.ofNat 32 (popcount x))
/-- CLZ (R100). -/
def execClz (h : Hdr) (d a : Reg) (s : State) : Out := alu1 s h d a (fun x => BitVec.ofNat 32 (clzCount x))
/-- CTZ (R100). -/
def execCtz (h : Hdr) (d a : Reg) (s : State) : Out := alu1 s h d a (fun x => BitVec.ofNat 32 (ctzCount x))
/-- BREV (R100). -/
def execBrev (h : Hdr) (d a : Reg) (s : State) : Out := alu1 s h d a (brevWord)
/-- NOT (R100). -/
def execNot (h : Hdr) (d a : Reg) (s : State) : Out := alu1 s h d a (fun x => ~~~x)
/-- NEG (R100). -/
def execNeg (h : Hdr) (d a : Reg) (s : State) : Out := alu1 s h d a (fun x => 0 - x)
/-- ABS (R100). -/
def execAbs (h : Hdr) (d a : Reg) (s : State) : Out := alu1 s h d a (fun x => BitVec.ofNat 32 x.toInt.natAbs)
/-- SEXTB (R100). -/
def execSextb (h : Hdr) (d a : Reg) (s : State) : Out := alu1 s h d a (fun x => (x.setWidth 8).signExtend 32)
/-- SEXTH (R100). -/
def execSexth (h : Hdr) (d a : Reg) (s : State) : Out := alu1 s h d a (fun x => (x.setWidth 16).signExtend 32)

/-- Quotient and remainder, rounded toward zero, with the corner cases of R102. -/
def divWord (sgn rem : Bool) (a b : Word) : Word × Exs :=
  if b = 0 then (if rem then a else BitVec.allOnes 32, exIntDiv)
  else
    let x : Int := if sgn then a.toInt else a.toNat
    let y : Int := if sgn then b.toInt else b.toNat
    (BitVec.ofInt 32 (if rem then x.tmod y else x.tdiv y), 0)

/-- A divide (R103): it begins only when the core's divider is free, holds its warp, and writes 36 cycles after its read cycles;
with no active fibre it completes at issue. -/
def startDivide (s : State) (h : Hdr) (d a b : Reg) (sgn rem : Bool) : Out :=
  let ls := s.active h
  let ck := s.myTeam.core
  let c := s.core ck
  if ls.isEmpty then .next s
  else if c.divider.isSome then .next s.stopped
  else
    let r (l : Nat) := divWord sgn rem (s.srcR a l) (s.srcR b l)
    let delay := (s.iss.cyc - 1) + 36
    let job : DivJob := ⟨s.iss.warp, s.nextId, ls.map fun l => (l, s.logicalOf l d.toNat, (r l).1), orBits ls fun l => (r l).2, s.clock + delay⟩
    .next (((s.setCore ck { c with divider := some job }).named.holdFor s.nextId ls true).later delay (.divideComplete ck))

/-- DIV (R102, R103). -/
def execDiv (h : Hdr) (d a b : Reg) (_x : Bool) (s : State) : Out := startDivide s h d a b true false
/-- DIVU (R102, R103). -/
def execDivu (h : Hdr) (d a b : Reg) (_x : Bool) (s : State) : Out := startDivide s h d a b false false
/-- REM (R102, R103). -/
def execRem (h : Hdr) (d a b : Reg) (_x : Bool) (s : State) : Out := startDivide s h d a b true true
/-- REMU (R102, R103). -/
def execRemu (h : Hdr) (d a b : Reg) (_x : Bool) (s : State) : Out := startDivide s h d a b false true
/-- DIVIDE_COMPLETE (R103, R104): the divider writes vd in every fibre of the divide, sets its bits, and frees itself and the warp, whose next
group starts in the next cycle at the earliest. No divide completes before its cycle. -/
def execDivideComplete (core : Nat) (s : State) : Out :=
  match (s.core core).divider with
  | none => .next s
  | some j =>
    if s.clock < j.due then .next s
    else
      let s1 := j.vals.foldl (fun t v => t.lateReg j.warp v.1 v.2.1 v.2.2) s
      let s2 := (s1.addEx (teamOf j.warp) j.exs).unhold j.warp j.hold
      let x := s2.warp j.warp
      let s3 := s2.setWarp j.warp { x with nextStart := Nat.max x.nextStart (s.clock + 1) }
      .next (s3.setCore core { s3.core core with divider := none })

/-- ICMP (R105). -/
def execIcmp (h : Hdr) (pd pe : PredIx) (a b : Reg) (k : ICond) (s : State) : Out :=
  .next (s.writePreds h pd pe fun l => if k.wide then icond64 k (s.srcX a l) (s.srcX b l) else icond k (s.srcR a l) (s.srcR b l))
/-- ICMPI (R106). -/
def execIcmpi (h : Hdr) (pd pe : PredIx) (a : Reg) (i : BitVec 6) (k : ICond) (s : State) : Out :=
  .next (s.writePreds h pd pe fun l => icond k (s.srcR a l) (icmpImm k i))
/-- Predicate logic (R107). -/
def plog (s : State) (h : Hdr) (pd pe pa pb : PredIx) (na nb : Bool) (f : Bool → Bool → Bool) : Out :=
  .next (s.writePreds h pd pe fun l => f (s.srcPred l pa na) (s.srcPred l pb nb))
/-- PAND (R107). -/
def execPand (h : Hdr) (pd pe pa pb : PredIx) (na nb : Bool) (s : State) : Out := plog s h pd pe pa pb na nb (fun x y => x && y)
/-- POR (R107). -/
def execPor (h : Hdr) (pd pe pa pb : PredIx) (na nb : Bool) (s : State) : Out := plog s h pd pe pa pb na nb (fun x y => x || y)
/-- PXOR (R107). -/
def execPxor (h : Hdr) (pd pe pa pb : PredIx) (na nb : Bool) (s : State) : Out := plog s h pd pe pa pb na nb (fun x y => x != y)
/-- PMOV (R107). -/
def execPmov (h : Hdr) (pd pe pa pb : PredIx) (na nb : Bool) (s : State) : Out := plog s h pd pe pa pb na nb (fun x _ => x)
/-- SEL (R108). -/
def execSel (h : Hdr) (d a b : Reg) (q : PredIx) (neg : Bool) (s : State) : Out :=
  .next (s.writeRegs h d fun l => if s.srcPred l q neg then s.srcR a l else s.srcR b l)
/-- MOVI (R109). -/
def execMovi (h : Hdr) (d : Reg) (i : BitVec 16) (s : State) : Out := .next (s.writeRegs h d fun _ => i.signExtend 32)
/-- MOVHI (R109). -/
def execMovhi (h : Hdr) (d : Reg) (i : BitVec 16) (s : State) : Out :=
  .next (s.writeRegs h d fun l => i ++ (s.srcR d l).setWidth 16)
/-- NOP (R35): a never word has no effect. -/
def execNop (_rest : BitVec 28) (s : State) : Out := .next s

end Sys2Proof.Machine
end

