-- ==== Sys2Proof/Machine/Float.lean ====
section
/-! DEFINITION. Floating-point, packed, special-function and conversion instructions (spec/07). Results are those of Number; every
bit is ORed into the team's csr.exsum with the result (R93, R110). -/

namespace Sys2Proof.Machine

/-- Register and pair results with the bits they set, in every active fibre (R110). -/
def fpRegs (s : State) (h : Hdr) (d : Reg) (f : Nat → Nat × Exs) : Out :=
  .next ((s.writeRegs h d fun l => BitVec.ofNat 32 (f l).1).raiseEx (orBits (s.active h) fun l => (f l).2))
def fpPairs (s : State) (h : Hdr) (d : Reg) (f : Nat → Nat × Exs) : Out :=
  .next ((s.writePairs h d fun l => BitVec.ofNat 64 (f l).1).raiseEx (orBits (s.active h) fun l => (f l).2))
/-- Operands read as FP32 and FP64 (R110). -/
def f32 (s : State) (r : Reg) (l : Nat) : FVal := fp32.value (s.srcR r l).toNat
def f64 (s : State) (r : Reg) (l : Nat) : FVal := fp64.value (s.srcX r l).toNat
/-- A three-operand FP32 or FP64 form; z is the old destination (R111). -/
def fp3 (s : State) (h : Hdr) (d a b : Reg) (f : FVal → FVal → FVal → Nat × Exs) : Out :=
  fpRegs s h d fun l => f (f32 s a l) (f32 s b l) (f32 s d l)
def dp3 (s : State) (h : Hdr) (d a b : Reg) (f : FVal → FVal → FVal → Nat × Exs) : Out :=
  fpPairs s h d fun l => f (f64 s a l) (f64 s b l) (f64 s d l)
/-- The operations of R111 and R113 in a format. -/
def opAdd (f : Fmt) (x y _z : FVal) : Nat × Exs := fAdd f x y
def opSub (f : Fmt) (x y _z : FVal) : Nat × Exs := fAdd f x y.neg
def opMul (f : Fmt) (x y _z : FVal) : Nat × Exs := fMul f x y
def opFma (f : Fmt) (x y z : FVal) : Nat × Exs := fFma f x y z
def opMin (f : Fmt) (x y _z : FVal) : Nat × Exs := fSelect f fvMin x y
def opMax (f : Fmt) (x y _z : FVal) : Nat × Exs := fSelect f fvMax x y
def opMinN (f : Fmt) (x y _z : FVal) : Nat × Exs := fSelect f fvMinN x y
def opMaxN (f : Fmt) (x y _z : FVal) : Nat × Exs := fSelect f fvMaxN x y
/-- A packed form: both halves as one instruction, element 1 in bits 31:16 (R114). -/
def packed (s : State) (h : Hdr) (d a b : Reg) (f : Fmt) (op : Fmt → FVal → FVal → FVal → Nat × Exs) : Out :=
  fpRegs s h d fun l =>
    let el (e : Nat) : Nat × Exs :=
      let half (r : Reg) : FVal := f.value ((s.srcR r l).toNat / 2 ^ (16 * e) % 2 ^ 16)
      op f (half a) (half b) (half d)
    ((el 1).1 * 2 ^ 16 + (el 0).1, (el 0).2 ||| (el 1).2)

/-- FADD (R111). -/
def execFadd (h : Hdr) (d a b : Reg) (_x : Bool) (s : State) : Out := fp3 s h d a b (opAdd fp32)
/-- DADD (R111). -/
def execDadd (h : Hdr) (d a b : Reg) (_x : Bool) (s : State) : Out := dp3 s h d a b (opAdd fp64)
/-- FSUB (R111). -/
def execFsub (h : Hdr) (d a b : Reg) (_x : Bool) (s : State) : Out := fp3 s h d a b (opSub fp32)
/-- DSUB (R111). -/
def execDsub (h : Hdr) (d a b : Reg) (_x : Bool) (s : State) : Out := dp3 s h d a b (opSub fp64)
/-- FMUL (R111). -/
def execFmul (h : Hdr) (d a b : Reg) (_x : Bool) (s : State) : Out := fp3 s h d a b (opMul fp32)
/-- DMUL (R111). -/
def execDmul (h : Hdr) (d a b : Reg) (_x : Bool) (s : State) : Out := dp3 s h d a b (opMul fp64)
/-- FFMA (R111). -/
def execFfma (h : Hdr) (d a b : Reg) (_x : Bool) (s : State) : Out := fp3 s h d a b (opFma fp32)
/-- DFMA (R111). -/
def execDfma (h : Hdr) (d a b : Reg) (_x : Bool) (s : State) : Out := dp3 s h d a b (opFma fp64)
/-- FMIN (R113). -/
def execFmin (h : Hdr) (d a b : Reg) (_x : Bool) (s : State) : Out := fp3 s h d a b (opMin fp32)
/-- DMIN (R113). -/
def execDmin (h : Hdr) (d a b : Reg) (_x : Bool) (s : State) : Out := dp3 s h d a b (opMin fp64)
/-- FMAX (R113). -/
def execFmax (h : Hdr) (d a b : Reg) (_x : Bool) (s : State) : Out := fp3 s h d a b (opMax fp32)
/-- DMAX (R113). -/
def execDmax (h : Hdr) (d a b : Reg) (_x : Bool) (s : State) : Out := dp3 s h d a b (opMax fp64)
/-- FMINN (R113). -/
def execFminn (h : Hdr) (d a b : Reg) (_x : Bool) (s : State) : Out := fp3 s h d a b (opMinN fp32)
/-- DMINN (R113). -/
def execDminn (h : Hdr) (d a b : Reg) (_x : Bool) (s : State) : Out := dp3 s h d a b (opMinN fp64)
/-- FMAXN (R113). -/
def execFmaxn (h : Hdr) (d a b : Reg) (_x : Bool) (s : State) : Out := fp3 s h d a b (opMaxN fp32)
/-- DMAXN (R113). -/
def execDmaxn (h : Hdr) (d a b : Reg) (_x : Bool) (s : State) : Out := dp3 s h d a b (opMaxN fp64)
/-- HADD2 (R114). -/
def execHadd2 (h : Hdr) (d a b : Reg) (_x : Bool) (s : State) : Out := packed s h d a b fp16 opAdd
/-- HMUL2 (R114). -/
def execHmul2 (h : Hdr) (d a b : Reg) (_x : Bool) (s : State) : Out := packed s h d a b fp16 opMul
/-- HFMA2 (R114). -/
def execHfma2 (h : Hdr) (d a b : Reg) (_x : Bool) (s : State) : Out := packed s h d a b fp16 opFma
/-- HMIN2 (R114). -/
def execHmin2 (h : Hdr) (d a b : Reg) (_x : Bool) (s : State) : Out := packed s h d a b fp16 opMin
/-- HMAX2 (R114). -/
def execHmax2 (h : Hdr) (d a b : Reg) (_x : Bool) (s : State) : Out := packed s h d a b fp16 opMax
/-- BADD2 (R114). -/
def execBadd2 (h : Hdr) (d a b : Reg) (_x : Bool) (s : State) : Out := packed s h d a b bf16 opAdd
/-- BMUL2 (R114). -/
def execBmul2 (h : Hdr) (d a b : Reg) (_x : Bool) (s : State) : Out := packed s h d a b bf16 opMul
/-- BFMA2 (R114). -/
def execBfma2 (h : Hdr) (d a b : Reg) (_x : Bool) (s : State) : Out := packed s h d a b bf16 opFma

/-- A floating-point compare: predicates, and the invalid bit of R115. -/
def fpCompare (s : State) (h : Hdr) (pd pe : PredIx) (k : FCond) (x y : Nat → FVal) : Out :=
  .next ((s.writePreds h pd pe fun l => fcond k (x l) (y l)).raiseEx
    (orBits (s.active h) fun l => exIf (fcondInvalid k (x l) (y l)) exInvalid))
/-- FCMP (R115). -/
def execFcmp (h : Hdr) (pd pe : PredIx) (a b : Reg) (k : FCond) (s : State) : Out := fpCompare s h pd pe k (f32 s a) (f32 s b)
/-- DCMP (R115). -/
def execDcmp (h : Hdr) (pd pe : PredIx) (a b : Reg) (k : FCond) (s : State) : Out := fpCompare s h pd pe k (f64 s a) (f64 s b)

/-- A special function (R116 to R119): it waits for the unit, which takes one word in two cycles and which the FP64 functions hold for 8; it
takes an allowance counter and sends its results 12 cycles after the read cycle, or 20 for the FP64 functions. Each fibre's function value is
f of its lane. -/
def sfuWord (s : State) (h : Hdr) (d : Reg) (la : BitVec 4) (wide : Bool) (f : Nat → Nat × Exs) : Out :=
  let ls := s.active h
  let ck := s.myTeam.core
  let c := s.core ck
  if s.clock < c.sfuUntil then .next s.stopped
  else .next (s.longWord ls la.toNat fun s1 cid =>
    let regs (l : Nat) : List (Nat × Word) :=
      if wide then [(s.logicalOf l d.toNat, BitVec.ofNat 32 (f l).1), (s.logicalOf l (d.toNat + 1), BitVec.ofNat 32 ((f l).1 / 2 ^ 32))]
      else [(s.logicalOf l d.toNat, BitVec.ofNat 32 (f l).1)]
    let s2 := s1.setCore ck { s1.core ck with sfuUntil := s.clock + (if wide then 8 else 2) }
    s2.startResult ⟨s.destOf cid, ls.map fun l => (l, regs l), ls.map fun l => (l, (f l).2), false, [], none, none, false, false⟩
      (s.iss.cyc - 1 + if wide then 20 else 12))
/-- The part's choice between the two values that bracket a reciprocal square root (R117). -/
def rsqUp (fn : Nat) (x : DWord) : Bool := (Config.sfuFree fn x).getLsbD 0
/-- FRCP (R116 to R118). -/
def execFrcp (h : Hdr) (d a : Reg) (la : BitVec 4) (s : State) : Out := sfuWord s h d la false fun l => sfuRcp fp32 (f32 s a l)
/-- FRSQ (R116 to R118). -/
def execFrsq (h : Hdr) (d a : Reg) (la : BitVec 4) (s : State) : Out := sfuWord s h d la false fun l => sfuRsq fp32 (rsqUp 1 ((s.srcR a l).setWidth 64)) (f32 s a l)
/-- FSQRT (R116 to R118). -/
def execFsqrt (h : Hdr) (d a : Reg) (la : BitVec 4) (s : State) : Out := sfuWord s h d la false fun l => sfuSqrt fp32 (f32 s a l)
/-- FEX2 (R116 to R118). -/
def execFex2 (h : Hdr) (d a : Reg) (la : BitVec 4) (s : State) : Out := sfuWord s h d la false fun l => sfuEx2 (s.srcR a l)
/-- FLG2 (R116 to R118). -/
def execFlg2 (h : Hdr) (d a : Reg) (la : BitVec 4) (s : State) : Out := sfuWord s h d la false fun l => sfuLg2 (s.srcR a l)
/-- FSIN (R116 to R118). -/
def execFsin (h : Hdr) (d a : Reg) (la : BitVec 4) (s : State) : Out := sfuWord s h d la false fun l => sfuSinCos false (s.srcR a l)
/-- FCOS (R116 to R118). -/
def execFcos (h : Hdr) (d a : Reg) (la : BitVec 4) (s : State) : Out := sfuWord s h d la false fun l => sfuSinCos true (s.srcR a l)
/-- FTANH (R116 to R118). -/
def execFtanh (h : Hdr) (d a : Reg) (la : BitVec 4) (s : State) : Out := sfuWord s h d la false fun l => sfuTanh (s.srcR a l)
/-- DRCP (R116 to R119). -/
def execDrcp (h : Hdr) (d a : Reg) (la : BitVec 4) (s : State) : Out := sfuWord s h d la true fun l => sfuRcp fp64 (f64 s a l)
/-- DRSQ (R116 to R119). -/
def execDrsq (h : Hdr) (d a : Reg) (la : BitVec 4) (s : State) : Out := sfuWord s h d la true fun l => sfuRsq fp64 (rsqUp 9 (s.srcX a l)) (f64 s a l)
/-- DSQRT (R116 to R119). -/
def execDsqrt (h : Hdr) (d a : Reg) (la : BitVec 4) (s : State) : Out := sfuWord s h d la true fun l => sfuSqrt fp64 (f64 s a l)

/-- The value of a conversion's source (R120). -/
def cvtSource (t : NumType) (w : Word) (x : DWord) : FVal :=
  match t with
  | .s32 => ofInt w.toInt
  | .u32 => ofInt w.toNat
  | .s64 => ofInt x.toInt
  | .u64 => ofInt x.toNat
  | .f16 => fp16.value (w.toNat % 2 ^ 16)
  | .bf16 => bf16.value (w.toNat % 2 ^ 16)
  | .f32 => fp32.value w.toNat
  | .f64 => fp64.value x.toNat
/-- A conversion's result as bits of its destination, and the bits it sets (R121, R122). -/
def cvtResult (t : NumType) (v : FVal) : Nat × Exs :=
  let toInt (n : Nat) (lo hi : Int) : Nat × Exs := let r := cvtInt lo hi v; ((r.1 % 2 ^ n).toNat, r.2)
  let toFp (f : Fmt) : Nat × Exs := let r := storeWide f v; (r.1, r.2 ||| sigBits [v])
  match t with
  | .s32 => toInt 32 (-(2 ^ 31)) (2 ^ 31 - 1)
  | .u32 => toInt 32 0 (2 ^ 32 - 1)
  | .s64 => toInt 64 (-(2 ^ 63)) (2 ^ 63 - 1)
  | .u64 => toInt 64 0 (2 ^ 64 - 1)
  | .f16 => toFp fp16
  | .bf16 => toFp bf16
  | .f32 => toFp fp32
  | .f64 => toFp fp64
/-- CVT (R120 to R122); a 16-bit result leaves bits 31:16 zero. -/
def execCvt (h : Hdr) (d a : Reg) (dst src : NumType) (s : State) : Out :=
  let f (l : Nat) : Nat × Exs := cvtResult dst (cvtSource src (s.srcR a l) (if src.isWide then s.srcX a l else 0))
  if dst.isWide then fpPairs s h d f else fpRegs s h d f

/-- Replaces the n-bit element i of a word. -/
def putElem (w n i c : Nat) : Nat := w - (w / 2 ^ (n * i) % 2 ^ n) * 2 ^ (n * i) + (c % 2 ^ n) * 2 ^ (n * i)
/-- PKE (R123 to R125): both FP32 values of xa divided by the scale, rounded away on ties, stored at pair k of vd. -/
def pack (s : State) (h : Hdr) (d a b : Reg) (f : Fmt) (bits : Nat) : Out :=
  fpRegs s h d fun l =>
    let ctl := (s.srcR b l).toNat
    let sc := ctl / 2 ^ 8 % 2 ^ 8
    let sat := !(ctl / 4 % 2 == 1 && (f.top == .e4m3 || f.top == .e5m2))
    let k := if bits = 4 then ctl % 4 else ctl % 2
    let el (j : Nat) : Nat × Exs :=
      let x := fp32.value (s.src l (a.toNat + j)).toNat
      let r := storeNarrow f sat (match e8m0 sc with
        | none => .nan false
        | some e => x.scale (-e))
      (r.1, r.2 ||| sigBits [x])
    let r := putElem (putElem (s.srcR d l).toNat bits (2 * k) (el 0).1) bits (2 * k + 1) (el 1).1
    (if bits = 6 then r % 2 ^ 24 else r, (el 0).2 ||| (el 1).2)
/-- UPK (R126): pair k of va, scaled, as two FP32 values in xd. -/
def unpack (s : State) (h : Hdr) (d a b : Reg) (bits : Nat) (val : Bool → Nat → FVal) : Out :=
  fpPairs s h d fun l =>
    let ctl := (s.srcR b l).toNat
    let sc := ctl / 2 ^ 8 % 2 ^ 8
    let k := if bits = 4 then ctl % 4 else ctl % 2
    let el (j : Nat) : Nat × Exs :=
      let v := val (ctl / 8 % 2 == 1) ((s.srcR a l).toNat / 2 ^ (bits * (2 * k + j)) % 2 ^ bits)
      storeWide fp32 (match e8m0 sc with
        | none => .nan false
        | some e => v.scale e)
    ((el 1).1 * 2 ^ 32 + (el 0).1, (el 0).2 ||| (el 1).2)
/-- PKE4M3 (R125). -/
def execPke4m3 (h : Hdr) (d a b : Reg) (_x : Bool) (s : State) : Out := pack s h d a b e4m3 8
/-- PKE5M2 (R125). -/
def execPke5m2 (h : Hdr) (d a b : Reg) (_x : Bool) (s : State) : Out := pack s h d a b e5m2 8
/-- PKE3M2 (R125). -/
def execPke3m2 (h : Hdr) (d a b : Reg) (_x : Bool) (s : State) : Out := pack s h d a b e3m2 6
/-- PKE2M3 (R125). -/
def execPke2m3 (h : Hdr) (d a b : Reg) (_x : Bool) (s : State) : Out := pack s h d a b e2m3 6
/-- PKE2M1 (R125). -/
def execPke2m1 (h : Hdr) (d a b : Reg) (_x : Bool) (s : State) : Out := pack s h d a b e2m1 4
/-- UPK8 (R126). -/
def execUpk8 (h : Hdr) (d a b : Reg) (_x : Bool) (s : State) : Out := unpack s h d a b 8 (fun alt c => if alt then e5m2.value c else e4m3.value c)
/-- UPK6 (R126). -/
def execUpk6 (h : Hdr) (d a b : Reg) (_x : Bool) (s : State) : Out := unpack s h d a b 6 (fun alt c => if alt then e2m3.value c else e3m2.value c)
/-- UPK4 (R126). -/
def execUpk4 (h : Hdr) (d a b : Reg) (_x : Bool) (s : State) : Out := unpack s h d a b 4 (fun alt c => if alt then qn4Value c else e2m1.value c)

end Sys2Proof.Machine
end

