-- ==== Sys2Proof/Machine/CrossLane.lean ====
section
/-! DEFINITION. Cross-lane instructions (spec/11 R181 to R184): values move only between active fibres of one batch, all of them read
before any is written (R181). -/

namespace Sys2Proof.Machine

/-- A shuffle: each active fibre takes va of the lane its source names when that lane is active, else its own (R182). -/
def shuffle (s : State) (h : Hdr) (d a b : Reg) (from_ : Nat → Nat → Option Nat) : Out :=
  let act := s.active h
  .next (s.writeRegs h d fun l =>
    match from_ l (s.srcR b l).toNat with
    | some k => if act.contains k then s.srcR a k else s.srcR a l
    | none => s.srcR a l)
/-- SHFL (R182). -/
def execShfl (h : Hdr) (d a b : Reg) (_x : Bool) (s : State) : Out := shuffle s h d a b fun _ n => some (n % 32)
/-- SHFLUP (R182). -/
def execShflup (h : Hdr) (d a b : Reg) (_x : Bool) (s : State) : Out :=
  shuffle s h d a b fun l n => if n ≤ l then some (l - n) else none
/-- SHFLDN (R182). -/
def execShfldn (h : Hdr) (d a b : Reg) (_x : Bool) (s : State) : Out :=
  shuffle s h d a b fun l n => if l + n ≤ 31 then some (l + n) else none
/-- SHFLX (R182). -/
def execShflx (h : Hdr) (d a b : Reg) (_x : Bool) (s : State) : Out := shuffle s h d a b fun l n => some (l ^^^ (n % 32))
/-- BALLOT (R183). -/
def execBallot (h : Hdr) (d : Reg) (q : PredIx) (neg : Bool) (s : State) : Out :=
  let m := maskOf ((s.active h).filter fun l => s.srcPred l q neg)
  .next (s.writeRegs h d fun _ => m)

/-- One level of the fixed tree (R184): neighbours combined, a single value passed on. -/
def treeLevel : List (Option (Nat × Exs)) → List (Option (Nat × Exs))
  | a :: b :: t =>
    (match a, b with
      | some x, some y => (let r := fAdd fp32 (fp32.value x.1) (fp32.value y.1); some (r.1, x.2 ||| y.2 ||| r.2))
      | some x, none => some x
      | none, y => y) :: treeLevel t
  | t => t
/-- The tree sum over 32 lanes: five levels (R184). -/
def treeSum (val : Nat → Option Nat) : Option (Nat × Exs) :=
  let leaves := allLanes.map fun l => (val l).map fun v => (v, (0 : Exs))
  ((treeLevel (treeLevel (treeLevel (treeLevel (treeLevel leaves))))).headD none)
/-- Folds a non-empty list. -/
def foldFirst {α : Type} (f : α → α → α) (d : α) : List α → α
  | [] => d
  | x :: t => t.foldl f x

/-- FP32 minimumNumber or maximumNumber over values (R184). -/
def reduceSelect (op : FVal → FVal → FVal) (vs : List FVal) : Nat × Exs :=
  ((storeWide fp32 (match vs with
    | [x] => op x x
    | vs => foldFirst op (.nan false) vs)).1, sigBits vs)
/-- Writes one result into every active fibre; a floating-point reduction also sets its bits. -/
def reduceTo (s : State) (h : Hdr) (d : Reg) (r : Nat × Option Exs) : Out :=
  let t := s.writeRegs h d fun _ => BitVec.ofNat 32 r.1
  .next (if (s.active h).isEmpty then s else match r.2 with
    | some e => t.raiseEx e
    | none => t)
/-- Values of the active fibres. -/
def actValues (s : State) (h : Hdr) (a : Reg) : List Word := (s.active h).map (s.srcR a)

/-- WREDADD (R184); a NaN sum is the canonical NaN, invalid when any value signals. -/
def execWredadd (h : Hdr) (d a : Reg) (ty : RedType) (_x : Bool) (s : State) : Out :=
  let vs := actValues s h a
  reduceTo s h d (match ty with
    | .f32 =>
      let act := s.active h
      match treeSum fun l => if act.contains l then some (s.srcR a l).toNat else none with
      | none => (0, none)
      | some r =>
        ((if (fp32.value r.1).isNan then fp32.nanCode else r.1), some (r.2 ||| sigBits (vs.map fun v => fp32.value v.toNat)))
    | _ => ((vs.foldl (· + ·) 0).toNat, none))
/-- WREDMIN (R184). -/
def execWredmin (h : Hdr) (d a : Reg) (ty : RedType) (_x : Bool) (s : State) : Out :=
  let vs := actValues s h a
  reduceTo s h d (match ty with
    | .f32 => let r := reduceSelect fvMinN (vs.map fun v => fp32.value v.toNat); (r.1, some r.2)
    | .signed => ((foldFirst (fun x y => if y.slt x then y else x) 0 vs).toNat, none)
    | .unsigned => ((foldFirst (fun x y => if y.ult x then y else x) 0 vs).toNat, none))
/-- WREDMAX (R184). -/
def execWredmax (h : Hdr) (d a : Reg) (ty : RedType) (_x : Bool) (s : State) : Out :=
  let vs := actValues s h a
  reduceTo s h d (match ty with
    | .f32 => let r := reduceSelect fvMaxN (vs.map fun v => fp32.value v.toNat); (r.1, some r.2)
    | .signed => ((foldFirst (fun x y => if x.slt y then y else x) 0 vs).toNat, none)
    | .unsigned => ((foldFirst (fun x y => if x.ult y then y else x) 0 vs).toNat, none))

end Sys2Proof.Machine
end

