-- ==== Sys2Proof/Machine/Memory.lean ====
section
/-! DEFINITION. Memory at its homes: bytes, physical places (spec/14 R218, R219, spec/29 R403), rows of the cache ways with their classes,
ages and victims (spec/14 R220 to R226), contract rows (R227, R233, R234), the parity of rows and their errors (R237 to R239), the codewords of
HBM (R241 to R244, spec/30 R424 to R426). -/

namespace Sys2Proof.Machine

/-! ### Bytes -/

/-- The byte of memory at an address; a byte nothing has written reads 0 (DESIGN CHOICE, log entry 3). -/
def mget : List Host.Cell → Nat → Byte
  | [], _ => 0
  | (a', v) :: t, a => if a' = a then v else mget t a
/-- Writes a byte and keeps the canonical form: addresses rising, no entry that holds 0. -/
def mset : List Host.Cell → Nat → Byte → List Host.Cell
  | [], a, v => if v = 0 then [] else [(a, v)]
  | (a', v') :: t, a, v =>
    if a' < a then (a', v') :: mset t a v
    else if a' = a then (if v = 0 then t else (a, v) :: t)
    else if v = 0 then (a', v') :: t else (a, v) :: (a', v') :: t
/-- The canonical form of memory: addresses rise strictly from a bound on, and no entry holds what an unlisted byte reads as. -/
def memWfFrom : Nat → List Host.Cell → Bool
  | _, [] => true
  | lo, (a, v) :: t => decide (lo ≤ a) && v != 0 && memWfFrom (a + 1) t
def memWf (m : List Host.Cell) : Bool := memWfFrom 0 m

/-- The little-endian bytes of a number (R2). -/
def leBytes : Nat → Nat → List Byte
  | 0, _ => []
  | n + 1, v => BitVec.ofNat 8 v :: leBytes n (v / 256)

namespace State
/-- n bytes from an address on, as a little-endian number. -/
def rd (s : State) (a n : Nat) : Nat := ofBytes ((List.range n).map fun i => mget s.mem (a + i))
/-- Writes bytes from an address on. -/
def poke (s : State) (a : Nat) (bs : List Byte) : State :=
  { s with mem := pokeFrom s.mem a bs }
where
  /-- One byte after another. -/
  pokeFrom : List Host.Cell → Nat → List Byte → List Host.Cell
    | m, _, [] => m
    | m, a, b :: bs => pokeFrom (mset m a b) (a + 1) bs
def wr (s : State) (a n v : Nat) : State := s.poke a (leBytes n v)
end State

/-! ### Physical places (R218, R219, R403) -/

inductive Region where
  | device | host | peer (n : Nat) | nothing
  deriving DecidableEq, Repr

/-- The region of an address (R12, R218, R403). Which addresses the reserve, the directory and the tags of a die take is not given; they are kept outside the
physical space here, so all 192 GiB of a die are ordinary memory that a grant may name (DESIGN CHOICE, log entry 97). -/
def regionOf (pa : Nat) : Region :=
  if pa < 2 ^ 40 then (if pa % 2 ^ 38 < 192 * 2 ^ 30 then .device else .nothing)
  else if pa < 2 ^ 48 then .host
  else if pa < 2 ^ 51 then .nothing
  else .peer (pa / 2 ^ 43 % 256)
/-- The home die of device memory (R397). -/
def homeDie (pa : Nat) : Nat := pa / 2 ^ 38 % 4
/-- Slice h within the die (R218). -/
def sliceHash (pa : Nat) : Nat := (List.range 7).foldl (fun h j => h ^^^ fld pa (12 + 6 * j) 6) 0
/-- The slice of the device, 0 to 255. -/
def sliceOf (pa : Nat) : Nat := homeDie pa * 64 + sliceHash pa
/-- Ply and set of a block (R219). -/
def plyOf (pa : Nat) : Nat := (List.range 21).foldl (fun x j => x ^^^ fld (pa / 2 ^ 11) (2 * j) 2) 0
def setOf (pa : Nat) : Nat := (List.range 5).foldl (fun x j => x ^^^ fld (pa / 2 ^ 13) (9 * j) 9) 0
/-- What stands for the home of a line where requests queue up: a slice, a peer's slice, the host-line agent (R259, R414, R419). -/
def homeOf (pa : Nat) : Nat :=
  match regionOf pa with
  | .device => sliceOf pa
  | .peer n => 1000 + n * 256 + homeDie pa * 64 + sliceHash pa
  | _ => 999
/-- The line of an address. -/
def lineOf (pa : Nat) : Nat := pa / 128 * 128
/-- Cores by key: cluster × 64 + live index. -/
def clusterOf (c : Nat) : Nat := c / 64
def dieOfCore (c : Nat) : Nat := c / 256

namespace State
/-- The physical position of a live core: the k-th position of its cluster that is not harvested (R11). -/
def position (s : State) (c : Nat) : Nat :=
  ((List.range 48).filter fun p => !s.harvest.contains (clusterOf c, p)).getD (c % 64) 48
/-- Live cores of a cluster (R11). -/
def liveCores (s : State) (cl : Nat) : Nat := ((List.range 48).filter fun p => !s.harvest.contains (cl, p)).length
/-- The unloaded latency of a load from a core to a home (R396). -/
def pathLatency (s : State) (c pa : Nat) : Nat :=
  match regionOf pa with
  | .device =>
    if homeDie pa = dieOfCore c then
      (if sliceHash pa / 16 = clusterOf c % 4 && sliceHash pa % 16 = s.position c / 3 then 80 else 180)
    else if homeDie pa ^^^ dieOfCore c = 3 then 380 else 280
  | _ => 900
/-- A page in host bias is reached through the host-line agent (R416). -/
def hostSide (s : State) (pa : Nat) : Bool :=
  match regionOf pa with
  | .host => true
  | .device => s.hostBias.contains (pa / 2 ^ 16)
  | _ => false
/-- The home at which a request stands (R259): the host-line agent for what it serves, a page in host bias among it (R414, R416). -/
def homeAt (s : State) (pa : Nat) : Nat := if s.hostSide pa then 999 else homeOf pa
/-- Whether an address is device memory of this device for the instructions that reach nothing else (R273, R416). -/
def deviceSide (s : State) (pa : Nat) : Bool := regionOf pa == .device && !s.hostSide pa
/-- A mailbox-window address (R409). -/
def inWindow (s : State) (pa : Nat) : Bool := s.mbOn && pa / 2 ^ 30 == s.mbbase.toNat / 2 ^ 30
/-- The contract that covers an address (R227, R231). -/
def contractAt (s : State) (pa : Nat) : Option Contract := s.contracts.find? fun c => c.grans.contains (pa / 4096)
def lostAt (s : State) (pa : Nat) : Bool := s.lost.any fun l => l.grans.contains (pa / 4096)
/-- An ACCX range (R228), of this device or of a peer (R420; log entry 17). -/
def accxAt (s : State) (pa : Nat) : Bool :=
  match regionOf pa with
  | .peer _ => s.peerAccx.contains (pa / 4096)
  | _ => (s.contractAt pa).any fun c => c.kind == 4
/-- An ACCX element (R282); one that is not listed holds 0. -/
def accxElem (s : State) (pa : Nat) : BitVec 128 := (aget s.accx (pa / 4)).getD 0
/-- What an ACCX element reads as (R282): its value × 2^-64 as FP32. -/
def accxRead (s : State) (pa : Nat) : Nat :=
  let e := (s.accxElem pa).toInt
  (storeWide fp32 (.fin (decide (e < 0)) e.natAbs (-64))).1
/-- A byte as the home serves it (R228, R258). -/
def homeByte (s : State) (pa : Nat) : Byte :=
  if s.accxAt pa then BitVec.ofNat 8 (s.accxRead pa / 2 ^ (8 * (pa % 4))) else mget s.mem pa
/-- n bytes as the home serves them. -/
def homeRd (s : State) (pa n : Nat) : Nat := ofBytes ((List.range n).map fun i => s.homeByte (pa + i))
/-- A path between two dies, there or back, that has failed (R391, R402). -/
def linkDead (s : State) (a b : Nat) : Bool :=
  let edge (x y : Nat) : Bool := s.deadLinks.contains (x, y) || s.deadLinks.contains (y, x)
  let via (x y : Nat) : Bool := let mid := (x / 2) * 2 + y % 2; edge x mid || edge mid y
  if a = b then false
  else if a ^^^ b = 3 then via a b || via b a
  else edge a b
/-- Whether a die can reach an address at all (R402, R419), and a core. -/
def dieCut (s : State) (die pa : Nat) : Bool :=
  match regionOf pa with
  | .device => s.linkDead die (homeDie pa)
  | .peer n => s.deadPeers.contains n
  | _ => false
def unreachable (s : State) (c pa : Nat) : Bool := s.dieCut (dieOfCore c) pa
/-- What stops an access of a core at its home whatever it does there: no path (R402, R419), a lost range (R235), a fault of a peer's home (R420). -/
def homeStop (s : State) (c pa : Nat) : Option (BitVec 8) :=
  if s.unreachable c pa then some 0x21
  else if s.lostAt pa then some 0x13
  else match regionOf pa with
    | .peer _ => aget s.peerFaults (lineOf pa)
    | _ => none
end State

/-! ### Rows of the skein (R219 to R226, R233, R234, R241 to R244) -/

/-- The partition register of a slice-ply, sp = slice × 4 + ply (R221). -/
def State.partOf (s : State) (sp : Nat) : DWord := (aget s.parts sp).getD partReset
/-- The kind of way w, and the quota of a class (R221). -/
def wayKind (v : DWord) (w : Nat) : Nat := fld v.toNat (2 * w) 2
def quota (v : DWord) (cls : Nat) : Nat := fld v.toNat (32 + 8 * cls) 5
/-- The key of a row, and the slice-ply, set and way that a key names. -/
def rowKey (sp set way : Nat) : Nat := (sp * 512 + set) * 16 + way
/-- The slice-ply of an address. -/
def spOf (pa : Nat) : Nat := sliceOf pa * 4 + plyOf pa
/-- The sectors of an access (R219, R241), by number PA / 32. -/
def sectorsOf (pa n : Nat) : List Nat := (List.range (n / 32 + 2)).filterMap fun i => if pa / 32 + i ≤ (pa + n - 1) / 32 then some (pa / 32 + i) else none
/-- Bits of sectors within their row. -/
def sectorBits (secs : List Nat) : BitVec 64 := secs.foldl (fun m x => m ||| BitVec.twoPow 64 (x % 64)) 0
/-- The sectors of a row whose bits are set. -/
def sectorsIn (block : Nat) (m : BitVec 64) : List Nat := ((List.range 64).filter fun i => m.getLsbD i).map (block * 64 + ·)

namespace State
/-- Whether the skein holds the sector of an address (R220, R227, R233). -/
def inSkein (s : State) (pa : Nat) : Bool :=
  (s.rows.any fun r => r.2.block == pa / 2048 && r.2.valid.getLsbD (pa / 32 % 64)) ||
  (s.contractAt pa).any fun c =>
    if c.kind = 0 then c.filled.contains (pa / 32)
    else if c.kind = 2 then c.rows.any fun r => r.slice == sliceOf pa && c.grans.getD (r.pos / 2) 0 * 2 + r.pos % 2 == pa / 2048 && r.valid.getLsbD (pa / 32 % 64)
    else c.kind != 3

/-! ### Parity and errors of the skein (R237 to R239) -/

/-- The row a data sector lies in, by a number: the block of the address, or of an ACCX range 2^50 and the 512 bytes that fill a row (R227). -/
def rowOfSec (s : State) (sec : Nat) : Nat := if s.accxAt (32 * sec) then 2 ^ 50 + sec / 16 else sec / 64
/-- The bank of a data sector: the place of its line in the row (R219, R227). -/
def bankOfSec (s : State) (sec : Nat) : Nat := if s.accxAt (32 * sec) then sec % 16 else sec / 4 % 16
/-- A byte of line j of a row as its data bank holds it: nothing where the sector is not valid. Of an ACCX row a line holds eight elements (R227). -/
def bankByte (s : State) (row j off : Nat) : Byte :=
  if row < 2 ^ 50 then (let pa := row * 2048 + 128 * j + off; if s.inSkein pa then mget s.mem pa else 0)
  else (s.accxElem (((row - 2 ^ 50) * 16 + j) * 32 + 4 * (off / 16)) >>> (8 * (off % 16))).setWidth 8
/-- The parity bank's byte at an offset of a line: the XOR of the row's 16 lines there (R237). It follows the data at once, so nothing sees the two
out of step. -/
def parityByte (s : State) (row off : Nat) : Byte := (List.range 16).foldl (fun x j => x ^^^ s.bankByte row j off) 0
/-- A byte of line j rebuilt from the other 15 lines of its row and the parity (R238). -/
def rebuiltByte (s : State) (row j off : Nat) : Byte :=
  ((List.range 16).filter (· != j)).foldl (fun x i => x ^^^ s.bankByte row i off) (s.parityByte row off)
/-- The place of the row of a sector in its ply, which the rebuild of a bank goes through (R239). A row that no cache way holds counts as one of way 0
(DESIGN CHOICE, log entry 81). -/
def rowPlace (s : State) (sec : Nat) : Nat :=
  match s.rows.find? fun r => r.2.block == 32 * sec / 2048 with
  | some r => r.1 % 16 * 512 + r.1 / 16 % 512
  | none => setOf (32 * sec)
/-- The failed banks of the slice-ply of a sector, each with whether the rebuild has reached its row (R239). -/
def failedOver (s : State) (sec : Nat) : List (Nat × Bool) :=
  (s.failedBanks.filter fun b => b.1 == spOf (32 * sec)).map fun b => (b.2.1, decide (s.rowPlace sec < b.2.2))
/-- Whether an error lies in the row of a sector. -/
def inRow (s : State) (sec : Nat) (u : Upset) : Bool := (if u.parity then u.at_ else s.rowOfSec u.at_) == s.rowOfSec sec
/-- Whether a data word that cannot be corrected can be rebuilt: its parity still stands, and nothing else of the row is lost (R238, R239). -/
def canRebuild (s : State) (sec : Nat) : Bool :=
  let failed := s.failedOver sec
  let lost := failed.filter fun b => b.1 != s.bankOfSec sec
  !(failed.any fun b => b.2) && lost.isEmpty &&
    !(s.upsets.any fun u => u.double && s.inRow sec u && (u.parity || s.bankOfSec u.at_ != s.bankOfSec sec))
/-- A read of words that the skein holds (R238, R239): a single wrong bit is corrected, a lost word is rebuilt from the rest of its row, whose own single
errors are corrected with it, each with its log entry; and the words that cannot be. -/
def mendEach (s : State) (secs : List Nat) : State × List Nat :=
  secs.foldl (fun (acc : State × List Nat) sec =>
    let t := acc.1
    let mine := t.upsets.filter fun u => !u.parity && u.at_ == sec
    let gone := (t.failedOver sec).any fun b => b.1 == t.bankOfSec sec && !b.2
    if mine.isEmpty && !gone then acc
    else
      let t1 := if mine.isEmpty then t else t.needle .slice [32 * sec]
      if mine.any Upset.double || gone then
        (if !t.canRebuild sec then (t1, acc.2 ++ [sec])
         else
          let met := t1.upsets.filter fun u => t1.inRow sec u && (u.parity || u.at_ != sec)
          let t2 := met.foldl (fun v u => v.needle .slice (if u.parity then [u.at_, u.quarter] else [32 * u.at_])) t1
          ({ t2 with upsets := t2.upsets.filter fun u => !t1.inRow sec u }, acc.2))
      else ({ t1 with upsets := t1.upsets.filter fun u => u.parity || u.at_ != sec }, acc.2)) (s, [])
/-- The same, and whether none is lost. -/
def mend (s : State) (secs : List Nat) : State × Bool := let r := s.mendEach secs; (r.1, r.2.isEmpty)
/-- A write of part of a row reads the old parity (R237): a single wrong bit is corrected, a lost parity word is rebuilt from the 16 lines, each with its log entry; false
where a line is lost too (R238). A ply that runs without parity reads none (R239). -/
def mendParity (s : State) (secs : List Nat) : State × Bool :=
  secs.foldl (fun (acc : State × Bool) sec =>
    let t := acc.1
    let failed := t.failedOver sec
    let mine := t.upsets.filter fun u => u.parity && t.inRow sec u && (u.quarter == sec % 4 || t.accxAt (32 * sec))
    if mine.isEmpty || failed.any (fun b => b.2) then acc
    else
      let t1 := t.needle .slice [t.rowOfSec sec, sec % 4]
      let lost := mine.any Upset.double && (!failed.isEmpty || t.upsets.any fun u => u.double && !u.parity && t.inRow sec u)
      if lost then (t1, false) else ({ t1 with upsets := t1.upsets.filter fun u => !mine.contains u }, acc.2)) (s, true)
/-- Words written whole stand without error; rows written whole have their parity written with them (R237). -/
def clearUpsets (s : State) (secs : List Nat) : State := { s with upsets := s.upsets.filter fun u => u.parity || !secs.contains u.at_ }
def clearParity (s : State) (row : Nat) : State := { s with upsets := s.upsets.filter fun u => !(u.parity && u.at_ == row) }
/-- Whether the skein holds a row, by its number. -/
def rowHeld (s : State) (row : Nat) : Bool :=
  if 2 ^ 50 ≤ row then s.accxAt ((row - 2 ^ 50) * 512) else (List.range 64).any fun i => s.inSkein (row * 2048 + 32 * i)
/-- An error strikes a word of the skein, as a move of the outside (DESIGN CHOICE, log entry 90): two wrong bits of one word are more than its code
corrects (R237, R238). -/
def strike (s : State) (u : Upset) : State :=
  let same (v : Upset) : Bool := v.parity == u.parity && v.at_ == u.at_ && (v.quarter == u.quarter || !u.parity)
  if !(if u.parity then s.rowHeld u.at_ else s.inSkein (32 * u.at_)) then s
  else { s with upsets := (s.upsets.filter fun v => !same v) ++ [{ u with double := u.double || s.upsets.any same }] }

/-! ### Codewords (R424 to R426) -/

/-- The key a page's KEY field selects for a context's function (R424). -/
def keyFor (s : State) (ctx : Nat) (a : Attr) : Nat := (((s.func (ctx / 64)).keys.find? fun k => k.1 == a.key).map (·.2)).getD 0
/-- Whether a codeword read from HBM fails its check: it is damaged, or was written under another key (R425, R426); one that no fibre
and no engine has written since goes with any key (DESIGN CHOICE, log entry 37). -/
def codeFails (s : State) (ctx : Nat) (a : Attr) (sec : Nat) : Bool := s.bad.contains sec || (aget s.keyOf sec).any fun k => k != s.keyFor ctx a
/-- Codewords are written under the key of their page; a range that no HBM stands behind has none (R227). -/
def keyed (s : State) (ctx : Nat) (a : Attr) (spot : Spot) (secs : List Nat) : State :=
  if spot = .fixed then s
  else let k := s.keyFor ctx a; { s with keyOf := secs.foldl (fun t x => aset t x k) s.keyOf }

/-! ### Cache ways (R224 to R226) -/

/-- Codewords written whole to HBM pass their check again, under the key of their page (R424 to R426). -/
def hbmWritten (s : State) (secs : List Nat) : State := { s with bad := s.bad.filter fun b => !secs.contains b }
/-- Sectors leave the skein: dirty ones go to HBM (R226, R243), and an O granule of the mailbox window becomes S (R411). A dirty word that can no longer
be read leaves a codeword that fails its check (DESIGN CHOICE, log entry 82). -/
def writeBack (s : State) (dirty held : List Nat) : State :=
  let (s1, lost) := s.mendEach dirty
  let s2 := s1.hbmWritten dirty
  { s2 with bad := s2.bad ++ lost, upsets := s2.upsets.filter fun u => u.parity || !held.contains u.at_,
            mbox := s2.mbox.map fun g => if g.2 == .o && dirty.any fun x => x / 2 == g.1 then (g.1, .s) else g }
def evictRow (s : State) (k : Nat) : State :=
  match aget s.rows k with
  | none => s
  | some r =>
    let s1 := (s.writeBack (sectorsIn r.block r.dirty) (sectorsIn r.block (BitVec.allOnes 64))).clearParity r.block
    { s1 with rows := adel s1.rows k }
/-- The cache rows of a set: way and row. -/
def setRows (s : State) (sp set : Nat) : List (Nat × Row) :=
  (List.range 16).filterMap fun w => (aget s.rows (rowKey sp set w)).map fun r => (w, r)
/-- The class a full set gives up (R226). -/
def victimClass (v : DWord) (rs : List (Nat × Row)) (cls : Nat) : Nat :=
  let n (c : Nat) : Nat := (rs.filter fun r => r.2.cls == c).length
  let excess (c : Nat) : Nat := n c - quota v c
  let best (f : Nat → Nat) : Nat := if f 0 < f 1 then (if f 1 < f 2 then 2 else 1) else if f 0 < f 2 then 2 else 0
  if (List.range 3).any fun c => 0 < excess c then best excess else if 0 < n cls then cls else best n
/-- The way a miss takes: the lowest empty cache way, else the victim of R226. -/
def victimWay (s : State) (sp set cls : Nat) : Option Nat :=
  let v := s.partOf sp
  let ways := (List.range 16).filter fun w => wayKind v w == 0
  match ways.find? fun w => (aget s.rows (rowKey sp set w)).isNone with
  | some w => some w
  | none =>
    let rs := s.setRows sp set
    let mine := rs.filter fun r => r.2.cls == victimClass v rs cls
    let old := mine.foldl (fun a r => Nat.max a r.2.age) 0
    (mine.find? fun r => r.2.age == old).map (·.1)
/-- The age a fill gives (R225). -/
def fillAge : Hint → Nat
  | .ef => 3
  | .el => 0
  | _ => 1
/-- Takes a cache row for a block that no row holds (R225, R226): the victim is evicted, the others age. -/
def allocRow (s : State) (sp pa cls : Nat) (h : Hint) : State × Spot :=
  let set := setOf pa
  match s.victimWay sp set cls with
  | none => (s, .hbm)
  | some w =>
    let k := rowKey sp set w
    let s1 := s.evictRow k
    let aged := (s1.setRows sp set).foldl (fun t r => if r.2.age < 3 then aset t (rowKey sp set r.1) { r.2 with age := r.2.age + 1 } else t) s1.rows
    ({ s1 with rows := aset aged k ⟨pa / 2048, cls, fillAge h, 0, 0⟩ }, .row k (pa / 2048))
/-- The class of an access: the page's, or that of a CLS contract (R224, R227). -/
def classAt (s : State) (pa cls : Nat) : Nat :=
  match s.contractAt pa with
  | some c => if c.kind = 3 then c.cls else cls
  | none => cls
/-- Cache ways for an access (R224, R145). -/
def cacheSpot (s : State) (pa cls : Nat) (h : Hint) : State × Spot :=
  let sp := spOf pa
  let set := setOf pa
  match (s.setRows sp set).find? fun r => r.2.block == pa / 2048 with
  | some r => ({ s with rows := aset s.rows (rowKey sp set r.1) { r.2 with age := 0 } }, .row (rowKey sp set r.1) (pa / 2048))
  | none => if h = .ns then (s, .hbm) else s.allocRow sp pa (s.classAt pa cls) h

/-- Replaces a contract. -/
def setContract (s : State) (c : Contract) : State :=
  { s with contracts := s.contracts.map fun x => if x.id == c.id then c else x }
/-- The position of an address in a KVR contract (R233), and the block at a position. -/
def kvPos (c : Contract) (pa : Nat) : Nat := 2 * (c.grans.findIdx fun g => g == pa / 4096) + pa / 2048 % 2
def kvBlock (c : Contract) (q : Nat) : Nat := c.grans.getD (q / 2) 0 * 2 + q % 2
/-- Puts a KV row in, N raised already (R233, R234): free room, a victim between the protected ends, or refusal. -/
def kvSpot (s : State) (c : Contract) (pa : Nat) : State × Spot :=
  let sl := sliceOf pa
  let p := kvPos c pa
  let n := Int.toNat (Max.max (((c.high.find? fun h => h.1 == sl).map (·.2)).getD (-1)) (p : Int))
  let c1 := { c with high := (sl, (n : Int)) :: c.high.filter fun h => h.1 != sl }
  let held := c1.rows.filter fun r => r.slice == sl
  if held.any fun r => r.pos == p then (s.setContract c1, .kv c.id sl p)
  else if held.length < c1.c then (s.setContract { c1 with rows := c1.rows ++ [⟨sl, p, 1, 0, 0⟩] }, .kv c.id sl p)
  else
    let cand := held.filter fun r => decide (c1.hd ≤ r.pos) && decide (r.pos + c1.w < n)
    match (cand.map KvRow.pos).foldl (fun (m : Option Nat) q => some (min (m.getD q) q)) none with
    | none => (s.setContract c1, .hbm)
    | some q =>
      let gone := c1.rows.filter fun r => r.slice == sl && r.pos == q
      let s1 := gone.foldl (fun t r => t.writeBack (sectorsIn (kvBlock c1 q) r.dirty) (sectorsIn (kvBlock c1 q) (BitVec.allOnes 64))) s
      (s1.setContract { c1 with rows := (c1.rows.filter fun r => !(r.slice == sl && r.pos == q)) ++ [⟨sl, p, 1, 0, 0⟩] }, .kv c.id sl p)
/-- Where the home serves an access from (R224, R227, R234, R244); rows are allocated and aged on the way. -/
def spotFor (s : State) (pa cls : Nat) (h : Hint) : State × Spot :=
  if !s.deviceSide pa then (s, .fixed)
  else match s.contractAt pa with
    | none => s.cacheSpot pa cls h
    | some c =>
      if c.kind = 0 then (s, .pinb c.id)
      else if c.kind = 2 then s.kvSpot c pa
      else if c.kind = 3 then s.cacheSpot pa cls h
      else (s, .fixed)
/-- Whether a spot holds a sector (R220, R242). -/
def spotHas (s : State) (sp : Spot) (sec : Nat) : Bool :=
  match sp with
  | .fixed => true
  | .hbm => false
  | .row k b => (aget s.rows k).any fun r => r.block == b && r.valid.getLsbD (sec % 64)
  | .pinb cid => s.contracts.any fun c => c.id == cid && c.filled.contains sec
  | .kv cid sl p => s.contracts.any fun c => c.id == cid && c.rows.any fun r => r.slice == sl && r.pos == p && r.valid.getLsbD (sec % 64)
/-- Adds to a list what it does not hold. -/
def joined (xs ys : List Nat) : List Nat := xs ++ ys.filter fun x => !xs.contains x
/-- The granules of the mailbox window that a write of sectors leaves dirty in the slice while the host shares them are O (R410). -/
def madeOwn (s : State) (secs : List Nat) : Assoc MbState :=
  s.mbox.map fun g => if g.2 == .s && secs.any fun x => x / 2 == g.1 then (g.1, .o) else g
/-- Marks sectors filled, or written (R220, R241, R410); where the row has been given up meanwhile, what is written goes to HBM. -/
def spotMark (s : State) (sp : Spot) (secs : List Nat) (dirty : Bool) : State :=
  let bits := sectorBits secs
  let own := if dirty then s.madeOwn secs else s.mbox
  match sp with
  | .fixed => s
  | .hbm => if dirty then s.hbmWritten secs else s
  | .row k b => match (aget s.rows k).filter fun r => r.block == b with
    | none => if dirty then s.hbmWritten secs else s
    | some r =>
      { s with rows := aset s.rows k { r with valid := r.valid ||| bits, dirty := if dirty then r.dirty ||| bits else r.dirty }, mbox := own }
  | .pinb cid =>
    { s with mbox := own, contracts := s.contracts.map fun c => if c.id == cid then
        { c with filled := joined c.filled secs, dirty := if dirty then joined c.dirty secs else c.dirty } else c }
  | .kv cid sl p =>
    { s with mbox := own, contracts := s.contracts.map fun c => if c.id == cid then
        { c with rows := c.rows.map fun r => if r.slice == sl && r.pos == p then
            { r with valid := r.valid ||| bits, dirty := if dirty then r.dirty ||| bits else r.dirty } else r } else c }
/-- Sectors of an access that must come from HBM (R241, R242). -/
def missing (s : State) (sp : Spot) (secs : List Nat) : List Nat := secs.filter fun x => !s.spotHas sp x
/-- A row that a failed fill left without a sector is taken back: no line is installed (R425). -/
def dropEmpty (s : State) (sp : Spot) : State :=
  match sp with
  | .row k b => if (aget s.rows k).any fun r => r.block == b && r.valid == 0 then { s with rows := adel s.rows k } else s
  | _ => s
/-- A fill resets SOLE (R268). -/
def filledLine (s : State) (pa : Nat) : State :=
  { s with track := (s.track.map fun t => if t.1 == lineOf pa then (t.1, (t.2.1, false)) else t) }
/-- The words of an access that the skein holds are read (R238): false where one is lost. -/
def readHeld (s : State) (sp : Spot) (pa : Nat) (secs : List Nat) : State × Bool :=
  if s.deviceSide pa then s.mend (secs.filter fun x => s.spotHas sp x) else (s, true)
/-- The words of an access that the skein holds are written, none of them whole rows: their old data and parity are read (R237, R238); false where one of
them, or their parity, is lost. -/
def readOld (s : State) (sp : Spot) (pa : Nat) (secs : List Nat) : State × Bool :=
  if !s.deviceSide pa || sp == .hbm then (s, true)
  else
    let mine := secs.filter fun x => s.spotHas sp x
    let (s1, ok) := s.mend mine
    let (s2, sound) := s1.mendParity mine
    (s2, ok && sound)
/-- What a row that a bank rebuild has not reached adds to a read of it (R239). -/
def rebuildDelay (s : State) (sp : Spot) (pa : Nat) : Nat :=
  if s.deviceSide pa && sp != .hbm && (s.failedOver (pa / 32)).any (fun b => !b.2) then 4 else 0
/-- A read at a spot of a home by an agent that no request of R240 stands for; or the code of what it meets. `fails` tests a codeword. -/
def fetchAt (s : State) (spot : Spot) (pa n : Nat) (fails : Nat → Bool) : State × Option (BitVec 8) :=
  let secs := sectorsOf pa n
  let miss := s.missing spot secs
  let (s2, ok) := s.readHeld spot pa secs
  if !ok then (s2, some 0x21)
  else if miss.any fails then ((s2.dropEmpty spot).needle .hbm [pa], some 0x20)
  else (if miss.isEmpty then s2 else (s2.spotMark spot miss false).filledLine pa, none)
/-- Such a read with its one lookup (a walk, the host, a peer, an engine, a refill): the rows hit, age and fill like those of any access (R224, R225,
R233). -/
def homeFetch (s : State) (pa n cls : Nat) (fails : Nat → Bool) : State × Option (BitVec 8) :=
  let r := s.spotFor pa cls .normal
  r.1.fetchAt r.2 pa n fails
/-- The class of the page of an address, as a translation that some cache holds gives it; W where none does (R413, DESIGN CHOICE, log entry 83). -/
def pageClass (s : State) (pa : Nat) : Nat :=
  ((s.tlbs.find? fun t => decide (t.pa ≤ pa) && decide (pa < t.pa + 2 ^ t.bits)).map fun t => fld t.leaf.toNat 61 2).getD 0
end State

end Sys2Proof.Machine
end

