-- ==== Sys2Proof/Machine/Translate.lean ====
section
/-! DEFINITION. Translation and views (spec/15), grants and peer ranges (spec/29 R417, R421), and the lane checks of R141. -/

namespace Sys2Proof.Machine

/-! ### Translation (R245 to R255) -/

/-- What an access needs of a leaf (R248). -/
inductive Need where
  | r | w | rw | x
  deriving DecidableEq, Repr

/-- Outcome of a walk: physical address, leaf, lines read; or a trap with its code and whether the leaf's rights refused it. -/
inductive Tr where
  | ok (pa : Nat) (leaf : DWord) (bits : Nat) (via : List Nat)
  | bad (code : BitVec 8) (leaf : Bool)
  deriving DecidableEq, Repr

/-- An entry's fields (R247). -/
def entV (e : Nat) : Bool := e % 2 == 1
def entLeaf (e : Nat) : Bool := fld e 1 1 == 1
def entAddr (e : Nat) : Nat := fld e 8 44 * 256
/-- Whether an entry of a level is malformed (R247); bits is the size of what a leaf of the level maps, tbl the alignment of the
table a pointer names. -/
def entMalformed (lvl e bits tbl : Nat) : Bool :=
  let pa := entAddr e
  fld e 52 3 != 0 || fld e 5 3 != 0 ||
  (if entLeaf e then
    lvl == 0 || fld e 61 2 == 3 || pa % 2 ^ bits != 0 || regionOf pa == .nothing ||
      fld e 55 2 != (if regionOf pa == .device then homeDie pa else 0)
   else lvl == 3 || fld e 55 9 != 0 || fld e 2 3 != 0 || pa % tbl != 0 || regionOf pa != .device)

namespace State
/-- The grant of a context's function (R421). -/
def grantOf (s : State) (c : Nat) : Option GrantRec := (s.func (c / 64)).grant
/-- Whether a context number is one that its function has been granted; the block of another reads zero and ignores writes (R406). -/
def ctxGranted (s : State) (c : Nat) : Bool := (s.func (c / 64)).grant.any fun g => decide (c % 64 < g.ctxn)
/-- Whether an address lies in what the function may reach (R421). -/
def granted (s : State) (c pa : Nat) : Bool :=
  match s.grantOf c with
  | none => false
  | some g => match regionOf pa with
    | .device => g.ranges.any (fun r => r.1 ≤ pa && pa < r.1 + r.2) || (g.window.isSome && s.inWindow pa)
    | .host => g.host
    | .peer _ => g.peers
    | .nothing => false
/-- A table read (R248): the line is read at its home like any line, with class W and no hint (DESIGN CHOICE, log entry 83); or the code it raises. -/
def tableRead (s : State) (die c a n : Nat) : State × Except (BitVec 8) Nat :=
  if !s.granted c a then (s, .error 0x11)
  else if s.dieCut die a then (s, .error 0x21)
  else match s.homeFetch a n 0 s.bad.contains with
    | (s1, some code) => (s1, .error code)
    | (s1, none) => (s1, .ok (s1.homeRd a n))

/-- A walk from a level on: levels 0 to 3 of R246. -/
def walk (die c va : Nat) : Nat → Nat → Nat → List Nat → State → Tr × State
  | 0, _, _, _, s => (.bad 0x10 false, s)
  | fuel + 1, lvl, table, via, s =>
    let idx := if lvl = 0 then fld va 39 18 else if lvl = 1 then fld va 30 9 else if lvl = 2 then fld va 21 9 else fld va 16 5
    let bits := if lvl = 1 then 30 else if lvl = 2 then 21 else 16
    let a := table + 8 * idx
    match s.tableRead die c a 8 with
    | (s1, .error code) => (.bad code false, s1)
    | (s1, .ok e) =>
      if !entV e || entMalformed lvl e bits (if lvl = 2 then 256 else 4096) then (.bad 0x10 false, s1)
      else if entLeaf e then
        let pa := entAddr e + va % 2 ^ bits
        (if s1.granted c pa then .ok pa (BitVec.ofNat 64 e) bits (lineOf a :: via) else .bad 0x11 false, s1)
      else walk die c va fuel (lvl + 1) (entAddr e) (lineOf a :: via) s1

/-- Whether a context translates at all (R245). -/
def translates (s : State) (c : Nat) : Bool := fld (s.ctx c).troot.toNat 63 1 == 1
/-- A general-space translation by the tables alone (R245, R246). -/
def walkGeneral (s : State) (die c va : Nat) : Tr × State :=
  let tr := (s.ctx c).troot.toNat
  let n := let k := tr % 32; if k < 9 || 18 < k then 18 else k
  if !s.translates c || 2 ^ n ≤ fld va 39 18 then (.bad 0x10 false, s)
  else walk die c va 4 0 (fld tr 12 40 * 4096) [] s

/-- The address of entry i of a context's view table (R254). -/
def viewPlace (s : State) (c i : Nat) : Nat := fld (s.ctx c).vtroot.toNat 12 40 * 4096 + 32 * i
/-- The entry of a view (R245, R254): half to use and length with the line it lies in, or the trap. A view table is held to the grant and to
its codewords like any table (R248, R421, DEDUCED, log entry 38). -/
def viewEntry (s : State) (die c i : Nat) : Except (BitVec 8) (Nat × Nat × Nat) × State :=
  let vt := (s.ctx c).vtroot.toNat
  let n := let k := vt % 32; if 16 < k then 16 else k
  if !s.translates c || fld vt 63 1 = 0 || 2 ^ n ≤ i then (.error 0x10, s)
  else match s.tableRead die c (s.viewPlace c i) 32 with
    | (s1, .error code) => (.error code, s1)
    | (s1, .ok e) =>
      let abase := fld e 0 64
      let bbase := fld e 64 64
      let len := fld e 128 40
      (if fld e 193 1 = 0 || fld e 194 62 != 0 || fld e 168 24 != 0 || len = 0 || len % 2 ^ 16 != 0 || abase % 2 ^ 16 != 0 ||
          bbase % 2 ^ 16 != 0 || 2 ^ 56 < abase + len || 2 ^ 56 < bbase + len then .error 0x10
        else .ok (if fld e 192 1 = 1 then bbase else abase, len, lineOf (s.viewPlace c i)), s1)

/-- A cached translation of an owner (R249). -/
def tlbFind (s : State) (owner c va : Nat) : Option Tlb :=
  s.tlbs.find? fun t => t.owner == owner && t.ctx == c && !t.view && t.va == va / 2 ^ t.bits
/-- Installs a translation, dropping the owner's oldest when it holds n (R249). -/
def tlbInstall (s : State) (owner n c va : Nat) (pa : Nat) (leaf : DWord) (bits : Nat) (via : List Nat) : State :=
  let mine := s.tlbs.filter fun t => t.owner == owner
  let kept := if n ≤ mine.length then s.tlbs.eraseP fun t => t.owner == owner else s.tlbs
  { s with tlbs := kept ++ [⟨owner, c, false, va / 2 ^ bits, bits, pa / 2 ^ bits * 2 ^ bits, leaf, via⟩] }
/-- The alias event of a walk (R253): where a page that some cache holds shares a granule with the walk's page and differs in T, the lowest such
granule is logged and recorded in the installing context's register; one event a walk (DEDUCED, log entry 84). -/
def aliasEvent (s : State) (c pa : Nat) (leaf : DWord) (bits : Nat) : State :=
  let lo := pa / 2 ^ bits * 2 ^ bits
  let clash := (s.tlbs.filter fun t => decide (t.pa < lo + 2 ^ bits) && decide (lo < t.pa + 2 ^ t.bits) &&
    fld t.leaf.toNat 63 1 != fld leaf.toNat 63 1).map fun t => (Nat.max lo t.pa / 2 ^ 16, t.ctx)
  match (sortBy (fun a b => decide (a.1 ≤ b.1)) clash).head? with
  | none => s
  | some (g, other) =>
    let x := s.ctx c
    let v := x.dblmap.toNat
    let cnt := fld v 0 16
    let gran := if fld v 63 1 = 1 then fld v 16 36 else g
    (s.needle .mapping [g, c, other]).setCtx c { x with dblmap := BitVec.ofNat 64 (2 ^ 63 + gran * 2 ^ 16 + (if cnt = 65535 then cnt else cnt + 1)) }

/-- A general-space address through the caches of a core and its cluster, or a walk that fills them (R249). -/
def xlateGeneral (s : State) (core c va : Nat) : Tr × State :=
  match s.tlbFind core c va with
  | some t => (.ok (t.pa + va % 2 ^ t.bits) t.leaf t.bits t.via, s)
  | none =>
    match s.tlbFind (100000 + clusterOf core) c va with
    | some t => (.ok (t.pa + va % 2 ^ t.bits) t.leaf t.bits t.via, s.tlbInstall core 128 c va t.pa t.leaf t.bits t.via)
    | none =>
      match s.walkGeneral (dieOfCore core) c va with
      | (.ok pa leaf bits via, s1) =>
        (.ok pa leaf bits via,
          ((s1.aliasEvent c pa leaf bits).tlbInstall (100000 + clusterOf core) 4096 c va pa leaf bits via).tlbInstall core 128 c va pa leaf bits via)
      | r => r

/-- Any valid address: the general space, or the view aperture through the view's active half (R245, R254). -/
def xlate (s : State) (core c va : Nat) : Tr × State :=
  if !s.translates c then (.bad 0x10 false, s)
  else if va < 2 ^ 56 then s.xlateGeneral core c va
  else
    match s.viewEntry (dieOfCore core) c (fld va 40 16) with
    | (.error e, s1) => (.bad e false, s1)
    | (.ok (base, len, line), s1) =>
      if len ≤ va % 2 ^ 40 then (.bad 0x11 false, s1)
      else match s1.xlateGeneral core c (base + va % 2 ^ 40) with
        | (.ok pa leaf bits via, s2) => (.ok pa leaf bits (line :: via), s2)
        | r => r

/-- A leaf's right (R248). -/
def leafAllows (n : Need) (leaf : DWord) : Bool :=
  match n with
  | .r => leaf.getLsbD 2
  | .w => leaf.getLsbD 3
  | .rw => leaf.getLsbD 2 && leaf.getLsbD 3
  | .x => leaf.getLsbD 4
/-- The peer ranges of R417: the device's, whatever its functions. -/
def peerAllows (s : State) (n : Need) (pa : Nat) : Bool :=
  match regionOf pa with
  | .peer p => p != s.pod && fld pa 40 3 == 0 && s.peerRanges.any fun r =>
      r.1 == p && r.2.1 ≤ pa % 2 ^ 40 && pa % 2 ^ 40 < r.2.1 + r.2.2.1 &&
      (match n with
        | .r => r.2.2.2.1
        | .w => r.2.2.2.2
        | .rw => r.2.2.2.1 && r.2.2.2.2
        | .x => false)
  | _ => true
/-- The attributes of a leaf (R247). -/
def attrOf (leaf : DWord) (via : List Nat) : Attr := ⟨fld leaf.toNat 61 2, fld leaf.toNat 57 4, leaf.getLsbD 63, via⟩

/-- Translation with rights: physical address and attributes, or the trap code and whether a leaf refused. -/
def access (s : State) (core c va : Nat) (n : Need) : Except (BitVec 8 × Bool) (Nat × Attr) × State :=
  match s.xlate core c va with
  | (.bad e l, s') => (.error (e, l), s')
  | (.ok pa leaf _ via, s') =>
    if !leafAllows n leaf then (.error (0x11, true), s')
    else if !s'.peerAllows n pa then (.error (0x11, false), s')
    else (.ok (pa, attrOf leaf via), s')

/-- The lane check of R141 for an access of a size: range, alignment, translation, then what `bar` names for the physical address
(residency, contract, target), then reach. -/
def laneCheck (s : State) (core c : Nat) (va : DWord) (size : Nat) (n : Need) (bar : State → Nat → Option (BitVec 8)) :
    Except (BitVec 8 × Bool) (Nat × Attr) × State :=
  if 2 ^ 57 ≤ va.toNat then (.error (0x11, false), s)
  else if va.toNat % size != 0 then (.error (0x12, false), s)
  else match s.access core c va.toNat n with
    | (.error e, s') => (.error e, s')
    | (.ok (pa, a), s') =>
      match bar s' pa with
      | some code => (.error (code, false), s')
      | none => if s'.unreachable core pa then (.error (0x21, false), s') else (.ok (pa, a), s')
/-- Residency of a load, of a plain store or atomic (R228, R235). -/
def barRead (s : State) (pa : Nat) : Option (BitVec 8) := if s.lostAt pa then some 0x13 else none
def barPlain (s : State) (pa : Nat) : Option (BitVec 8) :=
  if s.lostAt pa then some 0x13 else if s.accxAt pa then some 0x14 else none
end State

end Sys2Proof.Machine
end

