-- ==== Sys2Proof/Machine/Buffer.lean ====
section
/-! DEFINITION. What a core keeps of memory: L1 (spec/13 R202, R215, R217), the write-combining buffer with its releases (R216, spec/16 R262), the
signature (R267), and the accesses that the device makes for a fibre within one step (spec/02 R18). -/

namespace Sys2Proof.Machine

/-- Bytes of an access size (R140). -/
def sizeBytes : Size → Nat
  | .u8 | .s8 => 1
  | .u16 | .s16 => 2
  | .b32 => 4
  | .b64 => 8
  | .b128 => 16
/-- The registers a loaded value fills, extended as its size says (R140). -/
def extendTo (sz : Size) (v : Nat) : List Word :=
  match sz with
  | .u8 | .u16 | .b32 => [BitVec.ofNat 32 v]
  | .s8 => [(BitVec.ofNat 8 v).signExtend 32]
  | .s16 => [(BitVec.ofNat 16 v).signExtend 32]
  | .b64 => [BitVec.ofNat 32 v, BitVec.ofNat 32 (v / 2 ^ 32)]
  | .b128 => [BitVec.ofNat 32 v, BitVec.ofNat 32 (v / 2 ^ 32), BitVec.ofNat 32 (v / 2 ^ 64), BitVec.ofNat 32 (v / 2 ^ 96)]
/-- The bit of a 64-byte block in a signature (R267). -/
def sigBit (pa : Nat) : Nat := fld pa 6 12 ^^^ fld pa 18 12 ^^^ fld pa 30 12 ^^^ fld pa 42 10
/-- Whether signatures and acquire checks reach a line: all but those of a peer (R265, R268, R419). -/
def widens (pa : Nat) : Bool :=
  match regionOf pa with
  | .peer _ => false
  | _ => true
/-- The 64-byte blocks of n bytes, by number. -/
def blocksOf (pa n : Nat) : List Nat := (List.range (n / 64 + 2)).filterMap fun i => if pa / 64 + i ≤ (pa + n - 1) / 64 then some (pa / 64 + i) else none
/-- The bytes of the core store a team takes (R156). -/
def teamBytes (warps alloc scratch : Nat) : Nat := 128 * alloc * warps + scratch

/-! ### Parts of writes -/

/-- Whether a part is a store, which counts toward its fibre's acknowledgements (R50). -/
def WPart.counts (p : WPart) : Bool :=
  match p.org with
  | .store _ => true
  | _ => false
/-- Fibres whose stores parts of a warp's line carry, one for each store; the acknowledgement of a spill, an overflow entry or a late write is none of
them, and leaves csr.lastseq (R50, R256, R258; DESIGN CHOICE, log entry 102). -/
def storesOf (w : Nat) (ps : List WPart) : List Nat := (ps.filter WPart.counts).map fun p => fibKey w p.lane
/-- The attributes that place a line: those of its first part. -/
def partsAttr (ps : List WPart) : Attr := (ps.head?.map WPart.at_).getD Attr.plain
/-- The bytes of parts over what another source gives, later parts over earlier ones. -/
def overParts (ps : List WPart) (f : Nat → Byte) (o : Nat) : Byte :=
  match ps.reverse.find? fun p => decide (p.off ≤ o) && decide (o < p.off + p.bytes.length) with
  | some p => p.bytes.getD (o - p.off) 0
  | none => f o
/-- Whether a drain of a core covers a line (R309). -/
def drainCovers (r : DrainReq) (c line : Nat) : Bool :=
  r.core == c && !r.scratch && decide (lineOf r.pa ≤ line) && decide (line < r.pa + (if r.acc = 1 then 2048 else 1024))

namespace State
/-- The context a warp's team runs under (R155, R188). -/
def ctxOfWarp (s : State) (w : Nat) : Nat := ((aget s.launches (s.team (teamOf w)).launch).map Launch.ctx).getD 0
/-- A fibre's own bytes of a line that still stand in its core's write-combining buffer, the latest last (R143, R216). -/
def ownPending (s : State) (w l line : Nat) : List (Nat × Byte) :=
  ((s.core (s.team (teamOf w)).core).wcb.filter fun e => e.warp == w && e.line == line).flatMap fun e =>
    (e.parts.filter fun p => p.lane == l).flatMap fun p => (List.range p.bytes.length).map fun i => (p.off + i, p.bytes.getD i 0)
/-- The bytes of an access: the fibre's own pending ones over what another source gives. -/
def overlay (own : List (Nat × Byte)) (off n : Nat) (f : Nat → Byte) : Nat :=
  ofBytes ((List.range n).map fun i => match own.reverse.find? fun o => o.1 == off + i with
    | some o => o.2
    | none => f (off + i))
/-- The plain writes of a line that a core has sent and its home has not applied, in the order sent (R259). -/
def sentWrites (s : State) (c line : Nat) : List WPart :=
  (sortBy (fun (a b : WriteReq) => decide (a.sent ≤ b.sent)) (s.items.filterMap fun j => match j.2 with
    | .write w => if w.core == c && w.line == line then some w else none
    | _ => none)).flatMap WriteReq.parts
/-- Whether a core has sent an atomic, an update or a row of a line that its home has not applied. -/
def updateOnWay (s : State) (c line : Nat) : Bool :=
  s.items.any fun j => match j.2 with
    | .rmw r => r.dest.core == c && lineOf r.lane.pa == line
    | .acc r => r.core == c && r.line == line
    | .row r => r.dest.core == c && r.store.isSome && r.pa == line / 2048 * 2048
    | .drain r => drainCovers r c line
    | .tile r => drainCovers r c line
    | .flip r => r.core == c && lineOf r.entry == line
    | _ => false

/-! ### L1 (R202, R215, R217, R259) -/

/-- The teams resident on a core, with their handles: those that have been placed and have not retired (R155, R161). -/
def teamsOn (s : State) (c : Nat) : List (Nat × Team) := s.teams.filter fun t => t.2.core == c && t.2.phase != .retired
/-- Bytes that the resident teams of a core hold (R156), and the bytes left to L1 (R202). -/
def usedBytes (s : State) (c : Nat) : Nat := (s.teamsOn c).foldl (fun n t => n + teamBytes t.2.warps t.2.alloc t.2.scratch) 0
def l1Bytes (s : State) (c : Nat) : Nat := 1048576 - (s.usedBytes c + 16383) / 16384 * 16384
/-- Drops a core's L1 copy of a line; drops all of L1 (R215, R217). -/
def l1Drop (s : State) (c line : Nat) : State := let x := s.core c; s.setCore c { x with l1 := adel x.l1 line }
def l1Clear (s : State) (c : Nat) : State := s.setCore c { s.core c with l1 := [] }
/-- An L1 that gives up what it has no room for (R145, R202): lines marked first for eviction, then those filled longest ago (DESIGN CHOICE, log entry
85: the order among the others). -/
def l1Trim (s : State) (c : Nat) : State :=
  let x := s.core c
  let worse (a b : Nat × L1Line) : Bool := (a.2.ef && !b.2.ef) || (a.2.ef == b.2.ef && decide (a.2.at_ ≤ b.2.at_))
  let gone := ((sortBy worse x.l1).take (x.l1.length - s.l1Bytes c / 128)).map (·.1)
  if gone.isEmpty then s else s.setCore c { x with l1 := x.l1.filter fun e => !gone.contains e.1 }
/-- Puts bytes of a line into L1, as a fill or a refresh (R215, R259). A line keeps the cycle of its oldest byte. -/
def l1Fill (s : State) (c line lo n : Nat) (ef : Bool) (f : Nat → Byte) : State :=
  let x := s.core c
  let old := aget x.l1 line
  let rest := ((old.map L1Line.bytes).getD []).filter fun b => b.1 < lo || lo + n ≤ b.1
  let at_ := if rest.isEmpty then s.clock else (old.map L1Line.at_).getD s.clock
  let bs := (List.range n).foldl (fun b i => aset b (lo + i) (f (lo + i))) rest
  ((s.setCore c { x with l1 := aset x.l1 line ⟨bs, at_, ef⟩ }).l1Trim c).later 4096 (.l1LineExpire c line)

/-! ### The signature (R267) -/

/-- Sets the signature bits of the blocks a tracked write covers, under the name of the write or of a later one that set it (R267). -/
def sign (s : State) (c id pa n : Nat) (tracked : Bool) : State :=
  if !tracked || !widens pa then s
  else
    let x := s.core c
    let bits := (blocksOf pa n).map fun b => sigBit (64 * b)
    let sig := bits.foldl (fun g b =>
      let mine (e : Nat × Nat × Nat) : Bool := e.1 == b && e.2.1 == homeDie pa
      (g.filter fun e => !mine e) ++ [(b, homeDie pa, (g.filter mine).foldl (fun m e => Nat.max m e.2.2) id)]) x.sig
    let s1 := s.setCore c { x with sig := sig }
    if x.sig.isEmpty then s1.later 8192 (.signaturePublish c) else s1

/-! ### Outstanding writes and releases (R50, R257, R262) -/

/-- What an outstanding write reaches (R257, R262, R401): 0 memory of this device, 1 a peer, 2 what lies behind the host port, a page in host bias
among it (R416). -/
def reachOf (s : State) (pa : Nat) : Nat :=
  match regionOf pa with
  | .peer _ => 1
  | .device => if s.hostSide pa then 2 else 0
  | _ => 2
/-- Records an outstanding write of a fibre and raises its acknowledgement count where the write counts (R50). -/
def addOut (s : State) (id f pa : Nat) (sent count : Bool) : State :=
  let x := s.fib f
  { (s.setFib f { x with acks := if count then x.acks + 1 else x.acks }) with outs := s.outs ++ [⟨id, f, lineOf pa, homeDie pa, sent, s.reachOf pa⟩] }
/-- Whether a request is performed: it is gone, or is on its way back; of an engine's record, all its writes are applied. -/
def performed (s : State) (id : Nat) : Bool :=
  (match s.item id with
    | none => true
    | some (.ack _) => true
    | some (.result _) => true
    | some (.engine j) => decide (2 ≤ j.stage)
    | some _ => false) && s.cores.all fun c => c.2.wcb.all fun e => e.id != id
/-- Whether a release at a scope need wait no longer for an outstanding write of a fibre on a die (R262). -/
def outDone (s : State) (die : Nat) (sc : Scope) (o : OutWrite) : Bool :=
  match sc with
  | .fibre => true
  | .warp | .team | .core => o.sent && (o.dest != 3 || s.performed o.id)
  | .cluster | .die => o.sent && o.dest != 3 && !(o.dest == 0 && o.die == die)
  | .package => o.sent && o.dest != 3 && o.dest != 0
  | .pod => o.dest == 2 && o.sent
  | .host | .peerio | .system => false
/-- Whether a fibre's earlier writes are performed as a release at a scope needs (R262); writes of the entry or item `self` and
later ones do not count. -/
def released (s : State) (f : Nat) (sc : Scope) (self : Nat) : Bool :=
  (s.outs.filter fun o => o.fibre == f && decide (o.id < self)).all (s.outDone (dieOfCore (s.team (teamOf (f / 32))).core) sc)
/-- Whether a fibre has an earlier read whose value has not returned (R262, R276). -/
def readOpen (s : State) (w l before : Nat) : Bool :=
  s.items.any fun j => decide (j.1 < before) && (match j.2 with
    | .read r => r.dest.warp == w && r.lanes.any fun x => x.lane == l
    | .hbm r _ _ => r.dest.warp == w && r.lanes.any fun x => x.lane == l
    | .rmw r => r.dest.warp == w && r.ret && r.lane.lane == l
    | .row r => r.dest.warp == w && r.store.isNone && r.lanes.getLsbD l
    | .result m => m.dest.warp == w && m.vals.any fun x => x.1 == l
    | .ldc r => r.dest.warp == w && r.lanes.any fun x => x.lane == l
    | _ => false)

/-! ### The write-combining buffer (R216) -/

/-- The requests of a core that its memory pipe has outstanding (R9, R240): from their sending until their answer or acknowledgement is back. -/
def requestsOf (s : State) (c : Nat) : Nat :=
  let one (b : Bool) : Nat := if b then 1 else 0
  (s.items.map fun j => match j.2 with
    | .read r => one (r.dest.core == c)
    | .hbm r _ _ => one (r.dest.core == c)
    | .write r => one (r.core == c)
    | .rmw r => one (r.dest.core == c)
    | .acc r => one (r.core == c)
    | .row r => one (r.dest.core == c)
    | .tile r => one (r.core == c)
    | .drainAck r => one (r.core == c)
    | .flip r => one (r.core == c)
    | .ack m => one (m.core == c && m.out == j.1 && !s.outs.any fun o => o.id == m.out && o.dest == 3)
    | .result m => one (m.dest.core == c && m.req && m.tag.all fun t => (s.item t).isNone)
    | .scld r => if r.core == c then (r.dues.filter fun d => decide (s.clock < d)).length else 0
    | _ => 0).sum
/-- Whether a core may have n requests more outstanding (R9). -/
def roomForRequests (s : State) (c n : Nat) : Bool := decide (s.requestsOf c + n ≤ 2048)
/-- Whether a write-combining entry may be sent: there is room for a request, no older entry of its warp and line stands before it, the releases merged
into it are met, and their fibres' earlier reads have returned (R216, R262, R275). -/
def wcbReady (s : State) (c : Nat) (e : Wcb) : Bool :=
  s.roomForRequests c 1 && ((s.core c).wcb.all fun o => !(o.warp == e.warp && o.line == e.line && decide (o.id < e.id))) &&
    e.rels.all fun r => s.released (fibKey e.warp r.1) r.2 e.id && !s.readOpen e.warp r.1 e.id
/-- Sends an entry toward its home under its own name and updates the core's own L1 copy (R215, R216). -/
def wcbSend (s : State) (c : Nat) (e : Wcb) : State :=
  let x := s.core c
  let l1 := match aget x.l1 e.line with
    | none => x.l1
    | some l => aset x.l1 e.line { l with bytes := l.bytes.map fun b => (b.1, overParts e.parts (fun _ => b.2) b.1) }
  let s1 := s.setCore c { x with wcb := x.wcb.filter fun y => y.id != e.id, l1 := l1 }
  let s2 := { s1.named with outs := s1.outs.map fun (o : OutWrite) => if o.id == e.id then { o with sent := true } else o }
  (s2.putItem e.id (.write ⟨s.nextId, c, e.warp, e.ctx, e.line, e.parts, e.hint⟩)).later (s.pathLatency c e.line / 2) (.homeWrite e.id)
/-- Sends every entry of a core that a test selects and that may be sent, oldest first. -/
def wcbSendAll (s : State) (c : Nat) (sel : Wcb → Bool) : State :=
  (s.core c).wcb.foldl (fun t e => if sel e && t.wcbReady c e then t.wcbSend c e else t) s
/-- The bytes an entry covers. -/
def wcbCovered (e : Wcb) : Nat :=
  ((List.range 128).filter fun o => e.parts.any fun p => p.off ≤ o && o < p.off + p.bytes.length).length
/-- Room for a new entry: the oldest that may be sent is, where all 64 stand; none where none may (R216). -/
def wcbRoom (s : State) (c : Nat) : Option State :=
  if (s.core c).wcb.length < 64 then some s
  else ((s.core c).wcb.find? fun e => s.wcbReady c e).map fun e => s.wcbSend c e
/-- Opens an entry of parts of one line of a warp (R216). -/
def wcbOpen (s : State) (w line : Nat) (parts : List WPart) (hint : Hint) (rels : List (Nat × Scope)) : Option State :=
  let c := (s.team (teamOf w)).core
  (s.wcbRoom c).map fun s1 =>
    let id := s1.nextId
    let e : Wcb := ⟨id, w, line, parts, s1.clock, hint, s1.ctxOfWarp w, rels⟩
    let s2 := (s1.setCore c { s1.core c with wcb := (s1.core c).wcb ++ [e] }).named
    (parts.foldl (fun t p => (t.addOut id (fibKey w p.lane) line false p.counts).sign c id (line + p.off) p.bytes.length p.at_.tracked) s2).later 256
      (.wcbDrainTimeout c id)
/-- Places a write of one lane (R216): merged into the warp's youngest entry of the line, whose hint it takes (DESIGN CHOICE, log entry 76), or
into a new one. A full entry is sent. No room answers none. -/
def wcbPlace (s : State) (w line : Nat) (p : WPart) (hint : Hint) : Option State :=
  let c := (s.team (teamOf w)).core
  match (s.core c).wcb.reverse.find? fun e => e.warp == w && e.line == line with
  | none => s.wcbOpen w line [p] hint []
  | some e =>
    let e' := { e with parts := e.parts ++ [p] }
    let s1 := (s.setCore c { s.core c with wcb := (s.core c).wcb.map fun y => if y.id == e.id then e' else y }).addOut e.id (fibKey w p.lane) line false
      p.counts
    let s2 := s1.sign c e.id (line + p.off) p.bytes.length p.at_.tracked
    some (if wcbCovered e' = 128 && s2.wcbReady c e' then s2.wcbSend c e' else s2)

/-! ### Tracked granules that the host may hold (R409 to R411, R414) -/

/-- The directory state of a mailbox granule. -/
def mbState (s : State) (g : Nat) : MbState := (aget s.mbox g).getD .i
def setMb (s : State) (g : Nat) (m : MbState) : State := { s with mbox := if m == .i then adel s.mbox g else aset s.mbox g m }
/-- Whether the host-line agent holds a line for a function, to write it where the access does (R404, R414). -/
def agentHolds (s : State) (fn g : Nat) (write : Bool) : Bool := s.hostLines.any fun x => x.1 == fn && x.2.1 == g && (x.2.2 || !write)
/-- Whether an access of a function to a granule must first hear from the host. -/
def needsHost (s : State) (fn g : Nat) (tracked write : Bool) : Bool :=
  if s.hostSide (64 * g) then !(tracked && s.agentHolds fn g write)
  else tracked && s.inWindow (64 * g) && (match s.mbState g with
    | .i => false
    | .h => true
    | _ => write)
/-- The first granule within an access that must; an untracked one that the host-line agent serves counts from one on: each access asks for it once (R414). -/
def firstGate (s : State) (fn pa n : Nat) (tracked write : Bool) (from_ : Nat) : Option Nat :=
  (blocksOf pa n).find? fun g => (tracked || decide (from_ ≤ g)) && s.needsHost fn g tracked write
/-- Sends the host the request an access waits for; its response is BIRSP or CXL_CACHE_RESPONSE. -/
def askHost (s : State) (inner : Nat) (a : Ask) : State :=
  let id := s.nextId
  (s.start (.host ⟨inner, a, none⟩)).later 450 (if s.hostSide (64 * a.line) then .cxlCacheResponse id false none else .birsp id none)
/-- Whether an access already waits for the host. -/
def askingHost (s : State) (id : Nat) : Bool := s.items.any fun j => match j.2 with
  | .host w => w.inner == id
  | _ => false
/-- Whether what an access within a step needs has been asked for. -/
def asked (s : State) (a : Ask) : Bool := s.items.any fun j => match j.2 with
  | .host w => w.inner == 0 && w.ask == a
  | _ => false
/-- A group that waits for the host asks once for each granule (R411, R414). -/
def askOnce (s : State) (asks : List Ask) : State := asks.foldl (fun t a => if t.asked a then t else t.askHost 0 a) s
/-- What the host has answered an access within a step: whether it refused it (R404). -/
def hostAnswer (s : State) (a : Ask) : Option Bool := s.items.findSome? fun j => match j.2 with
  | .host w => if w.inner == 0 && w.ask == a then w.refused else none
  | _ => none
/-- Answers that a warp has used are forgotten. -/
def forgetAnswers (s : State) (warp : Nat) : State :=
  { s with items := s.items.filter fun j => match j.2 with
      | .host w => !(w.inner == 0 && w.ask.warp == warp && w.refused.isSome)
      | _ => true }
/-- Asks the host on behalf of an access within a step: nothing stands in its way, it waits with what it asks for, or the host refuses it. A granule of the
mailbox window is asked for whoever needs it. -/
inductive Gate where
  | open_ | wait (a : List Ask) | refused
  deriving DecidableEq, Repr
/-- The gate of an access within a step of a warp of a function to bytes of one granule or more (R404, R411, R414). -/
def gateFor (s : State) (warp fn pa n : Nat) (tracked write : Bool) : Gate :=
  let asks : List Ask := ((blocksOf pa n).filter fun g => s.needsHost fn g tracked write).map fun g =>
    ⟨g, write, fn, if s.hostSide pa then warp else 0, tracked⟩
  let left := asks.filter fun a => !s.hostSide pa || (s.hostAnswer a).isNone
  if s.hostSide pa && asks.any (fun a => s.hostAnswer a == some true) then .refused else if left.isEmpty then .open_ else .wait left

/-! ### Copies near the reader (R215, R259, R398, R399) -/

/-- Whether a core has a read or atomic of a line on its way (R259). -/
def readOnWay (s : State) (c line : Nat) : Bool :=
  s.items.any fun j => match j.2 with
    | .read r => r.dest.core == c && r.line == line
    | .hbm r _ _ => r.dest.core == c && r.line == line
    | .rmw r => r.dest.core == c && lineOf r.lane.pa == line
    | .row r => r.dest.core == c && r.pa == line / 2048 * 2048
    | _ => false
/-- Whether a core has a write of a line that is not acknowledged (R259, R398). -/
def writeOnWay (s : State) (c line : Nat) : Bool :=
  s.outs.any fun o => o.line == line && o.dest != 3 && (s.team (teamOf (o.fibre / 32))).core == c
/-- The bytes of a line that a table of bytes holds, all of a range. -/
def holdsAll (bs : Assoc Byte) (lo n : Nat) : Bool := (List.range n).all fun i => (aget bs (lo + i)).isSome
/-- What a read of one line finds in the issuing die's reserve (R398). -/
def reserveCopy (s : State) (c : Nat) (r : ReadReq) : Option (Assoc Byte) :=
  let line := r.line
  if homeDie line = dieOfCore c || r.hint = .ns || s.inWindow line || (s.contractAt line).isSome || s.writeOnWay c line then none
  else ((s.reserve.find? fun x => x.die == dieOfCore c && x.line == line).filter fun x => holdsAll x.bytes r.lo r.n).map ResLine.bytes
/-- What a load of one line finds nearer than its home: L1, or the issuing die's reserve (R215, R398); the bytes and the delay. -/
def nearCopy (s : State) (c : Nat) (r : ReadReq) : Option (Assoc Byte × Nat) :=
  let line := r.line
  if r.hint = .nl || r.scope.isSome || regionOf line != .device || s.hostSide line || s.readOnWay c line then none
  else match (aget (s.core c).l1 line).filter fun x => holdsAll x.bytes r.lo r.n with
    | some x => some (x.bytes, 20)
    | none => (s.reserveCopy c r).map fun b => (b, 400)
/-- A hit in a die's reserve makes its way the youngest (DESIGN CHOICE, log entry 86). -/
def reserveHit (s : State) (die line : Nat) : State :=
  { s with reserve := s.reserve.map fun x => if x.die == die && x.line == line then { x with age := 0 } else x }
/-- The set of a line in a die's reserve: 196,608 sets of 8 ways in each proxy slice (R9, R218, R398; DESIGN CHOICE, log entry 86: the index). -/
def reserveSet (line : Nat) : Nat × Nat := (sliceHash line, line / 128 % 196608)
/-- A die's reserve gives up its copy of a line; a home-served read of it does so where the copy would be older (R259; DESIGN CHOICE, log
entry 86). -/
def reserveDrop (s : State) (die line : Nat) : State :=
  { s with reserve := s.reserve.filter fun x => !(x.die == die && x.line == line) }
/-- Fills the reserve of a reader's die with the sectors of a read and sets the sharer bit (R398, R399): its own line, the first invalid way, or the
oldest way of the set. -/
def reserveFill (s : State) (c : Nat) (r : ReadReq) : State :=
  let die := dieOfCore c
  let line := r.line
  if homeDie line = die || !s.deviceSide line then s
  else if r.hint = .ns || r.hint = .nl || r.scope.isSome || s.inWindow line || (s.contractAt line).isSome || s.writeOnWay c line then
    s.reserveDrop die line
  else
    let lo := r.lo / 32 * 32
    let n := (r.lo + r.n + 31) / 32 * 32 - lo
    let fill (old : Assoc Byte) : Assoc Byte := (List.range n).foldl (fun b i => aset b (lo + i) (s.homeByte (line + lo + i))) old
    let share := if s.sharers.contains (line, die) then s.sharers else s.sharers ++ [(line, die)]
    let mine (x : ResLine) : Bool := x.die == die && reserveSet x.line == reserveSet line
    match s.reserve.find? fun x => x.die == die && x.line == line with
    | some x => { (s.reserveDrop die line) with reserve := (s.reserveDrop die line).reserve ++ [{ x with age := 0, bytes := fill x.bytes }], sharers := share }
    | none =>
      let set := s.reserve.filter mine
      let old := set.foldl (fun a x => Nat.max a x.age) 0
      let way := ((List.range 8).find? fun w => set.all fun x => x.way != w).getD
        (((List.range 8).find? fun w => set.any fun x => x.way == w && x.age == old).getD 0)
      let kept := (s.reserve.filter fun x => !(mine x && x.way == way)).map fun x => if mine x then { x with age := Nat.min 3 (x.age + 1) } else x
      { s with reserve := kept ++ [⟨die, line, way, fillAge r.hint, fill []⟩], sharers := share }
/-- A home-served read of bytes of a line renews the reader's copy in L1 (R259): what is read stands there anew, over it what the core has sent, and
nothing older beside it; an update on its way lets no copy stand. -/
def l1Renew (s : State) (c line lo n : Nat) (ef fresh : Bool) : State :=
  if (aget (s.core c).l1 line).isNone && !fresh then s
  else if s.updateOnWay c line then s.l1Drop c line
  else (if fresh then s else s.l1Drop c line).l1Fill c line lo n ef (overParts (s.sentWrites c line) fun o => s.homeByte (line + o))

/-! ### Requests on their way (R259) -/

/-- Core and address of a request on its way to a home, and its place in what the core sent. -/
def routeOf (id : Nat) : Item → Option (Nat × Nat × Nat)
  | .read r => some (r.dest.core, r.line, id)
  | .hbm r _ _ => some (r.dest.core, r.line, id)
  | .write r => some (r.core, r.line, r.sent)
  | .rmw r => some (r.dest.core, r.lane.pa, id)
  | .acc r => some (r.core, r.line, id)
  | .row r => some (r.dest.core, r.pa, id)
  | .drain r => if r.scratch then none else some (r.core, r.pa, id)
  | .tile r => if r.scratch then none else some (r.core, r.pa, id)
  | .flip r => some (r.core, r.entry, id)
  | _ => none

/-! ### Accesses the device makes for a fibre within one step (R18): spills, refills, the return stack -/

end State

/-- What an access that the device makes for a fibre comes to: it is made, it must wait, or it stops the word with a code, whether a leaf refused it,
and an address (R18). -/
inductive Made (α : Type) where
  | ok (a : α)
  | wait (s : State)
  | bad (code : BitVec 8) (leaf : Bool) (va : DWord)

namespace State
/-- The address and attributes of an 8-byte or wider access of a fibre (R18, R141, R248). -/
def fibreCheck (s : State) (w : Nat) (va : DWord) (nd : Need) : Except (BitVec 8 × Bool) (Nat × Attr) × State :=
  s.laneCheck (s.team (teamOf w)).core (s.ctxOfWarp w) va 8 nd (match nd with
    | .r => barRead
    | _ => barPlain)
/-- The word in hand cannot issue before the host has answered. -/
def stoppedFor (s : State) (asks : List Ask) : State := { s.stopped with iss := { s.stopped.iss with asks := s.iss.asks ++ asks } }
/-- What an access of a fibre within a step meets in the sectors that it covers in part (R238, R425): they are read at their home, lowest first. -/
def partCode (s : State) (w pa n : Nat) (a : Attr) : State × Option (BitVec 8) :=
  if !s.deviceSide pa then (s, none)
  else ((sectorsOf pa n).filter fun x => decide (32 * x < pa) || decide (pa + n < 32 * x + 32)).foldl (fun acc x => match acc with
    | (t, some code) => (t, some code)
    | (t, none) => t.homeFetch (32 * x) 32 a.cls (t.codeFails (t.ctxOfWarp w) a)) (s, none)
/-- Writes bytes of a frame (R18, R21): a host that refuses them (R404), a codeword or a word of the skein that they cover in part and that is lost (R238, R425),
stops the word; no room makes it wait. -/
def fibreWrite (s : State) (w l : Nat) (va : DWord) (bs : List Byte) (org : Origin) : Made State :=
  match s.fibreCheck w va .w with
  | (.error e, _) => .bad e.1 e.2 va
  | (.ok (pa, a), s1) =>
    match if s1.hostSide pa then s1.gateFor w (s1.ctxOfWarp w / 64) pa bs.length a.tracked true else .open_ with
    | .refused => .bad 0x11 false va
    | .wait q => .wait (s1.stoppedFor q)
    | .open_ => match s1.partCode w pa bs.length a with
      | (_, some code) => .bad code false va
      | (s2, none) => match s2.wcbPlace w (lineOf pa) ⟨l, pa % 128, bs, va, a, org⟩ .normal with
        | some t => .ok t
        | none => .wait s2.stopped
/-- Whether a core has something on its way to a home that a read of a line must not pass (R259). -/
def homeBusy (s : State) (c pa : Nat) : Bool := s.items.any fun j => match routeOf j.1 j.2 with
  | none => false
  | some (c', pa', _) => c' == c && s.homeAt pa' == s.homeAt pa && (match j.2 with
    | .hbm .. => lineOf pa' == lineOf pa
    | _ => true)
/-- Whether a held write of a lane that bytes are read from is being made again: it stays ordered before a later refill (R434). -/
def remadeOnWay (s : State) (w l : Nat) (va : DWord) (n : Nat) : Bool := s.items.any fun j => match j.2 with
  | .remake w' h => w' == w && h.lane == l && decide (h.va.toNat < va.toNat + n) && decide (va.toNat < h.va.toNat + h.bytes.length)
  | .result m => m.dest.warp == w && m.dest.cid == 0 && m.vals.any fun v => v.1 == l
  | _ => false
/-- Reads n bytes for a fibre as an LD at fibre scope does (R18, R143, R259, R266): from L1 or the reserve; else at their home, behind what its core has sent
there, and the copies near the core are renewed; the fibre's own pending bytes stand over it. It waits for an update of the line that is on its way (R143),
for a held write that is made again (R434) and for the host (R404, R411, R414). -/
def fibreRead (s : State) (w l : Nat) (va : DWord) (n : Nat) : Made (Nat × State) :=
  match s.fibreCheck w va .r with
  | (.error e, _) => .bad e.1 e.2 va
  | (.ok (pa, a), s1) =>
    let c := (s1.team (teamOf w)).core
    let line := lineOf pa
    let cx := s1.ctxOfWarp w
    let m := Nat.max 16 n
    let q : ReadReq := ⟨⟨w, c, 0, 0⟩, cx, line, pa % 128 / m * m, m, [], .normal, none, false, ⟨0, 0, []⟩⟩
    let value (t : State) (f : Nat → Byte) : Nat := overlay (t.ownPending w l line) (pa % 128) n f
    if s1.updateOnWay c line || s1.remadeOnWay w l va n then .wait s1.stopped
    else match s1.nearCopy c q with
      | some (bs, delay) =>
        let f (i : Nat) : Byte := (aget bs i).getD 0
        .ok (value s1 f, if delay = 20 then s1 else (s1.l1Fill c line q.lo m false f).reserveHit (dieOfCore c) line)
      | none =>
        if s1.homeBusy c pa then .wait s1.stopped
        else match s1.gateFor w (cx / 64) pa n a.tracked false with
        | .refused => .bad 0x11 false va
        | .wait q => .wait (s1.stoppedFor q)
        | .open_ => match match s1.homeStop c pa with
            | some code => (s1, some code)
            | none => s1.homeFetch pa n a.cls (s1.codeFails cx a) with
          | (_, some code) => .bad code false va
          | (s2, none) =>
            let s3 := if s2.deviceSide line then (s2.l1Renew c line q.lo m false true).reserveFill c q else s2
            .ok (value s2 (overParts (s2.sentWrites c line) fun o => s2.homeByte (line + o)), s3)
end State

end Sys2Proof.Machine
end

