-- ==== Sys2Proof/Machine/Control.lean ====
section
/-! DEFINITION. Transfers of control, the register window with its spills and refills, the return stack and CSRs (spec/02 R16 to R22,
spec/08 R127 to R139, spec/28 R392 to R396). A transfer sets each fibre's packet; Step forms the batches afterwards (R127). -/

namespace Sys2Proof.Machine

namespace State
/-- Sends active fibres to their targets (R31, R127). -/
def transfer (s : State) (ls : List Nat) (target : Nat → Pc) : State :=
  let s1 := ls.foldl (fun t l => t.setLane l { t.lane l with pc := target l, word := 0 }) s
  if ls.isEmpty then s else { s1 with iss := { s1.iss with xfer := true } }
end State

/-- BRA (R128). -/
def execBra (h : Hdr) (off : BitVec 22) (s : State) : Out :=
  .next (s.transfer (s.active h) fun _ => BitVec.ofInt 54 (s.iss.pc.toNat + off.toInt))
/-- BRR (R129). -/
def execBrr (h : Hdr) (a : Reg) (s : State) : Out :=
  let ls := s.active h
  if ls.any fun l => 2 ^ 54 ≤ (s.srcX a l).toNat then .next (s.trapPrecise 0x11 false ls 0)
  else .next (s.transfer ls fun l => (s.srcX a l).setWidth 54)

/-! ### The window (R15 to R19) -/

/-- What a change of WB does to the resident blocks (R16): blocks to spill, blocks to refill, new floor and count, and the blocks that have been
spilled or discarded and are not resident then. -/
structure WinPlan where
  spills : List Nat
  refills : List Nat
  floor : Nat
  nres : Nat
  left : List Nat
  deriving DecidableEq, Repr

/-- Blocks lo to hi - 1. -/
def blocks (lo hi : Nat) : List Nat := (List.range (hi - lo)).map (lo + ·)
/-- The plan for a new WB under a window allocation (R16; DEDUCED, log entries 14, 58: a WIN that leaves a gap above, and what is refilled where
WB rises). -/
def winPlan (floor nres alloc wb : Nat) (left : List Nat) : WinPlan :=
  let lo := floor / 16
  let hi := lo + nres
  let n0 := wb / 16
  let n1 := (wb + 79) / 16
  let cap := alloc / 16
  let plan (spills refills : List Nat) (a b : Nat) : WinPlan :=
    ⟨spills, refills, a * 16, b - a, (State.joined left (blocks lo hi)).filter fun x => x < a || b ≤ x⟩
  if lo ≤ n0 then
    let top := Nat.max hi n1
    let bot := if hi < n0 then n0 else Nat.max lo (top - cap)
    plan (blocks lo (Nat.min bot hi)) ((blocks (Nat.max hi n0) n1).filter left.contains) bot top
  else if n1 < lo then plan [] (blocks n0 n1) n0 n1
  else plan [] (blocks n0 lo) n0 (Nat.min hi (n0 + cap))

namespace State
/-- A block's 64 bytes as the fibre reads them: zero where the granule carries another tag (R208). -/
def blockBytes (s : State) (w l b : Nat) : List Byte :=
  (List.range 16).flatMap fun i => leBytes 4 (s.logical w l (16 * b + i)).toNat
/-- The address that block b of a fibre is spilled to (R16). -/
def spillHome (f : Fibre) (b : Nat) : DWord := f.spill + BitVec.ofNat 64 (64 * b)
/-- Runs a change over a list, as long as it can be made. -/
def makeAll {α : Type} (f : State → α → Made State) : List α → State → Made State
  | [], s => .ok s
  | x :: xs, s => match f s x with
    | .ok t => makeAll f xs t
    | r => r
/-- Spills a block, refills a block (R16, R18). -/
def spillBlock (w l : Nat) (s : State) (b : Nat) : Made State :=
  s.fibreWrite w l (spillHome (s.fib (fibKey w l)) b) (s.blockBytes w l b) .frame
def refillBlock (w l : Nat) (s : State) (b : Nat) : Made State :=
  match s.fibreRead w l (spillHome (s.fib (fibKey w l)) b) 64 with
  | .ok (v, t) =>
    let lrs := (List.range 16).map (16 * b + ·)
    .ok (((List.range 16).foldl (fun u i => u.setLogical w l (16 * b + i) (BitVec.ofNat 32 (v / 2 ^ (32 * i)))) t).dropSlots w lrs)
  | .wait t => .wait t
  | .bad c leaf a => .bad c leaf a
/-- Makes a change of WB for a lane of the batch (R16, R18). A failed access changes nothing. -/
def moveWin (s : State) (l wb : Nat) : Made State :=
  let w := s.iss.warp
  let f := s.lane l
  let p := winPlan f.floor f.nres s.myTeam.alloc wb f.left_
  match makeAll (spillBlock w l) p.spills s with
  | .ok s1 => match makeAll (refillBlock w l) p.refills s1 with
    | .ok s2 => .ok (s2.setLane l { s2.lane l with wb := wb, floor := p.floor, nres := p.nres, left_ := p.left })
    | r => r
  | r => r

/-- The home of return-stack entry i of a fibre. -/
def entryHome (f : Fibre) (i : Nat) : DWord := f.rsbase + BitVec.ofNat 64 (8 * i)
/-- An entry as its fields read: bits 57:54 are zero (R3, R20). -/
def entryOf (v : Nat) : DWord := BitVec.ofNat 64 v &&& 0xFC3FFFFFFFFFFFFF
/-- Reads an entry from its home, in the step of the word that needs it (R18, R21, DEDUCED, log entry 62). -/
def readEntry (s : State) (l i : Nat) : Made (DWord × State) :=
  match s.fibreRead s.iss.warp l (entryHome (s.lane l) i) 8 with
  | .ok (v, t) => .ok (entryOf v, t)
  | .wait t => .wait t
  | .bad c leaf a => .bad c leaf a
/-- Pushes an entry; the seventeenth held one goes to its home (R21). -/
def pushEntry (s : State) (l : Nat) (e : DWord) : Made State :=
  let f := s.lane l
  let put (s : State) (held : List DWord) : State := s.setLane l { s.lane l with held := e :: held, depth := f.depth + 1 }
  if f.held.length < 16 then .ok (put s f.held)
  else match s.fibreWrite s.iss.warp l (entryHome f (f.depth - 16)) (leBytes 8 (f.held.getD 15 0).toNat) .frame with
    | .ok t => .ok (put t (f.held.take 15))
    | r => r
/-- The top entry: held, or in its home (R21). -/
def topEntry (s : State) (l : Nat) : Made (DWord × State) :=
  match (s.lane l).held with
  | e :: _ => .ok (e, s)
  | [] => s.readEntry l ((s.lane l).depth - 1)
/-- Pops the top entry; where none is left held below it, the next one is read from its home before the word completes (R21): the state and, for the
held stack, the entry read. A fault of that read stops the word that popped (R18). -/
def popEntry (s : State) (l : Nat) : Made (State × Option DWord) :=
  let f := s.lane l
  let popped (t : State) : State := t.setLane l { t.lane l with held := f.held.tail, depth := f.depth - 1 }
  if f.held.length ≤ 1 && 1 < f.depth then
    match s.readEntry l (f.depth - 2) with
    | .ok (e, t) => .ok (popped t, some e)
    | .wait t => .wait t
    | .bad c leaf a => .bad c leaf a
  else .ok (popped s, none)
/-- Holds fibres until the entries that their return-stack words read have come (R21, R134). -/
def awaitEntries (s : State) (lanes : List (Nat × Bool × DWord × Nat)) (held : List Nat) (whole : Bool) : State :=
  if lanes.isEmpty then s
  else
    let id := s.nextId
    ((s.start (.rs ⟨s.iss.warp, lanes, []⟩)).holdFor id held whole).later 100 (.returnStackAccessComplete id)
/-- What a change over lanes comes to: the new state, no issue yet, or a precise trap of the word. -/
def conclude (s : State) (ls : List Nat) (r : Made State) : State :=
  match r with
  | .ok t => t
  | .wait t => t
  | .bad c leaf a => s.trapPrecise c leaf ls a
/-- Ends fibres as FEXIT does (R152, R174): their bits leave m0, their return stacks are discarded; a spin detector that watched one of them is free (R201). -/
def endFibres (s : State) (w : Nat) (ls : List Nat) : State :=
  let s1 := ls.foldl (fun t l => t.setFib (fibKey w l) { t.fib (fibKey w l) with live := false, held := [], wait := .none }) s
  let x := s1.warp w
  let m0 := (x.masks.toList.getD 0 0) &&& ~~~(maskOf ls)
  s1.setWarp w { x with masks := x.masks.set 0 m0, spin := if (x.spin.lanes &&& maskOf ls) != 0 then Spin.free else x.spin }
end State

/-- The checks and effect of a call (R131). -/
def callLanes (s : State) (h : Hdr) (sh : Reg) (target : Nat → DWord) : Out :=
  let ls := s.active h
  .next (s.conclude ls (State.makeAll (fun t l =>
    let f := t.lane l
    let k := sh.toNat
    if 2 ^ 54 ≤ (target l).toNat then .bad 0x11 false 0
    else if t.myTeam.alloc = 64 && k % 16 != 0 then .bad 0x12 false 0
    else if 2 ^ 26 - 64 < f.wb + k then .bad 0x11 false 0
    else if f.depth = 2 ^ 26 then .bad 0x11 false 0
    else match t.pushEntry l (BitVec.ofNat 64 (k * 2 ^ 58 + (t.iss.pc + 1).toNat)) with
      | .ok t1 => match t1.moveWin l (f.wb + k) with
        | .ok t2 => .ok (t2.transfer [l] fun _ => (target l).setWidth 54)
        | r => r
      | r => r) ls s))
/-- CALL (R131). -/
def execCall (h : Hdr) (off : BitVec 16) (sh : BitVec 6) (s : State) : Out :=
  callLanes s h sh fun _ => (BitVec.ofInt 54 (s.iss.pc.toNat + off.toInt)).setWidth 64
/-- CALLR (R131). -/
def execCallr (h : Hdr) (a : Reg) (sh : BitVec 6) (s : State) : Out := callLanes s h sh fun l => s.srcX a l

/-- A state with the entries that its lanes await, lane, whether into the held stack, entry, register. -/
abbrev Awaiting := State × List (Nat × Bool × DWord × Nat)
/-- Runs a change over lanes that gathers entries to await. -/
def gatherAll (f : State → Nat → Made Awaiting) (ls : List Nat) (s : State) : Made Awaiting :=
  ls.foldl (fun acc l => match acc with
    | .ok (t, es) => match f t l with
      | .ok (u, fs) => .ok (u, es ++ fs)
      | r => r
    | r => r) (.ok (s, []))
/-- Takes the top entry off and lowers WB by its shift (R132, R134): the entry and what the held stack awaits, or the trap. -/
def popWindow (t : State) (l : Nat) : Made (State × DWord × List (Nat × Bool × DWord × Nat)) :=
  match t.topEntry l with
  | .bad c leaf a => .bad c leaf a
  | .wait u => .wait u
  | .ok (e, t0) =>
    let k := e.toNat / 2 ^ 58
    let f := t0.lane l
    if t0.myTeam.alloc = 64 && k % 16 != 0 then .bad 0x12 false 0
    else if f.wb < k then .bad 0x11 false 0
    else match t0.popEntry l with
      | .bad c leaf a => .bad c leaf a
      | .wait u => .wait u
      | .ok (t1, next) => match t1.moveWin l (f.wb - k) with
        | .ok t2 => .ok (t2, e, (next.map fun v => (l, true, v, 0)).toList)
        | .wait u => .wait u
        | .bad c leaf a => .bad c leaf a
/-- RET (R132, R22); a RET that ends its fibre is a taken transfer like any other (R292). -/
def execRet (h : Hdr) (s : State) : Out :=
  let ls := s.active h
  .next (match gatherAll (fun t l =>
    if (t.lane l).depth = 0 then
      (let u := t.endFibres t.iss.warp [l]
       .ok ({ u with iss := { u.iss with xfer := true } }, []))
    else match popWindow t l with
      | .ok (t1, e, es) => .ok (t1.transfer [l] fun _ => e.setWidth 54, es)
      | .wait u => .wait u
      | .bad c leaf a => .bad c leaf a) ls s with
    | .ok (t, es) => t.awaitEntries es (es.map (·.1)) false
    | .wait u => u
    | .bad c leaf a => s.trapPrecise c leaf ls a)

/-- RSRD (R134). -/
def execRsrd (h : Hdr) (v : Reg) (s : State) : Out :=
  let ls := s.active h
  .next (match gatherAll (fun t l =>
    let f := t.lane l
    let n := (s.srcR v l).toNat
    if f.depth ≤ n then .ok (t.setPair l v.toNat (BitVec.allOnes 64), [])
    else if n < f.held.length then .ok (t.setPair l v.toNat (f.held.getD n 0), [])
    else match t.readEntry l (f.depth - 1 - n) with
      | .ok (e, t1) => .ok (t1, [(l, false, e, s.logicalOf l v.toNat)])
      | .wait u => .wait u
      | .bad c leaf a => .bad c leaf a) ls s with
    | .ok (t, es) => t.awaitEntries es ls true
    | .wait u => u
    | .bad c leaf a => s.trapPrecise c leaf ls a)
/-- RSPOP (R134): the entry goes into xv of the new window. -/
def execRspop (h : Hdr) (v : Reg) (s : State) : Out :=
  let ls := s.active h
  .next (match gatherAll (fun t l =>
    if (t.lane l).depth = 0 then .ok (t.setPair l v.toNat (BitVec.allOnes 64), [])
    else match popWindow t l with
      | .ok (t1, e, es) => .ok ((t1.latePair t1.iss.warp l ((t1.lane l).wb + v.toNat) e).marked, es)
      | .wait u => .wait u
      | .bad c leaf a => .bad c leaf a) ls s with
    | .ok (t, es) => t.awaitEntries es ls true
    | .wait u => u
    | .bad c leaf a => s.trapPrecise c leaf ls a)
/-- RSPUSH (R134): bits 57:54 are forced to zero. -/
def execRspush (h : Hdr) (v : Reg) (s : State) : Out :=
  let ls := s.active h
  .next (s.conclude ls (State.makeAll (fun t l =>
    if (t.lane l).depth = 2 ^ 26 then .bad 0x11 false 0 else t.pushEntry l (State.entryOf (s.srcX v l).toNat)) ls s))
/-- WIN (R134). -/
def execWin (h : Hdr) (v : Reg) (s : State) : Out :=
  let ls := s.active h
  .next (s.conclude ls (State.makeAll (fun t l =>
    let d := (s.srcR v l).toInt
    let wb := (t.lane l).wb
    if t.myTeam.alloc = 64 && d % 16 != 0 then .bad 0x12 false 0
    else if (wb : Int) + d < 0 || 2 ^ 26 - 64 < (wb : Int) + d then .bad 0x11 false 0
    else t.moveWin l (wb + d).toNat) ls s))
/-- RETURN_STACK_ACCESS_COMPLETE (R134): each lane's entry comes, into its pair or back into the held stack, and the fibres are released. -/
def execReturnStackAccessComplete (id : Nat) (s : State) : Out :=
  match s.item id with
  | some (.rs j) =>
    if !(s.warp j.warp).live then .next (s.dropItem id)
    else
    let put (t : State) (l lr : Nat) (v : Word) : State := if j.skip.contains (l, lr) then t else t.lateReg j.warp l lr v
    let s1 := j.lanes.foldl (fun t e =>
      let f := t.fib (fibKey j.warp e.1)
      if e.2.1 then t.setFib (fibKey j.warp e.1) { f with held := if f.held.isEmpty && f.depth != 0 then [e.2.2.1] else f.held }
      else put (put t e.1 e.2.2.2 (e.2.2.1.setWidth 32)) e.1 (e.2.2.2 + 1) ((e.2.2.1 >>> 32).setWidth 32)) s
    .next ((s1.dropItem id).unhold j.warp id)
  | _ => .next s

/-! ### CSRs (R24, R136 to R139, R361, R392 to R396) -/

/-- Entry Ev of a virtual die table and its parts (R392). -/
def vdtEntry (vdt : DWord) (v : Nat) : Nat := fld vdt.toNat (8 * v) 8
def vdtMapped (vdt : DWord) (v : Nat) : Bool := v ≤ 3 && fld (vdtEntry vdt v) 7 1 == 1
def vdtDie (vdt : DWord) (v : Nat) : Nat := fld (vdtEntry vdt v) 4 2
def vdtUsable (vdt : DWord) (v sl : Nat) : Bool := vdtMapped vdt v && fld (vdtEntry vdt v) sl 1 == 1
/-- The cluster of the package at a slot of a virtual die. -/
def vdtCluster (vdt : DWord) (v sl : Nat) : Nat := vdtDie vdt v * 4 + fld vdt.toNat (32 + 8 * v + 2 * sl) 2
/-- HOPS between two virtual dies (R395). -/
def hopsOf (vdt : DWord) (i j : Nat) : Word :=
  if !vdtMapped vdt i || !vdtMapped vdt j then 0xFFFFFFFF
  else
    let p := vdtDie vdt i
    let q := vdtDie vdt j
    if p = q then 0 else if p ^^^ q = 3 then 2 else 1

/-- csr.core (R24, R394): virtual die, slot and live index of a core under a table. -/
def csrCore (vdt : DWord) (c : Nat) : Word :=
  match ((List.range 16).filter fun i => vdtUsable vdt (i / 4) (i % 4) && vdtCluster vdt (i / 4) (i % 4) == clusterOf c).head? with
  | some i => BitVec.ofNat 32 (i / 4 * 2 ^ 12 + i % 4 * 2 ^ 8 + c % 64)
  | none => BitVec.ofNat 32 (c % 64)
/-- An entry of the gauge (R396). -/
def gaugeEntry (s : State) (vdt : DWord) (core i : Nat) : Word :=
  match i with
  | 0 => 80
  | 1 => 180
  | 2 => 280
  | 3 => 380
  | 4 => 220
  | 5 => 900
  | 6 => 400
  | 7 => 64
  | i =>
    let v := i % 4
    if i < 12 then
      if vdtMapped vdt v then
        BitVec.ofNat 32 (2 ^ 31 + (List.range 4).foldl (fun n sl =>
          n + (if vdtUsable vdt v sl then s.liveCores (vdtCluster vdt v sl) * 2 ^ (6 * sl) else 0)) 0)
      else 0
    else if vdtMapped vdt v then
      (let p := vdtDie vdt v; let q := dieOfCore core; if p = q then 180 else if p ^^^ q = 3 then 380 else 280)
    else 0xFFFFFFFF

/-- What a CSR reads in a lane of the batch (R24, R361); csr.clock is the first read cycle of its group (R136; DESIGN CHOICE, log entry 105). -/
def csrRead (s : State) (l n : Nat) : DWord :=
  let t := s.myTeam
  let f := s.lane l
  let cn := s.ctxOfWarp s.iss.warp
  let c := s.ctx cn
  let nat (k : Nat) : DWord := BitVec.ofNat 64 k
  match n with
  | 0x001 => nat f.fid
  | 0x002 => nat t.teamid
  | 0x003 => nat t.panelid
  | 0x004 => nat t.stage
  | 0x005 => (csrCore c.vdt t.core).setWidth 64
  | 0x006 => nat cn
  | 0x007 => t.gen.setWidth 64
  | 0x008 => nat f.wb
  | 0x009 => nat f.depth
  | 0x010 => f.rsbase
  | 0x012 => f.spill
  | 0x014 => t.exsum.setWidth 64
  | 0x016 => f.lastseq
  | 0x018 => nat s.clock
  | 0x01A => c.vdt
  | 0x100 => t.epc
  | 0x102 => c.trapvec &&& 0x003FFFFFFFFFFFFF
  | 0x104 => t.frec
  | 0x106 => t.cause.setWidth 64
  | 0x107 => t.donemask.setWidth 64
  | 0x108 => f.epred.setWidth 64
  | 0x10A => t.faddr
  | n => (gaugeEntry s c.vdt t.core (n - 0x80)).setWidth 64
/-- Whether the batch is a handler batch (R362). -/
def inHandlerBatch (s : State) : Bool :=
  match s.myTeam.halts with
  | h :: _ => h.phase == .handler && h.warp == warpIx s.iss.warp
  | [] => false
/-- The trap of a CSR access, if any (R138): permission, then an odd register for a wide one. -/
def csrTrap (s : State) (r : Reg) (n : Nat) (write : Bool) : Option (BitVec 8) :=
  match csrInfo n with
  | none => some 0x11
  | some i =>
    if (write && !i.writable) || (i.handler && !inHandlerBatch s) then some 0x11
    else if i.wide && r.toNat % 2 == 1 then some 0x01 else none
/-- CSRR (R136, R138). -/
def execCsrr (h : Hdr) (d : Reg) (num : BitVec 12) (s : State) : Out :=
  let ls := s.active h
  if ls.isEmpty then .next s
  else match csrTrap s d num.toNat false with
    | some code => .next (s.trapPrecise code false ls 0)
    | none =>
      .next (if (csrInfo num.toNat).any CsrInfo.wide then s.writePairs h d fun l => csrRead s l num.toNat
        else s.writeRegs h d fun l => (csrRead s l num.toNat).setWidth 32)
/-- CSRW (R136, R138, R139). -/
def execCsrw (h : Hdr) (a : Reg) (num : BitVec 12) (s : State) : Out :=
  let ls := s.active h
  match ls.getLast? with
  | none => .next s
  | some top => match csrTrap s a num.toNat true with
    | some code => .next (s.trapPrecise code false ls 0)
    | none =>
      let tk := teamOf s.iss.warp
      .next (match num.toNat with
        | 0x010 => ls.foldl (fun t l => t.setLane l { t.lane l with rsbase := s.srcX a l &&& 0xFFFFFFFFFFFFFFF8 }) s
        | 0x012 => ls.foldl (fun t l => t.setLane l { t.lane l with spill := s.srcX a l &&& 0xFFFFFFFFFFFFFFC0 }) s
        | 0x014 => s.setTeam tk { s.team tk with exsum := (s.srcR a top).setWidth 9 }
        | 0x100 => s.setTeam tk { s.team tk with epc := s.srcX a top &&& 0x03FFFFFFFFFFFFFF }
        | 0x107 => s.setTeam tk { s.team tk with donemask := s.srcR a top }
        | _ => ls.foldl (fun t l => t.setLane l { t.lane l with epred := (s.srcR a l).setWidth 7 }) s)
/-- HOPS (R395). -/
def execHops (h : Hdr) (d a b : Reg) (s : State) : Out :=
  let vdt := (s.ctx (s.ctxOfWarp s.iss.warp)).vdt
  .next (s.writeRegs h d fun l => hopsOf vdt (s.srcR a l).toNat (s.srcR b l).toNat)

end Sys2Proof.Machine
end

