-- ==== Sys2Proof/Machine/Waits.lean ====
section
/-! DEFINITION. Readiness (R163), the release condition of waiting and held words (R216, R262), lane masks and the releases of JOIN,
WAITM, barriers, WAITF and YIELD (spec/11 R165 to R180, spec/21 R342, R343). -/

namespace Sys2Proof.Machine

/-- Mask k of a warp, and a warp with mask k replaced (R165). -/
def Warp.mask (x : Warp) (k : Nat) : Mask := x.masks.toList.getD k 0
def Warp.setMask (x : Warp) (k : Nat) (m : Mask) : Warp := if h : k < 12 then { x with masks := x.masks.set k m } else x
/-- Flag k of a warp, and a warp with flag k replaced (R342). -/
def Warp.flag (x : Warp) (k : Nat) : FlagSt := x.flags.toList.getD k FlagSt.zero
def Warp.setFlag (x : Warp) (k : Nat) (f : FlagSt) : Warp := if h : k < 12 then { x with flags := x.flags.set k f } else x
/-- The allowance check of a group of n words for a batch (R45). -/
def Warp.allows (x : Warp) (m : Mask) (n : Nat) : Bool := x.counters.all fun k => k.vals.all fun v => !m.getLsbD v.1 || decide (n ≤ v.2)
/-- Whether a word holds lanes of the warp (R354). -/
def Warp.heldIn (x : Warp) (m : Mask) : Bool := x.holds.any fun h => h.whole || (h.lanes &&& m) != 0
/-- The words of a packet in hand. -/
def Warp.packet (x : Warp) (pc : Pc) : Option (List Nat) := (x.ibuf.find? fun p => p.1 == pc).map (·.2)

namespace State

/-- Mask k of the batch's warp as a word of the group reads it: as it stood before the group (R41, R165, R168). -/
def maskBefore (s : State) (k : Nat) : Mask := (s.pre.warp s.iss.warp).mask k
/-- The warps of a core, by key, in the order of their teams. -/
def warpsOn (s : State) (c : Nat) : List Nat :=
  (s.teams.filter fun t => t.2.core == c && t.2.phase == .running).flatMap fun t => (List.range t.2.warps).map fun i => warpKey t.1 i

/-- Whether a fibre's team lets it go on: it is not halted, or the fibre is of the batch that runs a handler (R353, R362, R374). -/
def running (s : State) (w l : Nat) : Bool :=
  match (s.team (teamOf w)).halts with
  | [] => true
  | h :: _ => h.phase == .saving || h.phase == .restoring ||
      ((h.phase == .handler || h.phase == .stepping) && h.warp == warpIx w && h.lanes.getLsbD l)

/-- The words of a packet's group from one on; none of a group that fails its checks. -/
def groupAt (ws : List Nat) (first : Nat) : List Instr := (decodeGroup ws first).toOption.getD []
/-- Whether a piece of work is an SCLD of a warp. -/
def isScld (w : Nat) : Item → Bool
  | .scld r => r.warp == w
  | .read r => r.scale && r.dest.warp == w
  | .hbm r _ _ => r.scale && r.dest.warp == w
  | _ => false
/-- Whether a word of a packet is an SCLD. -/
def scldAt (ws : List Nat) (word : Nat) : Bool :=
  match decodeWord word (ws.getD word 0) with
  | .ok (.scld ..) | .ok (.scldScr ..) => true
  | _ => false
/-- Whether lanes of an SCLD of the warp have faulted and are still to be replayed (R323, R324): their fault is not delivered yet, they are replayed next, or the
team comes to a stop for them or with them pending. -/
def scldFaulted (s : State) (w : Nat) : Bool :=
  let x := s.warp w
  let stop := (s.team (teamOf w)).halts.head?.filter fun h => h.phase == .stopping
  x.late.any (fun f => f.src.any fun p => scldAt p.ws p.word) || x.replay.any (fun p => scldAt p.ws p.word) ||
    stop.any fun h => (h.rpl && h.warp == warpIx w && scldAt h.ws h.word) || x.pend.any fun p => scldAt p.ws p.word
/-- Whether an SCLD of the warp that has a name below a bound is not complete (R318, R324): on its way, or with lanes that faulted. -/
def scldOpen (s : State) (w before : Nat) : Bool := (s.items.any fun j => decide (j.1 < before) && isScld w j.2) || s.scldFaulted w
/-- Whether an MMA of a warp must wait for buffer b of its core (R308). -/
def bufferHeld (s : State) (c b w : Nat) : Bool :=
  let x := (s.core c).bufs.toList.getD b Buf.empty
  !(x.st == .free || (x.st == .open_ && x.warp == w))
/-- Whether a word adds to the store acknowledgement count (R50). -/
def addsStore : Instr → Bool
  | .st .. | .stl .. | .stc .. | .rowst .. | .red .. | .accadd .. | .publish .. | .mdrain .. => true
  | .mma _ _ _ _ _ fn | .mma64 _ _ _ _ _ fn => fn == .chainDrain || fn == .startDrain
  | _ => false
/-- Whether a word is long-latency, and needs an allowance counter (R44, R45). -/
def isLong (i : Instr) : Bool :=
  i.unit == .sfu || (match i with
    | .ld .. | .lda .. | .lds .. | .ldc .. | .atom .. | .rowld .. | .flagq .. => true
    | _ => false)
/-- Whether a word whose active lanes are given would wait where its batch then is not ready (R163): at a full store acknowledgement count, behind
a divide, an SFU hold or an SCLD, at a buffer of another owner. -/
def wordWaits (s : State) (w : Nat) (ls : List Nat) (i : Instr) : Bool :=
  let c := (s.team (teamOf w)).core
  let x := s.core c
  !ls.isEmpty && ((addsStore i && ls.any fun l => decide (65535 ≤ (s.fib (fibKey w l)).acks)) || (i.unit == .sfu && decide (s.clock < x.sfuUntil)) ||
    (match i with
      | .div .. | .divu .. | .rem .. | .remu .. => x.divider.isSome
      | .mma _ _ _ _ db _ | .mma64 _ _ _ _ db _ => s.bufferHeld c db.toNat w || s.scldOpen w s.nextId
      | _ => false))
/-- Whether a group would wait in a batch (R45, R163): the allowance check, a free counter for each long-latency word, and its words. -/
def groupWaits (s : State) (w : Nat) (m : Mask) (is : List Instr) : Bool :=
  let x := s.warp w
  let act (i : Instr) : List Nat := (lanesOf m).filter fun l => match i.hdr? with
    | some h => guardTrue h (s.fib (fibKey w l))
    | none => false
  !x.allows m is.length || decide (8 < x.counters.length + (is.filter fun i => isLong i && !(act i).isEmpty).length) ||
    is.any fun i => s.wordWaits w (act i) i
/-- Whether the batch of a lane waits at nothing (R163): no wait, no hold, nothing that its next group would wait for. -/
def ready (s : State) (w l : Nat) : Bool :=
  let f := s.fib (fibKey w l)
  let x := s.warp w
  f.live && f.wait == .none && s.running w l &&
    (let m := s.batchOf w l
     !x.heldIn m && !s.groupWaits w m (((x.packet f.pc).map fun ws => groupAt ws f.word).getD []))
/-- Whether a warp has a ready batch. -/
def warpReady (s : State) (w : Nat) : Bool := allLanes.any fun l => s.ready w l

/-! ### Releases (R216, R262) -/

/-- Whether the lanes' accesses below a bound are performed as a release at a scope needs (R262): writes, reads, and the warp's SCLDs (R324). -/
def releaseMet (s : State) (w : Nat) (ls : List Nat) (sc : Scope) (before : Nat) : Bool :=
  (ls.all fun l => s.released (fibKey w l) sc before && !s.readOpen w l before) && !s.scldOpen w before
/-- Lets the word in hand take effect later than its group, under a hold of its batch (R262, R264, DEDUCED, log entry 12). -/
def deferred (s : State) (behind : Option Nat) : State :=
  let id := s.nextId
  let s1 := s.named.holdFor id (lanesOf s.iss.lanes) false
  { s1 with tails := s1.tails ++ [⟨id, behind, { s.iss with name0 := id }, s.pre, []⟩] }
/-- The barrier that a word of a packet names (R176). -/
def barAt (ws : List Nat) (word : Nat) : Option Nat :=
  match decodeWord word (ws.getD word 0) with
  | .ok (.barinit _ b _ _) | .ok (.bararr _ b _) | .ok (.barwait _ b _) | .ok (.bararw _ b _) | .ok (.barq _ b _) => some b.toNat
  | _ => none
/-- Whether a word of a packet is an arrival, which waits for the SCLDs of its warp (R324). -/
def arrivesAt (ws : List Nat) (word : Nat) : Bool :=
  match decodeWord word (ws.getD word 0) with
  | .ok (.join ..) | .ok (.waitm ..) | .ok (.bararr ..) | .ok (.bararw ..) | .ok (.barwait ..) | .ok (.spawn ..) => true
  | _ => false
/-- Whether a batch is inside a word that holds it, but for an arrival that has still to be applied (R324, R366). -/
def heldHard (s : State) (w : Nat) (m : Mask) : Bool := (s.warp w).holds.any fun h =>
  (h.whole || (h.lanes &&& m) != 0) && !(s.tails.any fun t => t.hold == h.id && arrivesAt t.iss.ws t.iss.word)
/-- Arrivals of a warp that wait for an SCLD of it which has faulted have not taken effect: once the team comes to a stop each is to be performed after that SCLD's
replay (R324, R354; DEDUCED, log entry 98). -/
def shelveTails (s : State) (w : Nat) : State :=
  if !s.scldFaulted w then s
  else
    let lvl := (s.team (teamOf w)).halts.length
    (s.tails.filter fun t => t.iss.warp == w && arrivesAt t.iss.ws t.iss.word).foldl (fun u t =>
      let v : State := { u with tails := u.tails.filter fun y => y.hold != t.hold }
      let v1 := v.unhold w t.hold
      let x := v1.warp w
      v1.setWarp w { x with pend := x.pend ++ [⟨t.iss.pc, t.iss.word, t.iss.ws, ~~~t.iss.lanes, 0, lvl, 0⟩] }) s
/-- The words of a team's groups that name a barrier and have still to be applied, oldest first (R179). -/
def barTails (s : State) (tk b : Nat) : List Tail := s.tails.filter fun x => teamOf x.iss.warp == tk && barAt x.iss.ws x.iss.word == some b
/-- Runs a word behind the release of its active lanes (R216, R262): their entries are sent, and where something still stands between the accesses and
the scope, the word takes effect when it does no more. -/
def behindRelease (s : State) (ls : List Nat) (sc : Scope) (k : State → State) : State :=
  let w := s.iss.warp
  let t := s.wcbSendAll (s.team (teamOf w)).core fun e => e.warp == w && e.parts.any fun p => ls.contains p.lane
  let late := s.iss.name0 != 0
  if t.releaseMet w ls sc (if late then s.iss.name0 else s.nextId) then k t
  else if late then t.stopped else t.deferred none

/-! ### Waiting words (R166) -/

/-- Lanes of the batch begin to wait, and remember the word that made them. -/
def waitLanes (s : State) (ls : List Nat) (rec : Nat → Wait) : State :=
  if ls.isEmpty then s
  else
    let w := s.iss.warp
    let s1 := ls.foldl (fun t l => t.setLane l { t.lane l with wait := rec l, since := s.clock, rpc := s.iss.pc, rword := s.iss.word }) s
    let s2 := s1.dropLatch w
    if ((s2.warp w).spin.lanes &&& maskOf ls) != 0 then s2.endSpin w else s2

/-- Lanes of a warp whose wait a test selects and whose team lets them be released. -/
def waiting (s : State) (w : Nat) (sel : Wait → Bool) : List Nat :=
  allLanes.filter fun l => let f := s.fib (fibKey w l); f.live && sel f.wait && s.running w l

/-- The distinct places of lanes, packet and word. -/
def placesOf (s : State) (w : Nat) (ls : List Nat) : List (Pc × Nat) :=
  (ls.map fun l => let f := s.fib (fibKey w l); (f.pc, f.word)).eraseDups
/-- One wait record of JOIN or WAITM: released when every live fibre of J waits with it (R168). -/
def releaseRecord (s : State) (w : Nat) (r : Wait) : State :=
  match r with
  | .mask join _ j =>
    let m := j &&& (s.warp w).mask 0
    if (lanesOf m).all fun l => (s.fib (fibKey w l)).wait == r && s.running w l then
      let ls := s.waiting w (· == r)
      let s1 := s.endWaits w (maskOf ls)
      if join then
        (s1.placesOf w ls).foldl (fun t p =>
          t.rebatch w (maskOf (ls.filter fun l => let f := t.fib (fibKey w l); f.pc == p.1 && f.word == p.2))) s1
      else ls.foldl (fun t l => t.rebatch w (maskOf [l])) s1
    else s
  | _ => s
/-- Every wait record of JOIN and WAITM of a warp is tested (R168). -/
def releaseMasks (s : State) (w : Nat) : State :=
  let isMask (r : Wait) : Bool := match r with
    | .mask .. => true
    | _ => false
  (((s.waiting w isMask).map fun l => (s.fib (fibKey w l)).wait).eraseDups).foldl (fun t r => t.releaseRecord w r) s

/-- Whether a barrier's phase has passed a target (R178); both count modulo 2^32 (DEDUCED, log entry 15). -/
def phasePassed (phase target : Word) : Bool := phase != target && (phase - target).toNat < 2 ^ 31
/-- Fibres of a team whose target phase has completed go on (R178). -/
def releaseBarriers (s : State) (t : Nat) : State :=
  let x := s.team t
  let past (r : Wait) : Bool := match r with
    | .bar b target => phasePassed ((x.barriers.toList.getD b (Barrier.start 0)).phase) target
    | _ => false
  (List.range x.warps).foldl (fun s i => s.endWaits (warpKey t i) (maskOf (s.waiting (warpKey t i) past))) s

/-- Whether a WAITF's condition holds (R343). -/
def flagsMet (x : Warp) (msk : BitVec 12) (any : Bool) : Bool :=
  let ks := (List.range 12).filter fun k => msk.getLsbD k
  if any then ks.any fun k => (x.flag k).f else ks.all fun k => (x.flag k).f
/-- The lowest flag of a mask that is set with an error (R343). -/
def flagFailed (x : Warp) (msk : BitVec 12) : Option Nat :=
  (List.range 12).find? fun k => msk.getLsbD k && (x.flag k).f && (x.flag k).er
/-- What a satisfied WAITF does to the flags: all of them are cleared, none by ANY (R343). -/
def flagsUsed (x : Warp) (msk : BitVec 12) (any : Bool) : Warp :=
  if any then x else ((List.range 12).filter fun k => msk.getLsbD k).foldl (fun y k => y.setFlag k { y.flag k with f := false }) x
/-- The batches of a warp that wait at a WAITF, the one that issued first at the head: mask, flags, ANY (R343). -/
def flagWaiters (s : State) (w : Nat) : List (Mask × BitVec 12 × Bool) :=
  let isFlags (r : Wait) : Bool := match r with
    | .flags .. => true
    | _ => false
  let ls := s.waiting w isFlags
  let key (l : Nat) : Nat × Nat × Wait := let f := s.fib (fibKey w l); (f.since, f.batch, f.wait)
  let ks := sortBy (fun a b => decide (a.1 ≤ b.1)) (ls.map key).eraseDups
  ks.filterMap fun k => match k.2.2 with
    | .flags m a => some (maskOf (ls.filter fun l => key l == k), m, a)
    | _ => none
/-- One waiting batch is tested: it goes on, or its WAITF traps precisely with the flag's code (R343, DEDUCED, log entry 16). -/
def releaseFlagBatch (s : State) (w : Nat) (b : Mask × BitVec 12 × Bool) : State :=
  let x := s.warp w
  if !flagsMet x b.2.1 b.2.2 then s
  else match flagFailed x b.2.1 with
    | none => ((s.setWarp w (flagsUsed x b.2.1 b.2.2)).endWaits w b.1).l1Clear (s.team (teamOf w)).core
    | some k =>
      let f := s.fib (fibKey w ((lanesOf b.1).headD 0))
      let h : Halt :=
        { kind := .precise, phase := .stopping, code := (x.flag k).code, swcode := 0, warp := warpIx w, lanes := b.1, pc := f.rpc,
          word := f.rword, rpl := false, wt := false, addr := 0, done := ~~~b.1, flanes := b.1, db := 0, service := false,
          ws := [], seq := 0, failed := f.rword, ended := none, dbg := false, key := 0 }
      let s1 := (s.setWarp w (x.setFlag k { x.flag k with f := false, er := false })).endWaits w b.1
      let s2 := (lanesOf b.1).foldl (fun t l => let g := t.fib (fibKey w l); t.setFib (fibKey w l) { g with pc := g.rpc, word := g.rword }) s1
      s2.beginHalt w h
/-- Every WAITF of a warp is tested in the order in which they issued, until one traps (R343). -/
def releaseFlags (s : State) (w : Nat) : State :=
  (s.flagWaiters w).foldl (fun t b => if t.running w ((lanesOf b.1).headD 0) then t.releaseFlagBatch w b else t) s

/-- The YIELDs of a warp whose condition holds end (R175): nothing is left to wait for, or 64 cycles have passed. -/
def releaseYields (s : State) (w : Nat) : State :=
  s.endWaits w (maskOf (s.waiting w fun r => match r with
    | .yield others since => others.isEmpty || decide (since + 64 ≤ s.clock)
    | _ => false))

/-- Tests every wait of a team: after a group, after a flag, after a halt is lifted (R168, R175, R178, R343, R353). -/
def settle (s : State) (t : Nat) : State :=
  let n := (s.team t).warps
  let s1 := (List.range n).foldl (fun s i => ((s.releaseMasks (warpKey t i)).releaseFlags (warpKey t i)).releaseYields (warpKey t i)) s
  s1.releaseBarriers t

/-- A warp of a core has issued a group: it is no longer waited for by a YIELD (R175); a YIELD of a halted team ends when the halt is lifted (R353). -/
def notedIssue (s : State) (w : Nat) : State :=
  (s.warpsOn (s.team (teamOf w)).core).foldl (fun s v =>
    (allLanes.foldl (fun s l =>
      let f := s.fib (fibKey v l)
      match f.wait with
      | .yield others since => if others.contains w then s.setFib (fibKey v l) { f with wait := .yield (others.filter (· != w)) since } else s
      | _ => s) s).releaseYields v) s

/-! ### Flags (R342) -/

/-- A record or drain that names flag k is accepted; 15 names none. -/
def flagAccept (s : State) (w k : Nat) : State :=
  let x := s.warp w
  let f := x.flag k
  s.setWarp w (x.setFlag k { (if f.n = 0 then { f with f := false, er := false } else f) with n := f.n + 1 })
/-- It completes, or fails with a code. A warp all of whose fibres have ended has retired: the set is discarded (R161). -/
def flagDone (s : State) (w k : Nat) (code : BitVec 8) : State :=
  let x := s.warp w
  if !x.live || s.liveMask w == 0 then s
  else
    let f := x.flag k
    let f1 := if code != 0 && !f.er then { f with er := true, code := code } else f
    let f2 := { f1 with n := f1.n - 1, f := f1.f || f1.n - 1 == 0 }
    (s.setWarp w (x.setFlag k f2)).settle (teamOf w)
end State

end Sys2Proof.Machine
end

