-- ==== Sys2Proof/Machine/Place.lean ====
section
/-! DEFINITION. Places on a core: what its resident teams hold (R156), grants of core-store granules with their generations (R202,
R206), warp contexts, and the start state of a team's warps and fibres (R28, R152, R165, R176, R342). -/

namespace Sys2Proof.Machine

/-- What a core may hold (R156). -/
def coreBytes : Nat := 983040
def coreContexts : Nat := 48

/-- The runs of granules between sorted used ones. -/
def gaps : Nat → List (Nat × Nat) → List (Nat × Nat)
  | lo, [] => if lo < 16384 then [(lo, 16384 - lo)] else []
  | lo, (b, n) :: t => if lo < b then (lo, b - lo) :: gaps (b + n) t else gaps (b + n) t
/-- The first n granules of runs. -/
def takeRuns : Nat → List (Nat × Nat) → List (Nat × Nat)
  | _, [] => []
  | n, (b, k) :: t => if n = 0 then [] else if n ≤ k then [(b, n)] else (b, k) :: takeRuns (n - k) t
/-- The granules of runs, one by one. -/
def runGranules (rs : List (Nat × Nat)) : List Nat := rs.flatMap fun r => (List.range r.2).map (r.1 + ·)

namespace State
/-- Warp contexts that the resident teams of a core hold (R156). -/
def usedContexts (s : State) (c : Nat) : Nat := (s.teamsOn c).foldl (fun n t => n + t.2.warps) 0
/-- Whether a team of a shape fits beside what a core holds (R156). -/
def fitsCore (s : State) (c warps alloc scratch : Nat) : Bool :=
  decide (s.usedContexts c + warps ≤ coreContexts) && decide (s.usedBytes c + teamBytes warps alloc scratch ≤ coreBytes)
/-- The granules of a core that no live grant holds, as runs (R206). -/
def freeRuns (s : State) (c : Nat) : List (Nat × Nat) :=
  gaps 0 (sortBy (fun a b => decide (a.1 ≤ b.1)) ((s.teamsOn c).flatMap fun t => t.2.grant.win ++ t.2.grant.scr))

/-- The next generation of a core's counter, 0 left out (R206). -/
def nextGen (g : BitVec 16) : BitVec 16 := if g + 1 = 0 then 1 else g + 1
/-- Takes a fresh generation: at most one in 16 cycles (R206). The core's first one starts its sweeps, and grants that have fallen 24,576 behind ask for
their renewal (R212). -/
def takeGen (s : State) (c : Nat) : State :=
  let x := s.core c
  let s1 := s.setCore c { x with gen := nextGen x.gen, nextGrant := Nat.max s.clock x.nextGrant + 16 }
  let s2 := if x.gen = 0 then s1.later 65536 (.granuleSweep c) else s1
  let behind (g : BitVec 16) (t : Nat × Team) : Bool := t.2.grant.gen != 0 && decide (24576 ≤ (g - t.2.grant.gen).toNat)
  ((s.teamsOn c).filter fun t => behind (nextGen x.gen) t && !behind x.gen t).foldl (fun t y => t.later 16 (.generationRenewal y.1)) s2
/-- The granules for windows and scratch of a new allocation of a core, under no generation yet (R196, R206). -/
def reserveRuns (s : State) (c warps alloc scratch : Nat) : Grant :=
  let winN := 2 * alloc * warps
  let all := takeRuns (winN + scratch / 64) (s.freeRuns c)
  ⟨takeRuns winN all, gapsLeft winN all, 0, []⟩
where
  /-- Runs after their first n granules. -/
  gapsLeft : Nat → List (Nat × Nat) → List (Nat × Nat)
    | _, [] => []
    | n, (b, k) :: t => if n < k then (b + n, k - n) :: t else gapsLeft (n - k) t
/-- Whether a core may grant a generation now (R206). -/
def mayGrant (s : State) (c : Nat) : Bool := decide ((s.core c).nextGrant ≤ s.clock)
/-- The warp contexts that a team takes on a core (R156, R200): the lowest free ones (DESIGN CHOICE, log entry 77). -/
def freeContexts (s : State) (c n : Nat) : List Nat :=
  let used := (s.teamsOn c).flatMap fun t => (List.range t.2.warps).map fun i => (s.warp (warpKey t.1 i)).ctxNum
  ((List.range coreContexts).filter fun k => !used.contains k).take n

/-- A warp at its team's start (R152, R165, R342): its live lanes, its context number. -/
def startWarp (s : State) (live : Mask) (ctxNum : Nat) : Warp :=
  { Warp.absent with live := true, masks := (Vector.replicate 12 0).set 0 live, ctxNum := ctxNum, lastIssue := s.clock }
/-- A fibre at its start (R28): packet, fibre index, spill and return-stack bases. -/
def startFibre (s : State) (live : Bool) (pc : Pc) (fid : Nat) (spill rsb : DWord) : Fibre :=
  { Fibre.absent with live := live, pc := pc, fid := fid, spill := spill, rsbase := rsb, since := s.clock }
/-- Puts a warp with its fibres in place. -/
def putWarp (s : State) (w : Nat) (live : Mask) (ctxNum : Nat) (fib : Nat → Fibre) : State :=
  allLanes.foldl (fun t l => t.setFib (fibKey w l) (fib l)) (s.setWarp w (s.startWarp live ctxNum))
/-- Adds a team under the next handle. -/
def addTeam (s : State) (t : Team) : State := { s.setTeam s.nextTeam t with nextTeam := s.nextTeam + 1 }
/-- A team's barriers at its start (R176). -/
def startBarriers (fibres : Nat) : Vector Barrier 16 := Vector.replicate 16 (Barrier.start fibres)
end State

end Sys2Proof.Machine
end

