-- ==== Sys2Proof/Machine/Masks.lean ====
section
/-! DEFINITION. Lane masks, SPAWN, FEXIT, YIELD and team barriers (spec/11 R165 to R180). The releases that follow a group of a warp
are `State.settle`, which Step calls after the group. -/

namespace Sys2Proof.Machine

/-- JOIN and WAITM (R168, R170): the active members wait, once their writes are released at warp scope. -/
def waitMask (join : Bool) (h : Hdr) (m : MaskIx) (s : State) : State :=
  let j := s.maskBefore m.toNat
  let ls := (s.active h).filter fun l => j.getLsbD l
  if ls.isEmpty then s
  else s.behindRelease ls .warp fun t => t.waitLanes ls fun _ => .mask join m.toNat j
/-- JOIN (R168). -/
def execJoin (h : Hdr) (m : MaskIx) (s : State) : Out := .next (waitMask true h m s)
/-- WAITM (R168). -/
def execWaitm (h : Hdr) (m : MaskIx) (s : State) : Out := .next (waitMask false h m s)
/-- A wait record after lanes have left mask k (R168). -/
def Wait.without (r : Wait) (k : Nat) (gone : Mask) : Wait := match r with
  | .mask join i j => .mask join i (if i = k then j &&& ~~~gone else j)
  | r => r
/-- A waiting word's read of mask k after lanes have left it (R168). -/
def Tail.without (x : Tail) (w k : Nat) (gone : Mask) : Tail :=
  if x.iss.warp = w then
    let y := x.pre.warp w
    { x with pre := { x.pre with warps := aset x.pre.warps w (y.setMask k (y.mask k &&& ~~~gone)) } }
  else x
/-- LEAVE (R168): the active lanes leave the mask and the J of every wait record of that mask: of waiting fibres, of those whose wait a handler keeps
(R366), of words that have still to begin their wait. -/
def execLeave (h : Hdr) (m : MaskIx) (s : State) : Out :=
  let gone := maskOf (s.active h)
  let k := m.toNat
  let w := s.myWarp
  let s1 := s.setWarp s.iss.warp (w.setMask k (w.mask k &&& ~~~gone))
  let s2 := allLanes.foldl (fun t l => let f := t.lane l; t.setLane l { f with wait := f.wait.without k gone, kept := f.kept.without k gone }) s1
  .next (({ s2 with tails := s2.tails.map fun x => x.without s.iss.warp k gone } : State).markedFor (s.active h))
/-- MKMASK (R169). -/
def execMkmask (h : Hdr) (m : MaskIx) (s : State) : Out :=
  let ls := s.active h
  .next (if ls.isEmpty then s else (s.setWarp s.iss.warp (s.myWarp.setMask m.toNat (maskOf ls))).marked)
/-- MASKRD (R169). -/
def execMaskrd (h : Hdr) (m : MaskIx) (v : Reg) (s : State) : Out := .next (s.writeRegs h v fun _ => s.maskBefore m.toNat)
/-- MASKWR (R169). -/
def execMaskwr (h : Hdr) (m : MaskIx) (v : Reg) (s : State) : Out :=
  .next (match (s.active h).getLast? with
    | none => s
    | some l => (s.setWarp s.iss.warp (s.myWarp.setMask m.toNat (s.srcR v l))).marked)

/-- What a team's launch counted when it began (R151): P × S × W. -/
def teamCount (r : LaunchRec) : Nat := r.panels * r.stages * r.width
/-- The new team of a SPAWN (R171, R172): one warp on the spawner's core, registers v0 to v7 of lane i copied from fibre i. -/
def spawnTeam (s : State) (ls : List Nat) (a : Reg) (entry : Pc) (k : Nat) (x : Launch) : State :=
  let t := s.myTeam
  let teamid := teamCount x.r + x.spawnedTeams
  let s1 := s.takeGen t.core
  let g : Grant := { s.reserveRuns t.core 1 t.alloc 0 with gen := (s1.core t.core).gen }
  let s2 : State := { s1 with launches := aset s1.launches k { x with spawnedTeams := x.spawnedTeams + 1 } }
  let h := s2.nextTeam
  let new : Team :=
    { Team.absent with phase := .running, launch := k, core := t.core, warps := 1, teamid := teamid, panelid := t.panelid,
                       stage := t.stage, gen := t.gen, alloc := t.alloc, scratch := 0, strict := t.strict, grant := g,
                       barriers := State.startBarriers ls.length, fibres := ls.length, spawned := true }
  let s3 := (s2.setTeam (teamOf s.iss.warp) { s2.team (teamOf s.iss.warp) with hasSpawned := true }).addTeam new
  let s4 := s3.putWarp (warpKey h 0) (maskOf ls) ((s.freeContexts t.core 1).headD 0) fun l =>
    s3.startFibre (ls.contains l) entry l 0 0
  (ls.foldl (fun u l => (List.range 8).foldl (fun u i => u.setLogical (warpKey h 0) l i (s.src l (a.toNat + i))) u) s4).l1Trim t.core
/-- SPAWN (R171 to R173): the entry of the highest active fibre; a release at core scope when it succeeds. It waits where the core
may grant no generation yet (R206). -/
def execSpawn (h : Hdr) (a e : Reg) (s : State) : Out :=
  let ls := s.active h
  .next (match ls.getLast? with
    | none => s
    | some top =>
      let entry := s.srcX e top
      if 2 ^ 54 ≤ entry.toNat then s.trapPrecise 0x11 false ls 0
      else
        let t := s.myTeam
        match aget s.launches t.launch with
        | none => (s.writeRegs h a fun _ => 0xFFFFFFFF).marked
        | some x =>
          if !s.fitsCore t.core 1 t.alloc 0 || 2 ^ 32 - 1 ≤ teamCount x.r + x.spawnedTeams then
            (s.writeRegs h a fun _ => 0xFFFFFFFF).marked
          else if !s.mayGrant t.core then s.stopped
          else s.marked.behindRelease ls .core fun u =>
            ((spawnTeam u ls a (entry.setWidth 54) t.launch x).writeRegs h a fun _ =>
              BitVec.ofNat 32 (teamCount x.r + x.spawnedTeams)).marked)
/-- FEXIT (R174). -/
def execFexit (h : Hdr) (s : State) : Out := .next (s.endFibres s.iss.warp (s.active h))
/-- YIELD (R175): the active fibres wait for the other warps of the core that have a ready batch now. -/
def execYield (h : Hdr) (s : State) : Out :=
  let ls := s.active h
  let others := (s.warpsOn s.myTeam.core).filter fun w => w != s.iss.warp && s.warpReady w
  .next (if ls.isEmpty || others.isEmpty then s
    else (s.waitLanes ls fun _ => .yield others s.clock).later 64 (.yieldTimeout s.iss.warp (maskOf ls) s.clock))
/-- YIELD_TIMEOUT (R175): the fibres that still wait from that YIELD are ready again. -/
def execYieldTimeout (warp : Nat) (lanes : Mask) (since : Nat) (s : State) : Out :=
  let sel (r : Wait) : Bool := match r with
    | .yield _ n => n == since
    | _ => false
  .next (s.endWaits warp (maskOf ((s.waiting warp sel).filter fun l => lanes.getLsbD l)))

/-! ### Barriers (R176 to R180) -/

/-- The completion loop (R178): while cnt[0] = E the phase advances and the counts shift. Four shifts bring every count to 0. -/
def Barrier.complete : Nat → Barrier → Barrier
  | 0, b => b
  | n + 1, b =>
    if b.cnt[0] = b.e then Barrier.complete n { b with phase := b.phase + 1, cnt := ⟨#[b.cnt[1], b.cnt[2], b.cnt[3], 0], rfl⟩ }
    else b
/-- Arrive(b, j, n) (R178). -/
def Barrier.arrive (b : Barrier) (j n : Nat) : Barrier :=
  if h : j < 4 then
    let room := b.e - b.cnt[j]
    Barrier.complete 4 { b with cnt := b.cnt.set j (b.cnt[j] + min n room), ov := b.ov || decide (room < n) }
  else b
/-- BARINIT (R177): E anew, OV clear, counts cleared or kept up to E, then the completion loop. -/
def Barrier.init (b : Barrier) (e : Nat) (keep : Bool) : Barrier :=
  if keep then Barrier.complete 4 { b with e := e, ov := false, cnt := b.cnt.map (min e) }
  else { b with e := e, ov := false, cnt := Vector.replicate 4 0 }
/-- The state word of BARQ (R180). -/
def Barrier.word (b : Barrier) : Word :=
  BitVec.ofNat 32 (b.phase.toNat % 256 * 2 ^ 16 + b.ov.toNat * 2 ^ 15 + b.cnt[0])

namespace State
/-- Barrier k of a team. -/
def barrier (s : State) (t k : Nat) : Barrier := (s.team t).barriers.toList.getD k (Barrier.start 0)
/-- Replaces it and lets fibres go on whose phase has completed (R178). -/
def setBarrier (s : State) (t k : Nat) (b : Barrier) : State :=
  let x := s.team t
  if h : k < 16 then (s.setTeam t { x with barriers := x.barriers.set k b }).releaseBarriers t else s
end State

/-- BARINIT (R177). -/
def execBarinit (h : Hdr) (bar : BitVec 4) (ph : BitVec 2) (v : Reg) (s : State) : Out :=
  let tk := teamOf s.iss.warp
  .next (match (s.active h).getLast? with
    | none => s
    | some l =>
      let n := (s.srcR v l).toNat % 2 ^ 12
      s.setBarrier tk bar.toNat ((s.barrier tk bar.toNat).init (if n = 0 then s.myTeam.fibres else n) (ph == 1)))
/-- BARARR (R178, R179): arrivals, each a release at team scope. -/
def execBararr (h : Hdr) (bar : BitVec 4) (ph : BitVec 2) (s : State) : Out :=
  let tk := teamOf s.iss.warp
  let ls := s.active h
  .next (if ls.isEmpty then s
    else s.behindRelease ls .team fun t => t.setBarrier tk bar.toNat ((t.barrier tk bar.toNat).arrive ph.toNat ls.length))
/-- BARWAIT (R178): no wait where the phase has completed. -/
def execBarwait (h : Hdr) (bar : BitVec 4) (ph : BitVec 2) (s : State) : Out :=
  let tk := teamOf s.iss.warp
  let ls := s.active h
  .next (s.waitLanes ls fun _ => .bar bar.toNat ((s.barrier tk bar.toNat).phase + ph.setWidth 32))
/-- BARARW (R178): the target phase is fixed before the arrival. -/
def execBararw (h : Hdr) (bar : BitVec 4) (ph : BitVec 2) (s : State) : Out :=
  let tk := teamOf s.iss.warp
  let ls := s.active h
  let target := (s.barrier tk bar.toNat).phase + ph.setWidth 32
  .next (if ls.isEmpty then s
    else s.behindRelease ls .team fun t =>
      let t1 := t.setBarrier tk bar.toNat ((t.barrier tk bar.toNat).arrive ph.toNat ls.length)
      if State.phasePassed (t1.barrier tk bar.toNat).phase target then t1
      else t1.waitLanes ls fun _ => .bar bar.toNat target)
/-- BARQ (R180). -/
def execBarq (h : Hdr) (bar : BitVec 4) (v : Reg) (s : State) : Out :=
  .next (s.writeRegs h v fun _ => (s.barrier (teamOf s.iss.warp) bar.toNat).word)

end Sys2Proof.Machine
end

