-- ==== Sys2Proof/Machine/Skein.lean ====
section
/-! DEFINITION. The home side of memory: the order in which a home takes requests (spec/16 R259), what a write applied at a home does (spec/15
R250, spec/16 R258, R268, spec/28 R399), publishing and the acquire check (R267, R268). -/

namespace Sys2Proof.Machine

namespace State

/-! ### Order at a home (R259) -/

/-- The bytes of the lines that a request touches. -/
def spanOf : Item → Nat
  | .row _ => 2048
  | .drain r => if r.acc = 1 then 2048 else 1024
  | .tile r => if r.acc = 1 then 2048 else 1024
  | _ => 128
/-- Whether nothing that the same core sent earlier to the same home still waits there; a read that waits for HBM holds back only
what touches its line (R143, R259). -/
def firstInOrder (s : State) (id : Nat) : Bool :=
  match s.item id with
  | none => true
  | some it => match routeOf id it with
    | none => true
    | some (c, pa, n) => s.items.all fun j =>
      match routeOf j.1 j.2 with
      | none => true
      | some (c', pa', n') =>
        let hbm := match j.2 with
          | .hbm .. => true
          | _ => false
        !(c' == c && decide (n' < n) && s.homeAt pa' == s.homeAt pa &&
          (!hbm || (decide (lineOf pa ≤ lineOf pa') && decide (lineOf pa' < lineOf pa + spanOf it))))
/-- Scratch requests of a core that reach a core's store and are not applied: name, and whether by an STC (R256, R259, R288). -/
def scratchOnWay (s : State) (c target : Nat) : List Nat :=
  (s.items.filter fun j => match j.2 with
    | .stc ws => ws.any fun x => (s.team (teamOf x.warp)).core == c && x.core == target
    | .ldc r => r.dest.core == c && r.lanes.any fun x => x.core == target
    | _ => false).map (·.1)
/-- Whether a scratch request is the first that its core sent to each core it reaches (R259). -/
def scratchFirst (s : State) (id c : Nat) (targets : List Nat) : Bool := targets.all fun t => (s.scratchOnWay c t).all fun j => decide (id ≤ j)

/-! ### What an applied write does -/

/-- The next sequence tag of a home (R258): its count after the write. The host-line agent gives none (R414). -/
def takeTag (s : State) (pa : Nat) : Option DWord × State :=
  if s.hostSide pa then (none, s)
  else
    let h := homeOf pa
    let n := (aget s.seqs h).getD 0 + 1
    (some n, { s with seqs := aset s.seqs h n })
/-- WCORE and SOLE after a write (plain) or an update by a core; none is no core of this device (R268). -/
def trackWrite (s : State) (line : Nat) (by_ : Option Nat) (plain : Bool) : State :=
  let old := (aget s.track line).getD (0, false)
  let new := match by_ with
    | some c => if plain then (c, true) else if c = old.1 then old else (old.1, false)
    | none => (old.1, false)
  { s with track := aset s.track line new }
/-- The names of accesses translated through a table line that are not performed yet (R250), a view's line among them (R255). -/
def sharersOfWalk (s : State) (line : Nat) : List Nat :=
  let via (a : Attr) : Bool := a.via.contains line
  let parts (ps : List WPart) : Bool := ps.any fun p => via p.at_
  ((s.items.filter fun j => match j.2 with
    | .read r => r.lanes.any fun x => via x.at_
    | .hbm r _ _ => r.lanes.any fun x => via x.at_
    | .write r => parts r.parts
    | .rmw r => via r.at_
    | .acc r => r.lanes.any fun x => via x.at_
    | .row r => via r.at_
    | .drain r => via r.at_
    | .tile r => via r.at_
    | .engine j => j.srcPages.any (fun x => via x.at_) || j.dstPages.any (fun x => via x.at_) ||
      (fld j.recw.toNat 239 1 == 0 && lineOf j.entry == line)
    | _ => false).map (·.1)) ++ s.cores.flatMap fun c => (c.2.wcb.filter fun e => parts e.parts).map Wcb.id
/-- What an access on its way waits for: an entry of the write-combining buffer for older ones of its line, for the writes its releases wait for and for
earlier reads of their fibres (R216, R262); an acknowledgement for the accesses it must follow (R250); a result for the acknowledgement of its own write and
for the writes of cores that publish (R268, R399). -/
def waitsOn (s : State) (id : Nat) : List Nat :=
  (s.cores.flatMap fun c => (c.2.wcb.filter fun e => e.id == id).flatMap fun e =>
    (c.2.wcb.filter fun o => o.warp == e.warp && o.line == e.line && decide (o.id < id)).map Wcb.id ++
    e.rels.flatMap fun r =>
      (s.outs.filter fun o => o.fibre == fibKey e.warp r.1 && decide (o.id < id) && !s.outDone (dieOfCore c.1) r.2 o).map OutWrite.id ++
      (if s.readOpen e.warp r.1 id then (s.items.filter fun j => decide (j.1 < id) && (match j.2 with
        | .result m => m.dest.warp == e.warp && m.vals.any fun x => x.1 == r.1
        | _ => false)).map (·.1) else [])) ++
  match s.item id with
  | some (.ack m) => m.gate.filter fun g => !s.performed g
  | some (.drainAck r) => [r.ackId]
  | some (.result m) => m.tag.toList ++ (s.outs.filter fun o => m.pubs.contains (s.team (teamOf (o.fibre / 32))).core).map OutWrite.id
  | _ => []
/-- All that some accesses wait for, in as many steps as are given. -/
def waitReach (s : State) : Nat → List Nat → List Nat
  | 0, xs => xs
  | n + 1, xs =>
    let ys := joined xs (xs.flatMap s.waitsOn).eraseDups
    if ys.length = xs.length then xs else waitReach s n ys
/-- Whether an access that an acknowledgement must follow itself waits for that acknowledgement: R250 and R262 then wait for each other, and the
acknowledgement goes first (DESIGN CHOICE, log entry 19). -/
def gateLocked (s : State) (ack id : Nat) : Bool :=
  (s.waitReach (s.items.length + s.outs.length + (s.cores.map fun c => c.2.wcb.length).sum) [id]).contains ack
/-- Bookkeeping of a write, read-modify-write or update applied to a line (R250, R268, R399): who wrote, translations that share the
line are dropped, the dies whose reserve must be invalidated, or has an invalidation of it still on its way, and the accesses the acknowledgement must follow. -/
def appliedAt (s : State) (line : Nat) (by_ : Option Nat) (plain : Bool) : State × List Nat × List Nat :=
  let s1 := s.trackWrite line by_ plain
  let open_ := s1.items.flatMap fun j => match j.2 with
    | .ack m => (m.dies.filter fun d => d.1 == line && !d.2.2).map fun d => d.2.1
    | _ => []
  let dies := joined ((s1.sharers.filter fun x => x.1 == line).map (·.2)) open_.eraseDups
  ({ s1 with tlbs := s1.tlbs.filter fun t => !t.via.contains line, sharers := s1.sharers.filter fun x => x.1 != line }, dies, s1.sharersOfWalk line)
/-- Sends invalidations to the reserves of dies for an acknowledgement (R399). -/
def sendInvalidations (s : State) (line id : Nat) (dies : List Nat) : State :=
  dies.foldl (fun t d =>
    let hop := if d ^^^ homeDie line = 3 then 190 else 140
    (t.later hop (.reserveInvalidate d line)).later (2 * hop) (.invalidateConfirm id d)) s

/-! ### Publishing and the acquire check (R267, R268) -/

/-- Begins a publish of a core: its entries are sent, and the bits of writes up to now wait for their acknowledgements. -/
def beginPublish (s : State) (c : Nat) : State :=
  let s1 := s.wcbSendAll c fun _ => true
  s1.setCore c { s1.core c with publishing := some (s1.nextId, []) }
/-- Ends a publish whose writes are all acknowledged: their bits leave the signature, and replies that waited for it go on. -/
def endPublish (s : State) (c : Nat) : State :=
  match (s.core c).publishing with
  | none => s
  | some (start, _) =>
    if s.outs.any fun o => (s.team (teamOf (o.fibre / 32))).core == c && o.id < start then s
    else
      let x := s.core c
      let s1 := s.setCore c { x with publishing := none, sig := x.sig.filter fun e => start ≤ e.2.2 }
      { s1 with items := s1.items.map fun j => match j.2 with
          | .result m => (j.1, .result { m with pubs := m.pubs.filter (· != c) })
          | _ => j }
/-- The acquire check of a read of a tracked line by a core (R268): the cores that must publish, and whether the reply is wide. -/
def acquireCheck (s : State) (reader pa n : Nat) : State × List Nat × Bool :=
  let bits := (blocksOf pa n).map fun b => sigBit (64 * b)
  let hit := (s.cores.filter fun c => c.2.sig.any fun e => bits.contains e.1 && e.2.1 == homeDie pa).map (·.1)
  let t := (aget s.track (lineOf pa)).getD (0, false)
  let s1 := hit.foldl (fun t c => (t.beginPublish c).endPublish c) s
  (s1, hit.filter fun c => (s1.core c).publishing.isSome, !hit.isEmpty || !t.2 || t.1 != reader)
end State

end Sys2Proof.Machine
end

