-- ==== Sys2Proof/Machine/PlainMemory.lean ====
section
/-! DEFINITION. Plain memory instructions: LD and ST (spec/08 R140 to R145, spec/14 R240), LDS and STS (R27, R146, R147, R203, R208,
R209), LDC and STC (spec/17 R288, spec/13 R205, R210), GENQ (R214). -/

namespace Sys2Proof.Machine

/-- A lane that passed its checks: lane, address, physical address, attributes. -/
abbrev LaneOk := Nat × DWord × Nat × Attr
/-- A lane that failed: lane, code, whether the leaf's rights refused it, address. -/
abbrev LaneBad := Nat × BitVec 8 × Bool × DWord

namespace State
/-- Checks the lanes of a word in lane order (R141). -/
def checkLanes (s : State) (ls : List Nat) (va : Nat → DWord) (size : Nat) (n : Need) (bar : State → Nat → Option (BitVec 8)) :
    List LaneOk × List LaneBad × State :=
  ls.foldl (fun acc l =>
    match acc.2.2.laneCheck s.myTeam.core (s.ctxOfWarp s.iss.warp) (va l) size n bar with
    | (.ok (pa, a), t) => (acc.1 ++ [(l, va l, pa, a)], acc.2.1, t)
    | (.error (code, leaf), t) => (acc.1, acc.2.1 ++ [(l, code, leaf, va l)], t)) ([], [], s)
/-- The value of the source registers of a store (R140). -/
def storeVal (s : State) (l : Nat) (b : Reg) (sz : Size) : Nat :=
  (List.range sz.regs).foldl (fun v i => v + (s.src l (b.toNat + i)).toNat * 2 ^ (32 * i)) 0
end State

/-- The distinct lines of lanes, first come first (R240). -/
def linesOf (ok : List LaneOk) : List Nat := (ok.map fun o => lineOf o.2.2.1).eraseDups
/-- The smallest aligned block of 16, 32, 64 or 128 bytes that holds bytes lo to hi - 1 of a line (R240): its start and size. -/
def blockOf (lo hi : Nat) : Nat × Nat :=
  if (hi - 1) / 16 = lo / 16 then (lo / 16 * 16, 16)
  else if (hi - 1) / 32 = lo / 32 then (lo / 32 * 32, 32)
  else if (hi - 1) / 64 = lo / 64 then (lo / 64 * 64, 64) else (0, 128)
/-- The registers a lane of a load fills, from the bytes of its line (R140, R143). -/
def laneResult (x : LoadLane) (f : Nat → Byte) : Nat × List (Nat × Word) :=
  let v := State.overlay x.own (x.pa % 128) (sizeBytes x.sz) f
  let ws := extendTo x.sz v
  (x.lane, (List.range ws.length).map fun i => (x.dst + i, ws.getD i 0))

namespace State
/-- Sends what a read has read: a long-latency result, or bytes for the scale store to the SCLD that waits for them (R210, R322); `req` says that a request
of the memory pipe is answered so (R9). -/
def sendRead (s : State) (r : ReadReq) (f : Nat → Byte) (inval : Bool) (pubs : List Nat) (req : Bool) (delay : Nat) : State :=
  if r.scale then
    let bytes := r.lanes.flatMap fun x => (List.range (sizeBytes x.sz)).map fun i =>
      (x.lane, x.dst + i, BitVec.ofNat 8 (State.overlay x.own (x.pa % 128) (sizeBytes x.sz) f / 2 ^ (8 * i)))
    match s.item r.dest.cid with
    | some (.scld q) =>
      (s.putItem r.dest.cid (.scld { q with
        reads := q.reads - 1, due := Nat.max q.due (s.clock + delay), dues := q.dues ++ (if req then [s.clock + delay] else []),
        writes := q.writes ++ bytes })).later delay (.scldComplete r.dest.cid)
    | _ => s
  else s.startResult ⟨r.dest, r.lanes.map fun x => laneResult x f, [], inval, pubs, none, none, req, false⟩ delay
/-- Starts the read of one line for lanes of a load (R240). -/
def startRead (s : State) (r : ReadReq) : State :=
  let c := r.dest.core
  match s.nearCopy c r with
  | some (bs, delay) =>
    let f (i : Nat) : Byte := (aget bs i).getD 0
    let s1 := if delay = 20 then s else (s.l1Fill c r.line r.lo r.n (r.hint == .ef) f).reserveHit (dieOfCore c) r.line
    s1.sendRead r f false [] (delay != 20) delay
  | none => (s.start (.read r)).later (s.pathLatency c r.line / 2) (.homeRead s.nextId)
/-- The place of the word in hand. -/
def here (s : State) : Where_ := ⟨s.iss.pc, s.iss.word, s.iss.ws⟩
/-- Starts the reads of a load word, one for each line its passing lanes touch (R240). -/
def startReads (s : State) (ok : List LaneOk) (d : Reg) (sz : Size) (hint : Hint) (sc : Option Scope) (cid : Nat) : State :=
  (linesOf ok).foldl (fun t line =>
    let mine := ok.filter fun o => lineOf o.2.2.1 == line
    let los := mine.map fun o => o.2.2.1 % 128
    let b := blockOf (los.foldl min 127) (los.foldl max 0 + sizeBytes sz)
    let lanes : List LoadLane := mine.map fun o =>
      ⟨o.1, o.2.1, o.2.2.1, sz, s.logicalOf o.1 d.toNat, o.2.2.2, s.ownPending s.iss.warp o.1 line⟩
    t.startRead ⟨s.destOf cid, s.ctxOfWarp s.iss.warp, line, b.1, b.2, lanes, hint, sc, false, s.here⟩) s
/-- Runs a word that has n requests to make; where its core has no room for them, it does not issue yet (R9). -/
def withRequests (s : State) (n : Nat) (k : State → State) : State := if s.roomForRequests s.myTeam.core n then k s else s.stopped
end State

/-- LD (R140, R141). -/
def execLd (h : Hdr) (d a : Reg) (sz : Size) (ch : Hint) (la : BitVec 4) (s : State) : Out :=
  let (ok, bad, s1) := s.checkLanes (s.active h) (s.srcX a) (sizeBytes sz) .r State.barRead
  .next ((s1.withRequests (linesOf ok).length fun u =>
    u.longWord (ok.map (·.1)) la.toNat fun t cid => t.startReads ok d sz ch none cid).trapLanes bad)
/-- Whether a lane's acknowledgement count has room for one more (R50). -/
def roomForStore (s : State) (l : Nat) : Bool := decide ((s.lane l).acks < 65535)
/-- ST (R140 to R142): lanes place their bytes in lane order, so the highest wins. -/
def execSt (h : Hdr) (a b : Reg) (sz : Size) (ch : Hint) (s : State) : Out :=
  let (ok, bad, s1) := s.checkLanes (s.active h) (s.srcX a) (sizeBytes sz) .w State.barPlain
  let placed := ok.foldl (fun (acc : Option State) o => acc.bind fun t =>
    if roomForStore t o.1 then
      t.wcbPlace s.iss.warp (lineOf o.2.2.1)
        ⟨o.1, o.2.2.1 % 128, leBytes (sizeBytes sz) (s.storeVal o.1 b sz), o.2.1, o.2.2.2, .store s.here⟩ ch
    else none) (some s1)
  .next (match placed with
    | some t => (t.markedFor (s.active h)).trapLanes bad
    | none => s.stopped)

/-! ### Scratch (R27, R203, R208, R209) -/

/-- Bytes of a granule as a generation reads them. -/
def Granule.byte (g : Granule) (gen : BitVec 16) (o : Nat) : Byte := ((g.read gen (o / 4)) >>> (8 * (o % 4))).setWidth 8
/-- A granule after a byte is written under a generation. -/
def Granule.setByte (g : Granule) (gen : BitVec 16) (o : Nat) (b : Byte) : Granule :=
  let w := g.read gen (o / 4)
  let m : Word := 0xFF#32 <<< (8 * (o % 4))
  g.write gen (o / 4) ((w &&& ~~~m) ||| (b.setWidth 32 <<< (8 * (o % 4))))
/-- The granule of a scratch byte of a team. -/
def Team.scrGranule (t : Team) (off : Nat) : Nat := t.core * 16384 + placeAt t.grant.scr (off / 64)
/-- The target of a core address (R27). -/
inductive CoreAt where
  | scratch (off : Nat)
  | reg (n byte : Nat)
  deriving DecidableEq, Repr
def coreAt (t : Team) (c : Nat) : Option CoreAt :=
  if c < t.scratch then some (.scratch c)
  else if 0x80000000 ≤ c && c < 0x80000100 then some (.reg ((c - 0x80000000) / 4) (c % 4))
  else none
/-- Bank passes of words of teams' scratch (R203): the most distinct words in one bank, at least 1. -/
def passes (words : List (Nat × Nat)) : Nat :=
  let ws := words.eraseDups
  (List.range 64).foldl (fun p b => Nat.max p (ws.filter fun w => w.2 % 64 == b).length) 1
/-- The words an access to a team's scratch touches. -/
def wordsAt (team off n : Nat) : List (Nat × Nat) := (List.range ((n + 3) / 4)).map fun i => (team, off / 4 + i)

namespace State
/-- A scratch byte of a team as that team's grant reads it; nothing of a team that has retired (R205, R208). -/
def scrByte (s : State) (t : Team) (off : Nat) : Byte :=
  if t.phase == .retired then 0 else (s.granule (t.scrGranule off)).byte t.grant.gen (off % 64)
/-- Writes a byte of a team's scratch under its grant (R209). -/
def setScrByte (s : State) (t : Team) (off : Nat) (b : Byte) : State :=
  let g := t.scrGranule off
  s.setGranule g ((s.granule g).setByte t.grant.gen (off % 64) b)
/-- A late write into a team's scratch (R210): dropped unless the generation it carries is current or accepted. -/
def lateScr (s : State) (team : Nat) (gen : BitVec 16) (off : Nat) (bs : List Byte) : State :=
  let t := s.team team
  if t.phase != .retired && (t.grant.gen == gen || t.grant.accepted.contains gen) then
    (List.range bs.length).foldl (fun u i => u.setScrByte t (off + i) (bs.getD i 0)) s
  else s
/-- Whether a granule carries another tag than its grant's: stale under strict (R208). -/
def stale (s : State) (t : Team) (granule : Nat) : Bool := t.strict && (s.granule granule).tag != t.grant.gen
/-- Whether the batch runs the save or the restore handler, whose LDS of scratch is spared (R375, R380). -/
def inSlotHandler (s : State) : Bool := s.myTeam.halts.head?.any fun h => h.phase == .saving || h.phase == .restoring
/-- The memory unit is taken for the passes of an access (R203). -/
def takePasses (s : State) (p : Nat) : State :=
  let c := s.myTeam.core
  s.setCore c { s.core c with memUntil := s.clock + s.iss.cyc - 1 + p }
/-- Bytes of STC words of a core that are still on their way to a team's scratch, oldest first (R259). -/
def stcPending (s : State) (c team : Nat) : List (Nat × Byte) :=
  s.items.flatMap fun j => match j.2 with
    | .stc ws => (ws.filter fun x => (s.team (teamOf x.warp)).core == c && x.team == team).flatMap fun x =>
        (List.range x.bytes.length).map fun i => (x.off + i, x.bytes.getD i 0)
    | _ => []
/-- Whether STC words of a core that are on their way will have claimed the granule of scratch bytes of a team by the time the core's next access reaches it
(R208, R209, R259, R266; DEDUCED, log entry 59): they carry a generation that the team's grant accepts. -/
def stcComes (s : State) (c team off n : Nat) : Bool :=
  let t := s.team team
  s.items.any fun j => match j.2 with
    | .stc ws => ws.any fun x => (s.team (teamOf x.warp)).core == c && x.team == team && x.off / 64 == off / 64 && n != 0 &&
        (t.grant.gen == x.gen || t.grant.accepted.contains x.gen)
    | _ => false
/-- A write of n bytes into a team's scratch comes after a core's STC words on their way there: they no longer write those bytes (R266,
DEDUCED, log entry 59). -/
def stcOverwritten (s : State) (c team off n : Nat) : State :=
  let cut (x : LateScr) : List LateScr :=
    if (s.team (teamOf x.warp)).core == c && x.team == team && decide (x.off < off + n) && decide (off < x.off + x.bytes.length) then
      ((List.range x.bytes.length).filter fun i => x.off + i < off || off + n ≤ x.off + i).map fun i =>
        { x with off := x.off + i, bytes := [x.bytes.getD i 0] }
    else [x]
  { s with items := s.items.map fun j => match j.2 with
      | .stc ws => (j.1, .stc (ws.flatMap cut))
      | _ => j }
/-- Whether a drain of a warp into its team's scratch has still to be applied over some bytes (R143, R312). -/
def tileOver (s : State) (w off n : Nat) : Bool :=
  let hits (r : DrainReq) : Bool := r.scratch && r.warp == w && decide (r.pa < off + n) && decide (off < r.pa + (if r.acc = 1 then 2048 else 1024))
  s.items.any fun j => match j.2 with
    | .drain r => hits r
    | .tile r => hits r
    | _ => false
/-- Whether an LDC of a lane has still to read some bytes of a team's scratch, which a later store of that lane must not overtake (R256, R266). -/
def ldcBefore (s : State) (w l team off n : Nat) : Bool := s.items.any fun j => match j.2 with
  | .ldc r => r.dest.warp == w && r.lanes.any fun x => x.lane == l && x.team == team && decide (x.off < off + n) && decide (off < x.off + sizeBytes x.sz)
  | _ => false
end State

/-- The check of a core address (R27, R147): its target, or the lane's trap. -/
def coreCheck (s : State) (c size : Nat) (reading : Bool) : Except (BitVec 8) CoreAt :=
  let t := s.myTeam
  let tk := teamOf s.iss.warp
  match coreAt t c with
  | none => .error 0x11
  | some x =>
    if c % size != 0 then .error 0x12
    else match x with
      | .scratch off => if reading && !s.inSlotHandler && s.stale t (t.scrGranule off) && !s.stcComes t.core tk off size then .error 0x15 else .ok x
      | .reg _ _ => .ok x
/-- A register-range LDS is stale when a register's granule is (R208). -/
def regStale (s : State) (l n size : Nat) : Bool :=
  (List.range ((size + 3) / 4)).any fun i => s.stale s.myTeam (s.myTeam.regGranule s.iss.warp l ((s.laneBefore l).wb + n + i))
/-- The bytes of the current window from register n on, as they stand now (R147). -/
def windowBytes (s : State) (l n byte size : Nat) : Nat :=
  (List.range 4).foldl (fun v i => v + (s.logical s.iss.warp l ((s.laneBefore l).wb + n + i)).toNat * 2 ^ (32 * i)) 0 / 2 ^ (8 * byte) % 2 ^ (8 * size)
/-- Splits lanes by a check. -/
def splitLanes {α : Type} (ls : List Nat) (va : Nat → DWord) (f : Nat → Except (BitVec 8) α) : List (Nat × α) × List LaneBad :=
  (ls.filterMap fun l => (f l).toOption.map fun x => (l, x),
   ls.filterMap fun l => match f l with
    | .error c => some (l, c, false, va l)
    | .ok _ => none)
/-- The registers a loaded number fills. -/
def regsFrom (dst : Nat) (sz : Size) (v : Nat) : List (Nat × Word) :=
  let ws := extendTo sz v
  (List.range ws.length).map fun i => (dst + i, ws.getD i 0)

/-- The scratch words that core addresses of lanes touch. -/
def scratchWords (tk n : Nat) (ok : List (Nat × CoreAt)) : List (Nat × Nat) := ok.flatMap fun o => match o.2 with
  | .scratch off => wordsAt tk off n
  | _ => []
/-- Whether core addresses of lanes reach bytes that a drain of the warp has still to be applied over. -/
def behindTile (s : State) (n : Nat) (ok : List (Nat × CoreAt)) : Bool := ok.any fun o => match o.2 with
  | .scratch off => s.tileOver s.iss.warp off n
  | _ => false

/-- Whether core addresses of lanes reach bytes that an earlier LDC of the same lane has still to read. -/
def behindLdc (s : State) (n : Nat) (ok : List (Nat × CoreAt)) : Bool := ok.any fun o => match o.2 with
  | .scratch off => s.ldcBefore s.iss.warp o.1 (teamOf s.iss.warp) off n
  | _ => false

/-- LDS (R146, R147, R203). -/
def execLds (h : Hdr) (d a : Reg) (sz : Size) (la : BitVec 4) (s : State) : Out :=
  let n := sizeBytes sz
  let va (l : Nat) : DWord := (s.srcR a l).setWidth 64
  let (ok, bad) := splitLanes (s.active h) va fun l =>
    match coreCheck s (s.srcR a l).toNat n true with
    | .ok (.reg r b) => if regStale s l r n then .error 0x15 else .ok (CoreAt.reg r b)
    | x => x
  let t := s.myTeam
  let tk := teamOf s.iss.warp
  let p := passes (scratchWords tk n ok)
  let val (l : Nat) (x : CoreAt) : Nat := match x with
    | .scratch off => State.overlay (s.stcPending t.core tk) off n fun o => s.scrByte t o
    | .reg r b => windowBytes s l r b n
  .next (if behindTile s n ok then s.stopped
    else (s.longWord (ok.map (·.1)) la.toNat fun u cid =>
      (u.takePasses p).startResult
        ⟨s.destOf cid, ok.map fun o => (o.1, regsFrom (s.logicalOf o.1 d.toNat) sz (val o.1 o.2)), [], false, [], none, none, false, false⟩
        (s.iss.cyc - 1 + 20 + (p - 1))).trapLanes bad)
/-- STS (R146, R147): one write of each lane, lanes in order; a register is written in the current window. -/
def execSts (h : Hdr) (a b : Reg) (sz : Size) (s : State) : Out :=
  let n := sizeBytes sz
  let va (l : Nat) : DWord := (s.srcR a l).setWidth 64
  let (ok, bad) := splitLanes (s.active h) va fun l => coreCheck s (s.srcR a l).toNat n false
  let p := passes (scratchWords (teamOf s.iss.warp) n ok)
  let put (u : State) (l : Nat) (x : CoreAt) : State :=
    let bs := leBytes n (s.storeVal l b sz)
    match x with
    | .scratch off =>
      (List.range n).foldl (fun u i => u.setScrByte s.myTeam (off + i) (bs.getD i 0)) (u.stcOverwritten s.myTeam.core (teamOf s.iss.warp) off n)
    | .reg r byte =>
      ((List.range n).foldl (fun u i =>
        let k := r + (byte + i) / 4
        let sh := 8 * ((byte + i) % 4)
        let w := u.logical s.iss.warp l ((s.laneBefore l).wb + k)
        u.setReg l k ((w &&& ~~~(0xFF#32 <<< sh)) ||| ((bs.getD i 0).setWidth 32 <<< sh))) u).dropSlots s.iss.warp
          ((List.range ((n + 3) / 4)).map fun i => (s.laneBefore l).wb + r + i)
  .next (if (s.active h).isEmpty then s
    else if behindTile s n ok || behindLdc s n ok then s.stopped
    else ((ok.foldl (fun u o => put u o.1 o.2) (s.takePasses p)).marked).trapLanes bad)

/-! ### Cluster addresses (R205, R288) -/

/-- A place that a cluster address names: the core, the team (0 where it is resident no more), the offset in its scratch. -/
structure ClusterAt where
  core : Nat
  team : Nat
  off : Nat
  deriving DecidableEq, Repr

namespace State
/-- The panel view of a core for a team (R205): the team indices of its panel that were dispatched there, rising. A restored or retired team keeps its
place. -/
def panelView (s : State) (t : Team) (c : Nat) : List Nat :=
  match aget s.launches t.launch with
  | none => []
  | some x =>
    let n := x.r.stages * x.r.width
    sortBy (fun a b => decide (a ≤ b)) ((x.places.filter fun p => p.2 == c && p.1 / n == t.panelid).map (·.1))
/-- The handle of a launch team by its team index; 0 where it is resident no more. -/
def teamByIndex (s : State) (launch ix : Nat) : Nat :=
  ((s.teams.find? fun x => x.2.launch == launch && x.2.teamid == ix && !x.2.spawned && x.2.phase != .retired).map (·.1)).getD 0
/-- What a cluster address names for a team (R205): none where its core is not live or its offset lies beyond the panel view. Every launch team of the
panel has the launch's scratch. -/
def clusterAt (s : State) (t : Team) (addr : Nat) : Option ClusterAt :=
  let cl := clusterOf t.core
  let k := addr / 2 ^ 24
  let off := addr % 2 ^ 24
  let n := ((aget s.launches t.launch).map fun x => x.r.scratch).getD 0
  let view := s.panelView t (cl * 64 + k)
  if s.liveCores cl ≤ k || n * view.length ≤ off then none
  else some ⟨cl * 64 + k, s.teamByIndex t.launch (view.getD (off / n) 0), off % n⟩
/-- The check of a cluster address: permission, then alignment (R205). -/
def clusterCheck (s : State) (addr size : Nat) (reading : Bool) : Except (BitVec 8) ClusterAt :=
  match s.clusterAt s.myTeam addr with
  | none => .error 0x11
  | some x =>
    if addr % size != 0 then .error 0x12
    else if reading && x.team != 0 && s.stale (s.team x.team) ((s.team x.team).scrGranule x.off) && !s.stcComes s.myTeam.core x.team x.off size then .error 0x15
    else .ok x
/-- Passes at each target core, the greatest with its latency: near on the own core, far on another (R288). -/
def clusterTime (s : State) (ok : List (Nat × ClusterAt)) (n near far : Nat) : Nat :=
  let cores := (ok.map fun o => o.2.core).eraseDups
  cores.foldl (fun m c =>
    let p := passes ((ok.filter fun o => o.2.core == c).flatMap fun o => wordsAt o.2.team o.2.off n)
    Nat.max m ((if c = s.myTeam.core then near else far) + (p - 1))) 0
/-- The lanes of an LDC or STC that reach this core take its memory unit for their passes (R203). -/
def takeOwnPasses (s : State) (ok : List (Nat × ClusterAt)) (n : Nat) : State :=
  let mine := ok.filter fun o => o.2.core == s.myTeam.core
  if mine.isEmpty then s else s.takePasses (passes (mine.flatMap fun o => wordsAt o.2.team o.2.off n))
/-- Whether cluster addresses of lanes reach bytes that a drain of the warp has still to be applied over. -/
def behindOwnTile (s : State) (n : Nat) (ok : List (Nat × ClusterAt)) : Bool :=
  ok.any fun o => o.2.team == teamOf s.iss.warp && s.tileOver s.iss.warp o.2.off n
end State

/-- LDC (R288): a request to the target cores' stores, read there after 24 cycles, on the own core when its result is due. -/
def execLdc (h : Hdr) (d a : Reg) (sz : Size) (la : BitVec 4) (s : State) : Out :=
  let n := sizeBytes sz
  let va (l : Nat) : DWord := (s.srcR a l).setWidth 64
  let (ok, bad) := splitLanes (s.active h) va fun l => s.clusterCheck (s.srcR a l).toNat n true
  let total := s.clusterTime ok n 20 48
  let atStore := s.clusterTime ok n 20 24
  .next (if s.behindOwnTile n ok then s.stopped
    else (s.longWord (ok.map (·.1)) la.toNat fun u cid =>
      let r : LdcReq := ⟨s.destOf cid, ok.map fun o => ⟨o.1, o.2.core, o.2.team, o.2.off, sz, s.logicalOf o.1 d.toNat⟩, total - atStore⟩
      ((u.takeOwnPasses ok n).start (.ldc r)).later (s.iss.cyc - 1 + atStore) (.homeRead u.nextId)).trapLanes bad)
/-- STC (R288): late writes that carry the target grant's generation. -/
def execStc (h : Hdr) (a b : Reg) (sz : Size) (s : State) : Out :=
  let n := sizeBytes sz
  let va (l : Nat) : DWord := (s.srcR a l).setWidth 64
  let (ok, bad) := splitLanes (s.active h) va fun l => s.clusterCheck (s.srcR a l).toNat n false
  let late (o : Nat × ClusterAt) : LateScr :=
    ⟨s.iss.warp, o.1, o.2.core, o.2.team, if o.2.team = 0 then 0 else (s.team o.2.team).grant.gen, o.2.off, leBytes n (s.storeVal o.1 b sz)⟩
  .next (if ok.any (fun o => !roomForStore s o.1) || s.behindOwnTile n ok then s.stopped
    else if ok.isEmpty then s.trapLanes bad
    else
      let id := s.nextId
      let s2 := ok.foldl (fun u o => let f := u.lane o.1; u.setLane o.1 { f with acks := f.acks + 1 }) (s.start (.stc (ok.map late)))
      let s3 := { s2 with outs := s2.outs ++ ok.map fun (o : Nat × ClusterAt) => (⟨id, fibKey s.iss.warp o.1, 0, 0, true, 3⟩ : OutWrite) }
      (((s3.takeOwnPasses ok n).later (s.iss.cyc - 1 + s.clusterTime ok n 20 24) (.homeWrite id)).marked).trapLanes bad)

/-- GENQ (R214). -/
def execGenq (h : Hdr) (d a : Reg) (s : State) : Out :=
  let t := s.myTeam
  let va (l : Nat) : DWord := (s.srcR a l).setWidth 64
  let (ok, bad) := splitLanes (s.active h) va fun l => match coreAt t (s.srcR a l).toNat with
    | none => .error 0x11
    | some (.scratch off) => .ok (t.scrGranule off)
    | some (.reg n _) => .ok (t.regGranule s.iss.warp l ((s.laneBefore l).wb + n))
  let word (g : Nat) : Word :=
    let tag := (s.granule g).tag
    BitVec.ofNat 32 ((tag == t.grant.gen).toNat * 2 ^ 17 + (tag == 0).toNat * 2 ^ 16 + t.grant.gen.toNat)
  .next ((ok.foldl (fun u o => u.setReg o.1 d.toNat (word o.2)) s).trapLanes bad)

end Sys2Proof.Machine
end

