-- ==== Sys2Proof/Machine/Ordered.lean ====
section
/-! DEFINITION. Ordered, atomic, accumulating and row instructions as the core issues them (spec/17 R273 to R290): LDA, STL, ATOM, RED,
ACCADD, ROWLD, ROWST, and the words that hold a batch until a release or an acquire is met: FENCE and PUBLISH. -/

namespace Sys2Proof.Machine

/-- Scopes from core on (R217, R274). -/
def atCore : Scope → Bool
  | .fibre | .warp | .team => false
  | _ => true

namespace State
/-- Residency and target of a row operation and, with `acc`, of an accumulating update (R228, R273, R280, R290). -/
def barDevice (s : State) (pa : Nat) : Option (BitVec 8) := if s.deviceSide pa then s.barPlain pa else some 0x11
def barRowRead (s : State) (pa : Nat) : Option (BitVec 8) := if s.deviceSide pa then s.barPlain pa else some 0x11
def barAcc (kd : AccKind) (s : State) (pa : Nat) : Option (BitVec 8) :=
  match regionOf pa with
  | .peer _ => none -- the contracts there are the peer's: its home tests them (R420)
  | _ =>
    if !s.deviceSide pa then some 0x11
    else if s.lostAt pa then some 0x13
    else if (kd == .accx) != s.accxAt pa then some 0x14 else none
/-- Runs a word that has n requests to make behind its warp's entries of lines, which must go to the home first (R143); where one of them may not go yet,
or there is no room for the requests (R9), the word does not issue yet. -/
def behindFlush (s : State) (lines : List Nat) (n : Nat) (k : State → State) : State :=
  let w := s.iss.warp
  let c := s.myTeam.core
  let mine (e : Wcb) : Bool := e.warp == w && lines.contains e.line
  let t := s.wcbSendAll c mine
  if (t.core c).wcb.any mine then s.stoppedBehind (((s.core c).wcb.filter mine).map Wcb.id) else t.withRequests n k
/-- Marks more lines as written by the same work (R398). -/
def coverOut (s : State) (id : Nat) (ls : List Nat) (lines : List Nat) : State :=
  lines.foldl (fun t x => t.addOut id (fibKey s.iss.warp (ls.headD 0)) x true false) s
/-- Raises acknowledgement counts of lanes for work under a name (R50). -/
def countOut (s : State) (id : Nat) (ls : List Nat) (pa : Nat) : State :=
  ls.foldl (fun t l => t.addOut id (fibKey s.iss.warp l) pa true true) s
end State

/-- LDA (R274): home-served, LA 0. -/
def execLda (h : Hdr) (d a : Reg) (sz : Size) (sc : Scope) (s : State) : Out :=
  let (ok, bad, s1) := s.checkLanes (s.active h) (s.srcX a) (sizeBytes sz) .r State.barRead
  .next ((s1.withRequests (linesOf ok).length fun u =>
    u.longWord (ok.map (·.1)) 0 fun t cid => t.startReads ok d sz .normal (some sc) cid).trapLanes bad)

/-- Opens the marked entry of one line for lanes of an STL (R216, R275): a new one, behind an unsent one of that line; none where there is no room. -/
def openRelease (s : State) (line : Nat) (ok : List LaneOk) (b : Reg) (sz : Size) (sc : Scope) : Option State :=
  s.wcbOpen s.iss.warp line
    (ok.map fun o => ⟨o.1, o.2.2.1 % 128, leBytes (sizeBytes sz) (s.storeVal o.1 b sz), o.2.1, o.2.2.2, .store s.here⟩) .normal
    (ok.map fun o => (o.1, sc))
/-- STL (R275): the fibre's earlier entries are sent, the marked one follows when R262 is met. -/
def execStl (h : Hdr) (a b : Reg) (sz : Size) (sc : Scope) (s : State) : Out :=
  let (ok, bad, s1) := s.checkLanes (s.active h) (s.srcX a) (sizeBytes sz) .w State.barPlain
  let c := s.myTeam.core
  let ls := ok.map (·.1)
  let s2 := s1.wcbSendAll c fun e => e.warp == s.iss.warp && e.parts.any fun p => ls.contains p.lane
  let placed := if ok.any fun o => !roomForStore s o.1 then none
    else (linesOf ok).foldl (fun (acc : Option State) line => acc.bind fun t =>
      openRelease t line (ok.filter fun o => lineOf o.2.2.1 == line) b sz sc) (some s2)
  .next (match placed with
    | some t => ((t.wcbSendAll c fun e => !e.rels.isEmpty).markedFor (s.active h)).trapLanes bad
    | none => s.stopped)

/-! ### Atomics (R277 to R279) -/

/-- Operand registers of an atomic: value, and for CAS the swap value (R62, R277). -/
def rmwOperand (s : State) (l : Nat) (d : Reg) (w : Bool) : DWord := if w then s.srcX d l else (s.srcR d l).setWidth 64
def rmwSwap (s : State) (l : Nat) (d : Reg) (w : Bool) : DWord :=
  if w then s.srcPair l (d.toNat + 2) else (s.src l (d.toNat + 1)).setWidth 64
/-- Lanes in the order the device chooses (R279): rotated by its choice. -/
def rotated {α : Type} (n : Nat) (ls : List α) : List α := ls.drop n ++ ls.take n
/-- Sends the read-modify-writes of passing lanes (R277, R279). -/
def startRmws (s : State) (ok : List LaneOk) (d : Reg) (op : AtomOp) (w ret : Bool) (cid : Nat) : State :=
  let n := s.choice (ok.length + 1)
  let c := s.myTeam.core
  (rotated n ok).foldl (fun t o =>
    let id := t.nextId
    let r : RmwReq := ⟨s.destOf cid, s.ctxOfWarp s.iss.warp, ret, op, w,
      ⟨o.1, o.2.1, o.2.2.1, s.logicalOf o.1 d.toNat, rmwOperand s o.1 d w, if op = .cas then rmwSwap s o.1 d w else 0⟩, o.2.2.2, s.here⟩
    ((((t.start (.rmw r)).addOut id (fibKey s.iss.warp o.1) o.2.2.1 true (!ret)).sign c id o.2.2.1 (if w then 8 else 4)
      o.2.2.2.tracked).l1Drop c (lineOf o.2.2.1)).later (s.pathLatency c o.2.2.1 / 2) (.homeRmw id)) s.chosen
/-- ATOM (R277). -/
def execAtom (h : Hdr) (d a : Reg) (op : AtomOp) (w : Bool) (la : BitVec 4) (s : State) : Out :=
  let (ok, bad, s1) := s.checkLanes (s.active h) (s.srcX a) (if w then 8 else 4) .rw State.barPlain
  .next ((s1.behindFlush (linesOf ok) ok.length fun s2 =>
    s2.longWord (ok.map (·.1)) la.toNat fun t cid => startRmws t ok d op w true cid).trapLanes bad)
/-- RED (R277). -/
def execRed (h : Hdr) (d a : Reg) (op : AtomOp) (w : Bool) (s : State) : Out :=
  let (ok, bad, s1) := s.checkLanes (s.active h) (s.srcX a) (if w then 8 else 4) .rw State.barPlain
  .next (if ok.any fun o => !roomForStore s o.1 then s.stopped
    else ((s1.behindFlush (linesOf ok) ok.length fun s2 => startRmws s2 ok d op w false 0).markedFor (s.active h)).trapLanes bad)

/-- ACCADD (R280, R281): the lanes of one line are one update. -/
def execAccadd (h : Hdr) (a b : Reg) (kd : AccKind) (s : State) : Out :=
  let n := if kd = .acc64 then 8 else 4
  let (ok, bad, s1) := s.checkLanes (s.active h) (s.srcX a) n .rw (State.barAcc kd)
  let c := s.myTeam.core
  let val (l : Nat) : DWord := if kd = .acc64 then s.srcX b l else (s.srcR b l).setWidth 64
  .next (if ok.any fun o => !roomForStore s o.1 then s.stopped
    else ((s1.behindFlush (linesOf ok) (linesOf ok).length fun s2 =>
      (linesOf ok).foldl (fun t line =>
        let mine := ok.filter fun o => lineOf o.2.2.1 == line
        let id := t.nextId
        let r : AccReq := ⟨c, s.iss.warp, s.ctxOfWarp s.iss.warp, kd, line, mine.map fun o => ⟨0, o.1, o.2.1, o.2.2.1, kd, val o.1, o.2.2.2⟩⟩
        let t1 := (t.start (.acc r)).countOut id (mine.map (·.1)) line
        let t2 := mine.foldl (fun u o => u.sign c id o.2.2.1 n o.2.2.2.tracked) t1
        (t2.l1Drop c line).later (s.pathLatency c line / 2) (.homeAccumulate id)) s2).markedFor (s.active h)).trapLanes bad)

/-! ### Rows (R289, R290) -/

/-- The lines of a row. -/
def rowLines (pa : Nat) : List Nat := (List.range 16).map fun j => pa + 128 * j
/-- ROWLD (R290): one check for all lanes, by the highest active one. -/
def execRowld (h : Hdr) (d a : Reg) (la : BitVec 4) (s : State) : Out :=
  let ls := s.active h
  .next (match ls.getLast? with
    | none => s
    | some top =>
      match s.laneCheck s.myTeam.core (s.ctxOfWarp s.iss.warp) (s.srcX a top) 2048 .r State.barRowRead with
      | (.error e, s1) => s1.trapLanes (ls.map fun l => (l, e.1, e.2, s.srcX a top))
      | (.ok (pa, at_), s1) =>
        s1.behindFlush (rowLines pa) 1 fun s2 => s2.longWord ls la.toNat fun t cid =>
          (t.start (.row ⟨s.destOf cid, s.ctxOfWarp s.iss.warp, s.srcX a top, pa, none, maskOf ls,
            ls.map fun l => (l, s.logicalOf l d.toNat), at_, s.here⟩)).later (s.pathLatency s.myTeam.core pa / 2) (.homeRowOperation t.nextId))
/-- ROWST (R290): the full warp, one indivisible write of the row. -/
def execRowst (h : Hdr) (a b : Reg) (s : State) : Out :=
  let ls := s.active h
  .next (match ls.getLast? with
    | none => s
    | some top =>
      if ls.length < 32 then s.trapPrecise 0x05 false ls 0
      else if ls.any fun l => !roomForStore s l then s.stopped
      else
        let c := s.myTeam.core
        match s.laneCheck c (s.ctxOfWarp s.iss.warp) (s.srcX a top) 2048 .w State.barDevice with
        | (.error e, s1) => s1.trapLanes (ls.map fun l => (l, e.1, e.2, s.srcX a top))
        | (.ok (pa, at_), s1) =>
          s1.behindFlush (rowLines pa) 1 fun s2 =>
            let words := (List.range 16).flatMap fun j => allLanes.map fun l => s.src l (b.toNat + j)
            let id := s2.nextId
            let s3 := s2.start (.row ⟨s.destOf 0, s.ctxOfWarp s.iss.warp, s.srcX a top, pa, some words, maskOf ls, [], at_, s.here⟩)
            let s4 := (rowLines pa).foldl (fun t line => t.l1Drop c line) (((s3.countOut id ls pa).coverOut id ls (rowLines pa).tail).sign c id pa 2048 at_.tracked)
            (s4.later (s.pathLatency c pa / 2) (.homeRowOperation id)).marked)

/-! ### FENCE and PUBLISH (R276, R285) -/

namespace State
/-- Whether a lane's acknowledgement count still holds a write whose home lies in a scope's home set (R257, R264). -/
def homeSetOpen (s : State) (w l : Nat) (sc : Scope) (self : Nat) : Bool :=
  let die := dieOfCore (s.team (teamOf w)).core
  s.outs.any fun o => o.fibre == fibKey w l && decide (o.id < self) && (match sc with
    | .fibre | .warp | .team | .core | .cluster | .die => o.dest == 3 || (o.dest == 0 && o.die == die)
    | .package => o.dest == 3 || o.dest == 0
    | .pod => o.dest != 2
    | .host | .peerio => o.dest != 1
    | .system => true)
/-- Whether a lane meets a fence's conditions (R262, R264, R276). -/
def fenceMet (s : State) (j : FenceJob) (self l : Nat) : Bool :=
  !s.readOpen j.warp l self && (j.k == .acquire || s.released (fibKey j.warp l) j.sc self) && (!j.ack || !s.homeSetOpen j.warp l j.sc self)
/-- Sends what a fence's lanes hold in the write-combining buffer; an acquire alone sends nothing (R276). -/
def fencePush (s : State) (j : FenceJob) : State :=
  if j.k == .acquire && !j.ack then s
  else s.wcbSendAll (s.team (teamOf j.warp)).core fun e => e.warp == j.warp && e.parts.any fun p => j.lanes.getLsbD p.lane
/-- The acquire side of a fence (R263, R268, R276): L1 is invalidated at core scope or wider, or after a wide read. -/
def fenceAcquire (s : State) (j : FenceJob) : State :=
  if j.k == .release then s
  else
    let wide := (lanesOf j.lanes).any fun l => (s.fib (fibKey j.warp l)).wide
    let s1 := if atCore j.sc || wide then s.l1Clear (s.team (teamOf j.warp)).core else s
    (lanesOf j.lanes).foldl (fun t l => t.setFib (fibKey j.warp l) { t.fib (fibKey j.warp l) with wide := false }) s1
/-- Holds the batch in hand until a fence's conditions are met. -/
def startFence (s : State) (j : FenceJob) : State :=
  let id := s.nextId
  (((s.start (.fence j)).holdFor id (lanesOf s.iss.lanes) false).fencePush j).later 1 (.fenceComplete id)
end State

/-- FENCE (R276). -/
def execFence (h : Hdr) (ack : Bool) (k : FenceKind) (sc : Scope) (s : State) : Out :=
  let ls := s.active h
  .next (if ls.isEmpty then s else s.startFence ⟨s.iss.warp, maskOf ls, k, ack, sc, []⟩)
/-- The view-table entry a PUBLISH names: its address, or the lane's trap (R285). -/
def viewOf (s : State) (va : DWord) : Except (BitVec 8) Nat × State :=
  if va.toNat < 2 ^ 56 || 2 ^ 57 ≤ va.toNat then (.error 0x11, s)
  else
    let c := s.ctxOfWarp s.iss.warp
    let i := fld va.toNat 40 16
    match s.viewEntry (dieOfCore s.myTeam.core) c i with
    | (.error e, t) => (.error e, t)
    | (.ok _, t) => (.ok (s.viewPlace c i), t)
/-- The views that lanes name, in lane order, and the lanes that name none. -/
def viewsOf (s : State) (ls : List Nat) (va : Nat → DWord) : List (Nat × Nat) × List LaneBad × State :=
  ls.foldl (fun acc l => match viewOf acc.2.2 (va l) with
    | (.ok v, t) => (acc.1 ++ [(l, v)], acc.2.1, t)
    | (.error c, t) => (acc.1, acc.2.1 ++ [(l, c, false, va l)], t)) ([], [], s)
/-- PUBLISH (R285): each distinct view is flipped once, when the release of the lanes is met. -/
def execPublish (h : Hdr) (a : Reg) (sc : Scope) (s : State) : Out :=
  let (ok, bad, s0) := viewsOf s (s.active h) (s.srcX a)
  let views := (ok.map (·.2)).eraseDups
  .next (if ok.any fun o => !roomForStore s o.1 then s.stopped
    else if ok.isEmpty then s0.trapLanes bad
    else
      let s1 := ok.foldl (fun t o => let f := t.lane o.1; t.setLane o.1 { f with acks := f.acks + 1 }) s0
      (s1.startFence ⟨s.iss.warp, maskOf (ok.map (·.1)), .release, false, sc,
        views.map fun v =>
          let mine := (ok.filter fun o => o.2 == v).map (·.1)
          ⟨s.myTeam.core, s.iss.warp, v, s.srcX a (mine.headD 0), mine, s.here⟩⟩).trapLanes bad)

/-- Sends a flip of a view toward the home of its entry, as a write of the lanes that named it (R50, R285); the core keeps no copy of the line (R259). -/
def sendFlip (s : State) (r : FlipReq) : State :=
  let id := s.nextId
  let s1 := (s.start (.flip r)).l1Drop r.core (lineOf r.entry)
  { s1.later (s.pathLatency r.core r.entry / 2) (.homeWrite id) with
    outs := s1.outs ++ r.lanes.map fun l => ⟨id, fibKey r.warp l, lineOf r.entry, homeDie r.entry, true, 0⟩ }
/-- Whether the flips of a job may be sent: the warp's own entries of their lines have gone first (R143, R266), and there is room for them (R9). -/
def flipsFree (s : State) (j : FenceJob) : Bool :=
  let c := (s.team (teamOf j.warp)).core
  !((s.core c).wcb.any fun e => e.warp == j.warp && j.flips.any fun f => lineOf f.entry == e.line) && s.roomForRequests c j.flips.length
/-- FENCE_COMPLETE (R276): when every lane meets the conditions the batch is released; a PUBLISH sends its flips then. -/
def execFenceComplete (id : Nat) (s : State) : Out :=
  match s.item id with
  | some (.fence j) =>
    .next (if ((lanesOf j.lanes).all fun l => s.fenceMet j id l) && (j.flips.isEmpty || flipsFree s j) then
        (j.flips.foldl sendFlip ((s.dropItem id).fenceAcquire j)).unhold j.warp id
      else ((s.fencePush j).wcbSendAll (s.team (teamOf j.warp)).core fun e =>
        e.warp == j.warp && j.flips.any fun f => lineOf f.entry == e.line).later 8 (.fenceComplete id))
  | _ => .next s

end Sys2Proof.Machine
end

