-- ==== Sys2Proof/Machine/Residency.lean ====
section
/-! DEFINITION. Residency contracts and the partition register: RESIDE, UNRESIDE (spec/14 R227 to R235, spec/17 R286, R287), PARTR,
PARTW (R221 to R223), with the events that end them. -/

namespace Sys2Proof.Machine

/-! ### Rows that contracts hold (R227, R231) -/

/-- Rows a kind takes in the slice of each granule; the C rows of a KVR contract are counted apart. -/
def rowsPer (kind : Nat) : Nat := if kind = 0 || kind = 1 then 2 else if kind = 4 then 8 else 0
/-- The kind of way that holds a contract's rows: 1 pinned, 2 KV reserve, 0 none. -/
def wayOfKind (kind : Nat) : Nat := if kind = 2 then 2 else if kind = 3 then 0 else 1
/-- The home slice of a physical granule. -/
def sliceOfGran (g : Nat) : Nat := sliceOf (g * 4096)
/-- Rows that a contract holds in a slice. -/
def rowsHeld (c : Contract) (sl : Nat) : Nat :=
  let n := (c.grans.filter fun g => sliceOfGran g == sl).length
  if c.kind = 2 then (if n = 0 then 0 else c.c) else rowsPer c.kind * n
/-- The rows a new contract needs, granule by granule: index, slice, rows (R231). -/
def rowNeeds (kind c : Nat) : Nat → List Nat → List Nat → List (Nat × Nat × Nat)
  | _, _, [] => []
  | i, seen, g :: t =>
    let sl := sliceOfGran g
    (i, sl, if kind = 2 then (if seen.contains sl then 0 else c) else rowsPer kind) :: rowNeeds kind c (i + 1) (sl :: seen) t

namespace State
/-- Rows of a kind of way in a slice under given values of its registers. -/
def waysRows (val : Nat → DWord) (sl k : Nat) : Nat :=
  (List.range 4).foldl (fun n ply => n + 512 * ((List.range 16).filter fun w => wayKind (val (sl * 4 + ply)) w == k).length) 0
/-- Rows of a kind that contracts hold in a slice, those of one context or of all. -/
def rowsUsed (s : State) (k sl : Nat) (ctx : Option Nat) : Nat :=
  (s.contracts.filter fun c => wayOfKind c.kind == k && (ctx.all fun x => x == c.ctx)).foldl (fun n c => n + rowsHeld c sl) 0
/-- A context's budget of a kind, in rows per slice (R231, R421). -/
def budget (s : State) (ctx k : Nat) : Nat :=
  match s.grantOf ctx with
  | none => 0
  | some g => (((if k = 1 then g.pinned else g.kv).find? fun b => b.1 == ctx % 64).map (·.2)).getD 0

/-! ### Release and registration (R227, R232, R235) -/

/-- The cache rows of granules leave the cache ways, written back. -/
def evictGrans (s : State) (grans : List Nat) : State :=
  (s.rows.filter fun r => grans.contains (r.2.block / 2)).foldl (fun t r => t.evictRow r.1) s
/-- The sectors of granules. -/
def gransSectors (grans : List Nat) : List Nat := grans.flatMap fun g => (List.range 128).map (g * 128 + ·)
/-- The elements of granules. -/
def accxCells (grans : List Nat) : List Nat := grans.flatMap fun g => (List.range 1024).map fun i => g * 4096 + 4 * i
/-- Memory cells of granules, and memory without them. -/
def cellsIn (s : State) (grans : List Nat) : List Host.Cell := s.mem.filter fun c => grans.contains (c.1 / 4096)
def withoutGrans (s : State) (grans : List Nat) : State := { s with mem := s.mem.filter fun c => !grans.contains (c.1 / 4096) }
/-- The release action of a contract (R227); the rows are free again. -/
def releaseContract (s : State) (c : Contract) : State :=
  let s1 : State :=
    if c.kind = 0 then s.writeBack c.dirty c.filled
    else if c.kind = 1 then
      let t := (c.saved.foldl (fun t x => t.poke x.1 [x.2]) (s.withoutGrans c.grans)).clearUpsets (gransSectors c.grans)
      { t with tlbs := t.tlbs.filter fun x => !x.via.any fun line => c.grans.contains (line / 4096) }
    else if c.kind = 2 then c.rows.foldl (fun t r => t.writeBack (sectorsIn (kvBlock c r.pos) r.dirty) (sectorsIn (kvBlock c r.pos) r.valid)) s
    else if c.kind = 4 then
      let t := (accxCells c.grans).foldl (fun t pa => t.wr pa 4 (s.accxRead pa)) s
      { t.writeBack (gransSectors c.grans) (gransSectors c.grans) with accx := t.accx.filter fun e => !c.grans.contains (e.1 / 1024) }
    else s
  let parity (u : Upset) : Bool := u.parity && c.kind != 3 && c.grans.contains (if u.at_ < 2 ^ 50 then u.at_ / 2 else (u.at_ - 2 ^ 50) / 8)
  { s1 with contracts := s1.contracts.filter fun x => x.id != c.id, upsets := s1.upsets.filter fun u => !parity u }
/-- Revocation: the release action, and a lost marker of a PINS range (R235). -/
def revokeContract (s : State) (c : Contract) : State :=
  let s1 := s.releaseContract c
  if c.kind = 1 then { s1 with lost := s1.lost ++ [⟨c.ctx, c.base, c.grans⟩] } else s1
/-- Registration (R227): rows of the range move into the contract with their dirty sectors, or are written back; a PINS range becomes zero, one count of
its slice for each granule (R258, DEDUCED, log entry 18); an ACCX range's elements are converted (R282). -/
def registerContract (s : State) (c : Contract) : State :=
  let mine := s.rows.filter fun r => c.grans.contains (r.2.block / 2)
  let without (t : State) : State := { t with rows := t.rows.filter fun r => !c.grans.contains (r.2.block / 2) }
  if c.kind = 0 then
    { without s with contracts := s.contracts ++ [{ c with filled := mine.flatMap fun r => sectorsIn r.2.block r.2.valid,
                                                            dirty := mine.flatMap fun r => sectorsIn r.2.block r.2.dirty }] }
  else if c.kind = 1 then
    let s1 := s.evictGrans c.grans
    let s2 := s1.withoutGrans c.grans
    let in_ (line : Nat) : Bool := c.grans.contains (line / 4096)
    let s3 : State :=
      { s2 with contracts := s2.contracts ++ [{ c with saved := s1.cellsIn c.grans }],
                track := s2.track.map fun t => if in_ t.1 then (t.1, (t.2.1, false)) else t,
                tlbs := s2.tlbs.filter fun t => !t.via.any in_,
                reserve := s2.reserve.filter fun r => !in_ r.line, sharers := s2.sharers.filter fun x => !in_ x.1 }
    c.grans.foldl (fun t g => (t.takeTag (g * 4096)).2) s3
  else if c.kind = 2 then
    let rows := mine.map fun r => (⟨sliceOf (r.2.block * 2048), kvPos c (r.2.block * 2048), r.2.age, r.2.valid, r.2.dirty⟩ : KvRow)
    let kept := rows.foldl (fun (a : List KvRow) r => if (a.filter fun x => x.slice == r.slice).length < c.c then a ++ [r] else a)
      ([] : List KvRow)
    let gone := rows.filter fun r => !kept.contains r
    let s1 := gone.foldl (fun t r => t.writeBack (sectorsIn (kvBlock c r.pos) r.dirty) (sectorsIn (kvBlock c r.pos) r.valid)) s
    { without s1 with contracts := s1.contracts ++ [{ c with rows := kept }] }
  else if c.kind = 4 then
    let s1 := s.evictGrans c.grans
    let put (a : Assoc (BitVec 128)) (pa : Nat) : Assoc (BitVec 128) :=
      let q := (accxConvert (s.rd pa 4)).1
      if q = 0 then a else aset a (pa / 4) (BitVec.ofInt 128 q)
    { s1 with contracts := s1.contracts ++ [c], accx := (accxCells c.grans).foldl put s1.accx }
  else { s with contracts := s.contracts ++ [c] }
end State

/-! ### RESIDE and UNRESIDE -/

/-- A status word (R230). -/
def resideStatus (code first : Nat) : Word := BitVec.ofNat 32 (first * 256 + code)
/-- Translates the granules of a range in order (R231, R286): physical granules with their attributes, or the status or the fault that ends the test. -/
def resideGrans (core ctx base : Nat) : Nat → Nat → State → Except (Word ⊕ (BitVec 8 × Bool × DWord)) (List (Nat × Attr)) × State
  | 0, _, s => (.ok [], s)
  | n + 1, i, s =>
    match s.access core ctx (base + 4096 * i) .rw with
    | (.error e, s1) => (.error (.inr (e.1, e.2, BitVec.ofNat 64 (base + 4096 * i))), s1)
    | (.ok (pa, a), s1) =>
      if !s1.deviceSide pa then (.error (.inl (resideStatus 4 0)), s1)
      else match resideGrans core ctx base n (i + 1) s1 with
        | (.ok gs, s2) => (.ok ((pa / 4096, a) :: gs), s2)
        | r => r
/-- The first granule that is covered, lost or named before (R231, R235). -/
def conflictAt (s : State) : Nat → List Nat → List Nat → Option Nat
  | _, _, [] => none
  | i, seen, g :: t =>
    if (s.contractAt (g * 4096)).isSome || s.lostAt (g * 4096) || seen.contains g then some i else conflictAt s (i + 1) (g :: seen) t
/-- The first granule at which a slice's count exceeds the budget or the free rows (R231). -/
def exceedsAt (s : State) (ctx k : Nat) : Assoc Nat → List (Nat × Nat × Nat) → Option Nat
  | _, [] => none
  | cnt, (i, sl, n) :: t =>
    let m := (aget cnt sl).getD 0 + n
    let left := s.budget ctx k - s.rowsUsed k sl (some ctx)
    let free := State.waysRows s.partOf sl k - s.rowsUsed k sl none
    if k != 0 && (decide (left < m) || decide (free < m)) then some i else exceedsAt s ctx k (aset cnt sl m) t

/-- The fill of an ACCX range reads every codeword of it (R227): the first granule that one fails in, and the code (R238, R425; DEDUCED, log
entry 91). -/
def accxFill (s : State) (ctx : Nat) : Nat → List (Nat × Attr) → Option (Nat × BitVec 8) × State
  | _, [] => (none, s)
  | i, (g, a) :: t =>
    let (held, cold) := (State.gransSectors [g]).partition fun x => s.inSkein (32 * x)
    let (s1, sound) := s.mend held
    if !sound then (some (i, 0x21), s1)
    else if cold.any (s1.codeFails ctx a) then (some (i, 0x20), s1.needle .hbm [4096 * g])
    else accxFill s1 ctx (i + 1) t

/-- One lane of a RESIDE after its fence: the status, or the fault of its lane (R231, R286). -/
def resideLane (s : State) (core ctx : Nat) (rec_ : BitVec 128) : Except (BitVec 8 × Bool × DWord) Word × State :=
  let f (lo n : Nat) : Nat := fld rec_.toNat lo n
  let base := f 0 64
  let len := f 64 24
  let kind := f 92 4
  let c := f 96 12
  if f 88 2 != 0 || 5 ≤ kind || len = 0 || (kind = 2 && c = 0) || (kind != 2 && (c != 0 || f 108 10 != 0 || f 118 10 != 0)) ||
      (if kind = 3 then f 90 2 == 3 else f 90 2 != 0) then (.ok (resideStatus 4 0), s)
  else if base % 4096 != 0 || 2 ^ 57 < base + 4096 * len || (base < 2 ^ 56 && 2 ^ 56 < base + 4096 * len) then (.ok (resideStatus 2 0), s)
  else match resideGrans core ctx base len 0 s with
    | (.error (.inl st), s1) => (.ok st, s1)
    | (.error (.inr e), s1) => (.error e, s1)
    | (.ok pages, s1) =>
      let gs := pages.map (·.1)
      match conflictAt s1 0 [] gs with
      | some i => (.ok (resideStatus 3 i), s1)
      | none =>
        let k := wayOfKind kind
        if 4096 ≤ (s1.contracts.filter fun x => x.ctx == ctx).length then (.ok (resideStatus 1 0), s1)
        else match exceedsAt s1 ctx k [] (rowNeeds kind c 0 [] gs) with
          | some i => (.ok (resideStatus 1 i), s1)
          | none =>
            let new : Contract :=
              { id := s1.nextId, ctx := ctx, kind := kind, base := BitVec.ofNat 64 base, cls := f 90 2, c := c, hd := f 108 10, w := f 118 10,
                grans := gs, rows := [], high := [], saved := [], filled := [], dirty := [] }
            match if kind = 4 then accxFill s1 ctx 0 pages else (none, s1) with
            | (some (i, code), s2) => (.error (code, false, BitVec.ofNat 64 (base + 4096 * i)), s2)
            | (none, s2) => (.ok (resideStatus 0 0), (s2.registerContract new).named)
/-- One lane of an UNRESIDE after its fence (R287). -/
def unresideLane (s : State) (ctx : Nat) (base : DWord) : Word × State :=
  if base.toNat % 4096 != 0 || 2 ^ 57 ≤ base.toNat then (resideStatus 2 0, s)
  else if s.lost.any fun l => l.ctx == ctx && l.base == base then
    (resideStatus 0 0, { s with lost := s.lost.filter fun l => !(l.ctx == ctx && l.base == base) })
  else match s.contracts.find? fun c => c.ctx == ctx && c.base == base with
    | none => (resideStatus 5 0, s)
    | some c => (resideStatus 0 0, s.releaseContract c)

/-- Starts a RESIDE or UNRESIDE: the whole warp is held (R286, R287). -/
def startReside (s : State) (release : Bool) (ls : List Nat) (d : Reg) (rec_ : Nat → BitVec 128) (e : Nat → Instr) : State :=
  if ls.isEmpty then s
  else
    let id := s.nextId
    let j : ResideJob := ⟨release, s.iss.warp, ls.map fun l => (l, s.logicalOf l d.toNat, rec_ l), s.here, 0, [], []⟩
    ((s.start (.reside j)).holdFor id ls true).later 1 (e id)
/-- RESIDE (R286). -/
def execReside (h : Hdr) (d a : Reg) (s : State) : Out :=
  .next (startReside s false (s.active h) d (fun l => s.srcPair l (a.toNat + 2) ++ s.srcPair l a.toNat) .resideComplete)
/-- UNRESIDE (R287). -/
def execUnreside (h : Hdr) (d a : Reg) (s : State) : Out :=
  .next (startReside s true (s.active h) d (fun l => (s.srcX a l).setWidth 128) .unresideComplete)

/-- The fence of a lane of a RESIDE: FENCE.AR.package.ACK (R286). -/
def resideFence (j : ResideJob) (l : Nat) : FenceJob := ⟨j.warp, maskOf [l], .acqrel, true, .package, []⟩
/-- Runs the lanes of a job whose fences are met, in lane order; the first that is not met keeps the rest waiting. -/
def resideRun (id : Nat) : List (Nat × Nat × BitVec 128) → ResideJob → State → State × ResideJob
  | [], j, s => (s, { j with lanes := [] })
  | (l, dst, rec_) :: t, j, s =>
    let s1 := s.fencePush (resideFence j l)
    if !s1.fenceMet (resideFence j l) id l then (s1, { j with lanes := (l, dst, rec_) :: t })
    else
      let s2 := s1.fenceAcquire (resideFence j l)
      let ctx := s2.ctxOfWarp j.warp
      let put (s : State) (st : Word) : State := if j.skip.contains (l, dst) then s else s.lateReg j.warp l dst st
      if j.release then
        let (st, s3) := unresideLane s2 ctx (rec_.setWidth 64)
        resideRun id t { j with done := j.done ||| maskOf [l] } (put s3 st)
      else match resideLane s2 (s2.team (teamOf j.warp)).core ctx rec_ with
        | (.ok st, s3) => resideRun id t { j with done := j.done ||| maskOf [l] } (put s3 st)
        | (.error e, s3) => resideRun id t { j with faulted := j.faulted ++ [(l, e.1, e.2.1, e.2.2)] } s3
/-- Adds a fault that is delivered at a warp's next group boundary (R366). -/
def State.lateFault (s : State) (w : Nat) (f : LateFault) : State :=
  let x := s.warp w
  if x.live then (s.setWarp w { x with late := x.late ++ [f] }).later 0 (.faultDelivery w) else s
/-- The late fault of lanes of a word, the lowest deciding (R351, R358). -/
def lateOfLanes (src : Where_) (fs : List (Nat × BitVec 8 × Bool × DWord)) : Option LateFault :=
  match fs with
  | [] => none
  | (_, code, leaf, addr) :: _ =>
    some ⟨code, leaf, 0, addr, maskOf ((fs.filter fun f => f.2.1 == code).map (·.1)), maskOf (fs.map (·.1)), some src, 0⟩
/-- What RESIDE_COMPLETE and UNRESIDE_COMPLETE do: the lanes run, and at the end the warp is released and faults are delivered. -/
def resideStep (s : State) (id : Nat) (e : Nat → Instr) : State :=
  match s.item id with
  | some (.reside j) =>
    if !(s.warp j.warp).live then s.dropItem id
    else
    let (s1, j1) := resideRun id j.lanes j s
    if !j1.lanes.isEmpty then (s1.putItem id (.reside j1)).later 8 (e id)
    else
      let s2 := (s1.dropItem id).unhold j.warp id
      match lateOfLanes j.src j1.faulted with
      | none => s2
      | some f => s2.lateFault j.warp f
  | _ => s
/-- RESIDE_COMPLETE (R286). -/
def execResideComplete (id : Nat) (s : State) : Out := .next (resideStep s id .resideComplete)
/-- UNRESIDE_COMPLETE (R287). -/
def execUnresideComplete (id : Nat) (s : State) : Out := .next (resideStep s id .unresideComplete)

/-! ### PARTR and PARTW (R221 to R223, R235) -/

/-- A partition value as PARTW stores it: quotas at most 16, reserved bits zero. -/
def partValue (v : DWord) : DWord :=
  let q (cls : Nat) : Nat := Nat.min 16 (fld v.toNat (32 + 8 * cls) 8 % 32)
  BitVec.ofNat 64 (v.toNat % 2 ^ 32 + q 0 * 2 ^ 32 + q 1 * 2 ^ 40 + q 2 * 2 ^ 48)
/-- Revokes the most recently registered contracts that hold rows of a kind in a slice until the rest fit (R235). -/
def revokeFor (k sl room : Nat) : Nat → State → State
  | 0, s => s
  | n + 1, s =>
    if s.rowsUsed k sl none ≤ room then s
    else match (s.contracts.filter fun c => wayOfKind c.kind == k && rowsHeld c sl != 0).getLast? with
      | none => s
      | some c => revokeFor k sl room n (s.revokeContract c)
/-- A write of a partition register (R223): quotas, revocation, cache rows of ways that stop being cache, the new value. Moving rows
of contracts that stay changes no value and no count. -/
def State.setPart (s : State) (sp : Nat) (raw : DWord) : State :=
  let v := partValue raw
  let sl := sp / 4
  let val (x : Nat) : DWord := if x = sp then v else s.partOf x
  let s1 := [1, 2].foldl (fun t k => revokeFor k sl (State.waysRows val sl k) t.contracts.length t) s
  let lostWays := (List.range 16).filter fun w => wayKind (s.partOf sp) w == 0 && wayKind v w != 0
  let s2 := (s1.rows.filter fun r => r.1 / (512 * 16) == sp && lostWays.contains (r.1 % 16)).foldl (fun t r => t.evictRow r.1) s1
  { s2 with parts := aset s2.parts sp v }
/-- The latency of a load from a core to a slice (R222, R396). -/
def State.slicePath (s : State) (c sl : Nat) : Nat :=
  if sl / 64 = dieOfCore c then
    (if sl % 64 / 16 = clusterOf c % 4 && sl % 16 = s.position c / 3 then 80 else 180)
  else if sl / 64 ^^^ dieOfCore c = 3 then 380 else 280
/-- The slice-ply a selector names under a virtual die table; none where the die is not mapped (R222). -/
def partTarget (vdt : DWord) (sel : Word) : Option Nat :=
  let v := fld sel.toNat 8 2
  if vdtMapped vdt v then some ((vdtDie vdt v * 64 + fld sel.toNat 2 6) * 4 + fld sel.toNat 0 2) else none
/-- Starts a PARTR or PARTW; the whole warp is held. -/
def startPart (s : State) (h : Hdr) (write : Bool) (v sel : Reg) (e : Nat → Instr) : State :=
  let ls := s.active h
  let vdt := (s.ctx (s.ctxOfWarp s.iss.warp)).vdt
  let bad := ls.filter fun l => (partTarget vdt (s.srcR sel l)).isNone
  if ls.isEmpty then s
  else if !bad.isEmpty then s.trapPrecise 0x11 false ls 0
  else
    let id := s.nextId
    let lanes := ls.filterMap fun l => (partTarget vdt (s.srcR sel l)).map fun sp =>
      (l, sp, s.logicalOf l v.toNat, if write then s.srcX v l else 0)
    let time := lanes.foldl (fun n x => n + s.slicePath s.myTeam.core (x.2.1 / 4)) 0
    ((s.start (.part ⟨write, s.iss.warp, lanes, []⟩)).holdFor id ls true).later time (e id)
/-- PARTR (R222). -/
def execPartr (h : Hdr) (v sel : Reg) (s : State) : Out := .next (startPart s h false v sel .partrComplete)
/-- Whether a context is trusted firmware's own (R69). -/
def firmwareCtx (s : State) (c : Nat) : Bool := (s.grantOf c).any fun g => g.own == some (c % 64)
/-- PARTW (R69, R222): outside trusted firmware it raises permission. -/
def execPartw (h : Hdr) (v sel : Reg) (s : State) : Out :=
  .next (if (s.active h).isEmpty then s
    else if !firmwareCtx s (s.ctxOfWarp s.iss.warp) then s.trapPrecise 0x11 false (s.active h) 0
    else startPart s h true v sel .partwComplete)
/-- Lanes of a partition access, in order: the old value into the pair, then the write. -/
def partLanes (s : State) (id : Nat) : State :=
  match s.item id with
  | some (.part j) =>
    if !(s.warp j.warp).live then s.dropItem id
    else
    let s1 := j.lanes.foldl (fun t x =>
      let old := t.partOf x.2.1
      let t1 := if j.write then t.setPart x.2.1 x.2.2.2 else t
      let put (u : State) (lr : Nat) (v : Word) : State := if j.skip.contains (x.1, lr) then u else u.lateReg j.warp x.1 lr v
      put (put t1 x.2.2.1 (old.setWidth 32)) (x.2.2.1 + 1) ((old >>> 32).setWidth 32)) s
    (s1.dropItem id).unhold j.warp id
  | _ => s
/-- PARTR_COMPLETE (R222). -/
def execPartrComplete (id : Nat) (s : State) : Out := .next (partLanes s id)
/-- PARTW_COMPLETE (R223). -/
def execPartwComplete (id : Nat) (s : State) : Out := .next (partLanes s id)

end Sys2Proof.Machine
end

