-- ==== Sys2Proof/Machine/Home.lean ====
section
/-! DEFINITION. Requests at their homes: reads, writes, atomics, accumulations and row operations as a home serves them, with the gates of
the mailbox window and the host-line agent (spec/14 R220 to R244, spec/16 R258 to R268, spec/17 R277 to R290, spec/28 R397 to R402,
spec/29 R411, R414, spec/30 R425), acknowledgements, and the arrival of long-latency results (spec/13 R210). -/

namespace Sys2Proof.Machine

namespace State
/-- Whether a granule is dirty in the home slice. -/
def dirtyAt (s : State) (g : Nat) : Bool :=
  let bit (b : BitVec 64) : Bool := b.getLsbD (2 * g % 64) || b.getLsbD ((2 * g + 1) % 64)
  (s.rows.any fun r => r.2.block == g / 32 && bit r.2.dirty) ||
    (s.contracts.any fun c => c.dirty.any (fun x => x / 2 == g) || c.rows.any fun r => kvBlock c r.pos == g / 32 && bit r.dirty)
def sOrO (s : State) (g : Nat) : MbState := if s.dirtyAt g then .o else .s

/-! ### What a served request sends back -/

/-- The second half of a path (R396). -/
def backPath (s : State) (c pa : Nat) : Nat := s.pathLatency c pa - s.pathLatency c pa / 2
/-- Frees lanes of a counter (R45, R46). -/
def freeCounter (s : State) (w cid : Nat) (ls : List Nat) : State :=
  let x := s.warp w
  let upd (k : Counter) : Counter := if k.id == cid then { k with vals := k.vals.filter fun v => !ls.contains v.1 } else k
  s.setWarp w { x with counters := (x.counters.map upd).filter fun k => !k.vals.isEmpty }
/-- A fault of lanes of a long-latency word after its checks: the counter lets them go and the fault waits for the group boundary (log
entry 13). -/
def lateLanes (s : State) (d : Dest) (src : Where_) (code : BitVec 8) (ls : List (Nat × DWord)) : State :=
  match lateOfLanes src (ls.map fun l => (l.1, code, false, l.2)) with
  | none => s
  | some f => if (s.warp d.warp).live then (s.freeCounter d.warp d.cid (ls.map (·.1))).lateFault d.warp f else s
/-- Lanes of a read fault at its home: the read goes on for the others, where there are any. Lanes of an SCLD write none of their bytes (R323). -/
def readFault (s : State) (id : Nat) (r : ReadReq) (code : BitVec 8) (bad : List LoadLane) : State × ReadReq :=
  let rest := r.lanes.filter fun x => !bad.contains x
  let s1 := if bad.isEmpty then s else s.lateLanes r.dest r.src code (bad.map fun x => (x.lane, x.va))
  let s2 := match r.scale, s1.item r.dest.cid with
    | true, some (.scld q) =>
      let t := s1.putItem r.dest.cid (.scld { q with reads := if rest.isEmpty then q.reads - 1 else q.reads, lost := q.lost ++ bad.map LoadLane.lane })
      if rest.isEmpty then t.later 0 (.scldComplete r.dest.cid) else t
    | _, _ => s1
  (if rest.isEmpty then s2.dropItem id else s2, { r with lanes := rest })
/-- Sends an acknowledgement under the name of the request, with the dies that have to confirm an invalidation of its lines (R399). -/
def sendAck (s : State) (id pa : Nat) (m : AckMsg) (lines : List (Nat × List Nat)) (delay : Nat) : State :=
  let s1 := s.putItem id (.ack { m with dies := lines.flatMap fun x => x.2.map fun d => (x.1, d, false), gate := m.gate.filter (· != m.out) })
  let s2 := lines.foldl (fun t x => t.sendInvalidations x.1 id x.2) s1
  s2.later (s.backPath m.core pa + delay) (.storeAck id)
/-- Fibres that count on a request. -/
def countedOn (s : State) (id : Nat) : List Nat := (s.outs.filter fun o => o.id == id).map OutWrite.fibre

/-! ### Reads (R240 to R244, R258, R259, R268, R398, R425) -/

/-- Ends a read at its home: the values stand as they are now, near copies are filled or renewed where `install` says so, and the result goes out. -/
def finishRead (s : State) (id : Nat) (r : ReadReq) (install : Bool) (delay : Nat) : State :=
  let c := r.dest.core
  let line := r.line
  let homeOnly := r.scope.isSome || r.hint == .nl
  let tracked := r.lanes.filter fun x => x.at_.tracked
  let s1 := if !s.deviceSide line then s
    else if install then (s.l1Renew c line r.lo r.n (r.hint == .ef) (!homeOnly)).reserveFill c r
    else (s.l1Drop c line).reserveDrop (dieOfCore c) line
  let (s2, pubs, wide) := if homeOnly && widens line && !tracked.isEmpty then s1.acquireCheck c (line + r.lo) r.n else (s1, [], false)
  let s3 := if wide then tracked.foldl (fun t x =>
      let k := fibKey r.dest.warp x.lane
      if (t.warp r.dest.warp).live then t.setFib k { t.fib k with wide := true } else t) s2 else s2
  (s3.dropItem id).sendRead r (fun i => s.homeByte (line + i)) (r.scope.any fun sc => atCore sc || wide) pubs true (s.backPath c line + delay)
/-- Lanes of a read that consume a sector of a list. -/
def lanesTouching (r : ReadReq) (secs : List Nat) : List LoadLane :=
  r.lanes.filter fun x => (sectorsOf x.pa (sizeBytes x.sz)).any secs.contains
/-- Lanes of a read that consume a missing codeword which fails its check under the key of their page (R425, R426). -/
def lanesFailing (s : State) (r : ReadReq) (miss : List Nat) : List LoadLane :=
  r.lanes.filter fun x => (sectorsOf x.pa (sizeBytes x.sz)).any fun k => miss.contains k && s.codeFails r.ctx x.at_ k
/-- A read at its home. A word of the skein that is lost faults the lanes that consume it (R238, R239). -/
def serveRead (s : State) (id : Nat) (r : ReadReq) : State :=
  let pa := r.line + r.lo
  match s.homeStop r.dest.core pa with
  | some code => (s.readFault id r code r.lanes).1
  | none =>
    let secs := sectorsOf pa r.n
    let (s1, spot) := s.spotFor pa ((r.lanes.head?.map LoadLane.at_).getD Attr.plain).cls r.hint
    let miss := s1.missing spot secs
    let lost := secs.filter fun x => !miss.contains x && !(s1.readHeld spot pa [x]).2
    let (s2, r2) := (s1.readHeld spot pa secs).1.readFault id r 0x21 (lanesTouching r lost)
    let delay := s1.rebuildDelay spot pa
    if r2.lanes.isEmpty then s2
    else if miss.isEmpty then s2.finishRead id r2 lost.isEmpty delay
    else (s2.putItem id (.hbm r2 spot miss)).later (220 + delay) (.hbmReadReturn id (if (s2.lanesFailing r2 miss).isEmpty then .good else .failed))
/-- HBM answers a read (R425): sectors are filled and the read goes on, or every lane that consumes a lost codeword faults and nothing is
installed; lanes that consume none of them read on. A failure that no check foretold damages the codewords it read. -/
def hbmAnswer (s : State) (id : Nat) (r : ReadReq) (spot : Spot) (miss : List Nat) (res : HbmCheck) : State :=
  let pa := r.line + r.lo
  let fill (t : State) : State := ((t.spotMark spot miss false).filledLine r.line).finishRead id r true 0
  match res with
  | .good => fill s
  | .corrected => fill (s.needle .hbm [pa])
  | .failed =>
    let told := s.lanesFailing r miss
    let s1 : State := if told.isEmpty then { s with bad := joined s.bad miss } else s
    let (s2, r2) := ((s1.dropEmpty spot).needle .hbm [pa]).readFault id r 0x20 (if told.isEmpty then lanesTouching r miss else told)
    if r2.lanes.isEmpty then s2 else s2.finishRead id r2 false 0

/-! ### Writes (R216, R237, R238, R241, R244, R258, R425) -/

/-- A late write of a lane is held, with its fault (R434): registers, or bytes of a frame, and the address the record gives. -/
def holdWrite (s : State) (w l : Nat) (regs : List (Nat × Word)) (va : DWord) (bytes : List Byte) (code : BitVec 8) (leaf : Bool) : State :=
  let x := s.warp w
  (s.named.setWarp w { x with heldWrites := x.heldWrites ++ [⟨s.nextId, l, regs, va, bytes⟩] }).lateFault w
    ⟨code, leaf, 0x40, va, maskOf [l], maskOf [l], none, s.nextId⟩
/-- Sectors that parts of a line cover, and those of them that they cover whole. -/
def writeSectors (line : Nat) (parts : List WPart) : List Nat × List Nat :=
  let cov (o : Nat) : Bool := parts.any fun p => decide (p.off ≤ o) && decide (o < p.off + p.bytes.length)
  let secs := (List.range 4).filter fun i => (List.range 32).any fun k => cov (32 * i + k)
  let whole := secs.filter fun i => (List.range 32).all fun k => cov (32 * i + k)
  (secs.map (line / 32 + ·), whole.map (line / 32 + ·))
/-- Parts of a write fault at its home and change nothing (R228, R402, R425, R434): a store's lane faults late and is replayed alone; a late result's
registers, those of one block together, and the bytes of a frame are held and made again (DEDUCED, log entries 13, 20). -/
def writeFault (s : State) (w : Nat) (fs : List (WPart × BitVec 8)) : State :=
  if !(s.warp w).live then s
  else
    let srcs := (fs.filterMap fun f => match f.1.org with
      | .store src => some src
      | _ => none).eraseDups
    let s1 := srcs.foldl (fun t src =>
      let mine := sortBy (fun a b => decide (a.1.lane ≤ b.1.lane)) (fs.filter fun f => f.1.org == .store src)
      match lateOfLanes src (mine.map fun f => (f.1.lane, f.2, false, f.1.va)) with
      | some f => t.lateFault w f
      | none => t) s
    let block (f : WPart × BitVec 8) : Option (Nat × Nat) := match f.1.org with
      | .late reg => some (f.1.lane, reg / 16)
      | _ => none
    let s2 := ((fs.filterMap block).eraseDups).foldl (fun t b =>
      let mine := fs.filter fun f => block f == some b
      let regs := mine.filterMap fun f => match f.1.org with
        | .late reg => some (reg, (BitVec.ofNat 32 (ofBytes f.1.bytes) : Word))
        | _ => none
      t.holdWrite w b.1 regs (spillHome (t.fib (fibKey w b.1)) b.2) [] ((mine.head?.map (·.2)).getD 0) false) s1
    (fs.filter fun f => f.1.org == .frame).foldl (fun t f => t.holdWrite w f.1.lane [] f.1.va f.1.bytes f.2 false) s2
/-- A write at its home: parts that meet no fault are applied at once. -/
def serveWrite (s : State) (id : Nat) (w : WriteReq) : State :=
  let ack (t : State) (tag : Option DWord) (dies gate : List Nat) (delay : Nat) : State :=
    t.sendAck id w.line ⟨w.warp, w.core, storesOf w.warp w.parts, tag, 0, [], gate, [], 0, id⟩ [(w.line, dies)] delay
  let all (ps : List WPart) (code : BitVec 8) : List (WPart × BitVec 8) := ps.map fun p => (p, code)
  match s.homeStop w.core w.line with
  | some code => ack (s.writeFault w.warp (all w.parts code)) none [] [] 0
  | none =>
  if !s.hostSide w.line && s.accxAt w.line then
    ack (((if w.parts.all WPart.counts then s else s.needle .slice [w.line])).writeFault w.warp (all (w.parts.filter WPart.counts) 0x14)) none [] [] 0
  else
    let (s1, spot) := s.spotFor w.line (partsAttr w.parts).cls w.hint
    let (secs, whole) := writeSectors w.line w.parts
    let merged := secs.filter fun x => !whole.contains x
    let miss := s1.missing spot merged
    let code (p : WPart) : Option (BitVec 8) := (secs.filter (sectorsOf (w.line + p.off) p.bytes.length).contains).findSome? fun x =>
      if miss.contains x then (if s1.codeFails w.ctx p.at_ x then some 0x20 else none)
      else if (s1.readOld spot w.line [x]).2 then none else some 0x21
    let bad := w.parts.filterMap fun p => (code p).map fun c => (p, c)
    let good := w.parts.filter fun p => (code p).isNone
    let s2 := ((s1.readOld spot w.line secs).1.clearUpsets (whole.filter (writeSectors w.line good).2.contains)).writeFault w.warp bad
    let s3 := if bad.any fun f => f.2 == 0x20 then s2.needle .hbm [w.line] else s2
    if good.isEmpty then ack (s3.dropEmpty spot) none [] [] 0
    else
      let s4 := good.foldl (fun t p => (t.poke (w.line + p.off) p.bytes).keyed w.ctx p.at_ spot (sectorsOf (w.line + p.off) p.bytes.length))
        (s3.spotMark spot (writeSectors w.line good).1 true)
      let s5 := if miss.isEmpty then s4 else s4.filledLine w.line
      let (tag, s6) := s5.takeTag w.line
      let (s7, dies, gate) := s6.appliedAt w.line (some w.core) true
      ack s7 tag dies gate (if miss.isEmpty then 0 else 220)
/-- A write of a view entry's ACT at its home, one read-modify-write of the entry's line (R285, R334); or the code of what it meets. -/
def writeAct (s : State) (entry : Nat) (f : Byte → Byte) : State × Option (BitVec 8) :=
  let (s1, spot) := s.spotFor entry 0 .normal
  match s1.fetchAt spot entry 32 s1.bad.contains with
  | (s2, some code) => (s2, some code)
  | (s2, none) =>
    let (s3, sound) := s2.readOld spot entry (sectorsOf entry 32)
    if !sound then (s3, some 0x21)
    else ((s3.spotMark spot (sectorsOf entry 32) true).poke (entry + 24) [f (mget s.mem (entry + 24))], none)
/-- A flip of a view at the home of its entry; its acknowledgement follows R250 and R255 (R285). -/
def serveFlip (s : State) (id : Nat) (r : FlipReq) : State :=
  let ack (t : State) (tag : Option DWord) (dies gate : List Nat) : State :=
    t.sendAck id r.entry ⟨r.warp, r.core, r.lanes.map (fibKey r.warp), tag, 0, [], gate, [], 0, id⟩ [(lineOf r.entry, dies)] 0
  let late (t : State) (code : BitVec 8) : State :=
    match lateOfLanes r.src (r.lanes.map fun l => (l, code, false, r.va)) with
    | some f => t.lateFault r.warp f
    | none => t
  if s.unreachable r.core r.entry then ack (late s 0x21) none [] []
  else match s.writeAct r.entry (· ^^^ 1) with
    | (s1, some code) => ack (late s1 code) none [] []
    | (s1, none) =>
      let (tag, s2) := s1.takeTag r.entry
      let (s3, dies, gate) := s2.appliedAt (lineOf r.entry) (some r.core) false
      ack s3 tag dies gate
end State

/-! ### Atomics (R277 to R279) -/

/-- The new value of a read-modify-write with its exception bits (R278). -/
def rmwValue (op : AtomOp) (wide : Bool) (o v c : Nat) : Nat × Exs :=
  let n : Nat := if wide then 64 else 32
  let m : Nat := 2 ^ n
  let sg (x : Nat) : Int := if 2 ^ (n - 1) ≤ x then (x : Int) - (m : Int) else (x : Int)
  let f := if wide then fp64 else fp32
  match op with
  | .add => ((o + v) % m, 0)
  | .and => (o &&& v, 0)
  | .or => (o ||| v, 0)
  | .xor => (o ^^^ v, 0)
  | .min => (if sg v < sg o then v else o, 0)
  | .max => (if sg o < sg v then v else o, 0)
  | .minu => (Nat.min o v, 0)
  | .maxu => (Nat.max o v, 0)
  | .exch => (v, 0)
  | .cas => (if o = v then c else o, 0)
  | .incw => (if v ≤ o then 0 else o + 1, 0)
  | .decw => (if o = 0 || v < o then v else o - 1, 0)
  | .fadd => fAdd f (f.value o) (f.value v)
  | .fmin => fSelect f fvMin (f.value o) (f.value v)
  | .fmax => fSelect f fvMax (f.value o) (f.value v)

namespace State
/-- An atomic at its home: its reply, or its acknowledgement, follows the invalidations its write needs (R279, R399). -/
def serveRmw (s : State) (id : Nat) (r : RmwReq) : State :=
  let c := r.dest.core
  let pa := r.lane.pa
  let n := if r.w then 8 else 4
  let fk := fibKey r.dest.warp r.lane.lane
  let ack (t : State) (tag : Option DWord) (exs : Exs) (dies gate : List Nat) (delay : Nat) : State :=
    t.sendAck id pa ⟨r.dest.warp, c, if r.ret then [] else [fk], tag, exs, [], gate, [], 0, id⟩ [(lineOf pa, dies)] delay
  let fault (t : State) (code : BitVec 8) : State := ack (t.lateLanes r.dest r.src code [(r.lane.lane, r.lane.va)]) none 0 [] [] 0
  match s.homeStop c pa with
  | some code => fault s code
  | none =>
  if !s.hostSide pa && s.accxAt pa then fault s 0x14
  else
    let (s1, spot) := s.spotFor pa r.at_.cls .normal
    let secs := sectorsOf pa n
    let miss := s1.missing spot secs
    let (s2, sound) := s1.readOld spot pa secs
    if !sound then fault s2 0x21
    else if miss.any fun x => s1.codeFails r.ctx r.at_ x then fault ((s2.dropEmpty spot).needle .hbm [pa]) 0x20
    else
      let delay := (if miss.isEmpty then 0 else 220) + s1.rebuildDelay spot pa
      let old := s2.homeRd pa n
      let (new, exs) := rmwValue r.op r.w old (r.lane.v.toNat % 2 ^ (8 * n)) (r.lane.c.toNat % 2 ^ (8 * n))
      let s3 := (((if miss.isEmpty then s2 else s2.filledLine pa).spotMark spot secs true).wr pa n new).keyed r.ctx r.at_ spot secs
      let (s4, pubs, wide) := if r.ret && r.at_.tracked && widens pa then s3.acquireCheck c pa n else (s3, [], false)
      let (tag, s5) := s4.takeTag pa
      let (s6, dies, gate) := s5.appliedAt (lineOf pa) (some c) false
      if !r.ret then ack s6 tag exs dies gate delay
      else
        let s7 := ack (if wide && (s6.warp r.dest.warp).live then s6.setFib fk { s6.fib fk with wide := true } else s6) none 0 dies gate delay
        let regs := (List.range (if r.w then 2 else 1)).map fun i => (r.lane.dst + i, (BitVec.ofNat 32 (old / 2 ^ (32 * i)) : Word))
        s7.startResult ⟨r.dest, [(r.lane.lane, regs)], [(r.lane.lane, exs)], false, pubs, tag, some id, true, false⟩ (s.backPath c pa + delay)

/-! ### Accumulation (R281 to R284) -/

/-- Adds a value to an element of a kind: the state and the bits. -/
def accumulate (s : State) (kd : AccKind) (pa : Nat) (x : DWord) : State × Exs :=
  match kd with
  | .acc32 => let (v, e) := fAdd fp32 (fp32.value (s.rd pa 4)) (fp32.value (x.toNat % 2 ^ 32)); (s.wr pa 4 v, e)
  | .acc64 => let (v, e) := fAdd fp64 (fp64.value (s.rd pa 8)) (fp64.value x.toNat); (s.wr pa 8 v, e)
  | .accx =>
    let (q, e) := accxConvert (x.toNat % 2 ^ 32)
    ({ s with accx := aset s.accx (pa / 4) (s.accxElem pa + BitVec.ofInt 128 q) }, e)
/-- What refuses an update at its home (R284, R433), if anything. -/
def accRefused (s : State) (c pa : Nat) (kd : AccKind) : Option (BitVec 8) :=
  match s.homeStop c pa with
  | some code => some code
  | none => if !s.hostSide pa && (kd == .accx) != s.accxAt pa then some 0x14 else none
/-- Reads the words of a row operation, or with `old` of an update, at its home: an uncorrectable word answers 0x21 (R238, R284, R433), a codeword that fails its
check 0x20 (R425; DEDUCED, log entry 61); else the sectors that came from HBM. -/
def updateFetch (s : State) (pa : Nat) (secs : List Nat) (spot : Spot) (fails : Nat → Bool) (old : Bool) : State × Except (BitVec 8) (List Nat) :=
  let miss := s.missing spot secs
  let (s1, sound) := if old then s.readOld spot pa secs else s.readHeld spot pa secs
  if !sound then (s1, .error 0x21)
  else if miss.any fails then ((s1.dropEmpty spot).needle .hbm [pa], .error 0x20) else (s1, .ok miss)
/-- The lanes of one ACCADD that name one line, at its home. -/
def serveAcc (s : State) (id : Nat) (r : AccReq) : State :=
  let lanes := r.lanes.map fun x => fibKey r.warp x.lane
  let n := if r.kd = .acc64 then 8 else 4
  let refuse (t : State) (code : BitVec 8) : State :=
    t.sendAck id r.line ⟨r.warp, r.core, lanes, none, 0, [], [], r.lanes, code, id⟩ [] 0
  match s.accRefused r.core r.line r.kd with
  | some code => refuse s code
  | none =>
    let (s1, spot) := s.spotFor r.line ((r.lanes.head?.map HeldAcc.at_).getD Attr.plain).cls .normal
    let secs := (r.lanes.flatMap fun x => sectorsOf x.pa n).eraseDups
    let fails (k : Nat) : Bool := r.lanes.any fun x => (sectorsOf x.pa n).contains k && s1.codeFails r.ctx x.at_ k
    match s1.updateFetch r.line secs spot fails true with
    | (s2, .error code) => refuse s2 code
    | (s2, .ok miss) =>
      let s3 := r.lanes.foldl (fun t x => t.keyed r.ctx x.at_ spot (sectorsOf x.pa n))
        ((if miss.isEmpty then s2 else s2.filledLine r.line).spotMark spot secs true)
      let (s4, exs) := r.lanes.foldl (fun (a : State × Exs) x => let (t, e) := a.1.accumulate r.kd x.pa x.x; (t, a.2 ||| e)) (s3, 0)
      let (tag, s5) := s4.takeTag r.line
      let (s6, dies, gate) := s5.appliedAt r.line (some r.core) false
      s6.sendAck id r.line ⟨r.warp, r.core, lanes, tag, exs, [], gate, [], 0, id⟩ [(r.line, dies)] (if miss.isEmpty then 0 else 220)

/-! ### Rows (R236, R237, R289, R290) -/

/-- The registers a lane of a ROWLD fills. -/
def rowWords (s : State) (pa lane : Nat) : List Word := (List.range 16).map fun j => BitVec.ofNat 32 (s.homeRd (pa + 128 * j + 4 * lane) 4)
/-- A row operation at its slice. A ROWST writes the parity of its row with it (R237). -/
def serveRow (s : State) (id : Nat) (r : RowReq) : State :=
  let c := r.dest.core
  let ls := lanesOf r.lanes
  let path := s.pathLatency c r.pa
  let secs := (List.range 64).map (r.pa / 32 + ·)
  let code : Option (BitVec 8) := if s.unreachable c r.pa then some 0x21 else if s.lostAt r.pa then some 0x13
    else if s.accxAt r.pa then some 0x14 else none
  match r.store with
  | none =>
    let fault (t : State) (code : BitVec 8) : State := (t.dropItem id).lateLanes r.dest r.src code (ls.map fun l => (l, r.va))
    match code with
    | some x => fault s x
    | none =>
      let (s1, spot) := s.spotFor r.pa r.at_.cls .normal
      match s1.updateFetch r.pa secs spot (s1.codeFails r.ctx r.at_) false with
      | (s2, .error x) => fault s2 x
      | (s2, .ok miss) =>
        let s3 := if miss.isEmpty then s2 else (rowLines r.pa).foldl (fun t x => t.filledLine x) (s2.spotMark spot miss false)
        let s4 := (rowLines r.pa).foldl (fun t x => (t.l1Renew c x 0 128 false false).reserveDrop (dieOfCore c) x) s3
        let vals := r.dst.map fun d =>
          let ws := s4.rowWords r.pa d.1
          (d.1, (List.range 16).map fun j => (d.2 + j, ws.getD j 0))
        let total := (if miss.isEmpty && path == 80 then 64 else path + 16) + s1.rebuildDelay spot r.pa
        (s4.dropItem id).startResult ⟨r.dest, vals, [], false, [], none, none, true, true⟩ (total - path / 2 + if miss.isEmpty then 0 else 220)
  | some words =>
    let lanes := ls.map fun l => fibKey r.dest.warp l
    let ack (t : State) (tag : Option DWord) (gate : List Nat) (lines : List (Nat × List Nat)) : State :=
      t.sendAck id r.pa ⟨r.dest.warp, c, lanes, tag, 0, [], gate, [], 0, id⟩ lines 0
    match code with
    | some x => ack (match lateOfLanes r.src (ls.map fun l => (l, x, false, r.va)) with
        | some f => s.lateFault r.dest.warp f
        | none => s) none [] []
    | none =>
      let (s1, spot) := s.spotFor r.pa r.at_.cls .normal
      let s2 := (((s1.spotMark spot secs true).clearUpsets secs).clearParity (r.pa / 2048)).poke r.pa (words.flatMap fun w => leBytes 4 w.toNat)
      let (tag, s3) := (s2.keyed r.ctx r.at_ spot secs).takeTag r.pa
      let (s4, lines, gate) := (rowLines r.pa).foldl (fun (a : State × List (Nat × List Nat) × List Nat) x =>
        let (t, dies, gate) := a.1.appliedAt x (some c) true
        (t, a.2.1 ++ [(x, dies)], a.2.2 ++ gate)) (s3, [], [])
      ack s4 tag gate lines

/-- Serves a request whose turn has come and that waits for no host. -/
def serve (s : State) (id : Nat) : State :=
  match s.item id with
  | some (.read r) => s.serveRead id r
  | some (.write w) => s.serveWrite id w
  | some (.rmw r) => s.serveRmw id r
  | some (.acc r) => s.serveAcc id r
  | some (.row r) => s.serveRow id r
  | some (.flip r) => s.serveFlip id r
  | _ => s
/-- What a request touches: addresses with their bytes, whether they are tracked, whether it writes (R240, R411). -/
def reachOfItem : Item → List (Nat × Nat × Bool × Bool)
  | .read r => r.lanes.map fun x => (x.pa, sizeBytes x.sz, x.at_.tracked, false)
  | .write w => w.parts.map fun p => (w.line + p.off, p.bytes.length, p.at_.tracked, true)
  | .rmw r => [(r.lane.pa, if r.w then 8 else 4, r.at_.tracked, true)]
  | .acc r => r.lanes.map fun x => (x.pa, if r.kd = .acc64 then 8 else 4, x.at_.tracked, true)
  | .row r => [(r.pa, 2048, r.at_.tracked, r.store.isSome)]
  | .tile r => if r.scratch then [] else [(r.pa, if r.acc = 1 then 2048 else 1024, r.at_.tracked, true)]
  | _ => []
/-- The context of a request that arrives at a home. -/
def ctxOfItem : Item → Nat
  | .read r => r.ctx
  | .write w => w.ctx
  | .rmw r => r.ctx
  | .acc r => r.ctx
  | .row r => r.ctx
  | .tile r => r.ctx
  | _ => 0
/-- The first granule that a request must hear from the host about (R404, R411, R414), untracked ones of the host-line agent from one on; the agent keeps the line where a lane
that touches it is tracked (R252). -/
def gateOf (s : State) (it : Item) (from_ : Nat) : Option Ask :=
  let fn := ctxOfItem it / 64
  let gs := (reachOfItem it).filterMap fun x => (s.firstGate fn x.1 x.2.1 x.2.2.1 x.2.2.2 from_).map fun g => (g, x.2.2.2)
  (sortBy (fun a b => decide (a.1 ≤ b.1)) gs).head?.map fun g =>
    ⟨g.1, g.2, fn, 0, (reachOfItem it).any fun x => x.2.2.1 && (blocksOf x.1 x.2.1).contains g.1⟩
/-- A request arrives at its home (R258, R259): it waits for what its core sent there before, then for the host, then it is served. -/
def arriveWith (s : State) (id : Nat) (again : Instr) (k : State → State) : State :=
  match s.item id with
  | none => s
  | some it =>
    if s.askingHost id then s
    else if !s.firstInOrder id then s.later 2 again
    else match s.gateOf it 0 with
      | some a => s.askHost id a
      | none => k s
def arrive (s : State) (id : Nat) (again : Instr) : State := s.arriveWith id again fun t => t.serve id
end State

/-- HOME_READ (R258); of an LDC, its reading at the target cores, behind what its core sent there before (R256, R259, R288). -/
def execHomeRead (id : Nat) (s : State) : Out := .next (match s.item id with
  | some (.read _) => s.arrive id (.homeRead id)
  | some (.ldc r) =>
    if !s.scratchFirst id r.dest.core (r.lanes.map fun x => x.core) then s.later 2 (.homeRead id)
    else (s.dropItem id).startResult
      ⟨r.dest, r.lanes.map fun x => (x.lane, regsFrom x.dst x.sz (ofBytes ((List.range (sizeBytes x.sz)).map fun i => s.scrByte (s.team x.team) (x.off + i)))),
        [], false, [], none, none, false, false⟩ r.rest
  | _ => s)
/-- Applies STC words at their target cores and acknowledges them (R210, R288). -/
def State.applyStc (s : State) (id c : Nat) (ws : List LateScr) : State :=
  let s1 := ws.foldl (fun t x => t.lateScr x.team x.gen x.off x.bytes) s
  let fs := s1.countedOn id
  (s1.putItem id (.ack ⟨fs.headD 0 / 32, c, fs, none, 0, [], [], [], 0, id⟩)).later
    (if ws.any fun y => y.core != c then 24 else 0) (.storeAck id)
/-- HOME_WRITE (R258), of a PUBLISH the flip of its view (R285); of STC words, their application at the target cores, behind what their core sent
there before (R256, R259, R288). -/
def execHomeWrite (id : Nat) (s : State) : Out := .next (match s.item id with
  | some (.write _) => s.arrive id (.homeWrite id)
  | some (.flip _) => s.arrive id (.homeWrite id)
  | some (.stc ws) =>
    let c := (s.team (teamOf ((s.countedOn id).headD 0 / 32))).core
    if s.scratchFirst id c (ws.map fun x => x.core) then s.applyStc id c ws else s.later 2 (.homeWrite id)
  | _ => s)
/-- HOME_RMW (R260). -/
def execHomeRmw (id : Nat) (s : State) : Out := .next (match s.item id with
  | some (.rmw _) => s.arrive id (.homeRmw id)
  | _ => s)
/-- HOME_ACCUMULATE (R281). -/
def execHomeAccumulate (id : Nat) (s : State) : Out := .next (match s.item id with
  | some (.acc _) => s.arrive id (.homeAccumulate id)
  | _ => s)
/-- HOME_ROW_OPERATION (R236). -/
def execHomeRowOperation (id : Nat) (s : State) : Out := .next (match s.item id with
  | some (.row _) => s.arrive id (.homeRowOperation id)
  | _ => s)
/-- HBM_READ_RETURN (R425). -/
def execHbmReadReturn (id : Nat) (res : HbmCheck) (s : State) : Out := .next (match s.item id with
  | some (.hbm r spot miss) => s.hbmAnswer id r spot miss res
  | _ => s)
/-- RESERVE_INVALIDATE (R399): the copy is gone, and what waits for that may be confirmed. -/
def execReserveInvalidate (die line : Nat) (s : State) : Out :=
  let t := s.reserveDrop die line
  .next { t with items := t.items.map fun j => match j.2 with
    | .ack m => (j.1, .ack { m with dies := m.dies.map fun d => if d.1 == line && d.2.1 == die then (line, die, true) else d })
    | _ => j }
/-- INVALIDATE_CONFIRM (R399): a die confirms the invalidations that have reached its reserve, and no others. -/
def execInvalidateConfirm (id die : Nat) (s : State) : Out := .next (match s.item id with
  | some (.ack m) => s.putItem id (.ack { m with dies := m.dies.filter fun d => !(d.2.1 == die && d.2.2) })
  | _ => s)

/-! ### Acknowledgements (R50, R250, R267, R399, R433) -/

namespace State
/-- Lowers a fibre's count and records the tag (R50, R258). -/
def ackFibre (seq : Option DWord) (s : State) (k : Nat) : State :=
  let f := s.fib k
  s.setFib k { f with acks := f.acks - 1, lastseq := seq.getD f.lastseq }
/-- An acknowledgement reaches its core. -/
def acked (s : State) (id : Nat) (m : AckMsg) : State :=
  let s1 : State := { s.dropItem id with outs := s.outs.filter fun o => o.id != m.out }
  let s2 := if (s1.warp m.warp).live then
      let t := (m.lanes.foldl (ackFibre m.seq) s1).addEx (teamOf m.warp) m.exs
      if m.held.isEmpty then t
      else
        let x := t.warp m.warp
        let ls := maskOf (m.held.map HeldAcc.lane)
        (t.named.setWarp m.warp { x with heldAcc := x.heldAcc ++ m.held.map fun h => { h with key := t.nextId } }).lateFault m.warp
          ⟨m.code, false, 0x20, (m.held.head?.map HeldAcc.addr).getD 0, ls, ls, none, t.nextId⟩
    else s1
  (s2.endPublish m.core).wcbSendAll m.core fun e => !e.rels.isEmpty || ((s2.core m.core).publishing.any fun p => decide (e.id < p.1))
end State

/-- STORE_ACK (R50): an acknowledgement waits for invalidations still open and for accesses it must follow. -/
def execStoreAck (id : Nat) (s : State) : Out := .next (match s.item id with
  | some (.ack m) =>
    if m.dies.isEmpty && m.gate.all (fun g => s.performed g || s.gateLocked id g) then s.acked id m else s.later 4 (.storeAck id)
  | some (.port gate a) =>
    if gate.all s.performed then { s.dropItem id with port := a } else s.later 4 (.storeAck id)
  | _ => s)
/-- WCB_DRAIN_TIMEOUT (R216). -/
def execWcbDrainTimeout (core id : Nat) (s : State) : Out := .next (match (s.core core).wcb.find? fun e => e.id == id with
  | none => s
  | some e => if s.wcbReady core e then s.wcbSend core e else s.later 16 (.wcbDrainTimeout core id))
/-- L1_LINE_EXPIRE (R215): the core drops its copy, no later than 4,096 cycles after its fill; as a move of the device, at any earlier time (R259, R292). -/
def execL1LineExpire (core line : Nat) (s : State) : Out := .next (s.l1Drop core line)
/-- SIGNATURE_PUBLISH (R267). -/
def execSignaturePublish (core : Nat) (s : State) : Out :=
  let s1 := if (s.core core).sig.isEmpty || (s.core core).publishing.isSome then s else (s.beginPublish core).endPublish core
  .next (if (s1.core core).sig.isEmpty then s1 else s1.later 8192 (.signaturePublish core))
/-- PAGE_WALK (R246): a walk on its own installs its translation, or finds a fault and leaves nothing. A core that the package does not have
walks nothing (R8, R11). -/
def execPageWalk (core ctx : Nat) (va : DWord) (s : State) : Out :=
  if 1024 ≤ core || s.liveCores (clusterOf core) ≤ core % 64 then .fault .noSuchUnit
  else .next (if 2 ^ 57 ≤ va.toNat then s else (s.xlate core ctx va.toNat).2)

/-! ### Results (R44 to R47, R210, R434) -/

namespace State
/-- Whether a late write that carries a generation still lands (R210). -/
def accepts (_ : State) (t : Team) (gen : BitVec 16) : Bool := t.phase != .retired && (t.grant.gen == gen || t.grant.accepted.contains gen)
/-- Words of one block that is not resident go to its spill address (R16, R210): a fault of the write's translation holds them (R434); none says that
there is no room yet. -/
def deliverSpilled (s : State) (w l b : Nat) (ws : List (Nat × Word)) : Option State :=
  let addr := spillHome (s.fib (fibKey w l)) b
  match s.fibreCheck w addr .w with
  | (.error e, s1) => some (s1.holdWrite w l ws addr [] e.1 e.2)
  | (.ok (pa, a), s1) =>
    ws.foldl (fun acc x => acc.bind fun t =>
      let o := 4 * (x.1 % 16)
      t.wcbPlace w (lineOf pa) ⟨l, pa % 128 + o, leBytes 4 x.2.toNat, addr + BitVec.ofNat 64 o, a, .late x.1⟩ .normal) (some s1)
/-- One lane's words arrive: into the resident block, to its spill address, or nowhere. -/
def deliverLane (s : State) (d : Dest) (l : Nat) (ws : List (Nat × Word)) : Option State :=
  let w := d.warp
  let f := s.fib (fibKey w l)
  if !s.accepts (s.team (teamOf w)) d.gen then some s
  else
    let resident (lr : Nat) : Bool := decide (f.floor ≤ lr / 16 * 16) && decide (lr / 16 * 16 < f.floor + 16 * f.nres)
    let out := ws.filter fun x => !resident x.1
    let s1 := (ws.filter fun x => resident x.1).foldl (fun u x => u.lateReg w l x.1 x.2) s
    if !f.live then some s1
    else ((out.map fun x => x.1 / 16).eraseDups).foldl (fun acc b => acc.bind fun u => u.deliverSpilled w l b (out.filter fun x => x.1 / 16 == b)) (some s1)
/-- Delivers lanes; what finds no room stays. -/
def deliver (s : State) (d : Dest) (vals : List (Nat × List (Nat × Word))) : State × List (Nat × List (Nat × Word)) :=
  vals.foldl (fun (acc : State × List (Nat × List (Nat × Word))) v =>
    match acc.1.deliverLane d v.1 v.2 with
    | some t => (t, acc.2)
    | none => (acc.1, acc.2 ++ [v])) (s, [])
end State

/-- The word FLAGQ reads (R344). -/
def flagWord (x : Warp) : Word :=
  (List.range 12).foldl (fun (v : Word) k =>
    v ||| (if (x.flag k).f then BitVec.twoPow 32 k else 0) ||| (if (x.flag k).er then BitVec.twoPow 32 (16 + k) else 0)) 0

/-- What a delivery of a result's words leaves (R45, R93, R210): lanes whose last word has come are done; their counters let them go, their bits are
ORed in, their tags are kept. The lanes of a ROWLD are done together (R290). -/
def State.delivered (s : State) (m : ResultMsg) (rest : List (Nat × List (Nat × Word))) : State :=
  let w := m.dest.warp
  let done := if m.joint then (if rest.isEmpty then allLanes else []) else (m.vals.map (·.1)).filter fun l => rest.all fun v => v.1 != l
  let s1 := done.foldl (fun t l => match m.seq with
    | some q => let k := fibKey w l; t.setFib k { t.fib k with lastseq := q }
    | none => t) (s.freeCounter w m.dest.cid done)
  let s2 := s1.addEx (teamOf w) ((m.exs.filter fun e => done.contains e.1).foldl (fun b e => b ||| e.2) 0)
  if m.inval && !done.isEmpty then s2.l1Clear m.dest.core else s2
/-- The registers selected of the lanes selected of a result arrive; what finds no room, and the others, stay (R210). -/
def State.arriveResult (s : State) (id : Nat) (m : ResultMsg) (lanes : Mask) (regs : BitVec 16) : State :=
  if !(s.warp m.dest.warp).live then s.dropItem id
  else
    let pick (v : Nat × List (Nat × Word)) (i : Nat) : Bool := lanes.getLsbD v.1 && (decide (16 ≤ i) || regs.getLsbD i)
    let part (want : Bool) : List (Nat × List (Nat × Word)) :=
      (m.vals.map fun v => (v.1, ((List.range v.2.length).filter fun i => pick v i == want).map fun i => v.2.getD i (0, 0))).filter
        fun v => !v.2.isEmpty
    let (s1, left) := s.deliver m.dest (part true)
    let rest := part false ++ left
    let s2 := s1.delivered m rest
    if rest.isEmpty then s2.dropItem id
    else (s2.putItem id (.result { m with vals := rest, exs := m.exs.filter fun e => rest.any fun v => v.1 == e.1 })).later 4
      (.longLatencyResult id (BitVec.allOnes 32) (BitVec.allOnes 16))
/-- A held write of a frame is made again (R434; DEDUCED, log entry 20): it waits for the host or for room, and is held again where its check fails. -/
def State.remade (s : State) (id w : Nat) (h : HeldWrite) (again : Instr) : State :=
  if !(s.fib (fibKey w h.lane)).live then s.dropItem id
  else match s.fibreWrite w h.lane h.va h.bytes .frame with
    | .ok t => ({ t with iss := s.iss } : State).dropItem id |>.forgetAnswers w
    | .wait t => (s.askOnce (t.iss.asks.drop s.iss.asks.length)).later 4 again
    | .bad code leaf va => (s.dropItem id).holdWrite w h.lane [] va h.bytes code leaf
/-- LONG_LATENCY_RESULT (R210): the registers selected of the lanes selected arrive; the counter lets a lane go when its last one has. A
result waits for the publishes its acquire check forced (R268) and for the acknowledgement of its own write (R399). FLAGQ samples its flags once, for all
its lanes (R344). -/
def execLongLatencyResult (id : Nat) (lanes : Mask) (regs : BitVec 16) (s : State) : Out := .next (match s.item id with
  | some (.result m) =>
    if !m.pubs.isEmpty || m.tag.any (fun t => (s.item t).isSome) then s.later 4 (.longLatencyResult id lanes regs)
    else s.arriveResult id m lanes regs
  | some (.flagq d ls) =>
    let v := flagWord (s.warp d.warp)
    let m : ResultMsg := ⟨d, ls.map fun l => (l.1, [(l.2, v)]), [], v.toNat % 2 ^ 12 != 0, [], none, none, false, false⟩
    s.arriveResult id m (BitVec.allOnes 32) (BitVec.allOnes 16)
  | some (.remake w h) => s.remade id w h (.longLatencyResult id lanes regs)
  | _ => s)

/-! ### Generations (R212) and the memory's own events (R237 to R239, R431) -/

namespace State
/-- The generations of a team's grant that some request still carries (R212). -/
def openGens (s : State) (team : Nat) : List (BitVec 16) :=
  let of_ (d : Dest) : List (BitVec 16) := if teamOf d.warp == team then [d.gen] else []
  s.items.flatMap fun j => match j.2 with
    | .result m => of_ m.dest
    | .read r => of_ r.dest
    | .hbm r _ _ => of_ r.dest
    | .rmw r => of_ r.dest
    | .row r => of_ r.dest
    | .ldc r => of_ r.dest
    | .flagq d _ => of_ d
    | .drain r => if r.scratch && teamOf r.warp == team then [r.gen] else []
    | .tile r => if r.scratch && teamOf r.warp == team then [r.gen] else []
    | .stc ws => (ws.filter fun x => x.team == team).map LateScr.gen
    | .engine j => (j.targets.filter fun x => x.1 == team).map fun x => x.2.1
    | _ => []
/-- Old generations that no request carries any more are accepted no longer (R212). -/
def pruneGens (s : State) (team : Nat) : State :=
  let t := s.team team
  if t.grant.accepted.isEmpty then s
  else s.setTeam team { t with grant := { t.grant with accepted := t.grant.accepted.filter (s.openGens team).contains } }
end State
/-- GRANULE_SWEEP (R212): granules of no live grant whose tags are 16,384 or more generations old become void. The next sweep of the core follows 65,536
cycles later. -/
def execGranuleSweep (core : Nat) (s : State) : Out :=
  let held := (s.teamsOn core).flatMap fun t => runGranules t.2.grant.win ++ runGranules t.2.grant.scr
  let gen := (s.core core).gen
  let old (k : Nat) (g : Granule) : Bool :=
    k / 16384 == core && !held.contains (k % 16384) && g.tag != 0 && decide (16384 ≤ (gen - g.tag).toNat)
  let s1 : State :=
    { s with loc := { s.loc with gran := s.loc.gran.map fun g => if old g.1 g.2 then (g.1, { g.2 with tag := 0 }) else g } }
  let s2 := (s.teamsOn core).foldl (fun t x => t.pruneGens x.1) s1
  .next (if s.queue.any fun x => x.ev == .granuleSweep core then s2 else s2.later 65536 (.granuleSweep core))
/-- GENERATION_RENEWAL (R206, R212): a grant 24,576 generations behind takes a fresh one, as soon as its core may grant one, and accepts late writes
under both. A placed team that has no generation yet has no grant to renew. -/
def execGenerationRenewal (team : Nat) (s : State) : Out :=
  let t := s.team team
  let c := s.core t.core
  .next (if t.phase == .retired || t.grant.gen == 0 || (c.gen - t.grant.gen).toNat < 24576 then s
    else if s.clock < c.nextGrant then s.later (c.nextGrant - s.clock) (.generationRenewal team)
    else
      let s1 := s.takeGen t.core
      let new := (s1.core t.core).gen
      let mine := runGranules t.grant.win ++ runGranules t.grant.scr
      let gran := s1.loc.gran.map fun g =>
        if g.1 / 16384 == t.core && mine.contains (g.1 % 16384) && g.2.tag == t.grant.gen then (g.1, { g.2 with tag := new }) else g
      ({ s1.setTeam team { t with grant := { t.grant with gen := new, accepted := t.grant.accepted ++ [t.grant.gen] } } with
        loc := { s1.loc with gran := gran } }).pruneGens team)
/-- HBM_REFRESH (R431): one count more, the credit as the controller has it, from -8 to 8. -/
def execHbmRefresh (chan : Nat) (credit : Int) (s : State) : Out :=
  let old := (aget s.refresh chan).getD (0, 0)
  .next { s with refresh := aset s.refresh chan ((old.1 + 1) % 2 ^ 20, Max.max (-8) (Min.min 8 credit)) }
/-- The next row of a ply's rebuild, unless one is already on its way (R239). -/
def State.rebuildLater (s : State) (ply : Nat) : State :=
  if s.queue.any fun x => x.ev == .bankRebuildStep ply then s else s.later 16 (.bankRebuildStep ply)
/-- DATA_BANK_FAILURE (R239): the bank's contents are rebuilt into the parity bank; every value stays what it was. -/
def execDataBankFailure (ply bank : Nat) (s : State) : Out :=
  if 1024 ≤ ply || 16 ≤ bank then .fault .noSuchUnit
  else .next (({ s with failedBanks := s.failedBanks ++ [(ply, bank, 0)] }.needle .slice [ply, bank]).rebuildLater ply)
/-- The words of a failed bank in the row that its rebuild reaches next (R239). -/
def State.bankWords (s : State) (b : Nat × Nat × Nat) : List Nat :=
  let held := (s.rows.flatMap fun r => sectorsIn r.2.block r.2.valid) ++ s.contracts.flatMap fun c =>
    if c.kind = 3 then [] else (gransSectors c.grans).filter fun x => s.inSkein (32 * x)
  (held.filter fun x => spOf (32 * x) == b.1 && s.bankOfSec x == b.2.1 && s.rowPlace x == b.2.2).eraseDups
/-- BANK_REBUILD_STEP (R239): one row more of the 8,192 of a bank, at most one in 16 cycles. A word that cannot be rebuilt when its turn comes stays lost (R238). -/
def execBankRebuildStep (ply : Nat) (s : State) : Out :=
  let open_ (b : Nat × Nat × Nat) : Bool := b.1 == ply && decide (b.2.2 < 8192)
  .next (match s.failedBanks.find? open_ with
    | none => s
    | some b =>
      let lost := (s.bankWords b).filter fun x => !s.canRebuild x
      let s1 : State := { s with failedBanks := s.failedBanks.map fun x => if x == b then (b.1, b.2.1, b.2.2 + 1) else x,
                                 upsets := (s.upsets.filter fun u => u.parity || !lost.contains u.at_) ++ lost.map fun x => ⟨false, x, 0, true⟩ }
      if s1.failedBanks.any open_ then s1.rebuildLater ply else s1)

end Sys2Proof.Machine
end

