-- ==== Sys2Proof/Machine/Matrix.lean ====
section
/-! DEFINITION. The matrix unit (spec/19, spec/20): format words, fragments, the scale store, MMA and MMA64 with their drain buffers, MDRAIN,
SCLD, FMTQ, and the events that write a buffer, send a tile, apply it at its home and acknowledge it. -/

namespace Sys2Proof.Machine

/-! ### The format word (R295 to R302, R315, R316) -/

/-- Fields of a format word (R315). -/
structure FmtWord where
  af : Nat
  bf : Nat
  kind : Nat
  dst : Nat
  flg : Nat
  zero : Nat
  asc : Nat
  deriving DecidableEq, Repr
def fmtWord (w : Word) : FmtWord :=
  let n := w.toNat
  ⟨fld n 28 4, fld n 24 4, fld n 22 2, fld n 21 1, fld n 17 4, fld n 11 6, fld n 0 11⟩
/-- Every field holds a defined value and the reserved bits are zero (R298, R315). -/
def fmtDefined (x : FmtWord) : Bool := x.af ≤ 8 && x.bf ≤ 8 && x.kind ≤ 2 && (x.flg ≤ 11 || x.flg == 15) && x.zero == 0
/-- Width of an element format, the K of a width, the K of a pair (R295). -/
def elemBits (a : Nat) : Nat := if a ≤ 1 then 8 else if a ≤ 3 then 6 else if a ≤ 5 then 4 else if a ≤ 7 then 16 else 64
def kOfBits (b : Nat) : Nat := if b ≤ 6 then 128 else if b = 8 then 64 else if b = 16 then 32 else 4
def kOfPair (a b : Nat) : Nat := kOfBits (Nat.max (elemBits a) (elemBits b))
/-- Registers of an image (R296). -/
def imageRegs (a k : Nat) : Nat := (2 * k * elemBits a + 127) / 128
/-- Blocks of an image row, and scale columns of an operand (R302). -/
def rowBlocks (a k : Nat) : Nat := if a = 5 then k / 64 else k / 32
def scaleCols (a k : Nat) : Nat := if a ≤ 4 then rowBlocks a k else if a = 5 then rowBlocks a k + 4 else 0
/-- Combinations that MMA and MMA64 implement (R300). -/
def mmaPair (a b : Nat) : Bool := (a ≤ 5 && b ≤ 5) || (a == 6 && b == 6) || (a == 7 && b == 7)
def mma64Pair (a b : Nat) : Bool := a == 8 && b == 8
/-- Both operands' scale columns end at column 2,047 or below (R300, R316). -/
def columnsFit (x : FmtWord) : Bool :=
  let k := kOfPair x.af x.bf
  let n := scaleCols x.af k + scaleCols x.bf k
  n == 0 || x.asc + n ≤ 2048
/-- The drain row of R300 for a precision. -/
def drainFits (wide : Bool) (x : FmtWord) : Bool := if wide then x.kind == 1 else x.kind ≤ 1 || (x.kind == 2 && x.dst == 0)
/-- Test 4 of R294 for MMA or MMA64, fragments included. -/
def combinationFits (wide : Bool) (fa fb : Nat) (x : FmtWord) : Bool :=
  let k := kOfPair x.af x.bf
  (if wide then mma64Pair x.af x.bf else mmaPair x.af x.bf) && 8 * fa + imageRegs x.af k ≤ 64 && 8 * fb + imageRegs x.bf k ≤ 64 &&
    columnsFit x
/-- FMTQ's word (R325). -/
def fmtQuery (w : Word) : Word :=
  let x := fmtWord w
  if !fmtDefined x then 0
  else
    let m := mmaPair x.af x.bf
    let m64 := mma64Pair x.af x.bf
    let k := if m || m64 then kOfPair x.af x.bf else 0
    let regs (a : Nat) : Nat := if k = 0 then 0 else imageRegs a k
    BitVec.ofNat 32 (k * 2 ^ 16 + regs x.bf * 2 ^ 12 + regs x.af * 2 ^ 8 + (drainFits true x).toNat * 16 + (drainFits false x).toNat * 8 +
      m64.toNat * 4 + (m && columnsFit x).toNat * 2 + 1)

/-! ### Products (R296, R303 to R305) -/

/-- The value of an element code (R74 to R80). -/
def elemValue (a code : Nat) : FVal :=
  match a with
  | 0 => e4m3.value code
  | 1 => e5m2.value code
  | 2 => e3m2.value code
  | 3 => e2m3.value code
  | 4 => e2m1.value code
  | 5 => qn4Value code
  | 6 => bf16.value code
  | 7 => fp16.value code
  | _ => fp64.value code
/-- A scaled element: MX by 2^(c - 127), a NaN scale gives NaN; QN4 by the integer s (R303). -/
def scaledElem (a code sc : Nat) : FVal :=
  if a ≤ 4 then (match e8m0 sc with
    | none => .nan false
    | some e => (elemValue a code).scale e)
  else if a = 5 then (let l := qn4Level code * (sc % 256 : Nat); .fin (decide (l < 0)) l.natAbs (-6))
  else elemValue a code
/-- The exact sum of finite values, -0 only where all are (R304). -/
def exactFinite (xs : List FVal) : FVal :=
  let lo := xs.foldl (fun (m : Int) x => match x with
    | .fin _ _ e => if e < m then e else m
    | _ => m) 0
  let v := xs.foldl (fun (t : Int) x => match x with
    | .fin n m e => t + sunits n m e lo
    | _ => t) 0
  if v = 0 then .fin (xs.all FVal.isNeg && !xs.isEmpty) 0 lo else .fin (decide (v < 0)) v.natAbs lo
/-- The exact sum of values, whatever their order: a NaN, infinities of both signs (invalid), one infinity, or finite (R305). -/
def exactSum (xs : List FVal) : FVal × Exs :=
  let pos := xs.contains (.inf false)
  let neg := xs.contains (.inf true)
  if pos && neg then (.nan false, exInvalid)
  else if xs.any FVal.isNan then (.nan false, 0)
  else if pos then (.inf false, 0)
  else if neg then (.inf true, 0) else (exactFinite xs, 0)
/-- A row of A times a column of B, before rounding, with its bits (R304, R305). -/
def dotRow (xs ys : List FVal) (sa sb : Option FVal) : FVal × Exs :=
  let prods := (xs.zip ys).map fun p => let (v, b) := fvMul p.1 p.2; (v, b ||| sigBits [p.1, p.2])
  let (p, b) := exactSum (prods.map (·.1))
  let times (p : FVal × Exs) (s : Option FVal) : FVal × Exs := match s with
    | none => p
    | some s => let (v, b) := fvMul p.1 s; (v, p.2 ||| b ||| sigBits [s])
  times (times (p, prods.foldl (fun e x => e ||| x.2) b) sa) sb
/-- The new value of a buffer element: Round(P), or Round(b + P) (R304). -/
def bufferElem (wide : Bool) (old : Option DWord) (p : FVal) : DWord × Exs :=
  let f := if wide then fp64 else fp32
  let (c, b) := match old with
    | none => storeWide f p
    | some o => fAdd f (f.value o.toNat) p
  (BitVec.ofNat 64 c, b)

namespace State
/-- Byte i of the image at fragment F (R296). -/
def imageByte (s : State) (fr i : Nat) : Byte := ((s.src (i % 128 / 4) (8 * fr + i / 128)) >>> (8 * (i % 4))).setWidth 8
/-- The codes of image row m. -/
def imageRow (s : State) (fr a k m : Nat) : List Nat :=
  let n := k * elemBits a / 8
  let v := ofBytes ((List.range n).map fun i => s.imageByte fr (m * n + i))
  (List.range k).map fun i => fld v (elemBits a * i) (elemBits a)
/-- Byte j of a column of a core's scale store (R301). -/
def scaleByte (s : State) (c col j : Nat) : Nat := ((aget (s.core c).scale (16 * col + j)).getD 0).toNat
/-- The values of image row m, scaled by the columns from col on (R302, R303). -/
def operandRow (s : State) (c fr a k col m : Nat) : List FVal :=
  let per := if a = 5 then 64 else 32
  let codes := s.imageRow fr a k m
  (List.range k).map fun i => scaledElem a (codes.getD i 0) (s.scaleByte c (col + i / per) m)
/-- The super-scale of row m of a QN4 operand (R302). -/
def superScale (s : State) (c a k col m : Nat) : Option FVal :=
  if a = 5 then
    some (fp32.value ((List.range 4).foldl (fun v i => v + s.scaleByte c (col + rowBlocks a k + m / 4) (4 * (m % 4) + i) * 2 ^ (8 * i)) 0))
  else none

/-! ### Buffers (R307, R308) -/

/-- Drain buffer b of a core. -/
def buf (s : State) (c b : Nat) : Buf := (s.core c).bufs.toList.getD b Buf.empty
def setBuf (s : State) (c b : Nat) (x : Buf) : State :=
  let k := s.core c
  if h : b < 4 then s.setCore c { k with bufs := k.bufs.set b x } else s
/-- The block products still on their way to a buffer, in the order they were issued (R314). -/
def mmaJobs (s : State) (c b : Nat) : List MmaJob := s.items.filterMap fun j => match j.2 with
  | .mma m => if m.core == c && m.buf == b then some m else none
  | _ => none
/-- What a buffer will hold once they are written. -/
def forwarded (s : State) (c b : Nat) : List DWord := ((s.mmaJobs c b).getLast?.map MmaJob.sums).getD (s.buf c b).elems
/-- Products of an abandoned buffer content are written nowhere; their bits still count. -/
def voidJobs (s : State) (c b : Nat) : State :=
  { s with items := s.items.map fun j => match j.2 with
      | .mma m => if m.core == c && m.buf == b then (j.1, .mma { m with buf := 4 }) else j
      | _ => j }
/-- Whether the batch's matrix unit can begin a word (R199, R314). -/
def matrixFree (s : State) : Bool := decide ((s.core s.myTeam.core).matrixUntil ≤ s.clock)
/-- The unit is taken for n cycles (R314). -/
def takeMatrix (s : State) (n : Nat) : State := let c := s.myTeam.core; s.setCore c { s.core c with matrixUntil := s.clock + n }

/-! ### Drains (R309 to R312) -/

/-- Bytes of a tile (R309). -/
def tileBytes (kind : Nat) : Nat := if kind = 1 then 2048 else 1024
/-- The lines of a tile. -/
def tileLines (pa kind : Nat) : List Nat := (List.range (tileBytes kind / 128)).map fun i => pa + 128 * i
/-- The address checks of R310: α, physical address and attributes, or the trap. -/
def drainTarget (s : State) (f : Reg) (x : FmtWord) : Except (BitVec 8 × Bool × DWord) (DWord × Nat × Attr) × State :=
  let n := tileBytes x.kind
  if x.dst = 1 then
    let a := s.src 31 (f.toNat + 1)
    let va : DWord := a.setWidth 64
    (if s.myTeam.scratch < a.toNat + n then .error (0x11, false, va)
     else if a.toNat % n != 0 then .error (0x12, false, va) else .ok (va, a.toNat, Attr.plain), s)
  else
    let va := s.srcPair 31 (f.toNat + 1)
    if 2 ^ 57 ≤ va.toNat then (.error (0x11, false, va), s)
    else if va.toNat % n != 0 then (.error (0x12, false, va), s)
    else match s.access s.myTeam.core (s.ctxOfWarp s.iss.warp) va.toNat .rw with
      | (.error e, s1) => (.error (e.1, e.2, va), s1)
      | (.ok (pa, at_), s1) =>
        let ok := s1.deviceSide pa || (match regionOf pa with
          | .peer _ => true
          | _ => false)
        (if ok then .ok (va, pa, at_) else .error (0x11, false, va), s1)
/-- Starts a drain: buffer Draining, flag accepted, counts raised, L1 copies dropped, signature bits set (R267, R308, R312). -/
def startDrain (s : State) (w b : Nat) (r : DrainReq) : State :=
  let id := s.nextId
  let c := r.core
  let s1 := (s.start (.drain r)).setBuf c b { s.buf c b with st := .draining, pend := none }
  let s2 := allLanes.foldl (fun t l =>
    if r.scratch then
      let f := t.fib (fibKey w l)
      { t.setFib (fibKey w l) { f with acks := f.acks + 1 } with outs := t.outs ++ [⟨id, fibKey w l, 0, 0, false, 3⟩] }
    else t.addOut id (fibKey w l) r.pa false true) s1
  let s3 := if r.scratch then s2
    else (tileLines r.pa r.acc).foldl (fun t x => t.l1Drop c x)
      (((tileLines r.pa r.acc).tail.foldl (fun t x => t.addOut id (fibKey w 0) x false false) s2).sign c id r.pa (tileBytes r.acc) r.at_.tracked)
  s3.later 1 (.drainSend id)
/-- The request of a draining word of the group in hand. -/
def drainReq (s : State) (b : Nat) (x : FmtWord) (va : DWord) (pa : Nat) (a : Attr) : DrainReq :=
  ⟨s.myTeam.core, b, s.iss.warp, x.flg, x.kind, x.dst == 1, s.myTeam.grant.gen, va, pa, s.ctxOfWarp s.iss.warp, a, [], 0, 0⟩
/-- Runs k behind what a draining word needs besides its checks: room in the counts and in the flag (R50, R342), earlier stores to the
tile on their way (R143). -/
def behindDrain (s : State) (x : FmtWord) (pa : Nat) (k : State → State) : State :=
  if allLanes.any fun l => decide (65535 ≤ (s.lane l).acks) then s.stopped
  else if x.flg < 12 && 255 ≤ (s.myWarp.flag x.flg).n then s.stopped
  else if x.dst = 1 then k s else s.behindFlush (tileLines pa x.kind) 0 k
end State

/-- Tests 1 to 3 of R294 with the format word, or the trap code. -/
def collectiveTests (s : State) (ls : List Nat) (f : Reg) : Except (BitVec 8) FmtWord :=
  if ls.length < 32 then .error 0x05
  else if allLanes.any fun l => s.srcR f l != s.srcR f 0 then .error 0x03
  else let x := fmtWord (s.srcR f 0); if fmtDefined x then .ok x else .error 0x01
/-- The sums an MMA gives its buffer and their bits (R304). -/
def mmaSums (s : State) (wide : Bool) (fa fb : Nat) (x : FmtWord) (old : Option (List DWord)) : List DWord × Exs :=
  let c := s.myTeam.core
  let k := kOfPair x.af x.bf
  let bsc := x.asc + scaleCols x.af k
  let as_ := (List.range 16).map fun m => (s.operandRow c fa x.af k x.asc m, s.superScale c x.af k x.asc m)
  let bs := (List.range 16).map fun n => (s.operandRow c fb x.bf k bsc n, s.superScale c x.bf k bsc n)
  let cells := (List.range 256).map fun i =>
    let a := as_.getD (i / 16) ([], none)
    let b := bs.getD (i % 16) ([], none)
    let (p, e) := dotRow a.1 b.1 a.2 b.2
    let (v, e') := bufferElem wide (old.map fun (o : List DWord) => o.getD i 0) p
    (v, e ||| e')
  (cells.map (·.1), cells.foldl (fun e c => e ||| c.2) 0)
/-- MMA and MMA64 (R308, R318). -/
def matrixWord (s : State) (h : Hdr) (wide : Bool) (fa fb : BitVec 3) (f : Reg) (db : BitVec 2) (fn : MmaFn) : State :=
  let ls := s.active h
  let w := s.iss.warp
  let c := s.myTeam.core
  let b := db.toNat
  let start := fn == .start || fn == .startDrain
  let drains := fn == .chainDrain || fn == .startDrain
  if ls.isEmpty then s
  else if !s.matrixFree then s.stopped
  else if s.bufferHeld c b w || s.scldOpen w s.nextId then s.stopped
  else match collectiveTests s ls f with
    | .error code => s.trapPrecise code false ls 0
    | .ok x =>
      let old := s.buf c b
      if !combinationFits wide fa.toNat fb.toNat x || (!start && old.st == .open_ && old.wide != wide) || (drains && !drainFits wide x) then
        s.trapPrecise 0x04 false ls 0
      else
        let go (u : State) : State :=
          let base := if start then none else some (if old.st == .free then List.replicate 256 0 else s.forwarded c b)
          let (sums, exs) := mmaSums s wide fa.toNat fb.toNat x base
          let u1 := if start then u.voidJobs c b else u
          let u2 := (u1.setBuf c b ⟨.open_, w, wide, if old.st == .open_ then old.elems else List.replicate 256 0, none⟩).takeMatrix (if wide then 4 else 1)
          ((u2.start (.mma ⟨c, b, sums, exs, teamOf w⟩)).later (if wide then 32 else 24) (.mmaBufferWrite u2.nextId))
        if !drains then go s
        else match s.drainTarget f x with
          | (.error e, s1) => s1.trapPrecise e.1 e.2.1 ls e.2.2
          | (.ok (va, pa, a), s1) => s1.behindDrain x pa fun s2 =>
            let s3 := go s2
            (if x.flg < 12 then s3.flagAccept w x.flg else s3).startDrain w b (s.drainReq b x va pa a)
/-- MMA (R318). -/
def execMma (h : Hdr) (fa fb : BitVec 3) (f : Reg) (db : BitVec 2) (fn : MmaFn) (s : State) : Out := .next (matrixWord s h false fa fb f db fn)
/-- MMA64 (R306, R318). -/
def execMma64 (h : Hdr) (fa fb : BitVec 3) (f : Reg) (db : BitVec 2) (fn : MmaFn) (s : State) : Out := .next (matrixWord s h true fa fb f db fn)
/-- MDRAIN (R308, R319). -/
def execMdrain (h : Hdr) (db : BitVec 2) (f : Reg) (s : State) : Out :=
  let ls := s.active h
  let w := s.iss.warp
  let c := s.myTeam.core
  let b := db.toNat
  .next (if ls.isEmpty then s
    else if !s.matrixFree then s.stopped
    else match collectiveTests s ls f with
      | .error code => s.trapPrecise code false ls 0
      | .ok x =>
        let old := s.buf c b
        if old.st == .open_ && old.warp == w then
          if !drainFits old.wide x then s.trapPrecise 0x04 false ls 0
          else match s.drainTarget f x with
            | (.error e, s1) => s1.trapPrecise e.1 e.2.1 ls e.2.2
            | (.ok (va, pa, a), s1) => s1.behindDrain x pa fun s2 =>
              (((if x.flg < 12 then s2.flagAccept w x.flg else s2).takeMatrix 1).startDrain w b (s.drainReq b x va pa a))
        else if x.flg < 12 then
          (if 255 ≤ (s.myWarp.flag x.flg).n then s.stopped else ((s.takeMatrix 1).flagAccept w x.flg).flagDone w x.flg 0)
        else s.takeMatrix 1)
/-- FMTQ (R325). -/
def execFmtq (h : Hdr) (d f : Reg) (s : State) : Out := .next (s.writeRegs h d fun l => fmtQuery (s.srcR f l))

/-- MMA_BUFFER_WRITE (R304, R314): the sums reach the buffer and their bits the summary, behind those of earlier words into it. -/
def execMmaBufferWrite (id : Nat) (s : State) : Out := .next (match s.item id with
  | some (.mma j) =>
    let earlier := s.items.any fun x => decide (x.1 < id) && (match x.2 with
      | .mma q => q.core == j.core && q.buf == j.buf && decide (j.buf < 4)
      | _ => false)
    if earlier then s.later 1 (.mmaBufferWrite id)
    else
      let s1 := (s.dropItem id).addEx j.team j.exs
      if j.buf < 4 then s1.setBuf j.core j.buf { s1.buf j.core j.buf with elems := j.sums } else s1
  | _ => s)
/-- DRAIN_SEND (R314): once the last addition is written and earlier drains of the core are sent, the tile goes out line by line. -/
def execDrainSend (id : Nat) (s : State) : Out := .next (match s.item id with
  | some (.drain r) =>
    let earlier := s.items.any fun j => decide (j.1 < id) && (match j.2 with
      | .drain q => q.core == r.core
      | _ => false)
    if !(s.mmaJobs r.core r.buf).isEmpty || earlier || !(r.scratch || s.roomForRequests r.core 1) then s.later 1 (.drainSend id)
    else
      let x := s.buf r.core r.buf
      let k := s.core r.core
      let t0 := Nat.max s.clock k.portUntil
      let n := State.tileBytes r.acc / 128
      let widen (e : DWord) : DWord := if r.acc = 1 && !x.wide then BitVec.ofNat 64 (storeWide fp64 (fp32.value e.toNat)).1 else e
      let s1 := (s.setCore r.core { k with portUntil := t0 + n }).putItem id (.tile { r with elems := x.elems.map widen })
      let s2 : State := { s1 with outs := s1.outs.map fun o => if o.id == id then { o with sent := true } else o }
      s2.later (t0 + n - s.clock + if r.scratch then 20 else s.pathLatency r.core r.pa / 2) (.homeTileUpdate id)
  | _ => s)

namespace State
/-- The tile's elements with their offsets (R309). -/
def tileCells (r : DrainReq) : List (Nat × DWord) :=
  (List.range 256).map fun i => ((if r.acc = 1 then 8 else 4) * i, r.elems.getD i 0)
def accKindOf (k : Nat) : AccKind := if k = 0 then .acc32 else if k = 1 then .acc64 else .accx
/-- Acknowledges a drain: the counts through an acknowledgement of its own, the buffer and the flag when DRAIN_ACK follows it. -/
def tileAck (s : State) (id : Nat) (r : DrainReq) (code : BitVec 8) (tag : Option DWord) (exs : Exs) (gate : List Nat)
    (lines : List (Nat × List Nat)) : State :=
  let aid := s.nextId
  let m : AckMsg := ⟨r.warp, r.core, allLanes.map (fibKey r.warp), tag, exs, [], gate, [], 0, id⟩
  let s1 := s.named.putItem id (.drainAck { r with fault := code, ackId := aid })
  let s2 := if r.scratch then (s1.putItem aid (.ack m)).later 0 (.storeAck aid) else s1.sendAck aid r.pa m lines 0
  s2.later (if r.scratch then 0 else s.backPath r.core r.pa) (.drainAck id)
/-- A tile in scratch: added where the team's generation still stands, else dropped whole (R311). -/
def scratchTile (s : State) (id : Nat) (r : DrainReq) : State :=
  let t := s.team (teamOf r.warp)
  if !(t.phase != .retired && (t.grant.gen == r.gen || t.grant.accepted.contains r.gen)) then s.tileAck id r 0 none 0 [] []
  else
    let n := if r.acc = 1 then 8 else 4
    let f := if r.acc = 1 then fp64 else fp32
    let (s1, exs) := (tileCells r).foldl (fun (a : State × Exs) x =>
      let off := r.pa + x.1
      let old := ofBytes ((List.range n).map fun i => a.1.scrByte t (off + i))
      let (v, e) := fAdd f (f.value old) (f.value x.2.toNat)
      ((List.range n).foldl (fun u i => u.setScrByte t (off + i) (BitVec.ofNat 8 (v / 2 ^ (8 * i)))) a.1, a.2 ||| e)) (s, 0)
    s1.tileAck id r 0 none exs [] []
/-- A tile at its home slice: all its lines at one instant, or a fault and nothing (R311, R313). -/
def serveTile (s : State) (id : Nat) (r : DrainReq) : State :=
  let kd := accKindOf r.acc
  let lines := tileLines r.pa r.acc
  match lines.findSome? fun x => s.accRefused r.core x kd with
  | some code => s.tileAck id r code none 0 [] []
  | none =>
    let secs := (List.range (tileBytes r.acc / 32)).map (r.pa / 32 + ·)
    let (s1, spot) := s.spotFor r.pa r.at_.cls .normal
    match s1.updateFetch r.pa secs spot (s1.codeFails r.ctx r.at_) true with
    | (s2, .error code) => s2.tileAck id r code none 0 [] []
    | (s2, .ok miss) =>
      let s3 := ((if miss.isEmpty then s2 else lines.foldl (fun t x => t.filledLine x) s2).spotMark spot secs true).keyed r.ctx r.at_ spot secs
      let (s4, exs) := (tileCells r).foldl (fun (a : State × Exs) x =>
        let (t, e) := a.1.accumulate kd (r.pa + x.1) x.2; (t, a.2 ||| e)) (s3, 0)
      let (tag, s5) := s4.takeTag r.pa
      let (s6, dies, gate) := lines.foldl (fun (a : State × List (Nat × List Nat) × List Nat) x =>
        let (t, d, g) := a.1.appliedAt x (some r.core) false
        (t, a.2.1 ++ [(x, d)], a.2.2 ++ g)) (s5, [], [])
      s6.tileAck id r 0 tag exs gate dies
end State
/-- HOME_TILE_UPDATE (R311); in scratch, behind what its core sent there before (R143). -/
def execHomeTileUpdate (id : Nat) (s : State) : Out := .next (match s.item id with
  | some (.tile r) =>
    if r.scratch then
      (if (s.scratchOnWay r.core r.core).any fun j => decide (j < id) then s.later 1 (.homeTileUpdate id) else s.scratchTile id r)
    else s.arriveWith id (.homeTileUpdate id) fun t => t.serveTile id r
  | _ => s)
/-- DRAIN_ACK (R312, R313): the buffer is Free and then the flag is set, or the buffer is Pending and the fault goes to its owner. -/
def execDrainAck (id : Nat) (s : State) : Out := .next (match s.item id with
  | some (.drainAck r) =>
    if (s.item r.ackId).isSome then s.later 2 (.drainAck id)
    else
      let s1 := s.dropItem id
      let x := s1.buf r.core r.buf
      if r.fault = 0 then
        let s2 := s1.setBuf r.core r.buf Buf.empty
        if r.flag < 12 then s2.flagDone r.warp r.flag 0 else s2
      else
        (s1.setBuf r.core r.buf { x with st := .pending, pend := some { r with fault := 0, ackId := 0 } }).lateFault r.warp
          ⟨r.fault, false, BitVec.ofNat 8 (0x80 + r.buf), r.va, BitVec.allOnes 32, 0, none, 0⟩
  | _ => s)
/-- The address of a drain that is sent again, translated anew (R250); or the fault of that. -/
def drainAgain (s : State) (r : DrainReq) : Except (BitVec 8 × Bool) DrainReq × State :=
  if r.scratch then (.ok r, s)
  else match s.access r.core r.ctx r.va.toNat .rw with
    | (.error e, s1) => (.error e, s1)
    | (.ok (pa, a), s1) =>
      (if s1.deviceSide pa || (match regionOf pa with
        | .peer _ => true
        | _ => false) then .ok { r with pa := pa, at_ := a } else .error (0x11, false), s1)
/-- Resends every Pending buffer of a warp, each once (R366); a fault of one that has not been delivered is then forgotten. -/
def resendDrains (s : State) (w : Nat) : State :=
  let c := (s.team (teamOf w)).core
  [0, 1, 2, 3].foldl (fun t b =>
    let x := t.buf c b
    match x.pend with
    | some r =>
      if x.st != .pending || x.warp != w then t
      else
        let db := BitVec.ofNat 8 (0x80 + b)
        let y := t.warp w
        match drainAgain (t.setWarp w { y with late := y.late.filter fun f => f.db != db }) r with
        | (.ok q, u) => u.startDrain w b q
        | (.error e, u) => u.lateFault w ⟨e.1, e.2, db, r.va, BitVec.allOnes 32, 0, none, 0⟩
    | none => t) s

/-! ### SCLD (R320 to R324) -/

/-- What a lane of an SCLD reads: address, size, first byte of the scale store (R322). -/
def scldLane (col n g : Nat) (q : Bool) (l : Nat) (p : DWord) : List (DWord × Size × Nat) :=
  let step (p : DWord) : DWord := if p.toNat % 16 = 15 then p - 15 + BitVec.ofNat 64 g else p + 1
  if l ≤ 15 then ((List.range n).foldl (fun (a : DWord × List (DWord × Size × Nat)) j =>
    (step a.1, a.2 ++ [(a.1, .u8, 16 * (col + j) + l)])) (p, [])).2
  else if q then (let r := l - 16; [(p, .b32, 16 * (col + n + r / 4) + 4 * (r % 4))]) else []
/-- The column word's parts: column, number, group size, Q; none where it is undefined (R321). -/
def columnWord (w : Word) : Option (Nat × Nat × Nat × Bool) :=
  let n := w.toNat
  let q := fld n 14 1
  let cols := fld n 11 3
  let col := fld n 0 11
  let fm := fld n 15 3
  if fld n 18 14 != 0 || 3 ≤ fm || cols = 0 || 5 ≤ cols || 2047 < col + cols - 1 + 4 * q then none
  else some (col, cols, if fm = 0 then 528 else if fm = 1 then 400 else 272, q == 1)
/-- The checks of an SCLD from global memory (R323): the reads of the lanes that pass, the lanes that fault. -/
def scldChecks (s : State) (plan : List (Nat × List (DWord × Size × Nat))) : List LoadLane × List LaneBad × State :=
  let w := s.iss.warp
  plan.foldl (fun (acc : List LoadLane × List LaneBad × State) x =>
    let one := x.2.foldl (fun (a : Except LaneBad (List LoadLane) × State) y => match a.1 with
      | .error e => (.error e, a.2)
      | .ok ls => match a.2.laneCheck s.myTeam.core (s.ctxOfWarp w) y.1 (sizeBytes y.2.1) .r State.barRead with
        | (.error e, t) => (.error (x.1, e.1, e.2, y.1), t)
        | (.ok (pa, at_), t) => (.ok (ls ++ [⟨x.1, y.1, pa, y.2.1, y.2.2, at_, t.ownPending w x.1 (lineOf pa)⟩]), t)) (.ok [], acc.2.2)
    match one with
    | (.ok ls, t) => (acc.1 ++ ls, acc.2.1, t)
    | (.error e, t) => (acc.1, acc.2.1 ++ [e], t)) ([], [], s)
/-- The checks and reads of an SCLD from global memory (R323): one read for each line, all of them for one piece of work. -/
def scldGlobal (s : State) (plan : List (Nat × List (DWord × Size × Nat))) : State :=
  let w := s.iss.warp
  let (ok, bad, s1) := scldChecks s plan
  let lines := (ok.map fun o => lineOf o.pa).eraseDups
  let id := s1.nextId
  (s1.withRequests lines.length fun s2 =>
    if lines.isEmpty then s2
    else lines.foldl (fun t line =>
      let mine := ok.filter fun o => lineOf o.pa == line
      let lo := (mine.map fun o => o.pa % 128).foldl min 127
      let hi := (mine.map fun o => o.pa % 128 + sizeBytes o.sz).foldl max 0
      let b := blockOf lo hi
      t.startRead ⟨s.destOf id, s.ctxOfWarp w, line, b.1, b.2, mine, .normal, none, true, s.here⟩)
        (s2.start (.scld ⟨s.myTeam.core, w, lines.length, 0, [], [], []⟩))).trapLanes bad
/-- An SCLD from scratch (R323). -/
def scldScratch (s : State) (plan : List (Nat × List (DWord × Size × Nat))) : State :=
  let t := s.myTeam
  let tk := teamOf s.iss.warp
  let check (y : DWord × Size × Nat) : Option (BitVec 8) :=
    let c := y.1.toNat
    let n := sizeBytes y.2.1
    if t.scratch ≤ c then some 0x11 else if c % n != 0 then some 0x12
    else if s.stale t (t.scrGranule c) then some 0x15 else none
  let bad : List LaneBad := plan.filterMap fun x => (x.2.findSome? fun y => (check y).map fun e => (x.1, e, false, y.1))
  let ok := plan.filter fun x => bad.all fun b => b.1 != x.1
  let bytes := ok.flatMap fun x => x.2.flatMap fun y =>
    let n := sizeBytes y.2.1
    let v := State.overlay (s.stcPending t.core tk) y.1.toNat n fun o => s.scrByte t o
    (List.range n).map fun i => (x.1, y.2.2 + i, (BitVec.ofNat 8 (v / 2 ^ (8 * i)) : Byte))
  let time := 20 + (passes (ok.flatMap fun x => x.2.flatMap fun y => wordsAt tk y.1.toNat (sizeBytes y.2.1)) - 1)
  if ok.any fun x => x.2.any fun y => s.tileOver s.iss.warp y.1.toNat (sizeBytes y.2.1) then s.stopped
  else ((s.start (.scld ⟨t.core, s.iss.warp, 0, s.clock + time, [], bytes, []⟩)).later time (.scldComplete s.nextId)).trapLanes bad
/-- SCLD of either source space (R322). A replay takes the column word of the word's own highest fibre, also where that fibre is done (R323). -/
def scldWord (s : State) (h : Hdr) (col : Reg) (addr : Nat → DWord) (k : State → List (Nat × List (DWord × Size × Nat)) → State) : State :=
  let ls := s.active h
  match ((lanesOf s.iss.lanes).filter fun l => guardTrue h (s.laneBefore l)).getLast? with
  | none => s
  | some top =>
    if ls.isEmpty then s
    else if !s.matrixFree then s.stopped
    else match columnWord (s.srcR col top) with
      | none => s.trapPrecise 0x01 false ls 0
      | some (c, n, g, q) => k (s.takeMatrix 1) ((ls.map fun l => (l, scldLane c n g q l (addr l))).filter fun x => !x.2.isEmpty)
/-- SCLD (R322). -/
def execScld (h : Hdr) (a col : Reg) (s : State) : Out := .next (scldWord s h col (s.srcX a) scldGlobal)
/-- SCLD.SCR (R322). -/
def execScldScr (h : Hdr) (a col : Reg) (s : State) : Out := .next (scldWord s h col (fun l => (s.srcR a l).setWidth 64) scldScratch)
/-- SCLD_COMPLETE (R324): once every read has ended and the slowest has come back, the bytes of the lanes that did not fault are written. -/
def execScldComplete (id : Nat) (s : State) : Out := .next (match s.item id with
  | some (.scld r) =>
    if r.reads != 0 || s.clock < r.due then s
    else
      let x := s.core r.core
      let bs := r.writes.filter fun b => !r.lost.contains b.1
      (s.dropItem id).setCore r.core { x with scale := bs.foldl (fun t b => aset t b.2.1 b.2.2) x.scale }
  | _ => s)

end Sys2Proof.Machine
end

