-- ==== Sys2Proof/Machine/Engine.lean ====
section
/-! DEFINITION. The copy engine and the hook engines (spec/21 R327 to R341): records, their validation, what they read and write, their
completion; WAITF and FLAGQ (R343, R344). -/

namespace Sys2Proof.Machine

/-- The fields of a record (R327). -/
structure EngRec where
  maskh : Nat
  ds : Nat
  ss : Nat
  sc : Nat
  ph : Nat
  bar : Nat
  flg : Nat
  pub : Nat
  t : Nat
  es : Nat
  cols : Nat
  rows : Nat
  w5 : Nat
  sstr : Nat
  dst : Nat
  src : Nat
  deriving DecidableEq, Repr
def engRec (r : BitVec 256) : EngRec :=
  let f := fld r.toNat
  ⟨f 240 16, f 239 1, f 238 1, f 234 4, f 232 2, f 228 4, f 224 4, f 223 1, f 222 1, f 219 3, f 204 15, f 192 12, f 160 32, f 128 32, f 64 64,
    f 0 64⟩
/-- Bits of an element (R327). -/
def esBits (es : Nat) : Nat := if es = 0 then 4 else if es = 1 then 6 else if es = 2 then 8 else if es = 3 then 16 else 32
def isCopy (k : EngKind) : Bool := k == .tcopy || k == .tcast
/-- Bytes of a source row; of a destination row and how many there are, for a copy (R328). -/
def srcRowBytes (x : EngRec) : Nat := x.cols * esBits x.es / 8
def dstRowBytes (x : EngRec) : Nat := if x.t = 1 then x.rows * esBits x.es / 8 else srcRowBytes x
def dstRows (x : EngRec) : Nat := if x.t = 1 then x.cols else x.rows
/-- Bytes of an HCVT output (R340). -/
def hcvtBytes (x : EngRec) : Nat :=
  let o := x.w5 % 8
  let b := x.rows * x.cols / (if o = 5 then 64 else 32)
  if o = 5 then 8464 * ((b + 255) / 256) else (if o ≤ 1 then 528 else if o ≤ 3 then 400 else 272) * ((b + 15) / 16)
/-- From the first to past the last destination byte (R328, R338 to R340). -/
def dstExtent (k : EngKind) (x : EngRec) : Nat :=
  match k with
  | .tcopy | .tcast => (dstRows x - 1) * x.w5 + dstRowBytes x
  | .hgath => x.rows * srcRowBytes x
  | .hred => 4 * x.cols
  | .hcvt => hcvtBytes x
/-- The destination bytes of a record, as runs from its destination on (R328). -/
def dstRuns (k : EngKind) (x : EngRec) : List (Nat × Nat) :=
  if isCopy k then (List.range (dstRows x)).map fun r => (r * x.w5, dstRowBytes x) else [(0, dstExtent k x)]
/-- Step 1 of R330. -/
def fieldsBad (k : EngKind) (x : EngRec) : Bool :=
  let hook := !isCopy k
  (k != .tcast && x.maskh != 0) || (hook && x.ss != 0) || (x.ds = 1 && (x.sc != 0 || x.pub != 0)) || (x.ds = 0 && 10 < x.sc) ||
  (11 < x.flg && x.flg != 15) || ((k == .hgath || k == .hcvt) && x.t != 0) || 4 < x.es || ((k == .hred || k == .hcvt) && x.es < 3) ||
  x.rows = 0 || x.cols = 0 || (k == .hred && x.w5 != 0) || (k == .hcvt && (8 ≤ x.w5 || 5 < x.w5 % 8)) ||
  (x.ds = 1 && k != .tcast && 2 ^ 32 ≤ x.dst) || (k == .tcast && (x.ds = 0 || fld x.dst 24 8 != 0)) || (x.ss = 1 && 2 ^ 32 ≤ x.src) ||
  (x.es = 0 && x.cols % 2 != 0) || (x.es = 1 && x.cols % 4 != 0) ||
  (isCopy k && ((x.t = 1 && x.es = 1) || (x.t = 1 && x.es = 0 && x.rows % 2 != 0) || (1 < dstRows x && x.w5 < dstRowBytes x))) ||
  (k == .hcvt && x.cols % (if x.w5 = 5 then 64 else 32) != 0)
/-- The destination offset or address of a record. -/
def dstBase (k : EngKind) (x : EngRec) : Nat := if k == .tcast then x.dst % 2 ^ 24 else if x.ds = 1 then x.dst % 2 ^ 32 else x.dst
/-- Step 2 of R330. -/
def alignBad (k : EngKind) (x : EngRec) : Bool :=
  let n := esBits x.es / 8
  (3 ≤ x.es && (x.src % n != 0 || dstBase k x % n != 0 || x.sstr % n != 0 || (isCopy k && x.w5 % n != 0))) ||
  (k == .hcvt && dstBase k x % 16 != 0) || (k == .hgath && x.w5 % 4 != 0)
/-- The core-mask bits of a TCAST. -/
def castCores (x : EngRec) : List Nat := (List.range 48).filter fun k => fld (x.dst / 2 ^ 32 + x.maskh * 2 ^ 32) k 1 == 1

/-- What validation fixes besides the record. -/
structure EngPlan where
  srcPages : List EngPage
  dstPages : List EngPage
  idx : List Nat
  targets : List (Nat × BitVec 16 × Word × Nat)
  entry : Nat
  half : Nat
  dbase : Nat
  deriving DecidableEq, Repr
/-- A lane's trap: code, whether a leaf refused, address. -/
abbrev EngTrap := BitVec 8 × Bool × DWord

namespace State
/-- Teams whose grants a record writes, with generation, barrier phase and offset; none where one does not hold the whole range (R330
step 3, R334). -/
def engTargets (s : State) (w : Nat) (k : EngKind) (x : EngRec) : Option (List (Nat × BitVec 16 × Word × Nat)) :=
  let t := s.team (teamOf w)
  let n := ((aget s.launches t.launch).map fun y => y.r.scratch).getD 0
  let one (addr : Nat) : Option (Nat × BitVec 16 × Word × Nat) := (s.clusterAt t addr).bind fun a =>
    let u := s.team a.team
    if n < a.off + dstExtent k x then none
    else some (a.team, if u.phase == .retired then 0 else u.grant.gen, (u.barriers.toList.getD x.bar (Barrier.start 0)).phase, a.off)
  let all := if k == .tcast then (castCores x).map fun c => one (c * 2 ^ 24 + x.dst % 2 ^ 24) else [one (x.dst % 2 ^ 32)]
  if all.isEmpty || all.any Option.isNone then none else some (all.filterMap id)
/-- Step 3 of R330 for a source range, the address part. -/
def srcAddrBad (s : State) (w : Nat) (x : EngRec) (base : Nat) : Bool :=
  if x.ss = 1 then decide ((s.team (teamOf w)).scratch < base + srcRowBytes x) else decide (2 ^ 57 < base + srcRowBytes x)
/-- The pages of a run of bytes. -/
def pagesOf (va n : Nat) : List Nat := (List.range (n / 65536 + 2)).filterMap fun i => if va / 65536 + i ≤ (va + n - 1) / 65536 then some (va / 65536 + i) else none
/-- Translates pages with a right, those known already left out; `at_` gives the address whose page it is (R330 step 4). -/
def mapPages (s : State) (core ctx : Nat) (n : Need) (addr : Nat → Nat) (known : List EngPage) (ps : List Nat) : Except EngTrap (List EngPage) × State :=
  ps.foldl (fun acc p => match acc.1 with
    | .error e => (.error e, acc.2)
    | .ok got =>
      if got.any fun g => g.va == p then (.ok got, acc.2)
      else match acc.2.access core ctx (addr p) n with
        | (.error e, t) => (.error (e.1, e.2, BitVec.ofNat 64 (addr p)), t)
        | (.ok (pa, a), t) =>
          if !t.deviceSide pa then (.error (0x11, false, BitVec.ofNat 64 (addr p)), t)
          else (.ok (got ++ [⟨p, pa / 65536, a⟩]), t)) (.ok known, s)
/-- Step 5 of R330 over pages: lost ranges, and ACCX ranges of a destination, granule by granule. -/
def residencyBad (s : State) (dst : Bool) (runs : List (Nat × Nat)) (pages : List EngPage) : Option (BitVec 8) :=
  let pas := runs.flatMap fun r => (List.range (r.2 / 4096 + 2)).filterMap fun i =>
    let g := r.1 / 4096 + i
    if g ≤ (r.1 + r.2 - 1) / 4096 then (pages.find? fun p => p.va == g / 16).map fun p => p.pa * 65536 + g % 16 * 4096 else none
  if pas.any s.lostAt then some 0x13 else if dst && pas.any s.accxAt then some 0x14 else none
/-- Runs of source bytes, row by row. -/
def srcRuns (k : EngKind) (x : EngRec) (idx : List Nat) : List (Nat × Nat) :=
  let rows := if k == .hgath then idx else List.range x.rows
  (rows.map fun r => (x.src + r * x.sstr, srcRowBytes x))
/-- Translates the pages of source rows (R330 step 4). -/
def mapSources (s : State) (core ctx : Nat) (x : EngRec) (runs : List (Nat × Nat)) (known : List EngPage) : Except EngTrap (List EngPage) × State :=
  if x.ss = 1 then (.ok known, s)
  else s.mapPages core ctx .r (fun p => Nat.max (p * 65536) x.src) known (runs.flatMap fun r => pagesOf r.1 r.2)
/-- The rows that the indices of an HGATH name, each through steps 3 to 5 (R330 step 6). -/
def gatherRows (s : State) (core ctx w : Nat) (x : EngRec) (runs : List (Nat × Nat)) : Except EngTrap (List EngPage) × State :=
  runs.foldl (fun acc r => match acc.1 with
    | .error e => (.error e, acc.2)
    | .ok known =>
      let bad (code : BitVec 8) : EngTrap := (code, false, BitVec.ofNat 64 r.1)
      if acc.2.srcAddrBad w x r.1 then (.error (bad 0x11), acc.2)
      else match acc.2.mapSources core ctx x [r] known with
        | (.error e, t) => (.error e, t)
        | (.ok ps, t) => match t.residencyBad false [r] ps with
          | some code => (.error (bad code), t)
          | none => (.ok ps, t)) (.ok [], s)
/-- The indices of an HGATH, or stale-granule (R330 step 6). -/
def readIndices (s : State) (w : Nat) (x : EngRec) : Except (BitVec 8) (List Nat) :=
  let t := s.team (teamOf w)
  if (List.range x.rows).any fun i => t.strict && (s.granule (t.scrGranule (x.w5 + 4 * i))).tag != t.grant.gen then .error 0x15
  else .ok ((List.range x.rows).map fun i => ofBytes ((List.range 4).map fun k => s.scrByte t (x.w5 + 4 * i + k)))
/-- The view entry of a destination: where it lies, the written half and the destination's address in it (R330 step 4). -/
def destView (s : State) (core ctx : Nat) (k : EngKind) (x : EngRec) : Except EngTrap (Nat × Nat × Nat) × State :=
  let i := fld x.dst 40 16
  match s.viewEntry (dieOfCore core) ctx i with
  | (.error e, t) => (.error (e, false, BitVec.ofNat 64 x.dst), t)
  | (.ok (_, len, _), t) =>
    let off := x.dst % 2 ^ 40
    let e := s.homeRd (s.viewPlace ctx i) 32
    let half := 1 - fld e 192 1
    (if len < off + dstExtent k x then .error (0x11, false, BitVec.ofNat 64 (Nat.max x.dst (x.dst - off + len)))
      else .ok (s.viewPlace ctx i, half, fld e (64 * half) 64 + off), t)
/-- Steps 4 and 5 of R330: the view entry, the pages of the source and of the destination, then what of them is lost or in an ACCX
range. A gather's source rows come later. -/
def checkPages (s : State) (core ctx : Nat) (k : EngKind) (x : EngRec) (ts : List (Nat × BitVec 16 × Word × Nat)) : Except EngTrap EngPlan × State :=
  match if x.ds = 1 then (.ok (0, 0, 0), s) else s.destView core ctx k x with
  | (.error e, s0) => (.error e, s0)
  | (.ok (entry, half, va), s0) =>
    let runs := if k == .hgath then [] else srcRuns k x []
    match s0.mapSources core ctx x runs [] with
    | (.error e, s1) => (.error e, s1)
    | (.ok sp, s1) =>
      let outs := if x.ds = 1 then [] else (dstRuns k x).map fun r => (va + r.1, r.2)
      match s1.mapPages core ctx .w (fun p => Nat.max (p * 65536) va) [] (outs.flatMap fun r => pagesOf r.1 r.2).eraseDups with
      | (.error e, s2) => (.error (e.1, e.2.1, BitVec.ofNat 64 x.dst), s2)
      | (.ok dp, s2) =>
        let src := if x.ss = 1 then none else s2.residencyBad false runs sp
        let dst := s2.residencyBad true outs dp
        if src == some 0x13 then (.error (0x13, false, BitVec.ofNat 64 x.src), s2)
        else match dst with
          | some code => (.error (code, false, BitVec.ofNat 64 x.dst), s2)
          | none => (.ok ⟨sp, dp, [], ts, entry, half, va⟩, s2)
/-- Validation of a record (R330). -/
def validateRec (s : State) (core ctx w : Nat) (k : EngKind) (r : BitVec 256) : Except EngTrap EngPlan × State :=
  let x := engRec r
  let t := s.team (teamOf w)
  let bad (code : BitVec 8) (a : Nat) : Except EngTrap EngPlan × State := (.error (code, false, BitVec.ofNat 64 a), s)
  let ts := if x.ds = 1 then s.engTargets w k x else some []
  if fieldsBad k x then bad 0x01 0
  else if alignBad k x then bad 0x12 x.src
  else if (x.ss = 0 && 2 ^ 57 ≤ x.src) then bad 0x11 x.src
  else if x.ds = 0 && (x.dst < 2 ^ 56 || 2 ^ 57 ≤ x.dst) then bad 0x11 x.dst
  else if k == .hgath && t.scratch < x.w5 + 4 * x.rows then bad 0x11 x.w5
  else match (if k == .hgath then [] else srcRuns k x []).find? fun r => s.srcAddrBad w x r.1 with
  | some r => bad 0x11 r.1
  | none => match ts with
    | none => bad 0x11 (dstBase k x)
    | some ts => match s.checkPages core ctx k x ts with
      | (.error e, s1) => (.error e, s1)
      | (.ok plan, s1) =>
        if k == .hgath then
          match s1.readIndices w x with
          | .error code => (.error (code, false, BitVec.ofNat 64 x.w5), s1)
          | .ok idx => match s1.gatherRows core ctx w x (srcRuns k x idx) with
            | (.error e, s2) => (.error e, s2)
            | (.ok sp, s2) => (.ok { plan with srcPages := sp, idx := idx }, s2)
        else (.ok plan, s1)
end State

/-! ### Submission (R329, R331) -/

namespace State
/-- The engine a record goes to: the copy engine of the cluster, or the hook engines of the die that homes its source (R337). -/
def engineOf (s : State) (core ctx w : Nat) (k : EngKind) (x : EngRec) : Nat :=
  if isCopy k then clusterOf core
  else
    let t := s.team (teamOf w)
    let i0 := if k == .hgath then ofBytes ((List.range 4).map fun i => s.scrByte t (x.w5 + i)) else 0
    match (s.access core ctx (x.src + i0 * x.sstr) .r).1 with
    | .ok (pa, _) => 100 + homeDie pa
    | .error _ => 100 + dieOfCore core
/-- Records an engine holds, and how many it may (R331). -/
def engineLoad (s : State) (e : Nat) : Nat := (s.items.filter fun j => match j.2 with
  | .engine x => x.engine == e
  | _ => false).length
def engineRoom (e : Nat) : Nat := if e < 100 then 256 else 192
/-- Runs the records of a word whose release is met and that find room; the others stay (R329, R331). -/
def submitRun (s : State) (id : Nat) (j : SubmitJob) : State × SubmitJob :=
  let core := (s.team (teamOf j.warp)).core
  let ctx := s.ctxOfWarp j.warp
  j.lanes.foldl (fun (acc : State × SubmitJob) x =>
    let f : FenceJob := ⟨j.warp, maskOf [x.1], .release, false, .package, []⟩
    let s1 := acc.1.fencePush f
    let r := engRec x.2
    let e := s1.engineOf core ctx j.warp j.kind r
    let stay : State × SubmitJob := (s1, { acc.2 with lanes := acc.2.lanes ++ [x] })
    if !s1.fenceMet f id x.1 || engineRoom e ≤ s1.engineLoad e || (r.flg < 12 && 255 ≤ ((s1.warp j.warp).flag r.flg).n) then stay
    else match s1.validateRec core ctx j.warp j.kind x.2 with
      | (.error t, s2) => (s2, { acc.2 with faulted := acc.2.faulted ++ [(x.1, t.1, t.2.1, t.2.2)] })
      | (.ok p, s2) =>
        let job : EngJob := ⟨j.kind, core, j.warp, ctx, e, x.2, p.srcPages, p.dstPages, p.idx, p.targets, p.entry, p.half, p.dbase, 0, [], [], 0⟩
        let s3 := (s2.start (.engine job)).later 500 (.engineRecordComplete s2.nextId)
        (if r.flg < 12 then s3.flagAccept j.warp r.flg else s3, acc.2)) (s, { j with lanes := [] })
/-- Starts an engine word: the batch is held until every record is accepted or has faulted. -/
def startEngine (s : State) (h : Hdr) (k : EngKind) (a : Reg) : State :=
  let ls := s.active h
  if ls.isEmpty then s
  else
    let id := s.nextId
    let rec_ (l : Nat) : BitVec 256 :=
      s.srcPair l (a.toNat + 6) ++ s.srcPair l (a.toNat + 4) ++ (s.srcPair l (a.toNat + 2) ++ s.srcPair l a.toNat)
    (((s.start (.submit ⟨k, s.iss.warp, ls.map fun l => (l, rec_ l), s.here, []⟩)).holdFor id (lanesOf s.iss.lanes) false).later 1
      (.engineRecordValidate id)).marked
end State

/-- TCOPY (R329). -/
def execTcopy (h : Hdr) (a : Reg) (s : State) : Out := .next (s.startEngine h .tcopy a)
/-- TCAST (R329). -/
def execTcast (h : Hdr) (a : Reg) (s : State) : Out := .next (s.startEngine h .tcast a)
/-- HGATH (R329, R338). -/
def execHgath (h : Hdr) (a : Reg) (s : State) : Out := .next (s.startEngine h .hgath a)
/-- HRED (R329, R339). -/
def execHred (h : Hdr) (a : Reg) (s : State) : Out := .next (s.startEngine h .hred a)
/-- HCVT (R329, R340). -/
def execHcvt (h : Hdr) (a : Reg) (s : State) : Out := .next (s.startEngine h .hcvt a)
/-- ENGINE_RECORD_VALIDATE (R331). -/
def execEngineRecordValidate (id : Nat) (s : State) : Out := .next (match s.item id with
  | some (.submit j) =>
    if !(s.warp j.warp).live then s.dropItem id
    else
      let (s1, j1) := s.submitRun id j
      if !j1.lanes.isEmpty then (s1.putItem id (.submit j1)).later 8 (.engineRecordValidate id)
      else
        let s2 := (s1.dropItem id).unhold j.warp id
        match lateOfLanes j.src j1.faulted with
        | none => s2
        | some f => s2.lateFault j.warp f
  | _ => s)

/-! ### What a record does (R332 to R341) -/

namespace State
/-- A source byte of a record: scratch as the team's grant reads it, or the home's byte (R332). -/
def engByte (s : State) (j : EngJob) (x : EngRec) (a : Nat) : Byte :=
  if x.ss = 1 then s.scrByte (s.team (teamOf j.warp)) a
  else match j.srcPages.find? fun p => p.va == a / 65536 with
    | some p => s.homeByte (p.pa * 65536 + a % 65536)
    | none => 0
/-- The physical sectors of a record's source, with their attributes. -/
def engSectors (j : EngJob) (x : EngRec) : List (Nat × Attr) :=
  if x.ss = 1 then []
  else ((srcRuns j.kind x j.idx).flatMap fun r => (List.range (r.2 / 32 + 2)).filterMap fun i =>
    let a := (r.1 / 32 + i) * 32
    if r.1 / 32 + i ≤ (r.1 + r.2 - 1) / 32 then
      (j.srcPages.find? fun p => p.va == a / 65536).map fun p => ((p.pa * 65536 + a % 65536) / 32, p.at_)
    else none).eraseDups
/-- The die that an engine stands on (R329, R337). -/
def engDie (e : Nat) : Nat := if e < 100 then e / 4 else e - 100
/-- Reads sectors at their homes, over the die links: rows are filled on the way; what cannot be read ends the record with a code (R337, R402). -/
def engRead (s : State) (j : EngJob) (secs : List (Nat × Attr)) : Except (BitVec 8) State × State :=
  secs.foldl (fun acc x => match acc.1 with
    | .error _ => acc
    | .ok t =>
      if t.dieCut (engDie j.engine) (32 * x.1) then (.error 0x21, t.needle .dieLink [32 * x.1])
      else match t.homeFetch (32 * x.1) 32 x.2.cls (t.codeFails j.ctx x.2) with
        | (t1, some code) => (.error code, t1)
        | (t1, none) => (.ok t1, t1)) (.ok s, s)
/-- Elements of source row r as codes. -/
def engRow (s : State) (j : EngJob) (x : EngRec) (base : Nat) : List Nat :=
  let v := ofBytes ((List.range (srcRowBytes x)).map fun i => s.engByte j x (base + i))
  (List.range x.cols).map fun c => fld v (esBits x.es * c) (esBits x.es)
end State
/-- Packs codes of a width into bytes (R87). -/
def packCodes (bits : Nat) (cs : List Nat) : List Byte :=
  leBytes (cs.length * bits / 8) (cs.foldr (fun c v => c % 2 ^ bits + v * 2 ^ bits) 0)
/-- Splits a list into pieces of n. -/
def chunks {α : Type} (n : Nat) : Nat → List α → List (List α)
  | 0, _ => []
  | fuel + 1, xs => if xs.isEmpty then [] else xs.take n :: chunks n fuel (xs.drop n)
/-- The output of HCVT (R89, R90, R340): bytes and bits. -/
def hcvtOutput (o : Nat) (xs : List FVal) : List Byte × Exs :=
  let pad (n : Nat) (bs : List Byte) : List Byte := bs ++ List.replicate (n - bs.length) 0
  if o = 5 then
    let supers := chunks 16384 (xs.length + 1) xs
    let outs := supers.map fun sup =>
      let (sc, blocks, e) := quantQn4 (chunks 64 257 sup)
      let groups := (List.range 16).flatMap fun g =>
        let bl := (blocks.drop (16 * g)).take 16
        pad 528 (pad 16 (bl.map fun (b : Nat × List Nat) => BitVec.ofNat 8 b.1) ++ bl.flatMap fun (b : Nat × List Nat) => packCodes 4 b.2)
      (pad 16 (leBytes 4 sc) ++ groups, e)
    (outs.flatMap (·.1), outs.foldl (fun e x => e ||| x.2) 0)
  else
    let f := if o = 0 then e4m3 else if o = 1 then e5m2 else if o = 2 then e3m2 else if o = 3 then e2m3 else e2m1
    let emax : Int := if o = 0 then 8 else if o = 1 then 15 else if o = 2 then 4 else 2
    let bits := elemBits o
    let blocks := (chunks 32 (xs.length + 1) xs).map fun b => quantMx f emax b
    let groups := (chunks 16 (blocks.length + 1) blocks).flatMap fun g =>
      pad (16 + 64 * bits) (pad 16 (g.map fun b => BitVec.ofNat 8 b.1) ++ g.flatMap fun b => packCodes bits b.2.1)
    (groups, blocks.foldl (fun e b => e ||| b.2.2) 0)
namespace State
/-- What a record writes: runs of bytes at offsets from its destination, and the bits it raises (R328, R338 to R341). -/
def engOutput (s : State) (j : EngJob) (x : EngRec) : List (Nat × List Byte) × Exs :=
  let bits := esBits x.es
  let row (r : Nat) : List Nat := s.engRow j x (x.src + r * x.sstr)
  let vals (cs : List Nat) : List FVal := cs.map fun c => if x.es = 3 then bf16.value c else fp32.value c
  match j.kind with
  | .tcopy | .tcast =>
    let rows := (List.range x.rows).map row
    if x.t = 0 then ((List.range x.rows).map fun r => (r * x.w5, packCodes bits (rows.getD r [])), 0)
    else ((List.range x.cols).map fun c => (c * x.w5, packCodes bits (rows.map fun cs => cs.getD c 0)), 0)
  | .hgath => ((List.range x.rows).map fun i => (i * srcRowBytes x, packCodes bits (row (j.idx.getD i 0))), 0)
  | .hred =>
    let rows := (List.range x.rows).map fun r => vals (row r)
    let outs := (List.range x.cols).map fun c =>
      let xs := rows.map fun r => r.getD c (.fin false 0 0)
      if x.t = 0 then
        let (v, e) := exactSum xs
        let (w, e') := storeWide fp32 v
        (w, e ||| e' ||| sigBits xs)
      else ((storeWide fp32 (xs.tail.foldl fvMaxN (xs.headD (.nan false)))).1, sigBits xs)
    ([(0, outs.flatMap fun o => leBytes 4 o.1)], outs.foldl (fun e o => e ||| o.2) 0)
  | .hcvt =>
    let (bs, e) := hcvtOutput x.w5 ((List.range x.rows).flatMap fun r => vals (row r))
    ([(0, bs)], e)
/-- The physical address and attributes of a destination byte in the written half. -/
def engDst (j : EngJob) (off : Nat) : Option (Nat × Attr) :=
  (j.dstPages.find? fun p => p.va == (j.dbase + off) / 65536).map fun p => (p.pa * 65536 + (j.dbase + off) % 65536, p.at_)
/-- A run of bytes cut where a 128-byte line of its destination ends. -/
def cutRun (base : Nat) (r : Nat × List Byte) : List (Nat × List Byte) :=
  let h := (base + r.1) % 128
  (List.range ((h + r.2.length + 127) / 128)).map fun i =>
    let a := if i = 0 then 0 else 128 * i - h
    (r.1 + a, (r.2.drop a).take (128 * (i + 1) - h - a))
/-- Writes one piece of a record's output at its home (R333): the acknowledgement it must wait for, or the code that ends the record; a codeword covered
in part is read first (R425). A write into an ACCX range changes nothing (R228). -/
def engWrite (s : State) (id : Nat) (j : EngJob) (r : Nat × List Byte) : Except (BitVec 8) (List Nat) × State :=
  match engDst j r.1 with
  | none => (.ok [], s)
  | some (pa, a) =>
    let secs := sectorsOf pa r.2.length
    let part := secs.filter fun x => decide (32 * x < pa) || decide (pa + r.2.length < 32 * x + 32)
    if s.dieCut (engDie j.engine) pa then (.error 0x21, s.needle .dieLink [pa])
    else if s.accxAt pa then (.ok [], s.needle .slice [pa])
    else
      let (s1, spot) := s.spotFor pa a.cls .normal
      let whole := secs.filter fun x => !part.contains x
      match s1.updateFetch pa part spot (s1.codeFails j.ctx a) true with
      | (s2, .error code) => (.error code, s2)
      | (s2, .ok _) =>
        let (s2', sound) := s2.readOld spot pa whole
        if !sound then (.error 0x21, s2')
        else
        let s3 := (((s2'.clearUpsets whole).spotMark spot secs true).poke pa r.2).keyed j.ctx a spot secs
        let (tag, s4) := s3.takeTag pa
        let (s5, dies, gate) := s4.appliedAt (lineOf pa) none true
        let aid := s5.nextId
        (.ok [aid], s5.named.sendAck aid pa ⟨j.warp, j.core, [], tag, 0, [], gate.filter (· != id), [], 0, aid⟩ [(lineOf pa, dies)] 0)
/-- The granules of the mailbox window that an access of a record must first hear from the host about (R272, R411). -/
def engGates (s : State) (ctx : Nat) (write : Bool) (xs : List (Nat × Nat × Attr)) : List Ask :=
  (xs.flatMap fun x => ((blocksOf x.1 x.2.1).filter fun g => !s.hostSide (64 * g) && s.needsHost (ctx / 64) g x.2.2.tracked write).map
    fun g => (⟨g, write, ctx / 64, 0, x.2.2.tracked⟩ : Ask)).eraseDups
/-- The physical address that the log gives for a record (R430): that of its source, or of its destination where it reads scratch. -/
def engPlace (j : EngJob) : Nat :=
  let x := engRec j.recw
  match j.srcPages.find? fun p => p.va == x.src / 65536 with
  | some p => p.pa * 65536 + x.src % 65536
  | none => ((engDst j 0).map fun d => d.1).getD 0
/-- Ends a record with a fault (R337). -/
def engFail (s : State) (id : Nat) (j : EngJob) (code : BitVec 8) : State :=
  let x := engRec j.recw
  let s1 := s.dropItem id
  if x.flg < 12 then s1.flagDone j.warp x.flg code else s1
/-- The end of a record: one arrival for each destination team, then bits and flag (R334, R341). -/
def engEnd (s : State) (id : Nat) (j : EngJob) : State :=
  let x := engRec j.recw
  let s1 := j.targets.foldl (fun t d =>
    let u := t.team d.1
    if u.phase == .retired || !(u.grant.gen == d.2.1 || u.grant.accepted.contains d.2.1) then t
    else
      let b := t.barrier d.1 x.bar
      let ahead := (d.2.2.1 + BitVec.ofNat 32 x.ph - b.phase).toNat
      (t.setBarrier d.1 x.bar (if 4 ≤ ahead then { b with ov := true } else b.arrive ahead 1)).releaseBarriers d.1) s
  let s2 := (s1.dropItem id).addEx (teamOf j.warp) j.exs
  if x.flg < 12 then s2.flagDone j.warp x.flg 0 else s2
/-- The record goes on as another stage of itself, after a time. -/
def engGoOn (s : State) (id : Nat) (j : EngJob) (time : Nat) : State := (s.putItem id (.engine j)).later time (.engineRecordComplete id)
/-- Stage 0: every source element is read once (R332); what is to be written is cut into lines. -/
def engStart (s : State) (id : Nat) (j : EngJob) : State :=
  let x := engRec j.recw
  let secs := engSectors j x
  let gates := s.engGates j.ctx false (secs.map fun y => (32 * y.1, 32, y.2))
  if !gates.isEmpty then (s.askOnce gates).later 8 (.engineRecordComplete id)
  else match s.engRead j secs with
    | (.error code, s1) => s1.engFail id j code
    | (.ok s1, _) =>
      let (runs, exs) := s1.engOutput j x
      s1.engGoOn id { j with stage := 1, exs := exs, runs := runs.flatMap (cutRun (if x.ds = 1 then x.dst else j.dbase)) } 1
/-- Stage 1: a piece is written (R333), into scratch or at its home; which of those left is the device's choice. -/
def engStep (s : State) (id : Nat) (j : EngJob) : State :=
  let i := s.choice j.runs.length
  let rest := j.runs.eraseIdx i
  match j.runs[i]? with
  | none => s.engGoOn id { j with stage := 2 } 1
  | some r =>
    if fld j.recw.toNat 239 1 = 1 then
      (j.targets.foldl (fun t d => t.lateScr d.1 d.2.1 (d.2.2.2 + r.1) r.2) s.chosen).engGoOn id { j with runs := rest } 1
    else
      let gates := match engDst j r.1 with
        | some (pa, a) => s.engGates j.ctx true [(pa, r.2.length, a)]
        | none => []
      if !gates.isEmpty then (s.askOnce gates).later 8 (.engineRecordComplete id)
      else match s.chosen.engWrite id j r with
        | (.error code, s1) => s1.engFail id j code
        | (.ok acks, s1) => s1.engGoOn id { j with runs := rest, acks := j.acks ++ acks } 1
/-- The PUBLISH of a record at the home of its view's entry (R334), over the die links (R402): ACT becomes the written half. -/
def engPublish (s : State) (id : Nat) (j : EngJob) : State :=
  if s.dieCut (engDie j.engine) j.entry then (s.needle .dieLink [j.entry]).engFail id j 0x21
  else match s.writeAct j.entry fun b => (b &&& 0xFE) ||| BitVec.ofNat 8 j.half with
  | (s1, some code) => s1.engFail id j code
  | (s1, none) =>
    let (tag, s2) := s1.takeTag j.entry
    let (s3, dies, gate) := s2.appliedAt (lineOf j.entry) none false
    let aid := s3.nextId
    (s3.named.sendAck aid j.entry ⟨j.warp, j.core, [], tag, 0, [], gate.filter (· != id), [], 0, aid⟩ [(lineOf j.entry, dies)] 0).engGoOn id
      { j with stage := 3, acks := [aid] } 8
end State

/-- ENGINE_RECORD_COMPLETE (R332 to R334, R402): one more move of a record. Its writes are applied piece by piece; when all are acknowledged, which is its
release at every scope it may name (R262, R270), the view is published where PUB asks for it; then come the arrivals and the flag. -/
def execEngineRecordComplete (id : Nat) (s : State) : Out := .next (match s.item id with
  | some (.engine j) =>
    if j.stage = 0 then s.engStart id j
    else if j.stage = 1 then s.engStep id j
    else if j.acks.any fun a => (s.item a).isSome then s.later 8 (.engineRecordComplete id)
    else if j.stage = 2 && (engRec j.recw).pub = 1 then s.engPublish id j
    else if j.targets.any fun d => !(s.barTails d.1 (engRec j.recw).bar).isEmpty then s.later 1 (.engineRecordComplete id)
    else s.engEnd id j
  | _ => s)
/-- ENGINE_RECORD_FAIL (R337). -/
def execEngineRecordFail (id : Nat) (code : BitVec 8) (s : State) : Out := .next (match s.item id with
  | some (.engine j) => (s.needle (if code == 0x20 then .hbm else .slice) [State.engPlace j]).engFail id j code
  | _ => s)

/-! ### Flags (R343, R344) -/

/-- WAITF (R343): the active fibres wait; `State.settle` tests the flags after the group. -/
def execWaitf (h : Hdr) (msk : BitVec 12) (any : Bool) (s : State) : Out := .next (s.waitLanes (s.active h) fun _ => .flags msk any)
/-- FLAGQ (R344): the flags are sampled when the result is written. -/
def execFlagq (h : Hdr) (d : Reg) (la : BitVec 4) (s : State) : Out :=
  let ls := s.active h
  .next (s.longWord ls la.toNat fun t cid =>
    (t.start (.flagq (s.destOf cid) (ls.map fun l => (l, s.logicalOf l d.toNat)))).later (s.iss.cyc - 1 + 8)
      (.longLatencyResult t.nextId (BitVec.allOnes 32) (BitVec.allOnes 16)))

end Sys2Proof.Machine
end

