-- ==== Sys2Proof/Machine/Completion.lean ====
section
/-! DEFINITION. Writes the device makes on its own (R186, R357, R374), the completion of launches (spec/12 R191 to R195) and the
retirement of teams (spec/10 R161, spec/24 R363). -/

namespace Sys2Proof.Machine

/-- Whether a context has a team on a core. -/
def hasTeams (s : State) (c : Nat) : Bool := s.teams.any fun t => t.2.phase != .retired && ((aget s.launches t.2.launch).map Launch.ctx) == some c

namespace State

/-- A write of bytes of one line by an agent that has no fibre: the device itself, the host, a peer (R250, R258). It is dropped with a log entry in an
ACCX range (R228); the bytes of a codeword it covers in part stay where that fails its check (R238, R425; DEDUCED, log entry 57); one that it covers whole is good under any
key (DESIGN CHOICE, log entry 37). With it the accesses that its acknowledgement follows, and whether every byte was written. -/
def agentWrite (s : State) (pa : Nat) (bs : List Byte) : State × List Nat × Bool :=
  let line := lineOf pa
  let secs := sectorsOf pa bs.length
  if regionOf pa != .device then (s.poke pa bs, [], true)
  else if s.deviceSide pa && s.accxAt pa then (s.needle .slice [pa], [], true)
  else
    let whole := secs.filter fun x => decide (pa ≤ 32 * x) && decide (32 * x + 32 ≤ pa + bs.length)
    let part := secs.filter fun x => !whole.contains x
    let (s1, spot) := s.spotFor pa (s.pageClass pa) .normal
    let lost := secs.filter fun x => if s1.spotHas spot x then !(s1.readOld spot pa [x]).2 else part.contains x && s1.bad.contains x
    let s2 := (s1.readOld spot pa secs).1.clearUpsets (whole.filter fun x => !lost.contains x)
    let s3 := ((if lost.isEmpty then s2 else s2.needle .hbm [pa]).spotMark spot (secs.filter fun x => !lost.contains x) true).hbmWritten
      (if s.deviceSide pa then [] else whole)
    let s4 := if lost.isEmpty then s3.poke pa bs
      else (List.range bs.length).foldl (fun t i => if lost.contains ((pa + i) / 32) then t else t.poke (pa + i) [bs.getD i 0]) s3
    let (s5, _, gate) := (s4.takeTag line).2.appliedAt line none false
    ({ s5 with reserve := s5.reserve.filter (fun x => x.line != line),
               keyOf := if spot = .fixed then s5.keyOf else s5.keyOf.filter fun x => !whole.contains x.1 }, gate, lost.isEmpty)
/-- The same over any number of lines. -/
def agentWrites (s : State) (pa : Nat) (bs : List Byte) : State × List Nat × Bool :=
  ((List.range (bs.length / 128 + 2)).map fun i => lineOf pa + 128 * i).foldl (fun acc line =>
    let lo := Nat.max pa line
    let hi := Nat.min (pa + bs.length) (line + 128)
    if hi ≤ lo then acc
    else
      let (t, gate, ok) := acc.1.agentWrite lo ((bs.drop (lo - pa)).take (hi - lo))
      (t, acc.2.1 ++ gate, acc.2.2 && ok)) (s, [], true)
/-- A write of the device itself at a physical address: applied at the home at once. -/
def deviceWrite (s : State) (pa : Nat) (bs : List Byte) : State := (s.agentWrites pa bs).1
/-- Signals an interrupt vector (R404): vector v of function fn is 128 × fn + v. -/
def interrupt (s : State) (n : Nat) : State := { s with irqs := s.irqs ++ [n] }
end State

/-! ### Sequences and completion records (R191, R194, R195) -/

/-- Whether sequence a is b or later: by the formula of R191 (DESIGN CHOICE, log entry 80: it decides where the rule's other sentences differ from it). -/
def seqLater (a b : Nat) : Bool := (a + 2 ^ 32 - b % 2 ^ 32) % 2 ^ 32 < 2 ^ 31
/-- The next sequence number. -/
def seqNext (a : Nat) : Nat := (a + 1) % 2 ^ 32
/-- The slot of a sequence in a ring of 2^n records, the parity of its lap (R186, R194). -/
def slotOf (seq n : Nat) : Nat := (seq + 2 ^ 32 - 1) % 2 ^ 32 % 2 ^ n
def phaseOf (seq n : Nat) : Nat := if (seq + 2 ^ 32 - 1) % 2 ^ 32 / 2 ^ n % 2 = 0 then 1 else 0
/-- DONE after a completion: over a run of completed sequences without a gap (R185, R195). -/
def advanceDone (statuses : List (Nat × Nat)) : Nat → Nat → Nat
  | 0, d => d
  | n + 1, d => if statuses.any fun x => x.1 == seqNext d then advanceDone statuses n (seqNext d) else d

/-- What a completion record says (R194). -/
structure Completion where
  fn : Nat
  q : Nat
  epoch : Nat
  seq : Nat
  status : Nat
  exsum : BitVec 9
  faults : Nat
  start : Option Nat
  teams : Nat
  tag : DWord
  deriving DecidableEq, Repr

namespace State
/-- An abort is done when the completion record of its launch is written (R408). -/
def abortDone (s : State) (fn q seq : Nat) : State :=
  let f := s.func fn
  let v := f.abort.toNat
  if fld v 32 2 == 1 && fld v 56 6 == q && fld v 0 32 == seq then
    s.setFunc fn { f with abort := BitVec.ofNat 64 (q * 2 ^ 56 + 2 * 2 ^ 32 + seq) } else s
/-- Writes a completion record, then DONE, then the interrupt (R194, R195), by the CRING, LOGN and IRQ that the queue has at that moment, whatever it
had when the launch was consumed (DESIGN CHOICE, log entry 107). A launch of an earlier enable of its queue changes no DONE;
sequences that lie 2^31 or more behind HEAD are forgotten (R191). -/
def complete (s : State) (c : Completion) : State :=
  let q := s.queueOf c.fn c.q
  let rec_ := leBytes 4 c.seq ++ leBytes 2 c.status ++ [BitVec.ofNat 8 c.q, BitVec.ofNat 8 (phaseOf c.seq q.logn)] ++
    leBytes 4 c.exsum.toNat ++ leBytes 4 (Nat.min c.faults (2 ^ 32 - 1)) ++ leBytes 8 ((c.start.map fun b => s.clock - b).getD 0) ++
    leBytes 8 c.tag.toNat ++ leBytes 8 (c.start.getD 0) ++ leBytes 4 c.teams ++ leBytes 20 0
  let s1 := s.deviceWrite (q.cring.toNat + 64 * slotOf c.seq q.logn) rec_
  let st := (q.statuses.filter fun x => seqLater q.head.toNat x.1) ++ [(c.seq, c.status)]
  let s2 := if q.epoch = c.epoch then
    s1.setQueue c.fn c.q { q with statuses := st, done := BitVec.ofNat 32 (advanceDone st st.length q.done.toNat) } else s1
  let s3 := s2.abortDone c.fn c.q c.seq
  if q.irq then s3.interrupt (c.fn * 128 + c.q) else s3

/-- The resident teams of a launch. -/
def teamsOf (s : State) (k : Nat) : List (Nat × Team) := s.teams.filter fun t => t.2.launch == k && t.2.phase != .retired
/-- Whether every team of a launch has retired, or the launch has ended early and none of its teams is left. -/
def launchOver (s : State) (k : Nat) (x : Launch) : Bool :=
  (s.teamsOf k).isEmpty && (x.ending.isSome || x.retiredTeams == teamCount x.r + x.spawnedTeams)
/-- Writes the completion record of a launch that is over and forgets the launch and its teams. A slot that a team of it was saved into stays taken: no
restore from it returns OK (R376). -/
def finishLaunch (s : State) (k : Nat) : State :=
  match aget s.launches k with
  | none => s
  | some x =>
    if !s.launchOver k x then s
    else
      let s1 := s.complete ⟨x.fn, x.q, x.epoch, x.seq, x.ending.getD 0, x.exsum, x.faults, x.start, x.retiredTeams, x.r.tag⟩
      let gone := (s.teams.filter fun t => t.2.launch == k).map (·.1)
      { s1 with launches := adel s1.launches k, teams := s1.teams.filter fun t => !gone.contains t.1,
                saved := s1.saved.filter fun v => v.2.team.launch != k,
                loc := { s1.loc with warps := s1.loc.warps.filter fun w => !gone.contains (teamOf w.1),
                                     fibres := s1.loc.fibres.filter fun f => !gone.contains (teamOf (f.1 / 32)) } }

/-! ### Retirement (R161) -/

/-- The warps of a team. -/
def warpsOf (s : State) (tk : Nat) : List Nat := (List.range (s.team tk).warps).map (warpKey tk)
/-- Whether a submitted engine record, an issued drain or a divide of a team is still open (R104, R161, R371). -/
def workOpen (s : State) (tk : Nat) : Bool := ((s.core (s.team tk).core).divider.any fun d => teamOf d.warp == tk) || s.items.any fun j => match j.2 with
  | .engine e => teamOf e.warp == tk
  | .drain d => teamOf d.warp == tk
  | .tile d => teamOf d.warp == tk
  | .drainAck d => teamOf d.warp == tk
  | .mma m => m.team == tk
  | .submit m => teamOf m.warp == tk
  | _ => false
/-- Whether every fibre of a team has ended. -/
def allEnded (s : State) (tk : Nat) : Bool := (s.warpsOf tk).all fun w => s.liveMask w == 0
/-- Whether every acknowledgement count of a team is 0. -/
def allAcked (s : State) (tk : Nat) : Bool := (s.warpsOf tk).all fun w => allLanes.all fun l => (s.fib (fibKey w l)).acks == 0
/-- Whether a fault of a warp of the team waits to be delivered, or a drain of one is Pending. -/
def faultOpen (s : State) (tk : Nat) : Bool :=
  (s.warpsOf tk).any fun w => !(s.warp w).late.isEmpty || !(s.warp w).heldWrites.isEmpty ||
    ((s.core (s.team tk).core).bufs.toList.any fun b => b.st == .pending && b.warp == w)
/-- Whether every update of a team's fibres is acknowledged but for those of its Pending buffers, which are sent no more (R313, R363). -/
def restAcked (s : State) (tk : Nat) : Bool :=
  let pend := (s.core (s.team tk).core).bufs.toList.filterMap fun b => if b.st == .pending then b.pend.map DrainReq.ackId else none
  s.outs.all fun o => teamOf (o.fibre / 32) != tk || pend.contains o.id
/-- Takes a team off its core: its warps, its granules, its buffers, what it has in the latch, words of it that have still to take effect. Where a new
virtual die table waits for the context's last team, it is looked at again (R393). -/
def removeTeam (s : State) (tk : Nat) : State :=
  let t := s.team tk
  let ws := s.warpsOf tk
  let x := s.core t.core
  let s1 := s.setCore t.core { x with bufs := x.bufs.map fun b => if ws.contains b.warp && b.st != .free then Buf.empty else b,
                                      latch := x.latch.filter fun e => !ws.contains e.warp }
  let s2 := ws.foldl (fun u w => allLanes.foldl (fun u l => u.setFib (fibKey w l) Fibre.absent) (u.setWarp w Warp.absent))
    { s1 with tails := s1.tails.filter fun x => !ws.contains x.iss.warp }
  let s3 := s2.setTeam tk { s2.team tk with phase := .retired, halts := [], grant := Grant.none_ }
  match (aget s.launches t.launch).map Launch.ctx with
  | none => s3
  | some c => if (s3.ctx c).vdtNext.isSome then s3.later 0 (.vdtApply c) else s3
/-- Ends the stall of a core unless another record that stalls it is open (R355). -/
def unstall (s : State) (c : Nat) : State :=
  let more := (s.teamsOn c).any fun t => (t.2.halts.head?.map fun h => h.service && (h.phase == .recorded || h.phase == .stopping && h.ended.isSome)).getD false
  s.setCore c { s.core c with stalled := more }

/-- Whether teams of a context are still being taken off, or a core that such a team used holds something of the context (R370). -/
def takingOff (s : State) (c : Nat) : Bool := s.teams.any fun t =>
  t.2.phase != .retired && ((aget s.launches t.2.launch).map Launch.ctx) == some c &&
    (t.2.draining || (t.2.halts.any fun h => h.kind == .preempt) || (s.ctx c).takeCores.contains t.2.core)
/-- A request for pre-emption is done when nothing is left to take off (R370): STAT 2, or 3 where a launch of a team that it took off has become FAULTED
(DEDUCED, log entry 95), and GO reads 0. -/
def preemptDone (s : State) (c : Nat) : State :=
  let x := s.ctx c
  if fld x.preq.toNat 32 8 == 1 && !s.takingOff c then
    s.setCtx c { x with preq := BitVec.ofNat 64 ((if x.takeFault then 3 else 2) * 2 ^ 32 + x.preq.toNat % 4 / 2 * 2), takeCores := [], takeFault := false }
  else s

/-- A team retires (R161): its bits go into the launch summary, its place is free, it counts toward completion. A team of a launch that
has ended does not count (R363). -/
def retire (s : State) (tk : Nat) : State :=
  let t := s.team tk
  let s1 := (s.removeTeam tk).unstall t.core
  match aget s1.launches t.launch with
  | none => s1
  | some x =>
    let y : Launch := { x with exsum := x.exsum ||| t.exsum, retiredTeams := x.retiredTeams + (if x.ending.isNone then 1 else 0) }
    let s2 : State := { s1 with launches := aset s1.launches t.launch y }
    ((s2.finishLaunch t.launch).preemptDone x.ctx).later 1 .panelDispatch
end State

/-- TEAM_RETIRE (R161, R363). -/
def execTeamRetire (team : Nat) (s : State) : Out :=
  let t := s.team team
  let ended := ((aget s.launches t.launch).bind Launch.ending).isSome
  .next (if t.phase == .retired then s
    else if ended then (if s.workOpen team || !s.restAcked team then s.later 16 (.teamRetire team) else s.retire team)
    else if !s.allEnded team then s
    else if s.allAcked team && !s.workOpen team && !s.faultOpen team && t.halts.isEmpty then s.retire team
    else s.later 16 (.teamRetire team))

end Sys2Proof.Machine
end

