-- ==== Sys2Proof/Machine/System.lean ====
section
/-! DEFINITION. Traps as spec/24 gives them: the halt and its record (R350 to R359), responses (R360, R384), the handler (R361 to R363),
replay and late faults (R364 to R366, R433, R434), TRAP, BRK and ERET (R367), and the fetch of packets (R29). -/

namespace Sys2Proof.Machine

/-! ### TRAP, BRK, ERET (R367) -/

/-- TRAP (R367). -/
def execTrap (h : Hdr) (code : BitVec 8) (s : State) : Out :=
  let ls := s.active h
  .next (if ls.isEmpty then s else s.trapAfter 0x30 code ls)
/-- BRK (R367). -/
def execBrk (h : Hdr) (s : State) : Out :=
  let ls := s.active h
  .next (if ls.isEmpty then s else s.trapAfter 0x31 0 ls)
/-- Whether the batch may execute ERET: a handler batch, or a batch of the save or the restore handler (R367, R375, R380). -/
def mayEret (s : State) : Bool :=
  inHandlerBatch s || (match s.myTeam.halts with
    | h :: _ => h.phase == .saving || h.phase == .restoring
    | [] => false)
/-- ERET (R367): a waiting word of a handler; Step ends the handler when its last fibre waits here. -/
def execEret (h : Hdr) (s : State) : Out :=
  let ls := s.active h
  .next (if ls.isEmpty then s
    else if !mayEret s then s.trapPrecise 0x11 false ls 0
    else let s1 := s.waitLanes ls fun _ => .eret; { s1 with iss := { s1.iss with xfer := true } })

/-! ### The fault ring (R356 to R359) -/

/-- The ring of a context: base and the logarithm of its size; none where it is disabled. -/
def ringOf (c : Ctx) : Option (Nat × Nat) :=
  let n := c.fring.toNat % 16
  if 2 ≤ n && n ≤ 12 then some (c.fring.toNat / 1024 * 1024, n) else none
/-- The address of record seq (R357). -/
def recordAt (c : Ctx) (seq : Nat) : Nat := ((ringOf c).map fun r => r.1 + 1024 * slotOf seq r.2).getD 0
/-- A resume point as csr.epc lays it out (R361). -/
def epcWord (h : Halt) : DWord :=
  BitVec.ofNat 64 ((if h.wt then 2 ^ 57 else 0) + (if h.rpl then 2 ^ 56 else 0) + h.word * 2 ^ 54 + h.pc.toNat)

namespace State
/-- A stop record (R359) as a number; with `all` any pending word of the warp counts, else those of the newest halt; an arrival that has still to be performed
(R324) is none. The next word of a batch that a lane fault stopped is its resume point (R351, R386). -/
def stopRecord (s : State) (tk : Nat) (h : Halt) (all : Bool) (i : Nat) : Nat :=
  let w := warpKey tk i
  let x := s.warp w
  let live := lanesOf (s.liveMask w)
  if (s.team tk).warps ≤ i then 0
  else
    let cur := (live.filter fun l => (s.fib (fibKey w l)).batch == x.cur) ++ live
    let f := s.fib (fibKey w (cur.headD 0))
    let p := (x.replay ++ x.pend).find? fun p => p.code != 0 && (all || p.lvl == 0 || p.lvl == (s.team tk).halts.length)
    let place : Nat × Nat := match p with
      | some p => (p.pc.toNat, p.word)
      | none =>
        if cur.isEmpty then (0, 0)
        else if h.warp == i && h.kind == .lane && h.lanes.getLsbD (cur.headD 0) then (h.pc.toNat, h.word)
        else (f.pc.toNat, f.word)
    let bit (b : Bool) (n : Nat) : Nat := if b then 2 ^ n else 0
    place.1 + place.2 * 2 ^ 54 + x.skid * 2 ^ 56 + bit (live.any fun l => (s.fib (fibKey w l)).wait != .none) 60 + bit p.isSome 61 +
      bit (h.warp == i) 62 + bit (!live.isEmpty) 63 + ((p.map fun p => p.done.toNat).getD 0) * 2 ^ 64 +
      ((p.map fun p => p.code.toNat).getD 0) * 2 ^ 96
/-- A fault record's bytes (R358). -/
def recordBytes (s : State) (tk : Nat) (h : Halt) (seq st : Nat) : List Byte :=
  let t := s.team tk
  let x := aget s.launches t.launch
  let c := s.ctx ((x.map Launch.ctx).getD 0)
  leBytes 4 seq ++ [h.code, h.swcode, BitVec.ofNat 8 st, 0] ++ leBytes 8 (epcWord h).toNat ++ leBytes 8 h.addr.toNat ++
    leBytes 4 h.done.toNat ++ leBytes 4 h.flanes.toNat ++ leBytes 4 t.teamid ++
    [BitVec.ofNat 8 h.warp, BitVec.ofNat 8 ((x.map Launch.q).getD 0), h.db, 0] ++ leBytes 4 ((x.map Launch.seq).getD 0) ++
    leBytes 4 (csrCore c.vdt t.core).toNat ++ leBytes 8 (h.ended.getD s.clock) ++ leBytes 2 t.grant.gen.toNat ++ leBytes 6 0 ++
    (List.range 32).flatMap (fun i => leBytes 16 (s.stopRecord tk h false i)) ++ leBytes 448 0
/-- Sets STATE of a record. -/
def setRecState (s : State) (c seq st : Nat) : State := s.deviceWrite (recordAt (s.ctx c) seq + 6) [BitVec.ofNat 8 st]
/-- Forgets an open record of a context. -/
def closeRec (s : State) (c seq : Nat) : State :=
  let x := s.ctx c
  s.setCtx c { x with openRecs := x.openRecs.filter fun r => r.1 != seq }
/-- The context of a team. -/
def ctxOfTeam (s : State) (tk : Nat) : Nat := s.ctxOfWarp (warpKey tk 0)

/-- A launch ends early, FAULTED (4) or ABORTED (5) (R363): open records of its teams say so, its teams stop and are taken off. -/
def endLaunch (s : State) (k status : Nat) : State :=
  match aget s.launches k with
  | none => s
  | some x =>
    if x.ending.isSome then s
    else
      let saved := s.saved.filter fun v => v.2.team.launch == k
      let mine := s.teamsOf k
      let recs := (s.ctx x.ctx).openRecs.filter fun r => mine.any fun t => t.1 == r.2
      let s1 := recs.foldl (fun t r => (t.setRecState x.ctx r.1 3).closeRec x.ctx r.1) s
      let s2 := saved.foldl (fun t v => match v.2.team.halts.find? fun h => h.phase == .recorded || h.phase == .handler with
        | some h => (t.setRecState x.ctx h.seq 3).closeRec x.ctx h.seq
        | none => t) s1
      let c := s2.ctx x.ctx
      let taken := status == 4 && fld c.preq.toNat 32 8 == 1 && mine.any fun t => t.2.draining || t.2.halts.any fun h => h.kind == .preempt
      let s3 : State := { s2.setCtx x.ctx { c with takeFault := c.takeFault || taken } with launches := aset s2.launches k { x with ending := some status } }
      let s4 := mine.foldl (fun t m => (let u := t.setTeam m.1 { t.team m.1 with halts := [], draining := false }; u.unstall m.2.core).later 1 (.teamRetire m.1)) s3
      s4.finishLaunch k

/-! ### The end of a halt (R352, R48, R104, R354) -/

/-- Whether a batch of a sibling could still issue in its skid: it waits at nothing. -/
def skidReady (s : State) (w : Nat) : Bool :=
  let x := s.warp w
  !(s.core (s.team (teamOf w)).core).stalled && allLanes.any fun l =>
    let f := s.fib (fibKey w l)
    let m := s.batchOf w l
    f.live && f.wait == .none && !x.heldIn m
/-- Whether nothing of a team is still to come of what its words have started: no result bound for a register, no word that holds a batch, no divide
(R48, R104, R354). -/
def nothingDue (s : State) (tk : Nat) : Bool :=
  ((s.warpsOf tk).all fun w => (s.warp w).counters.isEmpty && (s.warp w).holds.isEmpty) &&
    !((s.core (s.team tk).core).divider.any fun j => teamOf j.warp == tk)
/-- Whether a halt is complete: every warp has stopped, no result of the team is on its way, no divide, no word that holds a batch, and every fault that
such a word has raised is recorded (R352, R354). -/
def haltComplete (s : State) (tk : Nat) : Bool :=
  s.nothingDue tk && (s.warpsOf tk).all fun w => ((s.warp w).skidLeft == 0 || !s.skidReady w) && !s.queue.any fun q => q.ev == .faultDelivery w
/-- The halt as its record says it: a stop after a group names where its batch stands now (R351). -/
def placedHalt (s : State) (tk : Nat) (h : Halt) : Halt :=
  let w := warpKey tk h.warp
  let h1 := { h with ended := some (h.ended.getD s.clock) }
  match (lanesOf h.lanes).find? fun l => (s.fib (fibKey w l)).live with
  | none => h1
  | some l =>
    let f := s.fib (fibKey w l)
    match h.kind with
    | .precise | .lane => h1
    | _ => if h.wt then { h1 with pc := f.rpc, word := f.rword } else { h1 with pc := f.pc, word := f.word }
/-- Replaces the newest halt of a team. -/
def setHalt (s : State) (tk : Nat) (h : Halt) : State :=
  let t := s.team tk
  s.setTeam tk { t with halts := h :: t.halts.tail }
/-- Whether a debugger takes the halt (R350, R382): a breakpoint, a step or a debug halt, where it is attached when the record is written. -/
def toDebugger (s : State) (c : Nat) (h : Halt) : Bool :=
  (h.code == 0x31 || h.code == 0x32) && fld (s.ctx c).dbgctl.toNat 63 1 == 1

/-- Moves the windows of lanes of a warp for the device itself (R362, R367, R380); the spills and refills of all of them are made, or none. -/
def moveWindows (s : State) (w : Nat) (ls : List Nat) (wb : State → Nat → Nat) : Made State :=
  State.makeAll (fun u l => if 2 ^ 26 - 64 < wb u l then .bad 0x11 false 0 else u.moveWin l (wb u l)) ls { s with iss := { Issue.none_ with warp := w } }
/-- An access that the device makes for a fibre cannot be made yet: the host is asked for what it holds (R411), and the event comes again. -/
def tryAgain (s waits : State) (e : Instr) : State := (s.askOnce waits.iss.asks).later 4 e
/-- Handler entry (R362) for a halt whose record is written; a stop of it makes the launch FAULTED. -/
def enterHandler (s : State) (tk : Nat) (h : Halt) (rec_ : DWord) : Made State :=
  let w := warpKey tk h.warp
  let c := s.ctx (s.ctxOfTeam tk)
  let entry : Pc := c.trapvec.setWidth 54
  let ls := (lanesOf h.lanes).filter fun l => (s.fib (fibKey w l)).live
  if entry == 0 || ls.isEmpty then .bad h.code false 0
  else
    let s1 := ls.foldl (fun u l => let f := u.fib (fibKey w l); u.setFib (fibKey w l)
      { f with epred := f.preds, hpc := f.pc, hword := f.word, kept := f.wait, wait := .none }) s
    match s1.moveWindows w ls fun u l => (u.lane l).wb + 64 with
    | .ok u =>
      let u1 := ((u.forgetAnswers w).sendTo w ls entry 0).rebatch w (maskOf ls)
      let u2 := u1.setTeam tk { u1.team tk with epc := epcWord h, frec := rec_, cause := BitVec.ofNat 32 (h.code.toNat + 256 * h.swcode.toNat),
                                                donemask := h.done, faddr := h.addr }
      .ok (u2.setHalt tk { h with phase := .handler, lanes := maskOf ls })
    | r => r

/-! ### Resumption (R365 to R367, R433, R434) -/

/-- Sends a held update again (R433), to where its address now lies; where its checks fail it stays held, and the fault is reported anew. -/
def resendAcc (s : State) (w : Nat) (h : HeldAcc) : State :=
  let c := (s.team (teamOf w)).core
  let n := if h.kd = .acc64 then 8 else 4
  match s.laneCheck c (s.ctxOfWarp w) h.addr n .rw (barAcc h.kd) with
  | (.error e, s1) =>
    let x := s1.warp w
    (s1.named.setWarp w { x with heldAcc := x.heldAcc ++ [{ h with key := s1.nextId }] }).lateFault w
      ⟨e.1, e.2, 0x20, h.addr, maskOf [h.lane], maskOf [h.lane], none, s1.nextId⟩
  | (.ok (pa, a), s1) =>
    let id := s1.nextId
    let t := (s1.start (.acc ⟨c, w, s1.ctxOfWarp w, h.kd, lineOf pa, [{ h with key := 0, pa := pa, at_ := a }]⟩)).addOut id (fibKey w h.lane) pa true true
    ((t.sign c id pa n a.tracked).l1Drop c (lineOf pa)).later (s1.pathLatency c pa / 2) (.homeAccumulate id)
/-- Makes a held late write again (R434): registers with csr.spill as it now stands, the bytes of a frame at their address (DEDUCED, log entry 20). -/
def remakeWrite (s : State) (w : Nat) (h : HeldWrite) : State :=
  let t := s.team (teamOf w)
  if h.bytes.isEmpty then s.startResult ⟨⟨w, t.core, t.grant.gen, 0⟩, [(h.lane, h.regs)], [], false, [], none, none, false, false⟩ 0
  else (s.start (.remake w h)).later 0 (.longLatencyResult s.nextId (BitVec.allOnes 32) (BitVec.allOnes 16))
/-- What resumption sends again for a warp, each once, whether its fault has been delivered or not: Pending buffers, held updates but for those of the
delivered fault that the handler has done, held late writes (R366, R433, R434). -/
def resendHeld (s : State) (w : Nat) (key : Nat) (skip : Mask) : State :=
  let s1 := Machine.resendDrains s w
  let x := s1.warp w
  let y := { x with heldAcc := [], heldWrites := [], late := x.late.filter fun f => f.db != 0x20 && f.db != 0x40 }
  let s2 := (x.heldAcc.filter fun h => !(h.key == key && skip.getLsbD h.lane)).foldl (fun t h => t.resendAcc w h) (s1.setWarp w y)
  x.heldWrites.foldl (fun t h => t.remakeWrite w h) s2
/-- Whether the core of a team has room for the requests that resumption sends again (R9). -/
def roomToResend (s : State) (tk : Nat) : Bool :=
  let c := (s.team tk).core
  let bufs := ([0, 1, 2, 3].filter fun b => let x := s.buf c b; x.st == .pending && teamOf x.warp == tk).length
  s.roomForRequests c (Nat.min 2048 (bufs + ((s.warpsOf tk).map fun w => (s.warp w).heldAcc.length).sum))
/-- Lifts the newest halt of a team (R365 to R367): held work goes out again, pending words are replayed, then the word that the halt names where RPL
is set, then arrivals that have still to be performed (R324); the trapping batch goes on
where csr.epc says (word 2 where its WORD is 3: DESIGN CHOICE, log entry 75), or keeps its waits (WT, R366), every other batch from where it stands; then what fell due during
the halt is done (R353). -/
def liftHalt (s : State) (tk : Nat) (h : Halt) (epc : DWord) (done : Mask) : State :=
  let lvl := (s.team tk).halts.length
  let w := warpKey tk h.warp
  let s1 := (s.warpsOf tk).foldl (fun t v => t.resendHeld v h.key (if h.db == 0x20 then done else 0)) s
  let now (hard : Bool) (p : Pend) : Bool := p.lvl == lvl && (p.code != 0) == hard
  let take (hard : Bool) (x : Warp) : Warp := { x with replay := x.replay ++ x.pend.filter (now hard), pend := x.pend.filter fun p => !now hard p }
  let s2 := (s1.warpsOf tk).foldl (fun t v =>
    t.setWarp v { take true (t.warp v) with skid := 0, skidLeft := 0, skidPkts := [], bpSkip := BitVec.allOnes 32 }) s1
  let ls := (lanesOf h.lanes).filter fun l => (s2.fib (fibKey w l)).live
  let same := epc == epcWord h
  let rpl := epc.getLsbD 56
  let wt := h.wt && epc.getLsbD 57
  let pc : Pc := epc.setWidth 54
  let word := Nat.min 2 (fld epc.toNat 54 2)
  let wasIn := h.phase == .handler
  let s3 := ls.foldl (fun t l =>
    let f := t.fib (fibKey w l)
    t.setFib (fibKey w l) (
      if wt then (if wasIn then { f with pc := f.hpc, word := f.hword, wait := f.kept, rpc := h.pc, rword := h.word } else f)
      else if same then (if wasIn then { f with pc := f.hpc, word := f.hword, wait := .none } else f)
      else { f with pc := pc, word := word, wait := .none })) s2
  let s4 := (s3.placesOf w ls).foldl (fun t p =>
    t.rebatch w (maskOf (ls.filter fun l => let f := t.fib (fibKey w l); f.pc == p.1 && f.word == p.2))) s3
  let x := s4.warp w
  let r5 := if rpl then s4.setWarp w { x with replay := x.replay ++ [⟨if same then h.pc else pc, if same then h.word else word,
    if same then h.ws else [], done, h.code, 0, if same then 0 else maskOf ls⟩] } else s4
  let s5 := (r5.warpsOf tk).foldl (fun t v => t.setWarp v (take false (t.warp v))) r5
  let t := s5.team tk
  let s6 := (s5.setTeam tk { t with halts := t.halts.tail }).unstall t.core
  let s7 := if (s6.team tk).halts.isEmpty then s6.settle tk else s6
  (s7.warpsOf tk).foldl (fun t v => if (t.warp v).late.isEmpty then t else t.later 0 (.faultDelivery v)) (s7.later 1 (.teamRetire tk))

/-- The end of a handler (R367), once each of its fibres waits at ERET or has ended, and its own results have come (R48). A refill that faults is a trap of
the handler batch at its ERET (R363). -/
def leaveHandler (s : State) (tk : Nat) : State :=
  match (s.team tk).halts with
  | [] => s
  | h :: _ =>
    let w := warpKey tk h.warp
    let ls := (lanesOf h.lanes).filter fun l => (s.fib (fibKey w l)).live
    let k := (s.team tk).launch
    if h.phase != .handler || !(ls.all fun l => (s.fib (fibKey w l)).wait == .eret) then s
    else if !s.nothingDue tk || !s.roomToResend tk then s.later 4 (.faultRecordWrite tk)
    else
      match s.moveWindows w ls fun u l => (u.lane l).wb - 64 with
      | .bad code leaf addr =>
        if !serviceCode code leaf then s.endLaunch k 4
        else
          let f := s.fib (fibKey w (ls.headD 0))
          let s1 := ls.foldl (fun t l => t.setFib (fibKey w l) { t.fib (fibKey w l) with wait := .none, pc := f.rpc, word := f.rword }) s
          s1.beginHalt w { h with kind := .precise, phase := .stopping, code := code, swcode := 0, lanes := maskOf ls, pc := f.rpc,
                                  word := f.rword, rpl := false, wt := false, addr := addr, done := ~~~(maskOf ls),
                                  flanes := maskOf ls, db := 0, service := true, ws := [], seq := 0, failed := f.rword, ended := none, dbg := false, key := 0 }
      | .wait t => s.tryAgain t (.faultRecordWrite tk)
      | .ok u =>
        let u1 := ls.foldl (fun t l => let f := t.fib (fibKey w l); t.setFib (fibKey w l) { f with preds := f.epred, wait := .none }) (u.forgetAnswers w)
        let c := u1.ctxOfTeam tk
        let u2 := (u1.setRecState c h.seq 2).closeRec c h.seq
        u2.liftHalt tk h (u2.team tk).epc (u2.team tk).donemask

/-! ### Records and responses (R355, R357, R360, R384) -/

/-- Writes the record of a complete halt and sends it where it goes (R355, R357, R360 to R363). -/
def writeRecord (s : State) (tk : Nat) (h : Halt) (rest : List Halt) : State :=
  let k := (s.team tk).launch
  let c := s.ctxOfTeam tk
  let x := s.ctx c
  let core := (s.team tk).core
  let s1 := s.setHalt tk h
  let s2 := if h.service then s1.setCore core { s1.core core with stalled := true } else s1
  match ringOf x with
  | none => s2.endLaunch k 4
  | some (_, n) =>
    let seq := seqNext x.ftail.toNat
    if 2 ^ n < (seq + 2 ^ 32 - x.fhead.toNat) % 2 ^ 32 then s2.later 16 (.faultRecordWrite tk)
    else
      let inside := rest.head?.any fun r => r.phase == .saving || r.phase == .restoring
      let nested := rest.head?.any fun r => r.phase == .handler && r.warp == h.warp && h.kind != .debug
      let fatal := inside || (nested && !h.service)
      let dbg := !fatal && s.toDebugger c h
      let h1 := { h with seq := seq, phase := .recorded, dbg := dbg }
      let st := if fatal then 3 else if h.service || dbg then 0 else 1
      let s3 := s2.setCtx c { x with ftail := BitVec.ofNat 32 seq, openRecs := if fatal then x.openRecs else x.openRecs ++ [(seq, tk)] }
      let s4 := (((s3.deviceWrite (recordAt x seq) (s.recordBytes tk h1 seq st)).setHalt tk h1).interrupt (c / 64 * 128 + 64 + c % 64)).needle .fault
        [h.code.toNat, c, h.addr.toNat]
      if fatal then s4.endLaunch k 4
      else if h.service || dbg then s4
      else match s4.enterHandler tk h1 (BitVec.ofNat 64 (recordAt x seq)) with
        | .ok u => u
        | .wait t => s2.tryAgain t (.faultRecordWrite tk)
        | .bad .. => s4.endLaunch k 4
/-- A response of RETRY to a debug record while the debugger steps: one group of a fibre or of its batch issues (R384). -/
def stepHalt (s : State) (tk : Nat) (h : Halt) (ctl : Nat) : State :=
  let wi := fld ctl 53 5
  let l := fld ctl 48 5
  let w := warpKey tk wi
  let s : State := s.setWarp w { s.warp w with bpSkip := BitVec.allOnes 32 }
  if fld ctl 61 1 = 1 then s.setHalt tk { h with phase := .stepping, warp := wi, lanes := s.batchOf w l }
  else (s.rebatch w (maskOf [l])).setHalt tk { h with phase := .stepping, warp := wi, lanes := maskOf [l] }
/-- Acts on the response of a record (R360, R384); a handler entry or a resumption that cannot be made yet is tried again. -/
def respond (s : State) (c tk : Nat) (h : Halt) (resp : Nat) : State :=
  let t := s.team tk
  let counted := if h.service && (resp == 1 || resp == 2) then
    (match aget s.launches t.launch with
      | some x => { s with launches := aset s.launches t.launch { x with faults := x.faults + 1 } }
      | none => s) else s
  let ctl := (s.ctx c).dbgctl.toNat
  match resp with
  | 1 =>
    let s1 := (counted.setRecState c h.seq 2).closeRec c h.seq
    if h.dbg && fld ctl 62 1 == 1 && (fld ctl 63 1 == 1 || fld ctl 61 1 == 1) && fld ctl 0 32 == t.teamid then s1.stepHalt tk h ctl
    else if !s.roomToResend tk then s.later 4 (.fackWrite c (BitVec.ofNat 32 h.seq))
    else s1.liftHalt tk h (epcWord h) h.done
  | 2 =>
    if t.halts.tail.any fun r => r.phase == .handler then counted.endLaunch t.launch 4
    else match (counted.setRecState c h.seq 1).enterHandler tk h (BitVec.ofNat 64 (recordAt (s.ctx c) h.seq)) with
      | .ok u => u.unstall t.core
      | .wait u => s.tryAgain u (.fackWrite c (BitVec.ofNat 32 h.seq))
      | .bad .. => counted.endLaunch t.launch 4
  | _ => s.endLaunch t.launch 4
end State

/-- FAULT_RECORD_WRITE (R352, R357): once the halt is complete and the ring has room. The stop of a pre-emption has no record. Where a handler is about
to end, it ends (R367). -/
def execFaultRecordWrite (team : Nat) (s : State) : Out := .next (match (s.team team).halts with
  | [] => s
  | h :: rest =>
    if h.phase == .handler then s.leaveHandler team
    else if h.phase != .stopping then s
    else
      let t := if h.ended.isNone then (s.warpsOf team).foldl (fun u w => u.shelveTails w) s else s
      if h.ended.isNone && !t.haltComplete team then t.later 4 (.faultRecordWrite team)
      else if h.kind == .preempt then t.setHalt team { h with phase := .held, ended := some t.clock }
      else t.writeRecord team (t.placedHalt team h) rest)
/-- FACK_WRITE (R360): acts on the response of the open record that SEQ names; any other write is ignored, and any to a context that is not granted (R406). -/
def execFackWrite (ctx : Nat) (seq : Word) (s : State) : Out := .next (
  if !s.ctxGranted ctx then s
  else match (s.ctx ctx).openRecs.find? fun r => r.1 == seq.toNat with
  | none => s
  | some r => match (s.team r.2).halts with
    | h :: _ =>
      if h.phase != .recorded || h.seq != seq.toNat then s
      else s.respond ctx r.2 h (s.homeByte (recordAt (s.ctx ctx) seq.toNat + 7)).toNat
    | [] => s)

/-! ### Late faults (R366, R433, R434) -/

namespace State
/-- The halt that delivers a late fault to a batch. -/
def lateHalt (s : State) (w : Nat) (f : LateFault) (lanes : Mask) (wt : Bool) : Halt :=
  let g := s.fib (fibKey w ((lanesOf lanes).headD 0))
  let place : Pc × Nat := match f.src with
    | some x => (x.pc, x.word)
    | none => if wt then (g.rpc, g.rword) else (g.pc, g.word)
  { kind := if f.src.isSome then .lane else .drain, phase := .stopping, code := f.code, swcode := 0, warp := warpIx w, lanes := lanes,
    pc := place.1, word := place.2, rpl := f.src.isSome, wt := wt && f.src.isNone, addr := f.addr, done := ~~~f.undone, flanes := f.lanes, db := f.db,
    service := serviceCode f.code f.leaf, ws := (f.src.map Where_.ws).getD [], seq := 0, failed := place.2, ended := none, dbg := false, key := f.key }
/-- Removes a late fault from a warp's list. -/
def dropLate (s : State) (w : Nat) (f : LateFault) : State := let x := s.warp w; s.setWarp w { x with late := x.late.erase f }
/-- Faults of lanes of one word that came one by one make one fault (R358, R364): the lowest lane decides the code, its class and the address. -/
def joinLate (f g : LateFault) : LateFault :=
  let low (m : Mask) : Nat := (lanesOf m).headD 32
  let (x, y) := if low f.lanes ≤ low g.lanes then (f, g) else (g, f)
  { x with lanes := if x.code == y.code then x.lanes ||| y.lanes else x.lanes, undone := f.undone ||| g.undone }
/-- The faults of a warp that name the word of one of them, in other lanes of a batch, become one with it (R364). -/
def gatherLate (s : State) (w : Nat) (f : LateFault) (m : Mask) : State × LateFault :=
  (s.warp w).late.foldl (fun (acc : State × LateFault) g =>
    if g.src == f.src && (g.undone &&& ~~~m) == 0 && (g.undone &&& acc.2.undone) == 0 then (acc.1.dropLate w g, joinLate acc.2 g) else acc) (s.dropLate w f, f)
/-- Delivers a late fault (R366): that of a word in flight to the batch of its lowest lane; any other to the batch of the lowest live fibre that stands at a
group boundary (DESIGN CHOICE, log entry 99: which of several), or, when every live fibre waits, to the batch of the lowest one, which keeps its waits; none says
that the batch is inside a word that holds it. A fault of fibres that have ended is dropped. -/
def deliverLate (s : State) (w : Nat) (f : LateFault) : Option State :=
  let x := s.warp w
  let live := lanesOf (s.liveMask w)
  let t := s.dropLate w f
  if f.src.isSome then
    match live.filter fun l => f.undone.getLsbD l with
    | [] => some t
    | l :: _ =>
      let m := s.batchOf w l
      if s.heldHard w m then none
      else let (u, g) := s.gatherLate w f m; some (u.beginHalt w (u.lateHalt w g m false))
  else if f.db == 0x40 && live.all fun l => !f.lanes.getLsbD l then
    some (t.setWarp w { t.warp w with heldWrites := x.heldWrites.filter fun h => h.key != f.key })
  else match live.filter fun l => (s.fib (fibKey w l)).wait == .none && !x.heldIn (s.batchOf w l) with
    | l :: _ => let m := s.batchOf w l; some (t.beginHalt w (t.lateHalt w f m false))
    | [] =>
      if live.any fun l => (s.fib (fibKey w l)).wait == .none then none
      else
        let m := match live with
          | l :: _ => s.batchOf w l
          | [] => 0
        some (t.beginHalt w (t.lateHalt w f m (m != 0)))
/-- A fault of a word that was in flight when its team came to a stop (R352, R354, R364; DEDUCED, log entry 13): of the word that the halt names it is
part of that trap; of a word that is pending already, part of that; else the word becomes a pending one. -/
def pendLate (s : State) (w : Nat) (f : LateFault) : State :=
  match f.src, (s.team (teamOf w)).halts with
  | some p, h :: _ =>
    let lvl := (s.team (teamOf w)).halts.length
    let t := s.dropLate w f
    let x := t.warp w
    let same (q : Pend) : Bool := q.lvl == lvl && q.code != 0 && q.pc == p.pc && q.word == p.word && q.ws == p.ws && (f.undone &&& ~~~q.done) == 0
    let low (m : Mask) : Nat := (lanesOf m).headD 32
    if h.kind == .lane && h.warp == warpIx w && h.pc == p.pc && h.word == p.word && (f.undone &&& ~~~(h.lanes &&& h.done)) == 0 then
      let g := joinLate ⟨h.code, h.service, 0, h.addr, h.flanes, ~~~h.done, f.src, 0⟩ f
      t.setHalt (teamOf w) { h with code := g.code, service := serviceCode g.code g.leaf, addr := g.addr, flanes := g.lanes, done := ~~~g.undone }
    else if x.pend.any same then
      t.setWarp w { x with pend := x.pend.map fun q => if same q then
        { q with done := q.done &&& ~~~f.undone, code := if low f.lanes < low (~~~q.done) then f.code else q.code } else q }
    else t.setWarp w { x with pend := x.pend ++ [⟨p.pc, p.word, p.ws, ~~~f.undone, f.code, lvl, 0⟩] }
  | _, _ => s
end State

/-- FAULT_DELIVERY (R366, R433, R434): a fault waits while its team is halted (R353), but for a lane fault of a word that was in flight
when the team stopped, which is recorded with the stop, and for one of a handler's own. -/
def execFaultDelivery (warp : Nat) (s : State) : Out :=
  let tk := teamOf warp
  let src := (s.warp warp).late.filter fun f => f.src.isSome
  let tries (fs : List LateFault) : State := match fs.findSome? (s.deliverLate warp) with
    | none => if fs.isEmpty then s else s.later 8 (.faultDelivery warp)
    | some t => if (t.warp warp).late.isEmpty || !(t.team tk).halts.isEmpty then t else t.later 0 (.faultDelivery warp)
  .next (match (s.team tk).halts with
    | [] => tries (s.warp warp).late
    | h :: _ =>
      if h.phase == .stopping then src.foldl (fun t f => t.pendLate warp f) s
      else if h.phase == .saving || h.phase == .restoring || ((h.phase == .handler || h.phase == .stepping) && h.warp == warpIx warp) then tries src
      else s)

/-! ### Instruction fetch (R25, R29, R32, R33) -/

namespace State
/-- A packet's three words, from the reserve or read at their homes (R29, R350, R398), or the trap: whether translation or a leaf refused it decides the
class. What the host holds is asked for first (R404, R411): no words then. -/
def fetchCheck (s : State) (w : Nat) (pc : Pc) : Except (BitVec 8 × Bool) (Option Nat) × State :=
  let va := 12 * pc.toNat
  let core := (s.team (teamOf w)).core
  let c := s.ctxOfWarp w
  if 2 ^ 56 < va + 12 then (.error (0x11, false), s)
  else
    let piece (t : State) (a : Nat) : Except (BitVec 8 × Bool) (Option Nat) × State :=
      match t.access core c a .x with
      | (.error e, u) => (.error (e.1, true), u)
      | (.ok (pa, at_), u) =>
        let q : ReadReq := ⟨⟨w, core, 0, 0⟩, c, lineOf pa, pa % 128, 4, [], .normal, none, false, ⟨0, 0, []⟩⟩
        if u.unreachable core pa then (.error (0x21, false), u)
        else match u.reserveCopy core q with
        | some bs => (.ok (some (ofBytes ((List.range 4).map fun i => (aget bs (q.lo + i)).getD 0))), u.reserveHit (dieOfCore core) q.line)
        | none => match u.gateFor w (c / 64) pa 4 at_.tracked false with
          | .refused => (.error (0x11, true), u)
          | .wait as_ => (.ok none, u.askOnce as_)
          | .open_ => match u.homeFetch pa 4 at_.cls (u.codeFails c at_) with
            | (v, some code) => (.error (code, false), v)
            | (v, none) => (.ok (some (v.homeRd pa 4)), v.reserveFill core q)
    (List.range 3).foldl (fun acc i => match acc with
      | (.ok (some n), t) => (match piece t (va + 4 * i) with
        | (.ok v, u) => (.ok (v.map fun x => n + x * 2 ^ (32 * i)), u)
        | (.error e, u) => (.error e, u))
      | r => r) (.ok (some 0), s)
end State

/-- INSTRUCTION_FETCH (R29): the packet comes into the warp's hand, or the batch that is to begin there traps precisely. A sibling of a
halted team stops instead (R352). A warp has room for eight packets, and for each packet that a fibre of it stands at (DEDUCED, log entry 52). -/
def execInstructionFetch (warp : Nat) (pc : Pc) (s : State) : Out :=
  let x := s.warp warp
  .next (if !x.live || (x.packet pc).isSome then s
    else match s.fetchCheck warp pc with
      | (.ok none, s1) => s1.later 4 (.instructionFetch warp pc)
      | (.ok (some n), s0) =>
        let s1 := s0.forgetAnswers warp
        let used := x.ibuf.filter fun p => allLanes.any fun l => let f := s1.fib (fibKey warp l); f.live && f.pc == p.1
        let rest := x.ibuf.filter fun p => !used.contains p
        s1.setWarp warp { x with ibuf := rest.drop (rest.length - (7 - used.length)) ++ used ++ [(pc, (List.range 3).map fun i => n / 2 ^ (32 * i) % 2 ^ 32)] }
      | (.error e, s0) =>
        let s1 := s0.forgetAnswers warp
        let here := allLanes.find? fun l => let f := s1.fib (fibKey warp l); f.live && f.pc == pc && f.wait == .none
        match here with
        | none => s1
        | some l =>
          if s1.running warp l then
            let f := s1.fib (fibKey warp l)
            let m := s1.batchOf warp l
            let s2 : State := { s1 with iss := { Issue.none_ with warp := warp, lanes := m, pc := pc, first := f.word, word := f.word } }
            s2.trapPrecise e.1 e.2 (lanesOf m) 0
          else s1.setWarp warp { x with skidLeft := 0 })

end Sys2Proof.Machine
end

