-- ==== Sys2Proof/Machine/Launch.lean ====
section
/-! DEFINITION. Queues, launch records, dependences, arbitration, placement and dispatch (spec/10 R150 to R160, spec/12 R185 to R197,
spec/29 R408, R422), and the abort of a launch. -/

namespace Sys2Proof.Machine

/-! ### Queues (R185 to R187) -/

/-- The physical function and the virtual functions (R404). -/
def functions : Nat := 33
namespace State
/-- Whether a function may hold a ring of n bytes at an address (R186). -/
def ringOk (s : State) (fn a n : Nat) : Bool :=
  match (s.func fn).grant with
  | none => false
  | some g =>
    let at_ (x : Nat) : Bool := match regionOf x with
      | .device => g.ranges.any fun r => r.1 ≤ x && x < r.1 + r.2
      | .host => g.host
      | _ => false
    decide (a + n ≤ 2 ^ 52) && at_ (a + n - 1) && (List.range (n / 4096 + 1)).all fun i => decide (n ≤ 4096 * i) || at_ (a + 4096 * i)
/-- A write of the configuration half of a queue's block, bits 255:192 (R185, R186). -/
def configQueue (s : State) (fn q : Nat) (val : DWord) : State :=
  let x := s.queueOf fn q
  let v := val.toNat
  let irq := fld v 57 1 == 1
  let en := fld v 56 1 == 1
  let logn := fld v 32 8
  let weight := fld v 40 8
  let ctx := fld v 48 8
  if x.en then s.setQueue fn q { x with irq := irq, en := en, valid := if en then x.valid else none }
  else
    let y := { x with irq := irq, logn := logn, weight := weight, ctx := ctx }
    let good := 4 ≤ logn && logn ≤ 16 && weight != 0 && ((s.func fn).grant.any fun g => ctx < g.ctxn) &&
      s.ringOk fn x.ring.toNat (128 * 2 ^ logn) && s.ringOk fn x.cring.toNat (64 * 2 ^ logn)
    if !en then s.setQueue fn q y
    else if !good then s.setQueue fn q { y with err := true, errcode := 2 }
    else s.setQueue fn q { y with en := true, head := 0, done := 0, tail := 0, credit := weight, err := false, errcode := 0, valid := none,
                                  statuses := [], aborted := [], epoch := x.epoch + 1 }
end State

/-- QUEUE_ENABLE (R186). -/
def execQueueEnable (fn q : Nat) (val : DWord) (s : State) : Out :=
  if functions ≤ fn || 64 ≤ q then .fault .noSuchUnit else .next (s.configQueue fn q val)
/-- QUEUE_DISABLE (R186): consumption stops; consumed launches run on. -/
def execQueueDisable (fn q : Nat) (val : DWord) (s : State) : Out :=
  if functions ≤ fn || 64 ≤ q then .fault .noSuchUnit else .next (s.configQueue fn q val)
/-- TAIL_WRITE (R186, R187). -/
def execTailWrite (fn q : Nat) (tail : Word) (s : State) : Out :=
  let x := s.queueOf fn q
  if functions ≤ fn || 64 ≤ q then .fault .noSuchUnit
  else .next (
    if decide (2 ^ x.logn < (tail - x.head).toNat) then
      s.setQueue fn q { x with tail := tail, err := true, errcode := 1, en := false, valid := none }
    else (s.setQueue fn q { x with tail := tail }).later 200 (.launchValidate fn q))

/-! ### Launch records (R188, R189) -/

/-- A launch record from its 128 bytes. -/
def launchRec (n : Nat) : LaunchRec :=
  let f (off bytes : Nat) : Nat := fld n (8 * off) (8 * bytes)
  let flags := f 0x36 1
  { entry := BitVec.ofNat 54 (f 0 8), param := BitVec.ofNat 64 (f 8 8), spillb := BitVec.ofNat 64 (f 0x10 8),
    rsb := BitVec.ofNat 64 (f 0x18 8), spills := f 0x20 4, rss := f 0x24 4, panels := f 0x28 4, scratch := f 0x2C 4,
    fibres := f 0x30 2, win := f 0x32 1, stages := f 0x33 1, width := f 0x34 1, prio := f 0x35 1, persistent := flags % 2 == 1,
    idempotent := flags / 2 % 2 == 1, strict := flags / 4 % 2 == 1, hint := BitVec.ofNat 64 (f 0x38 8),
    deps := (List.range 4).map fun i => BitVec.ofNat 64 (f (0x40 + 8 * i) 8), tag := BitVec.ofNat 64 (f 0x60 8) }
/-- Fields of a dependence word (R190): present, OK, queue, sequence. -/
def depV (d : DWord) : Bool := d.getLsbD 63
def depOk (d : DWord) : Bool := d.getLsbD 62
def depQ (d : DWord) : Nat := fld d.toNat 56 6
def depSeq (d : DWord) : Nat := fld d.toNat 0 32
/-- Whether a record is refused (R189), as record seq of queue q. -/
def recRefused (n q seq : Nat) : Bool :=
  let r := launchRec n
  let f (off bytes : Nat) : Nat := fld n (8 * off) (8 * bytes)
  f 0 8 / 2 ^ 54 != 0 || r.spillb.toNat % 64 != 0 || r.rsb.toNat % 8 != 0 || r.spills % 64 != 0 || r.rss % 8 != 0 ||
  r.panels == 0 || 2 ^ 24 < r.panels || r.scratch % 64 != 0 || 524288 < r.scratch || r.fibres < 32 || 1024 < r.fibres ||
  r.fibres % 32 != 0 || r.win < 4 || 16 < r.win || r.stages == 0 || 8 < r.stages || r.width == 0 || 48 < r.width ||
  48 < r.width * r.stages || 8 ≤ r.prio || 8 ≤ f 0x36 1 || f 0x37 1 != 0 || f 0x68 24 != 0 ||
  r.deps.any fun d => fld d.toNat 32 24 != 0 || (depV d && depQ d == q && seqLater (depSeq d) seq)

/-! ### Placement (R156 to R160, R394) -/

/-- Warps, window allocation and bytes of a launch's teams. -/
def recWarps (r : LaunchRec) : Nat := r.fibres / 32
def recAlloc (r : LaunchRec) : Nat := 16 * r.win
def recBytes (r : LaunchRec) : Nat := teamBytes (recWarps r) (recAlloc r) r.scratch
/-- Teams of a panel. -/
def perPanel (r : LaunchRec) : Nat := r.width * r.stages

namespace State
/-- The clusters of the package that a context may use, in the order of virtual die and slot (R160, R394). -/
def clustersOf (s : State) (c : Nat) : List Nat :=
  let v := (s.ctx c).vdt
  ((List.range 16).filter fun i => vdtUsable v (i / 4) (i % 4)).map fun i => vdtCluster v (i / 4) (i % 4)
/-- How many teams of a shape a core could take: idle, or beside what it holds; none while it holds teams of another context (R155). -/
def roomIdle (r : LaunchRec) : Nat := Nat.min (coreContexts / recWarps r) (coreBytes / recBytes r)
/-- How many teams of a shape a core could take beside what it holds and teams of the same shape already planned there; none while teams of another context
have it (R155, R156). -/
def roomNow (s : State) (c : Nat) (r : LaunchRec) (plan : List Nat) (core : Nat) : Nat :=
  if (s.teamsOn core).any fun t => s.ctxOfTeam t.1 != c then 0
  else
    let n := (plan.filter (· == core)).length
    Nat.min ((coreContexts - s.usedContexts core) / recWarps r) ((coreBytes - s.usedBytes core) / recBytes r) - n
/-- Live cores of a cluster, rising. -/
def coresOf (s : State) (cl : Nat) : List Nat := (List.range (s.liveCores cl)).map (cl * 64 + ·)
/-- First-fit: the cores that n teams go to, each to the lowest-numbered core that still fits it (R157). -/
def firstFit : List (Nat × Nat) → Nat → Option (List Nat)
  | _, 0 => some []
  | [], _ + 1 => none
  | (c, k) :: t, n => if n ≤ k then some (List.replicate n c) else (firstFit t (n - k)).map (List.replicate k c ++ ·)
/-- Where n teams of a launch fit in a cluster now, beside what is planned. -/
def fitCluster (s : State) (c : Nat) (r : LaunchRec) (plan : List Nat) (n cl : Nat) : Option (List Nat) :=
  firstFit ((s.coresOf cl).map fun x => (x, s.roomNow c r plan x)) n
/-- The cores of the teams of n panels of a persistent launch, each panel in the first cluster it fits (R160). -/
def planPanels (s : State) (c : Nat) (r : LaunchRec) : Nat → List Nat → Option (List Nat)
  | 0, plan => some plan
  | n + 1, plan => match (s.clustersOf c).findSome? fun cl => s.fitCluster c r plan (perPanel r) cl with
    | none => none
    | some cores => planPanels s c r n (plan ++ cores)
/-- Whether a launch could ever be admitted (R158, R160): on clusters that hold nothing. -/
def admissible (s : State) (c : Nat) (r : LaunchRec) : Bool :=
  let n := (s.clustersOf c).foldl (fun n cl => n + s.liveCores cl * roomIdle r / perPanel r) 0
  if r.persistent then r.panels ≤ n else n != 0
/-- Whether nothing of a context is dispatched now: its request for pre-emption is in progress (DEDUCED, log entry 27), or its new virtual die
table takes effect first (R393). -/
def preempting (s : State) (c : Nat) : Bool := fld (s.ctx c).preq.toNat 32 8 == 1 || ((s.ctx c).vdtNext.isSome && !hasTeams s c)

/-- A core begins to run a context (R301, R382): breakpoints and watchpoints loaded, the scale store zero where it ran another; a dispatch is an acquire,
so its L1 is emptied (R192). -/
def enterCore (s : State) (core c : Nat) : State :=
  let x := s.core core
  let k := s.ctx c
  if !(s.teamsOn core).isEmpty then s.setCore core { x with l1 := [] }
  else s.setCore core { x with ctx := some c, l1 := [], scale := if x.ctx == some c then x.scale else [], bps := k.bp, wps := k.wp, stalled := false }
/-- Places one team of a launch on a core (R196, step 1): contexts and bytes; its fibres at the start of R28, its barriers at that of R176. It takes its
generation when its core may grant one. -/
def placeTeam (s : State) (k : Nat) (x : Launch) (ti core : Nat) : State :=
  let r := x.r
  let s1 := s.enterCore core x.ctx
  let ctxs := s1.freeContexts core (recWarps r)
  let h := s1.nextTeam
  let t : Team :=
    { Team.absent with phase := .placed, launch := k, core := core, warps := recWarps r, teamid := ti, panelid := ti / perPanel r,
                       stage := ti / r.width % r.stages, alloc := recAlloc r, scratch := r.scratch, strict := r.strict,
                       grant := s1.reserveRuns core (recWarps r) (recAlloc r) r.scratch, barriers := State.startBarriers r.fibres, fibres := r.fibres }
  let s2 := s1.addTeam t
  ((List.range (recWarps r)).foldl (fun u i =>
    u.putWarp (warpKey h i) (BitVec.allOnes 32) (ctxs.getD i 0) fun l =>
      let g := ti * r.fibres + 32 * i + l
      u.startFibre true r.entry (32 * i + l) (r.spillb + BitVec.ofNat 64 (g * r.spills)) (r.rsb + BitVec.ofNat 64 (g * r.rss))) s2).l1Trim core
/-- The registers of a team of a launch at its start (R28). -/
def startRegisters (s : State) (tk : Nat) (r : LaunchRec) : State :=
  let t := s.team tk
  let start (fid : Nat) : List Word :=
    [r.param.setWidth 32, (r.param >>> 32).setWidth 32] ++ [fid, t.teamid, t.panelid, t.stage, teamCount r, r.panels].map (BitVec.ofNat 32)
  (List.range t.warps).foldl (fun u i => allLanes.foldl (fun u l =>
    let vs := start (32 * i + l)
    (List.range 8).foldl (fun u n => u.setLogical (warpKey tk i) l n (vs.getD n 0)) u) u) s
/-- Whether the windows of a team's live fibres can rise by the frame of a slot handler (R19, R362, R374). -/
def slotFrameFits (s : State) (tk : Nat) : Bool :=
  (s.warpsOf tk).all fun w => (lanesOf (s.liveMask w)).all fun l => decide ((s.fib (fibKey w l)).wb + 64 ≤ 2 ^ 26 - 64)
/-- Enters the save or the restore handler in a warp's live fibres, as one batch (R374, R380): x0 the slot, v2 the fibre index, every other
register of the new frame zero. -/
def enterSlotHandler (s : State) (w : Nat) (entry : Pc) (slot : Nat) : State :=
  let ls := lanesOf (s.liveMask w)
  let s1 := ls.foldl (fun t l =>
    let f := t.fib (fibKey w l)
    let wb := f.wb + 64
    let t1 := t.setFib (fibKey w l)
      { f with wb := wb, floor := wb / 16 * 16, nres := (wb + 79) / 16 - wb / 16, left_ := [], wait := .none, pc := entry, word := 0 }
    (List.range 64).foldl (fun u n => u.setLogical w l (wb + n)
      (if n = 0 then BitVec.ofNat 32 slot else if n = 1 then BitVec.ofNat 32 (slot / 2 ^ 32) else if n = 2 then BitVec.ofNat 32 f.fid else 0)) t1) s
  s1.rebatch w (maskOf ls)
/-- The address of a slot (R376). -/
def slotAddr (s : State) (c i : Nat) : Nat := (s.ctx c).saveb.toNat + i * (s.ctx c).savesz.toNat
/-- A placed team takes its generation (R196, steps 2 and 3; R206), and its start registers, or those of the restore handler (R380), are written. -/
def grantTeam (s : State) (tk : Nat) : State :=
  let t := s.team tk
  let s1 := s.takeGen t.core
  let g := (s1.core t.core).gen
  let s2 := s1.setTeam tk { t with gen := if t.slot.isNone then g else t.gen, grant := { t.grant with gen := g } }
  match t.slot with
  | none => match aget s2.launches t.launch with
    | some x => s2.startRegisters tk x.r
    | none => s2
  | some i =>
    let c := s2.ctxOfTeam tk
    if !s2.slotFrameFits tk then s2.endLaunch t.launch 4
    else ((s2.warpsOf tk).foldl (fun u w => u.enterSlotHandler w ((u.ctx c).restvec.setWidth 54) (u.slotAddr c i)) s2).later (if s2.allEnded tk then 16 else 2 ^ 20) (.saveHandlerTimeout tk)
/-- Placed teams whose launch has been dispatched take their generations, each as soon as its core may grant one (R206), and those of a panel that all have
theirs, of a persistent launch all its teams, become ready together (R157, R160, R196). While some wait, the next dispatch step looks again. -/
def grantDue (s : State) : State :=
  let begun (t : State) (k : Nat) : Bool := (aget t.launches k).all fun l => l.start.isSome
  let persistent (t : State) (k : Nat) : Bool := (aget t.launches k).any fun l => l.r.persistent
  let placed (t : State) : List (Nat × Team) := t.teams.filter fun x => x.2.phase == .placed && begun t x.2.launch
  let s1 := (placed s).foldl (fun t x => if x.2.grant.gen == 0 && t.mayGrant x.2.core then t.grantTeam x.1 else t) s
  let waits (x : Nat × Team) : Bool :=
    (placed s1).any fun y => y.2.launch == x.2.launch && (y.2.panelid == x.2.panelid || persistent s1 x.2.launch) && y.2.grant.gen == 0
  let s2 := ((placed s1).filter fun x => !waits x).foldl (fun t x => t.setTeam x.1 { t.team x.1 with phase := .running }) s1
  match (placed s2).filter fun x => x.2.grant.gen == 0 with
  | [] => s2
  | x :: xs => s2.later (Nat.max 1 (xs.foldl (fun n y => Nat.min n (s2.core y.2.core).nextGrant) (s2.core x.2.core).nextGrant - s2.clock)) .panelDispatch
/-- Dispatches teams of a panel to cores (R157, R196); the launch remembers where (R205). -/
def placePanel (s : State) (k : Nat) (x : Launch) (tis cores : List Nat) : State :=
  let y : Launch := { x with places := (x.places.filter fun p => !tis.contains p.1) ++ tis.zip cores }
  (tis.zip cores).foldl (fun u p => u.placeTeam k y p.1 p.2) { s with launches := aset s.launches k y }
/-- Teams of panel p. -/
def panelTeams (r : LaunchRec) (p : Nat) : List Nat := (List.range (perPanel r)).map (p * perPanel r + ·)
/-- What a launch would dispatch next (R159, R373): the flushed teams of the lowest panel that has some, else its next panel. -/
def nextTeams (x : Launch) : List Nat :=
  match x.undispatched with
  | [] => if x.nextPanel < x.r.panels then panelTeams x.r x.nextPanel else []
  | ti :: t =>
    let p := (ti :: t).foldl (fun m i => Nat.min m (i / perPanel x.r)) (ti / perPanel x.r)
    sortBy (fun a b => decide (a ≤ b)) ((ti :: t).filter fun i => i / perPanel x.r == p)
/-- The cluster that teams of a panel must go to: that of its other teams, where the panel has some that are not dispatched anew with them (R157),
of retired ones too, by the place they were in (DESIGN CHOICE, log entry 106). -/
def panelCluster (x : Launch) (tis : List Nat) : Option Nat :=
  (x.places.find? fun p => !tis.contains p.1 && tis.any fun i => i / perPanel x.r == p.1 / perPanel x.r).map fun p => clusterOf p.2
/-- Dispatches the next teams of a launch in a cluster they fit, by the device's choice among those (R157, R159). -/
def dispatchNext (s : State) (k : Nat) (x : Launch) : Option State :=
  let tis := nextTeams x
  let fits := ((s.clustersOf x.ctx).filter fun cl => (panelCluster x tis).all (· == cl)).filterMap fun cl => s.fitCluster x.ctx x.r [] tis.length cl
  if tis.isEmpty || fits.isEmpty then none
  else
    let cores := fits.getD (s.choice fits.length) []
    let y : Launch := { x with undispatched := x.undispatched.filter fun i => !tis.contains i,
                               nextPanel := x.nextPanel + (if x.undispatched.isEmpty then 1 else 0), start := some (x.start.getD s.clock) }
    some (s.chosen.placePanel k y tis cores)
/-- Places every panel of a persistent launch at once, when it is selected (R160). -/
def placeAll (s : State) (k : Nat) (x : Launch) : State :=
  match s.planPanels x.ctx x.r x.r.panels [] with
  | none => { s with launches := aset s.launches k x }
  | some cores => s.placePanel k x (List.range (x.r.panels * perPanel x.r)) cores
/-- Dispatches every panel of a persistent launch together: its teams have their places (R160). A dispatch is an acquire (R192). -/
def dispatchAll (s : State) (k : Nat) (x : Launch) : Option State :=
  let s1 := (((s.teamsOf k).map fun t => t.2.core).eraseDups).foldl (fun t c => t.enterCore c x.ctx) s
  some { s1 with launches := aset s1.launches k { x with nextPanel := x.r.panels, start := some (x.start.getD s.clock) } }
/-- Whether every panel of a persistent record fits now (R160, R193). -/
def fitsAll (s : State) (c : Nat) (r : LaunchRec) : Bool := (s.planPanels c r r.panels []).isSome
/-- Launches of a function that wait for resources, in the order in which resources are offered (R193). -/
def awaiting (s : State) (fn : Nat) : List (Nat × Launch) :=
  sortBy (fun a b => decide (b.2.r.prio < a.2.r.prio) || (a.2.r.prio == b.2.r.prio && decide (a.2.order ≤ b.2.order)))
    (s.launches.filter fun l => l.2.fn == fn && l.2.ending.isNone && !(nextTeams l.2).isEmpty && !s.preempting l.2.ctx)
/-- Whether a persistent record can be admitted now (R160, R193): it fits, and no active launch that resources are offered to first waits for a dispatch
that fits (DEDUCED, log entry 94). -/
def admitted (s : State) (fn c : Nat) (r : LaunchRec) : Bool :=
  s.fitsAll c r && !s.preempting c && !(s.awaiting fn).any fun l => decide (r.prio ≤ l.2.r.prio) && (s.dispatchNext l.1 l.2).isSome

/-! ### The head of a queue (R186, R189, R190, R193) -/

/-- HEAD passes a record that starts no fibre; its completion record is written at once (R189, R193). -/
def consume (s : State) (fn q status : Nat) (tag : DWord) : State :=
  let x := s.queueOf fn q
  let seq := seqNext x.head.toNat
  let s1 := s.setQueue fn q { x with head := BitVec.ofNat 32 seq, valid := none, aborted := x.aborted.filter (· != seq) }
  (s1.complete ⟨fn, q, x.epoch, seq, status, 0, 0, none, 0, tag⟩).later 1 (.launchValidate fn q)
/-- Whether the completion slot of the head record is free: the record a ring's length before it has completed (R186). -/
def slotFree (x : Queue) : Bool :=
  let seq := seqNext x.head.toNat
  let prev := (seq + 2 ^ 32 - 2 ^ x.logn) % 2 ^ 32
  (decide (x.head.toNat < 2 ^ x.logn) && decide (x.statuses.length < 2 ^ x.logn)) || x.statuses.any fun p => p.1 == prev
end State

/-- LAUNCH_VALIDATE (R187, R189): the head record is read, all its bytes at one instant (DESIGN CHOICE, log entry 79), and checked whole; a refused one,
one that can never be admitted, judged once here (DESIGN CHOICE, log entry 78), and one that was aborted are consumed at once (R158, R160, R408).
A record that cannot be read is refused (R369, DESIGN CHOICE, log entry 87). -/
def execLaunchValidate (fn q : Nat) (s : State) : Out :=
  let x := s.queueOf fn q
  let seq := seqNext x.head.toNat
  let a := x.ring.toNat + 128 * slotOf seq x.logn
  let (s, code) := if x.en && x.head != x.tail then s.homeFetch a 128 0 s.bad.contains else (s, none)
  let n := if code.isSome then 0 else s.homeRd a 128
  let r := launchRec n
  .next (if !x.en || x.head == x.tail then s
    else if !State.slotFree x then s.later 64 (.launchValidate fn q)
    else if x.aborted.contains seq then s.consume fn q 5 r.tag
    else if x.valid.isSome then s
    else if recRefused n q seq then s.consume fn q 1 r.tag
    else if !s.admissible (fn * 64 + x.ctx) r then s.consume fn q 2 r.tag
    else (s.setQueue fn q { x with valid := some (r, false) }).later 10 (.dependenceTest fn q))
/-- Whether a dependence has failed, and whether it is met (R190). -/
def depFailed (s : State) (fn : Nat) (d : DWord) : Bool :=
  let x := s.queueOf fn (depQ d)
  depV d && ((depOk d && (x.statuses.find? fun p => p.1 == depSeq d).any fun p => p.2 != 0) ||
    (!x.en && !seqLater x.done.toNat (depSeq d)))
def depMet (s : State) (fn : Nat) (d : DWord) : Bool := !depV d || seqLater (s.queueOf fn (depQ d)).done.toNat (depSeq d)
/-- DEPENDENCE_TEST (R190): DEP0 to DEP3; a failure completes the launch DEP-FAILED. -/
def execDependenceTest (fn q : Nat) (s : State) : Out :=
  let x := s.queueOf fn q
  .next (match x.valid with
    | some (r, false) =>
      if !x.en then s
      else if x.aborted.contains (seqNext x.head.toNat) then s.consume fn q 5 r.tag
      else if r.deps.any (depFailed s fn) then s.consume fn q 3 r.tag
      else if r.deps.all (depMet s fn) then (s.setQueue fn q { x with valid := some (r, true) }).later 20 (.arbitrate fn)
      else s.later 64 (.dependenceTest fn q)
    | _ => s)

namespace State
/-- The eligible queues of a function with their head records (R193); one whose head is to be aborted is not among them (R408). -/
def eligible (s : State) (fn : Nat) : List (Nat × LaunchRec) :=
  (List.range 64).filterMap fun q =>
    let x := s.queueOf fn q
    match x.valid with
    | some (r, true) =>
      if x.en && x.head != x.tail && !x.aborted.contains (seqNext x.head.toNat) && (!r.persistent || s.admitted fn (fn * 64 + x.ctx) r) then some (q, r)
      else none
    | _ => none
/-- The queue that one priority's round robin serves next: the first after the last served one that has credit (R193). -/
def robin (s : State) (fn last : Nat) (qs : List Nat) : Option Nat :=
  ((List.range 64).map fun i => (last + 1 + i) % 64).find? fun q => qs.contains q && (s.queueOf fn q).credit != 0
/-- Of every priority all of whose eligible queues have used up their credit, the queues get their weights again (R193; its example
reloads a level while another one is served). -/
def reload (s : State) (fn : Nat) (es : List (Nat × LaunchRec)) : State :=
  es.foldl (fun t e =>
    if es.all fun x => x.2.prio != e.2.prio || (s.queueOf fn x.1).credit == 0 then
      let x := t.queueOf fn e.1
      t.setQueue fn e.1 { x with credit := x.weight }
    else t) s
end State

/-- The same machine with no arbitration of a function pending: one follows another, and none is made twice in its time (R193, R197). -/
def State.oneArbiter (s : State) (fn : Nat) : State :=
  { s with queue := s.queue.filter fun q => match q.ev with
    | .arbitrate f => f != fn
    | _ => true }

/-- ARBITRATE (R193): one selection among the eligible queues of a function. -/
def execArbitrate (fn : Nat) (s : State) : Out :=
  let es := s.eligible fn
  let top := es.foldl (fun m e => Nat.max m e.2.prio) 0
  let qs := (es.filter fun e => e.2.prio == top).map (·.1)
  let f := s.func fn
  let last := ((f.served.find? fun p => p.1 == top).map (·.2)).getD 63
  let s1 := s.reload fn es
  .next (if s.firmware.shut || s.firmware.recovery then s
    else match s1.robin fn last qs with
    | none => if (List.range 64).any fun q => ((s.queueOf fn q).valid.any fun v => v.2) then (s.oneArbiter fn).later 64 (.arbitrate fn) else s
    | some q =>
      let x := s1.queueOf fn q
      match x.valid with
      | none => s
      | some (r, _) =>
        let seq := seqNext x.head.toNat
        let k := s1.nextId
        let la : Launch := ⟨fn, q, seq, fn * 64 + x.ctx, r, 0, [], 0, 0, 0, 0, none, k, x.epoch, none, []⟩
        let s2 := (s1.named).setQueue fn q { x with head := BitVec.ofNat 32 seq, valid := none, credit := x.credit - 1 }
        let s3 := s2.setFunc fn { f with served := (f.served.filter fun p => p.1 != top) ++ [(top, q)] }
        let s4 := if r.persistent then s3.placeAll k la else { s3 with launches := aset s3.launches k la }
        ((((s4.oneArbiter fn).later 100 .panelDispatch).later 1 (.launchValidate fn q)).later 20 (.arbitrate fn)))

/-! ### Dispatch (R157, R193, R422) -/

namespace State
/-- Dispatches for the first launch of a function whose next panel fits, or whose panels have their places. -/
def dispatchFor (s : State) (fn : Nat) : Option State :=
  (s.awaiting fn).findSome? fun l => if l.2.r.persistent && l.2.nextPanel == 0 then s.dispatchAll l.1 l.2 else s.dispatchNext l.1 l.2
end State

/-- PANEL_DISPATCH (R157, R193, R196, R422): placed teams take the generations they wait for; then one dispatch step; functions take turns by their
weights. -/
def execPanelDispatch (s : State) : Out :=
  let s := s.grantDue
  let fns := (List.range functions).filter fun f => !(s.awaiting f).isEmpty
  let s1 := if fns.all fun f => (s.func f).turn == 0 then
    fns.foldl (fun t f => let x := t.func f; t.setFunc f { x with turn := ((x.grant.map GrantRec.weight).getD 1) }) s else s
  let order := ((List.range functions).map fun i => (s.fnTurn + 1 + i) % functions).filter fun f => fns.contains f
  let tries := (order.filter fun f => (s1.func f).turn != 0) ++ order.filter fun f => (s1.func f).turn == 0
  .next (if s.firmware.shut || s.firmware.recovery then s
    else match tries.findSome? fun f => (s1.dispatchFor f).map fun t => (f, t) with
    | none => s
    | some (f, t) =>
      let x := t.func f
      (({ t.setFunc f { x with turn := x.turn - 1 } with fnTurn := f } : State).grantDue).later 8 .panelDispatch)

/-- ABORT_LAUNCH (R407, R408): nothing while another abort of the function is in progress. -/
def execAbortLaunch (fn q : Nat) (seq : Word) (s : State) : Out :=
  let x := s.queueOf fn q
  let n := seq.toNat
  let set (t : State) (ast : Nat) : State := t.setFunc fn { t.func fn with abort := BitVec.ofNat 64 (q * 2 ^ 56 + ast * 2 ^ 32 + n) }
  if functions ≤ fn || 64 ≤ q then .fault .noSuchUnit
  else if fld (s.func fn).abort.toNat 32 2 == 1 then .next s
  else
    let mine := s.launches.filter fun l => l.2.fn == fn && l.2.q == q && l.2.seq == n
    .next (match (mine.find? fun l => l.2.epoch == x.epoch) <|> mine.head? with
    | some l => (set s 1).endLaunch l.1 5
    | none =>
      if seqLater n (seqNext x.head.toNat) && x.en then
        ((set s 1).setQueue fn q { x with aborted := x.aborted ++ [n] }).later 1 (.launchValidate fn q)
      else set s 3)

end Sys2Proof.Machine
end

