-- ==== Sys2Proof/Machine/Preempt.lean ====
section
/-! DEFINITION. Pre-emption, save, flush, restore and debug stops (spec/25 R370 to R384), the debug port (spec/13 R213). A slot lies in the
context's address space (DEDUCED, log entry 28); what R376 to R378 give no place in a slot the device keeps beside it (DESIGN CHOICE, log entry 29). -/

namespace Sys2Proof.Machine

/-! ### Accesses of the device in a context's address space -/

/-- Pieces of n bytes from an address on that do not cross 2 KiB, a row of the skein. -/
def pieces (va n : Nat) : List (Nat × Nat) :=
  (List.range (n / 2048 + 2)).filterMap fun i =>
    let lo := Nat.max va ((va / 2048 + i) * 2048)
    let hi := Nat.min (va + n) ((va / 2048 + i + 1) * 2048)
    if lo < hi then some (lo, hi - lo) else none
/-- The key of what the device keeps of a saved team, and of one that is being restored. -/
def savedKey (c i : Nat) : Nat := c * 65536 + i
def restKey (tk : Nat) : Nat := 2 ^ 40 + tk
/-- The names under which the device's own accesses for a team and for a slot wait for the host (R411, R414). -/
def teamTag (tk : Nat) : Nat := 2 ^ 40 + tk
def slotTag (c i : Nat) : Nat := 2 ^ 41 + savedKey c i

namespace State
/-- The physical address and the leaf's attributes of an access to n bytes that a die makes for a context by the tables as they stand; it waits for what the
host must give back, under a name (R404, R411, R414). -/
def ctxPa (s : State) (die c tag va n : Nat) (nd : Need) : Made ((Nat × Attr) × State) :=
  let (base, s1) : Option Nat × State := if va < 2 ^ 56 then (some va, s) else
    match s.viewEntry die c (fld va 40 16) with
    | (.ok (b, len, _), t) => (if va % 2 ^ 40 < len && va < 2 ^ 57 then some (b + va % 2 ^ 40) else none, t)
    | (.error _, t) => (none, t)
  match base with
  | none => .bad 0x10 false (BitVec.ofNat 64 va)
  | some v => match s1.walkGeneral die c v with
    | (.ok pa leaf _ _, s2) =>
      let a := attrOf leaf []
      if !leafAllows nd leaf || !s2.peerAllows nd pa || regionOf pa == .nothing then .bad 0x11 true (BitVec.ofNat 64 va)
      else if s2.lostAt pa || s2.dieCut die pa then .bad 0x21 false (BitVec.ofNat 64 va)
      else match s2.gateFor tag (c / 64) pa n a.tracked (nd == .w) with
        | .refused => .bad 0x11 false (BitVec.ofNat 64 va)
        | .wait as_ => .wait (s2.stoppedFor as_)
        | .open_ => .ok ((pa, a), s2)
    | (.bad code leaf, _) => .bad code leaf (BitVec.ofNat 64 va)
/-- One piece more of an access, where those before it are made. -/
def nextPiece {α β : Type} (r : Made α) (k : α → Made β) : Made β :=
  match r with
  | .ok a => k a
  | .wait t => .wait t
  | .bad code leaf va => .bad code leaf va
/-- Reads, as a number, in a context's address space, under a name. -/
def ctxRead (s : State) (die c tag va n : Nat) : Made (Nat × State) :=
  (pieces va n).foldl (fun acc p => nextPiece acc fun (v, t) => nextPiece (t.ctxPa die c tag p.1 p.2 .r) fun ((pa, a), u) =>
    match u.homeFetch pa p.2 a.cls (u.codeFails c a) with
    | (_, some code) => .bad code false (BitVec.ofNat 64 p.1)
    | (w, none) => .ok (v + w.homeRd pa p.2 * 2 ^ (8 * (p.1 - va)), w)) (.ok (0, s))
/-- Whether such a read of n bytes is made: the state it leaves. -/
def ctxReach (s : State) (die c tag va n : Nat) : Made State :=
  (pieces va n).foldl (fun acc p => nextPiece acc fun t => nextPiece (t.ctxPa die c tag p.1 p.2 .r) fun ((pa, a), u) =>
    match u.homeFetch pa p.2 a.cls (u.codeFails c a) with
    | (_, some code) => .bad code false (BitVec.ofNat 64 p.1)
    | (w, none) => .ok w) (.ok s)
/-- Writes in a context's address space. -/
def ctxWrite (s : State) (die c tag va : Nat) (bs : List Byte) : Made State :=
  (pieces va bs.length).foldl (fun acc p => nextPiece acc fun t => nextPiece (t.ctxPa die c tag p.1 p.2 .w) fun ((pa, _), u) =>
    let (w, _, ok) := u.agentWrites pa ((bs.drop (p.1 - va)).take p.2)
    if ok && !u.accxAt pa then .ok w else .bad 0x21 false (BitVec.ofNat 64 p.1)) (.ok s)

/-! ### Taking a team off (R370 to R373) -/

/-- The PCORES bit of a core under a table (R370); none where no usable slot maps its cluster. -/
def pcoresBit (vdt : DWord) (core : Nat) : Option Nat :=
  ((List.range 16).find? fun i => vdtUsable vdt (i / 4) (i % 4) && vdtCluster vdt (i / 4) (i % 4) == clusterOf core).map fun i =>
    16 * (i / 4) + 4 * (i % 4) + core % 64 / 16
/-- The panels a request takes off: launch and panel index of every resident team on a named core; a persistent launch whole (R370). -/
def taken (s : State) (c : Nat) (all : Bool) : List Nat :=
  let k := s.ctx c
  let mine := s.teams.filter fun t => t.2.phase != .retired && ((aget s.launches t.2.launch).map Launch.ctx) == some c
  let named (t : Team) : Bool := all || (pcoresBit k.vdt t.core).any fun b => fld k.pcores.toNat b 1 == 1
  let hit := mine.filter fun t => named t.2
  let persistent (t : Team) : Bool := (aget s.launches t.launch).any fun x => x.r.persistent
  (mine.filter fun t => hit.any fun u => u.2.launch == t.2.launch && (u.2.panelid == t.2.panelid || persistent t.2)).map (·.1)
/-- What is done with a team (R372): 0 drain, 1 flush, 2 save, 3 the launch is FAULTED (R375). -/
def actionFor (s : State) (tk : Nat) : Nat :=
  let t := s.team tk
  match aget s.launches t.launch with
  | none => 2
  | some x =>
    let hint := x.r.hint.toNat
    let flushable := x.r.idempotent && !t.spawned && !t.hasSpawned
    let noVec := (s.ctx x.ctx).savevec == 0
    let debug (h : Halt) : Bool := (h.phase == .recorded && h.dbg) || h.phase == .stepping || (h.kind == .debug && h.phase == .stopping)
    let first := (s.core t.core).stalled || x.r.persistent || t.halts.any fun h => h.phase == .handler || debug h || h.service
    if first then (if noVec then 3 else 2)
    else if hint != 0 && decide (7 * hint ≤ 8 * t.rp) then 0
    else if flushable && (hint == 0 || decide (4 * t.rp < hint)) then 1
    else if noVec then (if flushable then 1 else 3) else 2
/-- Starts an action. -/
def takeOff (s : State) (tk : Nat) : State :=
  let t := s.team tk
  let s1 := s.setTeam tk { t with draining := true }
  match s.actionFor tk with
  | 0 => s1.later 65536 (.drainTimeout tk)
  | 1 => s1.later 1 (.teamFlush tk)
  | 2 => s1.later 1 (.teamSave tk)
  | _ => s.endLaunch t.launch 4
/-- Halts a team to take it off (R374): after a stop of its own that is not complete yet, with the same skid bound. -/
def holdTeam (s : State) (tk : Nat) : State :=
  let t := s.team tk
  match t.halts with
  | [] => go
  | h :: _ => if h.phase == .stopping || h.kind == .preempt then s else (let u := go; u.unstall t.core)
where
  /-- Pushes the halt. -/
  go : State :=
    s.beginHalt (warpKey tk 0)
      { kind := .preempt, phase := .stopping, code := 0, swcode := 0, warp := 32, lanes := 0, pc := 0, word := 0, rpl := false, wt := false,
        addr := 0, done := 0, flanes := 0, db := 0, service := false, ws := [], seq := 0, failed := 0, ended := none, dbg := false, key := 0 }
/-- The other resident teams of a team's panel, itself among them. -/
def panelOf (s : State) (tk : Nat) : List Nat :=
  let t := s.team tk
  (s.teams.filter fun u => u.2.phase != .retired && u.2.launch == t.launch && u.2.panelid == t.panelid).map (·.1)
/-- Whether a held team may be taken off (R371, R374): no engine record and no drain of its panel is open, every write of its own is
performed. -/
def quiet (s : State) (tk : Nat) : Bool :=
  (s.team tk).phase == .running && (s.team tk).halts.head?.any (fun h => h.kind == .preempt && h.phase == .held) && !(s.panelOf tk).any s.workOpen && s.allAcked tk &&
    !s.outs.any fun o => teamOf (o.fibre / 32) == tk
/-- Whether a held team may retire instead: every fibre of it has ended, and nothing of it is open (R161, R370, R388). -/
def mayRetire (s : State) (tk : Nat) : Bool := s.allEnded tk && s.allAcked tk && !s.workOpen tk && !s.faultOpen tk &&
  (s.team tk).halts.all fun h => h.kind == .preempt
/-- Sends what a held team has in its core's write-combining buffer. -/
def sendWrites (s : State) (tk : Nat) : State := s.wcbSendAll (s.team tk).core fun e => teamOf e.warp == tk
end State

/-- PREEMPT_REQUEST (R370, R372), of a context that its function has (R406). -/
def execPreemptRequest (ctx : Nat) (all : Bool) (s : State) : Out :=
  let x := s.ctx ctx
  let ts := s.taken ctx all
  let s1 := s.setCtx ctx { x with preq := BitVec.ofNat 64 (2 ^ 32 + (if all then 2 else 0) + 1), takeFault := false,
                                  takeCores := (ts.map fun k => (s.team k).core).eraseDups }
  if functions * 64 ≤ ctx then .fault .noSuchUnit
  else .next (if fld x.preq.toNat 32 8 == 1 || !s.ctxGranted ctx then s
    else (ts.foldl (fun t k => if (t.team k).draining then t else t.takeOff k) s1).preemptDone ctx)
/-- DRAIN_TIMEOUT (R372): a drained team that is still there is halted and saved. -/
def execDrainTimeout (team : Nat) (s : State) : Out :=
  let t := s.team team
  .next (if t.phase == .retired || !t.draining then s
    else if (s.ctx (s.ctxOfTeam team)).savevec == 0 then s.endLaunch t.launch 4
    else s.later 1 (.teamSave team))
/-- TEAM_FLUSH (R373): a held team is thrown away and returns to its launch as not dispatched. -/
def execTeamFlush (team : Nat) (s : State) : Out :=
  let t := s.team team
  .next (if t.phase == .retired || !t.draining then s
    else if !s.quiet team then ((s.holdTeam team).sendWrites team).later 16 (.teamFlush team)
    else if s.mayRetire team then s.retire team
    else match aget s.launches t.launch with
    | none => s
    | some x =>
      let k := s.ctx x.ctx
      let s1 := (s.setCtx x.ctx { k with openRecs := k.openRecs.filter fun r => r.2 != team }).removeTeam team
      let s2 : State := { s1 with launches := aset s1.launches t.launch { x with undispatched := x.undispatched ++ [t.teamid] },
                                  teams := adel s1.teams team }
      (s2.preemptDone x.ctx).later 1 .panelDispatch)

/-! ### The slot (R376 to R378) -/

/-- A barrier's entry. -/
def barrierBytes (b : Barrier) : List Byte :=
  leBytes 2 b.e ++ [if b.ov then 1 else 0, 0] ++ leBytes 4 b.phase.toNat ++ b.cnt.toList.flatMap (leBytes 2) ++ leBytes 16 0
/-- A wait record as a fibre block holds it: WK, WR, J, T. -/
def waitCode : Wait → Nat × Nat × Nat × Nat
  | .none => (0, 0, 0, 0)
  | .mask join k j => (if join then 1 else 2, k, j.toNat, 0)
  | .bar b target => (3, b, 0, target.toNat)
  | .flags msk any => (4, 0, msk.toNat + (if any then 4096 else 0), 0)
  | .yield _ _ => (5, 0, 0, 0)
  | .eret => (6, 0, 0, 0)
/-- A wait record from a fibre block; a YIELD is restored as ended (R378). -/
def waitOf (wk wr j t : Nat) : Wait :=
  match wk with
  | 1 => .mask true wr (BitVec.ofNat 32 j)
  | 2 => .mask false wr (BitVec.ofNat 32 j)
  | 3 => .bar wr (BitVec.ofNat 32 t)
  | 4 => .flags (BitVec.ofNat 12 j) (j / 4096 % 2 == 1)
  | 6 => .eret
  | _ => .none
/-- A fibre block. -/
def fibreBytes (f : Fibre) : List Byte :=
  let (wk, wr, j, t) := waitCode f.wait
  leBytes 8 (f.pc.toNat + f.word * 2 ^ 54 + (if f.live then 2 ^ 56 else 0)) ++ leBytes 4 f.wb ++ leBytes 4 f.depth ++
    [f.preds.setWidth 8, BitVec.ofNat 8 wk, BitVec.ofNat 8 wr, 0] ++ leBytes 4 j ++ leBytes 4 t ++ leBytes 4 0
/-- The state code of a drain buffer in DBUF. -/
def bufCode (b : Buf) (tk : Nat) : Nat :=
  if b.st == .free || teamOf b.warp != tk then 0
  else (match b.st with
    | .open_ => 1
    | _ => 3) + (if b.wide then 4 else 0) + warpIx b.warp * 8

namespace State
/-- A warp block. -/
def warpBytes (s : State) (tk : Nat) (h : Halt) (i : Nat) : List Byte :=
  let x := s.warp (warpKey tk i)
  let bits (f : FlagSt → Bool) : Nat := (List.range 12).foldl (fun n k => n + if f (x.flag k) then 2 ^ k else 0) 0
  if (s.team tk).warps ≤ i then leBytes 128 0
  else x.masks.toList.flatMap (fun m => leBytes 4 m.toNat) ++ leBytes 2 (bits FlagSt.f) ++ leBytes 2 (bits FlagSt.er) ++
    (List.range 12).map (fun k => (x.flag k).code) ++ leBytes 16 (s.stopRecord tk h true i) ++ leBytes 48 0
/-- The elements of a drain buffer as the slot holds them. -/
def bufBytes (s : State) (tk b : Nat) : List Byte :=
  let x := s.buf (s.team tk).core b
  if bufCode x tk = 0 then leBytes 2048 0
  else (let bs := x.elems.flatMap fun e => leBytes (if x.wide then 8 else 4) e.toNat; bs ++ leBytes (2048 - bs.length) 0)
/-- The team header (R377), MAGIC still 0. -/
def headerBytes (s : State) (tk : Nat) : List Byte :=
  let t := s.team tk
  let x := aget s.launches t.launch
  let c := s.ctxOfTeam tk
  let real := t.halts.filter fun h => h.kind != .preempt
  let inH := real.any fun h => h.phase == .handler
  let rec_ := real.find? fun h => h.seq != 0 && (h.phase == .recorded || h.phase == .handler)
  let dbg := real.any fun h => h.phase == .recorded && h.dbg
  let mode := (if inH then 1 else 0) + (if dbg then 2 else 0) + (if rec_.isSome then 4 else 0) + (if x.any fun y => y.r.persistent then 8 else 0)
  let place := (csrCore (s.ctx c).vdt t.core).toNat
  leBytes 4 0 ++ [1, BitVec.ofNat 8 mode] ++ leBytes 2 c ++ leBytes 4 ((x.map Launch.seq).getD 0) ++
    [BitVec.ofNat 8 ((x.map Launch.q).getD 0), BitVec.ofNat 8 t.warps, BitVec.ofNat 8 (t.alloc / 16), 0] ++ leBytes 4 t.teamid ++
    leBytes 4 t.panelid ++ [BitVec.ofNat 8 t.stage, BitVec.ofNat 8 (fld place 12 2), BitVec.ofNat 8 (fld place 8 2), BitVec.ofNat 8 (fld place 0 6)] ++
    leBytes 4 t.scratch ++ leBytes 8 t.rp ++ leBytes 4 t.exsum.toNat ++ leBytes 4 ((rec_.map Halt.seq).getD 0) ++
    (List.range 4).map (fun b => BitVec.ofNat 8 (bufCode (s.buf t.core b) tk)) ++ leBytes 204 0

/-- The lowest free slot (R376). -/
def freeSlot (s : State) (c : Nat) : Option Nat :=
  let x := s.ctx c
  (List.range (Nat.min x.nslot.toNat 65535)).find? fun i => !x.slots.contains i
/-- Registers and held return-stack entries of one fibre go to memory (R374, step 3). -/
def spillFibre (s : State) (die c tag w l : Nat) : Made State :=
  let f := s.fib (fibKey w l)
  let s1 := (blocks (f.floor / 16) (f.floor / 16 + f.nres)).foldl (fun acc b => nextPiece acc fun t =>
    t.ctxWrite die c tag (f.spill + BitVec.ofNat 64 (64 * b)).toNat (t.blockBytes w l b)) (.ok s)
  (List.range f.held.length).foldl (fun acc i => nextPiece acc fun t =>
    t.ctxWrite die c tag (entryHome f (f.depth - 1 - i)).toNat (leBytes 8 (f.held.getD i 0).toNat)) s1
/-- The blocks that are resident in a fibre are spilled ones from then on (R16). -/
def allLeft (f : Fibre) : Fibre := { f with left_ := State.joined f.left_ (blocks (f.floor / 16) (f.floor / 16 + f.nres)) }

/-- What the device keeps of a team. -/
def snapshot (s : State) (tk : Nat) : Saved :=
  ⟨s.team tk, tk, s.loc.warps.filter fun w => teamOf w.1 == tk,
    (s.loc.fibres.filter fun f => teamOf (f.1 / 32) == tk).map fun f => (f.1, allLeft f.2), (s.core (s.team tk).core).bufs.toList⟩
/-- The device part of a slot is written and the save handler entered (R374, steps 2 to 5), where every access of it is made. -/
def saveInto (s : State) (tk i : Nat) : Made State :=
  let t := s.team tk
  let c := s.ctxOfTeam tk
  let ws := s.warpsOf tk
  let a := s.slotAddr c i
  let h := (t.halts.find? fun h => h.kind != .preempt).getD (t.halts.headD (s.haltOf ⟨.preempt, 0, false, 0, 0, 0, 0⟩))
  let die := dieOfCore t.core
  let spilled := ws.foldl (fun acc w => (lanesOf (s.liveMask w)).foldl (fun acc l => nextPiece acc fun u => u.spillFibre die c (teamTag tk) w l) acc) (.ok s)
  let fibs := ws.flatMap fun w => allLanes.map fun l => s.fib (fibKey w l)
  let put (off : Nat) (bs : List Byte) (acc : Made State) : Made State := nextPiece acc fun u => u.ctxWrite die c (teamTag tk) (a + off) bs
  let written := put 0xD300 (leBytes 3328 0) (put 0xB300 (fibs.flatMap (fun f => leBytes 8 f.lastseq.toNat) ++ leBytes (8192 - 8 * fibs.length) 0)
    (put 0x3300 (fibs.flatMap fibreBytes ++ leBytes (32768 - 32 * fibs.length) 0)
    (put 0x2300 ((List.range 32).flatMap (s.warpBytes tk h))
    (put 0x0300 ((List.range 4).flatMap (s.bufBytes tk))
    (put 0x0100 (t.barriers.toList.flatMap barrierBytes) (put 0 (s.headerBytes tk) spilled))))))
  nextPiece (if s.slotFrameFits tk then written else .bad 0x11 false 0) fun v =>
    let u := v.forgetAnswers (teamTag tk)
    let u1 : State := { u with saved := aset u.saved (savedKey c i) (s.snapshot tk) }
    let x := u1.ctx c
    let u2 := (u1.setCtx c { x with slots := x.slots ++ [i] }).setTeam tk { t with slot := some i }
    let u3 := ws.foldl (fun v w => let v1 := v.dropLatch w; v1.setWarp w { v1.warp w with pend := [], replay := [], ibuf := [] }) u2
    let u4 := ws.foldl (fun v w => allLanes.foldl (fun v l => let f := v.fib (fibKey w l); v.setFib (fibKey w l) { f with held := [] }) v) u3
    let u5 := ws.foldl (fun v w => v.enterSlotHandler w (x.savevec.setWidth 54) a) u4
    .ok (match (u5.team tk).halts with
      | p :: _ => (u5.setHalt tk { p with phase := .saving, ended := some s.clock }).later (if u5.allEnded tk then 16 else 2 ^ 20) (.saveHandlerTimeout tk)
      | [] => u5)
/-- Whether every live fibre of a team waits at ERET. -/
def allAtEret (s : State) (tk : Nat) : Bool :=
  (s.warpsOf tk).all fun w => (lanesOf (s.liveMask w)).all fun l => (s.fib (fibKey w l)).wait == .eret
/-- The end of a save (R374, step 6): MAGIC last, then the team leaves its core; its writes are performed first. -/
def saveDone (s : State) (tk : Nat) : State :=
  let t := s.team tk
  let c := s.ctxOfTeam tk
  match t.halts, t.slot with
  | h :: _, some i =>
    if h.phase != .saving || !s.allAtEret tk then s
    else if !s.nothingDue tk || s.workOpen tk || !(s.allAcked tk) || s.outs.any fun o => teamOf (o.fibre / 32) == tk then
      (s.sendWrites tk).later 16 (.saveHandlerTimeout tk)
    else match s.ctxWrite (dieOfCore t.core) c (teamTag tk) (s.slotAddr c i) (leBytes 4 0xB4C5) with
      | .bad .. => s.endLaunch t.launch 4
      | .wait u => s.tryAgain u (.saveHandlerTimeout tk)
      | .ok v =>
        let u := v.forgetAnswers (teamTag tk)
        ((({ u.removeTeam tk with teams := adel (u.removeTeam tk).teams tk } : State).preemptDone c)).later 1 .panelDispatch
  | _, _ => s
end State

/-- TEAM_SAVE (R374): the team is held, what its panel has in flight ends, and once a slot is free the device writes it and enters the save
handler. -/
def execTeamSave (team : Nat) (s : State) : Out :=
  let t := s.team team
  let c := s.ctxOfTeam team
  .next (if t.phase == .retired || !t.draining || t.slot.isSome then s
    else if !s.quiet team then ((s.holdTeam team).sendWrites team).later 16 (.teamSave team)
    else if s.mayRetire team then s.retire team
    else if (s.ctx c).savesz.toNat < t.scratch + 0xE000 then s.later 256 (.teamSave team)
    else match s.freeSlot c with
      | none => s.later 256 (.teamSave team)
      | some i => match s.saveInto team i with
        | .ok u => u
        | .wait u => s.tryAgain u (.teamSave team)
        | .bad .. => s.endLaunch t.launch 4)

/-! ### Restore (R379, R380) -/

/-- What a restore reads of a slot's header. -/
structure SlotHead where
  n : Nat
  slot : Nat
  key : Nat
  deriving DecidableEq, Repr

namespace State
/-- The die that the device reads a context's slots from: that of its first usable cluster. -/
def slotDie (s : State) (c : Nat) : Nat := ((s.clustersOf c).headD 0) / 4
/-- A slot's header, if MAGIC, VER and CTX match and the device holds the team (R379); a slot whose device part cannot be read has none (DESIGN CHOICE, log
entry 29). -/
def slotHead (s : State) (c i : Nat) : Made (Option SlotHead) :=
  if (s.ctx c).nslot.toNat ≤ i then .ok none
  else
    let a := s.slotAddr c i
    match s.ctxRead (s.slotDie c) c (slotTag c i) a 256 with
    | .wait t => .wait t
    | .bad .. => .ok none
    | .ok (n, t) =>
      if !(fld n 0 32 == 0xB4C5 && fld n 32 8 == 1 && fld n 48 16 == c && (aget s.saved (savedKey c i)).isSome) then .ok none
      else match t.ctxReach (s.slotDie c) c (slotTag c i) (a + 256) (0xD300 - 256) with
        | .wait u => .wait u
        | .bad .. => .ok none
        | .ok _ => .ok (some ⟨n, i, savedKey c i⟩)
/-- The slots restored together (R379): those of the panel, of the launch where it is persistent. -/
def slotGroup (s : State) (c i : Nat) : List Nat :=
  match aget s.saved (savedKey c i) with
  | none => [i]
  | some v =>
    let per := (aget s.launches v.team.launch).any fun x => x.r.persistent
    let mine := s.saved.filter fun u => u.1 / 65536 == c && u.2.team.launch == v.team.launch && (per || u.2.team.panelid == v.team.panelid)
    sortBy (fun a b => decide (a ≤ b)) (mine.map fun u => u.1 % 65536)
/-- The core a slot's logical place names now (R379); none is NOSHAPE. -/
def slotCore (s : State) (c : Nat) (h : SlotHead) : Option Nat :=
  let vdt := (s.ctx c).vdt
  let v := fld h.n (8 * 0x19) 8
  let sl := fld h.n (8 * 0x1A) 8
  let k := fld h.n (8 * 0x1B) 8
  if v ≤ 3 && sl ≤ 3 && vdtMapped vdt v && vdtUsable vdt v sl && k < s.liveCores (vdtCluster vdt v sl) then some (vdtCluster vdt v sl * 64 + k) else none
/-- Whether a slot's team fits its core beside n teams of the same group that go there too, and its drain buffers are free there. -/
def slotFits (s : State) (c : Nat) (h : SlotHead) (core : Nat) (before : List (SlotHead × Nat)) : Bool :=
  let shape (h : SlotHead) : Nat × Nat := (fld h.n (8 * 0x0D) 8, teamBytes (fld h.n (8 * 0x0D) 8) (16 * fld h.n (8 * 0x0E) 8) (fld h.n (8 * 0x1C) 32))
  let here := (before.filter fun b => b.2 == core).map fun b => shape b.1
  let dbuf := fld h.n (8 * 0x30) 32
  !((s.teamsOn core).any fun t => s.ctxOfTeam t.1 != c) &&
    decide (s.usedContexts core + (here.map (·.1)).sum + (shape h).1 ≤ coreContexts) &&
    decide (s.usedBytes core + (here.map (·.2)).sum + (shape h).2 ≤ coreBytes) &&
    (List.range 4).all fun b => fld dbuf (8 * b) 2 == 0 || (s.buf core b).st == .free
/-- The status of a group, in slot order, and the cores (R379). -/
def groupStatus (s : State) (c : Nat) (is : List Nat) : Made (Nat × List (SlotHead × Nat)) :=
  is.foldl (fun acc i => nextPiece acc fun r => if r.1 != 0 then .ok r else
    nextPiece (s.slotHead c i) fun head => .ok (match head with
      | none => (1, r.2)
      | some h => match s.slotCore c h with
        | none => (2, r.2)
        | some core => if s.slotFits c h core r.2 then (0, r.2 ++ [(h, core)]) else (3, r.2))) (.ok (0, []))
/-- One team of a group is rebuilt (R380, steps 1 and 2). -/
def restoreTeam (s : State) (c : Nat) (h : SlotHead) (core : Nat) : State :=
  match aget s.saved h.key with
  | none => s
  | some v =>
    let a := s.slotAddr c h.slot
    let rdAt (off n : Nat) : Nat := match s.ctxRead (s.slotDie c) c (slotTag c h.slot) (a + off) n with
      | .ok (v, _) => v
      | _ => 0
    let old := v.team
    let s1 := s.enterCore core c
    let ctxs := s1.freeContexts core old.warps
    let tk := s1.nextTeam
    let barrier (i : Nat) : Barrier :=
      let n := rdAt (0x100 + 32 * i) 32
      ⟨fld n 0 16, BitVec.ofNat 32 (fld n 32 32), Vector.ofFn fun j => fld n (64 + 16 * j.val) 16, fld n 16 8 == 1⟩
    let own : Halt := (old.halts.head?).getD (s.haltOf ⟨.preempt, 0, false, 0, 0, 0, 0⟩)
    let halts := { own with kind := .preempt, phase := .restoring, ended := some s.clock } :: old.halts.filter fun x => x.kind != .preempt
    let t : Team :=
      { old with phase := .placed, core := core, grant := s1.reserveRuns core old.warps old.alloc old.scratch, barriers := Vector.ofFn fun i => barrier i.val,
                 rp := fld h.n (8 * 0x20) 64, exsum := BitVec.ofNat 9 (fld h.n (8 * 0x28) 32), halts := halts, slot := some h.slot, draining := false }
    let s2 := s1.addTeam t
    let flags (n : Nat) : Vector FlagSt 12 := Vector.ofFn fun k => ⟨fld n (0x30 * 8 + k.val) 1 == 1, fld n (0x32 * 8 + k.val) 1 == 1, BitVec.ofNat 8 (fld n (8 * (0x34 + k.val)) 8), 0⟩
    let fibre (i l : Nat) : Fibre :=
      let k := 32 * i + l
      let n := rdAt (0x3300 + 32 * k) 32
      let o := (aget v.fibres (fibKey (warpKey v.handle i) l)).getD Fibre.absent
      { o with pc := BitVec.ofNat 54 (fld n 0 54), word := Nat.min 2 (fld n 54 2), live := fld n 56 1 == 1, wb := fld n 64 32, depth := fld n 96 32,
               preds := BitVec.ofNat 7 (fld n 128 7), wait := waitOf (fld n 136 8) (fld n 144 8) (fld n 160 32) (fld n 192 32), held := [], acks := 0,
               lastseq := BitVec.ofNat 64 (rdAt (0xB300 + 8 * k) 8) }
    let s3 := (List.range old.warps).foldl (fun u i =>
      let n := rdAt (0x2300 + 128 * i) 128
      let o := (aget v.warps (warpKey v.handle i)).getD Warp.absent
      let w := warpKey tk i
      let x : Warp := { o with masks := Vector.ofFn fun k => BitVec.ofNat 32 (fld n (32 * k.val) 32), flags := flags n, counters := [], holds := [], ibuf := [],
                               pend := [], replay := [],
                               spin := Spin.free, ctxNum := ctxs.getD i 0, nextStart := u.clock, lastIssue := u.clock, starving := false }
      allLanes.foldl (fun u l => u.setFib (fibKey w l) (fibre i l)) (u.setWarp w x)) s2
    let dbuf := fld h.n (8 * 0x30) 32
    let s4 := (List.range 4).foldl (fun u b =>
      let st := fld dbuf (8 * b) 2
      let wide := fld dbuf (8 * b + 2) 1 == 1
      let nb := if wide then 8 else 4
      if st = 0 then u
      else
        let n := rdAt (0x300 + 2048 * b) 2048
        let els := (List.range 256).map fun i => BitVec.ofNat 64 (fld n (8 * nb * i) (8 * nb))
        let w := warpKey tk (fld dbuf (8 * b + 3) 5)
        let req := ((v.bufs.getD b Buf.empty).pend).map fun d => { d with core := core, warp := w, elems := els }
        u.setBuf core b ⟨if st = 1 then .open_ else .pending, w, wide, els, if st = 3 then req else none⟩) s3
    let s5 : State := { s4 with saved := aset (adel s4.saved h.key) (restKey tk) (s4.snapshot tk) }
    let x := s5.ctx c
    let s6 := s5.setCtx c { x with slots := x.slots.filter (· != h.slot), openRecs := x.openRecs.map fun r => if r.2 == v.handle then (r.1, tk) else r }
    let moved (p : Nat × Nat) : Nat × Nat :=
      if clusterOf p.2 = clusterOf old.core && (aget s.launches old.launch).any (fun y => p.1 / perPanel y.r == old.panelid) then (p.1, clusterOf core * 64 + p.2 % 64)
      else p
    let s7 : State := { s6 with launches := match aget s6.launches old.launch with
      | some y => aset s6.launches old.launch { y with places := y.places.map moved }
      | none => s6.launches }
    s7.l1Trim core
/-- The end of a restore handler (R380, steps 3 and 4): each fibre is back at its saved place and wait, its window refilled; pending words
are replayed first; a response written meanwhile is acted on. -/
def restoreDone (s : State) (tk : Nat) : State :=
  let t := s.team tk
  let c := s.ctxOfTeam tk
  match t.halts, aget s.saved (restKey tk) with
  | h :: rest, some v =>
    if h.phase != .restoring || !s.allAtEret tk then s
    else if !s.nothingDue tk then s.later 16 (.saveHandlerTimeout tk)
    else
      let refill (u : State) (x : Nat × Nat) : Made State :=
        let k := fibKey x.1 x.2
        let o := (aget v.fibres k).getD Fibre.absent
        let f := u.fib k
        let u1 : State := { u.setFib k { f with floor := 2 ^ 26, nres := 0, left_ := o.left_ } with iss := { Issue.none_ with warp := x.1 } }
        match u1.moveWin x.2 o.wb with
        | .ok u2 => .ok (u2.setFib k { u2.fib k with pc := o.pc, word := o.word, preds := o.preds, wait := o.wait, batch := o.batch })
        | r => r
      match State.makeAll refill ((s.warpsOf tk).flatMap fun w => (lanesOf (s.liveMask w)).map fun l => (w, l)) s with
      | .bad .. => s.endLaunch t.launch 4
      | .wait u => s.tryAgain u (.saveHandlerTimeout tk)
      | .ok u =>
        let lvl := rest.length + 1
        let u1 := (u.warpsOf tk).foldl (fun (x : State) w =>
          let y := x.warp w
          let p := ((aget v.warps w).map Warp.pend).getD []
          let r := ((aget v.warps w).map Warp.replay).getD []
          x.setWarp w { y with replay := r ++ p.filter (fun e => e.lvl == lvl), pend := p.filter fun e => e.lvl != lvl,
                               nextBatch := Nat.max y.nextBatch (((aget v.warps w).map Warp.nextBatch).getD 0), ibuf := [] }) u
        let u2 : State := { u1.setTeam tk { u1.team tk with halts := rest, slot := none } with saved := adel u1.saved (restKey tk) }
        let u3 := (if rest.isEmpty then u2.settle tk else u2).unstall t.core
        let u4 := (u3.warpsOf tk).foldl (fun (x : State) w => if (x.warp w).late.isEmpty then x else x.later 0 (.faultDelivery w)) (u3.later 1 (.teamRetire tk))
        match rest with
        | r :: _ =>
          let resp := (u4.homeByte (recordAt (u4.ctx c) r.seq + 7)).toNat
          if r.phase == .recorded && resp != 0 then u4.respond c tk r resp else u4
        | [] => u4
  | _, _ => s
end State

/-- SAVE_HANDLER_TIMEOUT (R374, R375, R380): the handler ends once every batch of it has executed ERET; 2^20 cycles after it was entered, the launch of one that
has not is FAULTED. -/
def execSaveHandlerTimeout (team : Nat) (s : State) : Out :=
  .next (match (s.team team).halts with
    | h :: _ =>
      if h.phase != .saving && h.phase != .restoring then s
      else if !s.allAtEret team then (if h.ended.getD s.clock + 2 ^ 20 ≤ s.clock then s.endLaunch (s.team team).launch 4 else s)
      else if h.phase == .saving then s.saveDone team else s.restoreDone team
    | [] => s)

/-- RESTORE_REQUEST (R379, R380), of a context that its function has (R406); RSTAT is not done while the slot waits for the host (R411). -/
def execRestoreRequest (ctx slot : Nat) (s : State) : Out :=
  let stat (v : Nat) : State := s.setCtx ctx { s.ctx ctx with rstat := BitVec.ofNat 64 v }
  if functions * 64 ≤ ctx then .fault .noSuchUnit
  else .next (if !s.ctxGranted ctx then s else match s.groupStatus ctx (s.slotGroup ctx slot) with
    | .bad .. => stat 257
    | .wait t => (stat 0).tryAgain t (.restoreRequest ctx slot)
    | .ok (st, group) =>
      let s1 := if st != 0 then stat (256 + st) else (group.foldl (fun t g => t.restoreTeam ctx g.1 g.2) (stat 256)).grantDue
      (s.slotGroup ctx slot).foldl (fun t i => t.forgetAnswers (slotTag ctx i)) s1)

/-! ### Debugging (R382 to R384, R213) -/

/-- A write of DBGCTL (R382): HALT stops the team it names unless it is stopped already. -/
def State.writeDbgctl (s : State) (ctx : Nat) (val : DWord) : State :=
  let v := val &&& 0xE3FF0000FFFFFFFF
  let s1 := s.setCtx ctx { s.ctx ctx with dbgctl := v }
  let t := s1.teams.find? fun t => t.2.phase == .running && t.2.teamid == fld v.toNat 0 32 && ((aget s1.launches t.2.launch).map Launch.ctx) == some ctx
  (match t with
    | none => s1
    | some (tk, t) =>
      let free := match t.halts with
        | [] => true
        | h :: _ => h.phase == .handler || h.phase == .stepping
      let w := ((s1.warpsOf tk).find? fun w => s1.liveMask w != 0)
      match w with
      | none => s1
      | some w =>
        let l := (lanesOf (s1.liveMask w)).headD 0
        let m := s1.batchOf w l
        if !v.getLsbD 62 || !free then s1
        else s1.beginHalt w
          { kind := .debug, phase := .stopping, code := 0x32, swcode := 0xFF, warp := warpIx w, lanes := m, pc := 0, word := 0, rpl := false,
            wt := (s1.fib (fibKey w l)).wait != .none, addr := 0, done := ~~~m, flanes := m, db := 0, service := false, ws := [], seq := 0,
            failed := 0, ended := none, dbg := false, key := 0 })
/-- DEBUG_HALT (R382), of a context that its function has (R406). -/
def execDebugHalt (ctx : Nat) (val : DWord) (s : State) : Out :=
  if functions * 64 ≤ ctx then .fault .noSuchUnit else .next (if s.ctxGranted ctx then s.writeDbgctl ctx val else s)
/-- The 64 bytes of a granule as words give them. -/
def granData (v : Nat → Word) : LineData := BitVec.ofNat 1024 ((List.range 16).foldl (fun n i => n + (v i).toNat * 2 ^ (32 * i)) 0)
/-- DEBUG_RAW_READ (R213), of a core that the package has (R8, R11). -/
def execDebugRawRead (core granule : Nat) (s : State) : Out :=
  if 1024 ≤ core || s.liveCores (clusterOf core) ≤ core % 64 || 16384 ≤ granule then .fault .noSuchUnit
  else
    let g := s.granule (core * 16384 + granule)
    .next { s with port := ⟨true, g.tag, granData fun i => g.data.toList.getD i 0⟩ }
/-- Whether a granule of its core is assigned to a team's grant. -/
def assigned (t : Team) (granule : Nat) : Bool := (t.grant.win ++ t.grant.scr).any fun r => r.1 ≤ granule && granule < r.1 + r.2
/-- DEBUG_VIEW_READ (R213): what the grant would read, under R208. Refused where the granule is not assigned to the named grant, live or not (DESIGN CHOICE, log
entry 96: the rule states the refusal only for a write to a granule of no grant). -/
def execDebugViewRead (team granule : Nat) (s : State) : Out :=
  let t := s.team team
  let g := s.granule (t.core * 16384 + granule)
  .next { s with port := if t.phase != .retired && assigned t granule then ⟨true, g.tag, granData (g.read t.grant.gen)⟩ else ⟨false, 0, 0⟩ }
/-- DEBUG_WRITE (R213): a write of eight bytes under R209, refused where the granule is not assigned to the named grant (DESIGN CHOICE, log entry 96, for one
that is assigned to another grant). -/
def execDebugWrite (team granule byte : Nat) (data : DWord) (s : State) : Out :=
  let t := s.team team
  let k := t.core * 16384 + granule
  .next (if t.phase == .retired || !assigned t granule || 64 < byte + 8 then { s with port := ⟨false, 0, 0⟩ }
    else
      let g := (List.range 8).foldl (fun (g : Granule) i => g.setByte t.grant.gen (byte + i) ((data >>> (8 * i)).setWidth 8)) (s.granule k)
      let x := s.core t.core
      { (s.setGranule k g).setCore t.core { x with latch := x.latch.filter fun e => teamOf e.warp != team } with port := ⟨true, t.grant.gen, 0⟩ })

end Sys2Proof.Machine
end

