-- ==== Sys2Proof/Machine/HostPort.lean ====
section
/-! DEFINITION. The host port and pod peers: the mailbox window, the host-line agent, bias flips, register writes, accesses of peers, links
and peers that fail, the function-level reset (spec/28 R391, R402, spec/29 R403 to R423, R436). -/

namespace Sys2Proof.Machine

/-- The bytes of a granule. -/
def granBytes (d : Gran) : List Byte := leBytes 64 d.toNat

namespace State
/-! ### Responses of the host (R411, R414) -/

/-- Serves a request for which the host has answered about a granule, or asks about another: one that the host has taken back meanwhile too (R411). -/
def afterHost (s : State) (inner g : Nat) : State :=
  match s.item inner with
  | none => s
  | some it => match s.gateOf it (g + 1) with
    | some a => s.askHost inner a
    | none => match it with
      | .tile r => s.serveTile inner r
      | _ => s.serve inner
/-- Data of the host is written where it belongs: the home of a window granule, host memory. -/
def hostData (s : State) (g : Nat) (data : Option Gran) : State :=
  match data with
  | none => s
  | some d => s.deviceWrite (64 * g) (granBytes d)
/-- An access that the host's translation refuses ends with permission for its lanes (R404). -/
def refuseHost (s : State) (id : Nat) : State :=
  match s.item id with
  | some (.read r) => (s.readFault id r 0x11 r.lanes).1
  | some (.write w) =>
    (s.writeFault w.warp (w.parts.map fun p => (p, 0x11))).sendAck id w.line ⟨w.warp, w.core, storesOf w.warp w.parts, none, 0, [], [], [], 0, id⟩ [] 0
  | some (.rmw r) =>
    (s.lateLanes r.dest r.src 0x11 [(r.lane.lane, r.lane.va)]).sendAck id r.lane.pa
      ⟨r.dest.warp, r.dest.core, if r.ret then [] else [fibKey r.dest.warp r.lane.lane], none, 0, [], [], [], 0, id⟩ [] 0
  | _ => s
end State

/-- BIRSP (R411): the host's data is applied, the granule's state changes, and the access goes on. -/
def execBirsp (id : Nat) (data : Option Gran) (s : State) : Out := .next (match s.item id with
  | some (.host w) =>
    let g := w.ask.line
    if s.hostSide (64 * g) then s
    else
      let s1 := (s.dropItem id).hostData g data
      (s1.setMb g (if w.ask.excl then .i else s1.sOrO g)).afterHost w.inner g
  | _ => s)
/-- CXL_CACHE_RESPONSE (R404, R414): the agent holds the line for the function where the leaf is tracked, to write it where it asked for that, and the access is
made; a refused translation is permission for the lane. An access within a step finds the answer when it is tried again. -/
def execCxlCacheResponse (id : Nat) (refused : Bool) (data : Option Gran) (s : State) : Out := .next (match s.item id with
  | some (.host w) =>
    let a := w.ask
    let s1 := if w.inner = 0 then s.putItem id (.host { w with refused := some refused }) else s.dropItem id
    let mine (x : Nat × Nat × Bool) : Bool := x.1 == a.fn && x.2.1 == a.line
    if s.inWindow (64 * a.line) || w.refused.isSome then s
    else if refused then (if w.inner = 0 then s1 else s1.refuseHost w.inner)
    else
      let s2 := s1.hostData a.line data
      (if a.tracked then { s2 with hostLines := (s2.hostLines.filter fun x => !mine x) ++ [(a.fn, a.line, a.excl || s.agentHolds a.fn a.line true)] } else s2 :
        State).afterHost w.inner a.line
  | _ => s)
/-- HOST_SNOOP (R414): the agent gives up the line. -/
def execHostSnoop (line : Nat) (s : State) : Out := .next { s with hostLines := s.hostLines.filter fun x => x.2.1 != line / 64 }

/-! ### Requests of the host through CXL.mem (R410, R411, R413) -/

/-- The 64 bytes of a granule as its home serves them. -/
def granRead (s : State) (pa : Nat) : LineData := BitVec.ofNat 1024 (s.homeRd (pa / 64 * 64) 64)
/-- A host read of device memory at its home, under the page's class (R224, R413; log entry 83); bytes whose codeword is lost are not delivered (R369). -/
def hostRead (s : State) (pa : Nat) (next : State → MbState) : State :=
  let g := pa / 64
  match s.homeFetch (64 * g) 64 (s.pageClass pa) s.bad.contains with
  | (t, some code) => { t with port := ⟨false, code.setWidth 16, 0⟩ }
  | (t, none) => { (if t.inWindow pa then t.setMb g (next t) else t) with port := ⟨true, 0, granRead t pa⟩ }
/-- MEMRD_SHARED (R411). -/
def execMemrdShared (pa : Nat) (s : State) : Out :=
  if regionOf pa != .device then .fault .noSuchUnit else .next (hostRead s pa fun t => t.sOrO (pa / 64))
/-- MEMRD_EXCLUSIVE (R411). -/
def execMemrdExclusive (pa : Nat) (s : State) : Out :=
  if regionOf pa != .device then .fault .noSuchUnit else .next (hostRead s pa fun _ => .h)
/-- Answers the host or a peer once the accesses that the answer must follow are performed (R250). -/
def State.answerAfter (s : State) (gate : List Nat) (a : PortAnswer) : State :=
  if gate.all s.performed then { s with port := a } else (s.start (.port gate a)).later 4 (.storeAck s.nextId)
/-- MEMWR (R411, R413): applied at the home slice; the bytes of an ACCX range keep their elements (R228). -/
def execMemwr (pa : Nat) (data : Gran) (s : State) : Out :=
  let g := pa / 64
  if regionOf pa != .device then .fault .noSuchUnit
  else
    let (s1, gate, _) := s.agentWrites (64 * g) (granBytes data)
    .next ((if s.inWindow pa then s1.setMb g .i else s1).answerAfter gate ⟨true, 0, 0⟩)

/-! ### Bias flips (R415, R416) -/

/-- Fields of a BIAS write: page as PA / 65536; whether a zero field is set. -/
def biasPage (v : DWord) : Nat := fld v.toNat 16 36
def biasBad (v : DWord) : Bool := fld v.toNat 52 10 != 0 || fld v.toNat 0 16 != 0
/-- The outcome that needs no flip (R415, steps 1 to 4): INVALID 2, CONFLICT 3, OK 0 without change, BUSY 1. -/
def biasStop (s : State) (fn : Nat) (v : DWord) (toHost : Bool) : Option Nat :=
  let p := biasPage v
  let pa := p * 65536
  let ok := regionOf pa == .device && ((s.func fn).grant.any fun g => g.ranges.any fun r => r.1 ≤ pa && pa < r.1 + r.2) && !s.inWindow pa
  if !ok || biasBad v then some 2
  else if s.contracts.any fun c => c.grans.any fun g => g / 16 == p then some 3
  else if s.hostBias.contains p == toHost then some 0
  else if toHost && s.items.any fun j => (match j.2 with
    | .engine e => e.targets.isEmpty && e.dstPages.any fun x => x.pa == p
    | _ => false) then some 1
  else none
/-- A flip with its result in BSTAT. -/
def biasFlip (s : State) (fn : Nat) (v : DWord) (toHost : Bool) : State :=
  let p := biasPage v
  let done (t : State) (code : Nat) : State := t.setFunc fn { t.func fn with bias := v &&& 0x400FFFFFFFFF0000, bstat := BitVec.ofNat 64 (256 + code) }
  match biasStop s fn v toHost with
  | some code => done s code
  | none =>
    if toHost then
      let keys := (s.rows.filter fun r => r.2.block / 32 == p).map (·.1)
      let s1 := keys.foldl (fun t k => t.evictRow k) s
      done { s1 with reserve := s1.reserve.filter (fun x => x.line / 65536 != p), sharers := s1.sharers.filter (fun x => x.1 / 65536 != p),
                     cores := s1.cores.map (fun c => (c.1, { c.2 with l1 := c.2.l1.filter fun x => x.1 / 65536 != p })),
                     hostBias := s1.hostBias ++ [p] } 0
    else done { s with hostLines := s.hostLines.filter (fun x => x.2.1 / 1024 != p), hostBias := s.hostBias.filter (· != p) } 0
/-- BIAS_FLIP_TO_HOST (R415). -/
def execBiasFlipToHost (fn : Nat) (val : DWord) (s : State) : Out :=
  if functions ≤ fn then .fault .noSuchUnit else .next (biasFlip s fn val true)
/-- BIAS_FLIP_TO_DEVICE (R415). -/
def execBiasFlipToDevice (fn : Nat) (val : DWord) (s : State) : Out :=
  if functions ≤ fn then .fault .noSuchUnit else .next (biasFlip s fn val false)

/-! ### Peers and links (R391, R402, R418 to R420) -/

namespace State
/-- An answer to a peer: a code, 0 for none, and data. -/
def answer (s : State) (code : Nat) (data : Nat) : State := { s with port := ⟨code == 0, BitVec.ofNat 16 code, BitVec.ofNat 1024 data⟩ }
/-- A peer's updates of one line or tile: addresses and values. -/
def peerAdds (s : State) (kd : AccKind) (xs : List (Nat × DWord)) : State :=
  match (xs.map fun x => x.1).findSome? fun a => s.accRefused (homeDie a * 256) a kd with
  | some code => s.answer code.toNat 0
  | none =>
    let n := if kd = .acc64 then 8 else 4
    let lines := (xs.map fun x => lineOf x.1).eraseDups
    let secsOf (l : Nat) : List Nat := ((xs.filter fun x => lineOf x.1 == l).flatMap fun x => sectorsOf x.1 n).eraseDups
    let fetched := lines.foldl (fun (acc : State × List (Nat × Spot × List Nat) × Option (BitVec 8)) l => match acc with
      | (t, got, some code) => (t, got, some code)
      | (t, got, none) =>
        let (t1, spot) := t.spotFor l (t.pageClass l) .normal
        match t1.updateFetch l (secsOf l) spot t1.bad.contains true with
        | (u, .error code) => (u, got, some code)
        | (u, .ok miss) => (u, got ++ [(l, spot, miss)], none)) (s, [], none)
    match fetched with
    | (t, _, some code) => t.answer code.toNat 0
    | (t, got, none) =>
      let t0 := got.foldl (fun u g => (if g.2.2.isEmpty then u else u.filledLine g.1).spotMark g.2.1 (secsOf g.1) true) t
      let (t1, exs) := xs.foldl (fun (a : State × Exs) x => let (u, e) := a.1.accumulate kd x.1 x.2; (u, a.2 ||| e)) (t0, 0)
      let (t2, gate) := lines.foldl (fun (a : State × List Nat) l =>
        let (u, _, g) := a.1.appliedAt l none false
        ({ u with reserve := u.reserve.filter fun x => x.line != l }, a.2 ++ g)) (t1, [])
      ((t2.takeTag ((xs.head?.map (·.1)).getD 0)).2).answerAfter gate ⟨true, 0, BitVec.ofNat 1024 exs.toNat⟩
/-- A peer's read-modify-write (R224, R278, R418): one lookup; the answer holds the old value and, from bit 64 on, the exception bits (R93). -/
def peerRmw (s : State) (op : AtomOp) (w : Bool) (pa : Nat) (v c : DWord) : State :=
  let n := if w then 8 else 4
  let secs := sectorsOf pa n
  let (s1, spot) := s.spotFor pa (s.pageClass pa) .normal
  match s1.fetchAt spot pa n s1.bad.contains with
  | (s2, some code) => s2.answer code.toNat 0
  | (s2, none) =>
    let (s3, sound) := s2.readOld spot pa secs
    if !sound then s3.answer 0x21 0
    else
      let old := s3.homeRd pa n
      let (new, exs) := rmwValue op w old (v.toNat % 2 ^ (8 * n)) (c.toNat % 2 ^ (8 * n))
      let (s4, _, gate) := (((s3.spotMark spot secs true).wr pa n new).takeTag pa).2.appliedAt (lineOf pa) none false
      ({ s4 with reserve := s4.reserve.filter fun x => x.line != lineOf pa } : State).answerAfter gate ⟨true, 0, BitVec.ofNat 1024 (old + exs.toNat * 2 ^ 64)⟩
/-- A change in the memory of a pod peer (R418, R420; DESIGN CHOICE, log entry 17): bytes; a granule that becomes an ACCX range of the peer, its elements
converted, or ceases to be one; a fault of a line's home. It touches no memory but a peer's. -/
def peerMove (s : State) (m : PeerMove) : State :=
  let peer (pa : Nat) : Bool := match regionOf pa with
    | .peer _ => true
    | _ => false
  match m with
  | .bytes pa bs => if peer pa && peer (pa + bs.length) && !(List.range bs.length).any fun i => s.accxAt (pa + i) then s.poke pa bs else s
  | .accx g on =>
    if !peer (4096 * g) || s.peerAccx.contains g == on then s
    else if on then
      let put (a : Assoc (BitVec 128)) (pa : Nat) : Assoc (BitVec 128) :=
        let q := (accxConvert (s.rd pa 4)).1
        if q = 0 then a else aset a (pa / 4) (BitVec.ofInt 128 q)
      { s with peerAccx := s.peerAccx ++ [g], accx := (accxCells [g]).foldl put s.accx }
    else
      let t := (accxCells [g]).foldl (fun t pa => t.wr pa 4 (s.accxRead pa)) s
      { t with peerAccx := t.peerAccx.filter (· != g), accx := t.accx.filter fun e => e.1 / 1024 != g }
  | .fault line code =>
    if !peer line then s
    else { s with peerFaults := if code = 0 then adel s.peerFaults (lineOf line) else aset s.peerFaults (lineOf line) code }
end State
/-- PEER_REQUEST (R418, R420): an access of a pod peer at its home slice, under the page's class (R224; log entry 83); what goes back stands in the port's
answer. -/
def execPeerRequest (_peer : Nat) (act : PeerAct) (s : State) : Out :=
  let pa := match act with
    | .read pa _ => pa
    | .write pa _ => pa
    | .rmw _ _ pa _ _ => pa
    | .acc _ pa _ => pa
    | .tile _ pa _ => pa
  .next (if regionOf pa != .device then s.answer 0x11 0
    else if s.lostAt pa then s.answer 0x13 0
    else match act with
    | .read pa n => (match s.homeFetch pa (Nat.min n 128) (s.pageClass pa) s.bad.contains with
      | (t, some code) => t.answer code.toNat 0
      | (t, none) => t.answer 0 (t.homeRd pa (Nat.min n 128)))
    | .write pa bs =>
      if s.accxAt pa then s.answer 0x14 0
      else
        let (u, gate, ok) := s.agentWrites pa bs
        if ok then u.answerAfter gate ⟨true, 0, 0⟩
        else u.answer (if (s.mend ((sectorsOf pa bs.length).filter fun x => s.inSkein (32 * x))).2 then 0x20 else 0x21) 0
    | .rmw op w pa v c => if s.accxAt pa then s.answer 0x14 0 else s.peerRmw op w pa v c
    | .acc kd pa x => s.peerAdds kd [(pa, x)]
    | .tile kd pa xs => s.peerAdds kd ((List.range xs.length).map fun i => (pa + (if kd = .acc64 then 8 else 4) * i, xs.getD i 0)))
/-- LINK_RETRY (R391): the flit is sent again and applied once; the log says so. -/
def execLinkRetry (link : Nat) (s : State) : Out := .next (s.needle .dieLink [link])
/-- DIE_LINK_FAILURE (R402). -/
def execDieLinkFailure (a b : Nat) (s : State) : Out :=
  if 4 ≤ a || 4 ≤ b || a == b || (a ^^^ b) == 3 then .fault .noSuchUnit
  else .next ({ s with deadLinks := s.deadLinks ++ [(a, b)] }.needle .dieLink [a, b])
/-- PEER_UNREACHABLE (R419). -/
def execPeerUnreachable (peer : Nat) (s : State) : Out := .next ({ s with deadPeers := s.deadPeers ++ [peer] }.needle .ossel [peer])

/-! ### The register space (R405 to R407, R436) -/

/-- A context register with the bits that a plain write sets (R245, R356, R370, R376, R382, R406); none has a behaviour of its own or is
read only. -/
def ctxMask (off : Nat) : Option DWord :=
  if off = 0x00 || off = 0x08 then some 0x800FFFFFFFFFF01F
  else if off = 0x18 then some 0xFFFFFFFFFFFFFC0F
  else if off = 0x20 then some 0xFFFFFFFF00000000
  else if off = 0x30 || off = 0x60 || off = 0x68 then some 0x003FFFFFFFFFFFFF
  else if off = 0x40 then some 0xFFFFFFFFFFFFFFFF
  else if off = 0x48 || off = 0x50 then some 0xFFFFFFFFFFFFF000
  else if off = 0x58 then some 0xFFFF
  else if off = 0x88 then some 0xE3FF0000FFFFFFFF
  else if 0x90 ≤ off && off < 0xD0 then some 0x80FFFFFFFFFFFFFF
  else if 0xD0 ≤ off && off < 0xF0 then some 0xFFFFFFFFFFFFFFFF
  else none
/-- What those registers hold. -/
def ctxReg (c : Ctx) (off : Nat) : DWord :=
  match off with
  | 0x00 => c.troot
  | 0x08 => c.vtroot
  | 0x18 => c.fring
  | 0x20 => c.fhead ++ c.ftail
  | 0x30 => c.trapvec
  | 0x40 => c.pcores
  | 0x48 => c.saveb
  | 0x50 => c.savesz
  | 0x58 => c.nslot
  | 0x60 => c.savevec
  | 0x68 => c.restvec
  | 0x88 => c.dbgctl
  | off => if off < 0xD0 then c.bp.toList.getD ((off - 0x90) / 8) 0 else c.wp.toList.getD ((off - 0xD0) / 8) 0
/-- A context with one of them replaced. -/
def setCtxReg (c : Ctx) (off : Nat) (v : DWord) : Ctx :=
  match off with
  | 0x00 => { c with troot := v }
  | 0x08 => { c with vtroot := v }
  | 0x18 => { c with fring := v }
  | 0x20 => { c with fhead := (v >>> 32).setWidth 32 }
  | 0x30 => { c with trapvec := v }
  | 0x40 => { c with pcores := v }
  | 0x48 => { c with saveb := v }
  | 0x50 => { c with savesz := v }
  | 0x58 => { c with nslot := v }
  | 0x60 => { c with savevec := v }
  | 0x68 => { c with restvec := v }
  | 0x88 => { c with dbgctl := v }
  | off =>
    if off < 0xD0 then (if h : (off - 0x90) / 8 < 8 then { c with bp := c.bp.set ((off - 0x90) / 8) v } else c)
    else if h : (off - 0xD0) / 8 < 4 then { c with wp := c.wp.set ((off - 0xD0) / 8) v } else c
/-- A register after a write of 8 bytes, or of the 4 at an offset (R436). -/
def mergeHalf (old : DWord) (off : Nat) (wide : Bool) (val : DWord) : DWord :=
  if wide then val else if off % 8 = 4 then (val.setWidth 32) ++ old.setWidth 32 else (old >>> 32).setWidth 32 ++ val.setWidth 32
/-- The words of a queue's register block (R185). -/
def queueWord (x : Queue) (k : Nat) : DWord :=
  let bit (b : Bool) (n : Nat) : Nat := if b then 2 ^ n else 0
  match k with
  | 0 => x.ring
  | 1 => x.cring
  | 2 => x.tail ++ (0 : Word)
  | 3 => BitVec.ofNat 64 (x.head.toNat + x.logn * 2 ^ 32 + x.weight * 2 ^ 40 + x.ctx * 2 ^ 48 + bit x.en 56 + bit x.irq 57 + bit x.err 60)
  | 4 => BitVec.ofNat 64 (x.done.toNat + x.errcode * 2 ^ 32)
  | _ => 0

namespace State
/-- The function block (R407): the pod number is the device's; the window is shown to a function that is granted it. -/
def funcWord (s : State) (fn off : Nat) : DWord :=
  let f := s.func fn
  let shown := f.grant.any fun g => g.window.isSome
  match off with
  | 0x00 => BitVec.ofNat 64 (fld f.fstat.toNat 8 8 * 256 + s.pod)
  | 0x08 => f.abort
  | 0x10 => f.bias
  | 0x18 => f.bstat
  | 0x20 => if shown then s.mbbase else 0
  | 0x28 => if shown then s.mbhost else 0
  | _ => 0
/-- A register of a context block as it is read (R406): FACK and RSLOT are only written. -/
def ctxWord (s : State) (c off : Nat) : DWord :=
  let x := s.ctx c
  match off with
  | 0x10 => x.dblmap
  | 0x38 => x.preq
  | 0x78 => x.rstat
  | 0x80 => BitVec.ofNat 64 x.cycles
  | 0xF0 => x.vdt
  | off => if (ctxMask off).isSome then ctxReg x off else 0
/-- The 64-bit register at an offset of BAR0 (R405, R406): a context that is not granted reads as zero. -/
def barWord (s : State) (fn off : Nat) : DWord :=
  if off < 0x1000 then queueWord (s.queueOf fn (off / 64)) (off % 64 / 8)
  else if off < 0x1040 then s.funcWord fn (off - 0x1000)
  else if 0x10000 ≤ off && off < 0x20000 then
    let c := fn * 64 + (off - 0x10000) / 0x400
    if s.ctxGranted c then s.ctxWord c ((off - 0x10000) % 0x400) else 0
  else 0
/-- What a read of BAR0 answers (R405, R436): of 8 bytes or 4; a misaligned one reads as zero. It brings nothing into the machine (log entry 68). -/
def registerRead (s : State) (fn off : Nat) (wide : Bool) : DWord :=
  let v := s.barWord fn (off / 8 * 8)
  if off % (if wide then 8 else 4) != 0 then 0 else if wide then v else if off % 8 = 4 then v >>> 32 else (v.setWidth 32).setWidth 64
/-- A write to a queue's block (R185, R186): `hi` and `lo` say which halves it covers. RING and CRING ignore writes while the queue is enabled. -/
def writeQueueWord (s : State) (fn q k : Nat) (hi : Bool) (v : DWord) : Out :=
  let x := s.queueOf fn q
  match k with
  | 0 => .next (if x.en then s else s.setQueue fn q { x with ring := v &&& 0xFFFFFFFFFFFFFF80 })
  | 1 => .next (if x.en then s else s.setQueue fn q { x with cring := v &&& 0xFFFFFFFFFFFFFFC0 })
  | 2 => if hi then execTailWrite fn q ((v >>> 32).setWidth 32) s else .next s
  | 3 => .next (if hi then s.configQueue fn q v else s)
  | _ => .next s
/-- A write to the function block (R407): a GO begins an abort or a flip; without it the fields are kept. While an abort is in progress ABORT keeps what it
names (DESIGN CHOICE, log entry 101). -/
def writeFuncWord (s : State) (fn off : Nat) (v : DWord) : Out :=
  let f := s.func fn
  match off with
  | 0x08 =>
    if v.getLsbD 63 then execAbortLaunch fn (fld v.toNat 56 6) (v.setWidth 32) s
    else .next (if fld f.abort.toNat 32 2 == 1 then s else s.setFunc fn { f with abort := (v &&& 0x3F000000FFFFFFFF) ||| (f.abort &&& 0x0000000300000000) })
  | 0x10 => .next (if v.getLsbD 63 then biasFlip s fn v (!v.getLsbD 62) else s.setFunc fn { f with bias := v &&& 0x7FFFFFFFFFFFFFFF })
  | _ => .next s
/-- A write to a context block (R406), of a context that is granted. ALIAS is cleared by a write of 0 that covers AV; PREQ's GO begins a request. A new table
root drops the context's cached translations (DEDUCED, log entry 31). -/
def writeCtxWord (s : State) (c off : Nat) (hi lo : Bool) (v : DWord) : Out :=
  let x := s.ctx c
  match off with
  | 0x10 => .next (if hi && v >>> 32 == 0 && (!lo || v == 0) then s.setCtx c { x with dblmap := 0 } else s)
  | 0x28 => if lo then execFackWrite c (v.setWidth 32) s else .next s
  | 0x38 =>
    if !lo || fld x.preq.toNat 32 8 == 1 then .next s
    else if v.getLsbD 0 then execPreemptRequest c (v.getLsbD 1) s
    else .next (s.setCtx c { x with preq := (x.preq &&& 0xFFFFFFFF00000000) ||| (v &&& 2) })
  | 0x70 => if lo then execRestoreRequest c (v.toNat % 2 ^ 32) s else .next s
  | 0x88 => .next (if hi then s.writeDbgctl c v else s.setCtx c { x with dbgctl := v &&& 0xE3FF0000FFFFFFFF })
  | off => .next (match ctxMask off with
    | none => s
    | some m =>
      let s1 := s.setCtx c (setCtxReg x off (v &&& m))
      if off ≤ 0x08 then { s1 with tlbs := s1.tlbs.filter fun t => t.ctx != c } else s1)
end State

/-- REGISTER_WRITE (R405 to R407, R436): a write of 8 bytes, or of 4 into its half, to any register of BAR0. A misaligned write, one of a zero area and one of a
context that is not granted are ignored. -/
def execRegisterWrite (fn off : Nat) (wide : Bool) (val : DWord) (s : State) : Out :=
  let v := mergeHalf (s.barWord fn (off / 8 * 8)) off wide val
  let hi := wide || off % 8 = 4
  let lo := wide || off % 8 = 0
  if functions ≤ fn then .fault .noSuchUnit
  else if off % (if wide then 8 else 4) != 0 then .next s
  else if off < 0x1000 then s.writeQueueWord fn (off / 64) (off % 64 / 8) hi v
  else if off < 0x1040 then s.writeFuncWord fn ((off - 0x1000) / 8 * 8) v
  else if 0x10000 ≤ off && off < 0x20000 then
    let c := fn * 64 + (off - 0x10000) / 0x400
    if s.ctxGranted c then s.writeCtxWord c ((off - 0x10000) % 0x400 / 8 * 8) hi lo v else .next s
  else .next s
/-- ALIAS_CLEAR (R245), of a context that its function has (R406). -/
def execAliasClear (ctx : Nat) (s : State) : Out :=
  if functions * 64 ≤ ctx then .fault .noSuchUnit else .next (if s.ctxGranted ctx then s.setCtx ctx { s.ctx ctx with dblmap := 0 } else s)

/-! ### The function-level reset (R423) -/

namespace State
/-- Every record of a queue that is not consumed completes with STATUS 5. -/
def dropQueued (s : State) (fn q : Nat) : State :=
  let x := s.queueOf fn q
  (List.range (x.tail - x.head).toNat).foldl (fun t _ =>
    let y := t.queueOf fn q
    let seq := seqNext y.head.toNat
    let tag : DWord := (launchRec (t.homeRd (y.ring.toNat + 128 * slotOf seq y.logn) 128)).tag
    (t.setQueue fn q { y with head := BitVec.ofNat 32 seq, valid := none }).complete ⟨fn, q, y.epoch, seq, 5, 0, 0, none, 0, tag⟩) s
end State
/-- FUNCTION_LEVEL_RESET (R423): queues, launches, contracts, context blocks; a context keeps the virtual die table that firmware gave it. -/
def execFunctionLevelReset (fn : Nat) (s : State) : Out :=
  let on := (List.range 64).filter fun q => (s.queueOf fn q).en
  let s1 := (List.range 64).foldl (fun t q => if (t.queueOf fn q).en then t.setQueue fn q { t.queueOf fn q with en := false } else t) s
  let s2 := (s1.launches.filter fun l => l.2.fn == fn).foldl (fun t l => t.endLaunch l.1 5) s1
  let s3 := on.foldl (fun t q => t.dropQueued fn q) s2
  let s4 := (s3.contracts.filter fun c => c.ctx / 64 == fn).foldl (fun t c => t.releaseContract c) s3
  let s5 := (List.range 64).foldl (fun t i =>
    let c := fn * 64 + i
    if (aget t.ctxs c).isSome then t.setCtx c { Ctx.reset with vdt := (t.ctx c).vdt, vdtNext := (t.ctx c).vdtNext } else t) s4
  if functions ≤ fn then .fault .noSuchUnit
  else .next { s5 with tlbs := s5.tlbs.filter (fun t => t.ctx / 64 != fn), lost := s5.lost.filter fun l => l.ctx / 64 != fn }

end Sys2Proof.Machine
end

