-- ==== Sys2Proof/Machine/Firmware.lean ====
section
/-! DEFINITION. What trusted firmware and the Needle do: virtual die tables, grants, key slots, reset, updates, clock and heat (spec/28 R393,
spec/29 R421, spec/30 R426 to R432), and the two housekeeping moves of the issue selector (spec/12 R200, R201). -/

namespace Sys2Proof.Machine

/-! ### Virtual die tables (R392, R393) -/

/-- Whether the device takes a table: mapped entries name different dies, have a usable slot and no zero bit set, and their usable slots
name different clusters. -/
def vdtOk (v : DWord) : Bool :=
  let mapped := (List.range 4).filter (vdtMapped v)
  (mapped.all fun i => fld (vdtEntry v i) 0 4 != 0 && fld (vdtEntry v i) 6 1 == 0) &&
    (mapped.map (vdtDie v)).eraseDups.length == mapped.length &&
    mapped.all fun i =>
      let slots := (List.range 4).filter (vdtUsable v i)
      (slots.map (vdtCluster v i)).eraseDups.length == slots.length
/-- A table as it stands in csr.vdt: the zero bit of an entry that maps nothing ignores what is written (R3, R392). -/
def vdtKept (v : DWord) : DWord := v &&& 0xFFFFFFFFBFBFBFBF
/-- VDT_WRITE (R393): a table that passes is in force at once where the context has no team on a core. A context beyond the 33 functions with 64 each is none of
the device (R9). -/
def execVdtWrite (ctx : Nat) (val : DWord) (s : State) : Out :=
  let x := s.ctx ctx
  if functions * 64 ≤ ctx then .fault .noSuchUnit
  else .next (if !vdtOk val then s
    else if hasTeams s ctx then (s.setCtx ctx { x with vdtNext := some (vdtKept val) }).later 1 (.vdtApply ctx)
    else (s.setCtx ctx { x with vdt := vdtKept val, vdtNext := none }).later 1 .panelDispatch)
/-- VDT_APPLY (R393): the first moment at which the context has no team on a core. -/
def execVdtApply (ctx : Nat) (s : State) : Out :=
  let x := s.ctx ctx
  .next (match x.vdtNext with
    | none => s
    | some v => if hasTeams s ctx then s.later 64 (.vdtApply ctx) else (s.setCtx ctx { x with vdt := v, vdtNext := none }).later 1 .panelDispatch)

/-! ### Grants and keys (R421, R422, R426) -/

/-- Whether a grant keeps the limits of R409, R417, R421 and R422. -/
def grantOk (g : GrantRec) : Bool :=
  g.ctxn ≤ 64 && g.ranges.length ≤ 16 && (g.ranges.all fun r => r.1 % 2 ^ 16 == 0 && r.2 % 2 ^ 16 == 0) && 1 ≤ g.weight && g.weight ≤ 255 &&
    g.pod ≤ 255 && (g.peerRanges.all fun r => decide ((g.peerRanges.filter fun x => x.1 == r.1).length ≤ 8)) && (g.window.all fun w => w.1 % 2 ^ 30 == 0 && regionOf w.1 == .device)
/-- GRANT_SET (R407, R409, R417, R421). A grant outside the limits changes nothing. The function's cached translations are dropped with the old grant, those of
all functions where the window moves: a hit must not pass where a walk would not (R249). A window that moves begins with no granule that the host holds (DESIGN
CHOICE, log entry 100); the pod number and the ranges of peers are the device's. -/
def execGrantSet (fn : Nat) (grant : GrantRec) (s : State) : Out :=
  if functions ≤ fn then .fault .noSuchUnit
  else .next (if !grantOk grant then s
    else
      let s0 : State := { s with tlbs := s.tlbs.filter fun t => t.ctx / 64 != fn, pod := grant.pod, peerRanges := grant.peerRanges }
      let s1 := s0.setFunc fn { s.func fn with grant := some grant, fstat := BitVec.ofNat 64 (grant.ctxn * 256 + grant.pod) }
      let s2 : State := { s1 with mbOn := s1.funcs.any fun f => f.2.grant.any fun g => g.window.isSome }
      let s3 : State := match grant.window with
        | some (base, host) => { s2 with mbbase := BitVec.ofNat 64 base, mbhost := host }
        | none => s2
      if s3.mbOn == s.mbOn && s3.mbbase == s.mbbase then s3 else { s3 with tlbs := [], mbox := [] })
/-- KEY_SLOT_WRITE (R426): only while the function has no launch and no contract. -/
def execKeySlotWrite (fn slot key : Nat) (s : State) : Out :=
  let f := s.func fn
  if functions ≤ fn || 16 ≤ slot then .fault .noSuchUnit
  else .next (if s.launches.any (fun l => l.2.fn == fn) || s.contracts.any (fun c => c.ctx / 64 == fn) then s
    else s.setFunc fn { f with keys := (f.keys.filter fun k => k.1 != slot) ++ [(slot, key)] })

/-! ### Reset, updates, clock (R427, R428, R430, R432) -/

/-- DEVICE_RESET (R427, R428): the machine after reset with the harvest map of its blocks and the firmware of its flash, where staged
images whose version the blocks allow take effect; a refused block, or one with more harvested positions than a cluster may have (R11, DESIGN CHOICE, log
entry 88), leaves the device in recovery. Memory keeps what it holds (DEDUCED, log entry 30). -/
def execDeviceReset (blocks : ConfigBlocks) (s : State) : Out :=
  let map := blocks.harvest.eraseDups
  let mapOk := (map.all fun h => decide (h.1 < 16) && decide (h.2 < 48)) && (List.range 16).all fun cl => decide ((map.filter fun h => h.1 == cl).length ≤ 2)
  let taken := blocks.signed && blocks.bound && mapOk
  let good := taken && blocks.imagesOk
  let least (root : Bool) : Nat :=
    if root then (if taken then blocks.minRoot else s.firmware.minRoot) else if taken then blocks.minMain else s.firmware.minMain
  let last (root : Bool) (old : Nat) : Nat :=
    (s.firmware.staged.filter fun i => i.root == root && decide (least root ≤ i.version)).foldl (fun _ i => i.version) old
  let fw : Firmware := ⟨!good, taken, last true s.firmware.rootVersion, last false s.firmware.mainVersion, least true, least false, [], 2000, false⟩
  .next { State.reset with
    harvest := if taken then blocks.harvest else s.harvest,
    firmware := fw, mem := s.mem, agenda := s.agenda, choices := s.choices, log := s.log, bad := s.bad, keyOf := s.keyOf,
    deadLinks := s.deadLinks, deadPeers := s.deadPeers, peerAccx := s.peerAccx, peerFaults := s.peerFaults }
/-- FIRMWARE_UPDATE_STAGE (R428, R430): an image is staged where its signature holds and its version is not below the minimum. -/
def execFirmwareUpdateStage (img : FirmwareImage) (s : State) : Out :=
  let least := if img.root then s.firmware.minRoot else s.firmware.minMain
  .next (if img.signed && least ≤ img.version then { s with firmware := { s.firmware with staged := s.firmware.staged ++ [img] } } else s)
/-- THERMAL_THROTTLE (R432). -/
def execThermalThrottle (s : State) : Out :=
  .next ({ s with firmware := { s.firmware with mhz := Nat.max 1200 (s.firmware.mhz - 100) } }.needle .thermal [Nat.max 1200 (s.firmware.mhz - 100)])
/-- CLOCK_RESTORE (R432). -/
def execClockRestore (s : State) : Out := .next { s with firmware := { s.firmware with mhz := Nat.min 2000 (s.firmware.mhz + 100) } }
/-- THERMAL_SHUTDOWN (R432): dispatch stops and every launch ends with STATUS 5. -/
def execThermalShutdown (s : State) : Out :=
  let s1 := ({ s with firmware := { s.firmware with shut := true } } : State).needle .thermal [115]
  .next (s1.launches.foldl (fun t l => t.endLaunch l.1 5) s1)

/-! ### Starving warps and spinning batches (R200, R201) -/

/-- WARP_STARVING (R200): a warp with a ready batch that has issued nothing for 960 cycles. -/
def execWarpStarving (warp : Nat) (s : State) : Out :=
  let x := s.warp warp
  .next (if x.live && s.warpReady warp && x.lastIssue + 960 ≤ s.clock then s.setWarp warp { x with starving := true } else s)
/-- SPIN_DEMOTE (R201): after 16 unchanging iterations in a row. -/
def execSpinDemote (warp : Nat) (s : State) : Out :=
  let x := s.warp warp
  .next (if x.spin.armed && 16 ≤ x.spin.count then s.setWarp warp { x with spin := { x.spin with demoted := true } } else s)

end Sys2Proof.Machine
end

