-- ==== Sys2Proof/Machine/Issue.lean ====
section
/-! DEFINITION. Issue: which batch a core's port takes (spec/12 R198 to R200), how a group issues (spec/02 R29 to R31, spec/03 R36 to R45),
what the spin detector, the debug registers and the halts see of it (R201, R352, R365, R367, R383, R384), the words of a group that take effect later
(R262, R264), and the passing of time. A cycle is the issue of groups, at most one a core, and then the events that fall due in it. -/

namespace Sys2Proof.Machine

/-- Words that a save or restore batch may not use (R375, R380): the restore handler may use SCLD. -/
def slotForbids (restoring : Bool) : Instr → Bool
  | .spawn .. | .mma .. | .mma64 .. | .mdrain .. | .tcopy .. | .tcast .. | .hgath .. | .hred .. | .hcvt .. | .barinit .. | .bararr ..
  | .barwait .. | .bararw .. | .barq .. | .join .. | .waitm .. | .waitf .. | .reside .. | .unreside .. => true
  | .scld .. | .scldScr .. => !restoring
  | _ => false
/-- What a word that the watchpoints watch touches in a lane (R383): base register, bytes, whether it reads, whether it writes. -/
def watched : Instr → Option (Reg × Nat × Bool × Bool)
  | .ld _ _ a sz _ _ | .lda _ _ a sz _ => some (a, sizeBytes sz, true, false)
  | .st _ a _ sz _ | .stl _ a _ sz _ => some (a, sizeBytes sz, false, true)
  | .atom _ _ a _ w _ | .red _ _ a _ w => some (a, if w then 8 else 4, true, true)
  | .accadd _ a _ kd => some (a, if kd == .acc64 then 8 else 4, false, true)
  | .rowld _ _ a _ => some (a, 2048, true, false)
  | .rowst _ a _ => some (a, 2048, false, true)
  | _ => none
/-- Whether a watchpoint watches an access (R382). -/
def wpHit (w : DWord) (va n : Nat) (rd wr : Bool) : Bool :=
  let size := 2 ^ (fld w.toNat 57 4 + 2)
  let base := fld w.toNat 0 57 / size * size
  w.getLsbD 63 && ((w.getLsbD 62 && wr) || (w.getLsbD 61 && rd)) && decide (va < base + size) && decide (base < va + n)

namespace State

/-! ### Candidates (R163, R199, R352, R353, R355) -/

/-- Whether a warp may issue at all now: its team runs or skids, its launch has not ended, its core is not stalled. -/
def mayIssue (s : State) (w : Nat) : Bool :=
  let t := s.team (teamOf w)
  t.phase == .running && !(s.core t.core).stalled && !((aget s.launches t.launch).bind Launch.ending).isSome &&
    (match t.halts with
      | [] => true
      | h :: _ => match h.phase with
        | .stopping => (s.warp w).skidLeft != 0
        | .handler | .stepping => h.warp == warpIx w
        | .saving | .restoring => true
        | _ => false)
/-- Whether a sibling of a stopping team issues in its skid. -/
def inSkid (s : State) (w : Nat) : Bool := (s.team (teamOf w)).halts.head?.any fun h => h.phase == .stopping
/-- Whether a lane waits at nothing and may go on (R163). -/
def laneGoes (s : State) (w l : Nat) : Bool :=
  let f := s.fib (fibKey w l)
  f.live && f.wait == .none && (s.inSkid w || s.running w l) && !(s.warp w).heldIn (s.batchOf w l)
/-- The batches of a warp that may go on: the lowest lane and the lanes of each. -/
def goers (s : State) (w : Nat) : List (Nat × Mask) :=
  (lanesOf (s.liveMask w)).filterMap fun l =>
    let m := s.batchOf w l
    if (lanesOf m).head? == some l && s.laneGoes w l then some (l, m) else none
/-- The packet that a batch stands at, where it is in hand. -/
def packetOf (s : State) (w : Nat) (b : Nat × Mask) : Option (List Nat) := (s.warp w).packet (s.fib (fibKey w b.1)).pc
/-- Whether a batch's next group is in hand and waits at nothing (R45, R163). -/
def batchReady (s : State) (w : Nat) (b : Nat × Mask) : Bool :=
  (s.packetOf w b).any fun ws => !s.groupWaits w b.2 (groupAt ws (s.fib (fibKey w b.1)).word)
/-- The batches of a warp that may go on, in the order in which it would issue from them (R199): the current one, up to 4 groups in a row; then
the one that has waited longest, the lowest fibre's among equals. -/
def trialOrder (s : State) (w : Nat) : List (Nat × Mask) :=
  let x := s.warp w
  let cur (b : Nat × Mask) : Bool := (s.fib (fibKey w b.1)).batch == x.cur
  let bs := s.goers w
  let rest := sortBy (fun a b => decide ((s.fib (fibKey w a.1)).since ≤ (s.fib (fibKey w b.1)).since)) (bs.filter fun b => !cur b)
  if x.row < 4 then bs.filter cur ++ rest else rest ++ bs.filter cur
/-- Whether a batch is ready (R163): it waits at nothing; what its next group would wait for is not known before its packet is in hand. -/
def ready_ (s : State) (w : Nat) (b : Nat × Mask) : Bool := (s.packetOf w b).isNone || s.batchReady w b
/-- Whether the units that a batch's next group needs are free (R199): the memory unit and the matrix unit. -/
def unitsFree (s : State) (w : Nat) (b : Nat × Mask) : Bool :=
  let c := s.core (s.team (teamOf w)).core
  let is := groupAt ((s.packetOf w b).getD []) (s.fib (fibKey w b.1)).word
  !(is.any fun i => (i.unit == .memory && decide (s.clock < c.memUntil)) || (i.unit == .matrix && decide (s.clock < c.matrixUntil)))
/-- The batches that a warp may issue from now, in that order: ready, in hand, their units free. After 4 groups of the current batch in a row it is not among
them while another one is ready (R163, R199; DEDUCED, log entry 52). -/
def candidates (s : State) (w : Nat) : List (Nat × Mask) :=
  let bs := (s.trialOrder w).filter fun b => s.ready_ w b
  let cur (b : Nat × Mask) : Bool := (s.fib (fibKey w b.1)).batch == (s.warp w).cur
  let turn := if 4 ≤ (s.warp w).row && bs.any (fun b => !cur b) then bs.filter fun b => !cur b else bs
  turn.filter fun b => s.batchReady w b && s.unitsFree w b
/-- The pending word that a warp replays before anything else (R365, R367); the fibres it still runs in. -/
def replayOf (s : State) (w : Nat) : Option (Pend × Mask) :=
  (s.warp w).replay.head?.map fun p => (p, s.liveMask w &&& ~~~p.done)
/-- Whether a warp may start a group now, if a batch of it is issuable. -/
def canTry (s : State) (w : Nat) : Bool :=
  let x := s.warp w
  x.live && s.mayIssue w && decide (x.nextStart ≤ s.clock) && decide ((s.core (s.team (teamOf w)).core).issueUntil ≤ s.clock)
/-- Whether a warp has gone without a group for 960 cycles while it had a ready batch (R200). -/
def starved (s : State) (w : Nat) : Bool :=
  let x := s.warp w
  x.live && !x.starving && s.mayIssue w && x.lastIssue + 960 ≤ s.clock && s.warpReady w
/-- What a warp may try now: its replay, or its candidates (R199, R365). -/
def turnsOf (s : State) (w : Nat) : List (Option (Nat × Mask)) :=
  if (s.warp w).replay.isEmpty then (s.candidates w).map some else [none]
/-- The order of the port among warps with what each would issue (R200): starving, later stage, not demoted, least recently issued, context number. -/
def before (s : State) (p q : Nat × List (Option (Nat × Mask))) : Bool :=
  let x := s.warp p.1
  let y := s.warp q.1
  let st (w : Nat) : Nat := (s.team (teamOf w)).stage
  let dem (p : Nat × List (Option (Nat × Mask))) : Nat :=
    let z := (s.warp p.1).spin
    if z.demoted && p.2.head?.any fun o => o.any fun b => b.2 == z.lanes then 1 else 0
  let lex (l : List (Nat × Nat)) : Bool := (l.find? fun p => p.1 != p.2).all fun p => decide (p.1 < p.2)
  lex [(if x.starving then 0 else 1, if y.starving then 0 else 1), (st q.1, st p.1), (dem p, dem q), (x.lastIssue, y.lastIssue), (x.ctxNum, y.ctxNum)]
/-- The next packet that a warp needs and has not asked for: each batch that may go on needs its own (R163). -/
def wantsFetch (s : State) (w : Nat) : Option Pc :=
  let x := s.warp w
  let lacks (pc : Pc) : Bool := (x.packet pc).isNone && !s.queue.any fun q => q.ev == .instructionFetch w pc
  if !x.live || !s.mayIssue w then none
  else match s.replayOf w with
    | some (p, _) => if p.ws.isEmpty && lacks p.pc then some p.pc else none
    | none => ((s.trialOrder w).map fun b => (s.fib (fibKey w b.1)).pc).find? lacks
/-- Every warp of the device, core by core. -/
def allWarps (s : State) : List Nat :=
  (s.teams.filter fun t => t.2.phase == .running).flatMap fun t => (List.range t.2.warps).map fun i => warpKey t.1 i
/-- The cores that have teams. -/
def busyCores (s : State) : List Nat :=
  sortBy (fun a b => decide (a ≤ b)) (((s.teams.filter fun t => t.2.phase == .running).map fun t => t.2.core).eraseDups)

/-! ### A group (R30, R31, R35, R36, R41) -/

/-- The halt that a state has begun and another had not; in a stepped team it has taken the step's place (R384). -/
def newHalt (s t : State) (w : Nat) : Option Halt :=
  let old := (s.team (teamOf w)).halts
  let hs := (t.team (teamOf w)).halts
  if hs.length > old.length || old.head?.any fun h => h.phase == .stepping then hs.head?.filter fun h => h.phase == .stopping else none
/-- Whether a state has taken a precise trap that another had not. -/
def newPrecise (s t : State) (w : Nat) : Bool := (newHalt s t w).any fun h => h.kind == .precise
/-- Words that move the register window or the return stack: their transfer and their spills and refills come after what the other words
of the group do (R31, R41). -/
def movesWindow : Instr → Bool
  | .call .. | .callr .. | .ret .. | .win .. | .rspop .. => true
  | _ => false
/-- Branch words that access memory for the fibre, arrive somewhere or start something: behind a word of their own group that holds the batch they
wait for that hold (R262, R264). -/
def comesAfterHold : Instr → Bool
  | .call .. | .callr .. | .ret .. | .win .. | .rsrd .. | .rspop .. | .rspush .. | .join .. | .waitm .. | .bararr .. | .bararw .. | .spawn .. => true
  | _ => false
/-- Matrix words that make accesses which a FENCE of their own group orders (R262 to R264): a drain, and the reads of an SCLD. -/
def drainsOrReads : Instr → Bool
  | .mma _ _ _ _ _ fn | .mma64 _ _ _ _ _ fn => fn == .chainDrain || fn == .startDrain
  | .mdrain .. | .scld .. | .scldScr .. => true
  | _ => false
/-- Whether a word of a group comes after a hold that a word before it in the group has begun: behind a divide, what moves the window that the divide writes
(R94, R103); behind a fence, what accesses memory too; behind any other, the branch words that do. -/
def waitsBehind (s : State) (i : Instr) (h : Hold) : Bool :=
  if (s.core s.myTeam.core).divider.any fun d => d.hold == h.id then movesWindow i
  else comesAfterHold i || (drainsOrReads i && (match s.item h.id with
    | some (.fence _) => true
    | _ => false))
/-- The data registers that an STS of a lane writes (R147): those that its address names in the register range. -/
def stsDests (s : State) (l : Nat) : Instr → List Nat
  | .sts _ a _ sz => match coreAt s.myTeam (s.srcR a l).toNat with
    | some (.reg r _) => (List.range ((sizeBytes sz + 3) / 4)).map (r + ·)
    | _ => []
  | _ => []
/-- The registers, by lane and logical number, that the words after word k of a group write in it: these writes win over those of word k (R41). -/
def laterDests (s : State) (is : List Instr) (k : Nat) : List (Nat × Nat) :=
  (is.drop (k + 1)).flatMap fun i => match i.hdr? with
    | some h => (s.active h).flatMap fun l => (destsOf i ++ s.stsDests l i).map fun r => (l, (s.laneBefore l).wb + r)
    | none => []
/-- Puts back the registers of a list as another state has them (R41). -/
def keepRegs (t old : State) (w : Nat) (lost : List (Nat × Nat)) : State := lost.foldl (fun u x => u.setLogical w x.1 x.2 (old.logical w x.1 x.2)) t
/-- Keeps from word k of a group, which `old` stood before, what later words of it win (R41, DEDUCED, log entry 60): the writes that it makes after its issue, and those of RSPOP,
which is run after the later words. -/
def laterWins (old t0 : State) (is : List Instr) (k : Nat) (i : Instr) : State :=
  let lost := old.laterDests is k
  let w := old.iss.warp
  let t : State := { t0 with tails := t0.tails.map fun x => if old.nextId ≤ x.hold then { x with lost := lost } else x }
  if lost.isEmpty then t0
  else match i with
    | .div .. | .divu .. | .rem .. | .remu .. =>
      let c := (old.team (teamOf w)).core
      let x := t.core c
      t.setCore c { x with divider := x.divider.map fun d => if d.warp = w then { d with vals := d.vals.filter fun v => !lost.contains (v.1, v.2.1) } else d }
    | .rspop .. => t.keepRegs old w lost
    | _ => { t with items := t.items.map fun j => if j.1 < old.nextId then j else match j.2 with
        | .reside x => (j.1, .reside { x with skip := x.skip ++ lost })
        | .part x => (j.1, .part { x with skip := x.skip ++ lost })
        | .rs x => (j.1, .rs { x with skip := x.skip ++ lost })
        | _ => j }
/-- Runs word k of a group from a state: the word's own effect, less what later words win; or, behind a hold that the group has started, it takes effect
later. -/
def runWord (run : Instr → State → Out) (s : State) (name : Nat) (is : List Instr) (k : Nat) (i : Instr) : Out :=
  let s1 : State := { s with iss := { s.iss with word := s.iss.first + k, after := is.length - 1 - k } }
  let acts := i.hdr?.any fun h => !(s.active h).isEmpty
  let deferred (b : Option Nat) : Out :=
    .next (laterWins s ((match i with
      | .spawn h _ _ => s1.markedFor (s.active h)
      | _ => s1).deferred b) is k i)
  match s.myWarp.holds.find? (fun h => decide (name ≤ h.id) && s.waitsBehind i h) with
  | some h => deferred (some h.id)
  | none =>
    if acts && (barAt s.iss.ws (s.iss.first + k)).any fun b => !(s.barTails (teamOf s.iss.warp) b).isEmpty then deferred none
    else match run i s1 with
    | .next t => .next (laterWins s t is k i)
    | r => r
/-- Runs the words of a group, each with its place in it; a word that cannot issue ends it. -/
def runWords (run : Instr → State → Out) (name : Nat) (is : List Instr) : List (Nat × Instr) → State → Out
  | [], s => .next s
  | (k, i) :: ks, s =>
    match s.runWord run name is k i with
    | .next t => if t.iss.stop then .next t else runWords run name is ks t
    | r => r
/-- The group's outcome: a precise trap that any of its words raises decides it alone (R351). -/
def runGroup (run : Instr → State → Out) (s : State) (is : List Instr) : Out :=
  let ks := (List.range is.length).zip is
  let alone (x : Nat × Instr) : Option Out :=
    match s.runWord run s.nextId is x.1 x.2 with
    | .next t => if s.newPrecise t s.iss.warp || (s.inSkid s.iss.warp && t.iss.stop) then some (.next t) else none
    | r => some r
  if is.length ≤ 1 then runWords run s.nextId is ks s
  else (ks.findSome? alone).getD (runWords run s.nextId is (ks.filter (fun x => !movesWindow x.2) ++ ks.filter fun x => movesWindow x.2) s)

/-- The lanes of the word in a group that faulted and touched nothing (R383). -/
def faultedIn (s t : State) (w : Nat) : Mask := match newHalt s t w with
  | some h => if h.kind == .lane then ~~~h.done else 0
  | none => 0
/-- The debug events of a word after its group (R383): the lowest watchpoint that an active lane hits, the lowest lane's address, which is the highest active
fibre's for a row (R290), and the active fibres. -/
def watchHit (s : State) (before : State) (is : List Instr) : Option (Nat × DWord × Mask) :=
  let c := before.core (before.team (teamOf before.iss.warp)).core
  let out := faultedIn before s before.iss.warp
  let row (n l : Nat) (ls : List Nat) : Nat := if n = 2048 then ls.getLast?.getD l else l
  is.findSome? fun i => match watched i, i.hdr? with
    | some (a, n, rd, wr), some h =>
      let ls := before.active h
      let va (l : Nat) : DWord := before.srcX a (row n l ls)
      ((List.range 4).filterMap fun k =>
        (ls.find? fun l => !out.getLsbD l && wpHit (c.wps.toList.getD k 0) (va l).toNat n rd wr).map fun l => (k, va l, maskOf ls)).head?
    | _, _ => none
/-- The breakpoint that a group meets (R383). -/
def breakHit (s : State) (w : Nat) (m : Mask) (pc : Pc) (first n : Nat) : Option Nat :=
  let c := s.core (s.team (teamOf w)).core
  if ((s.warp w).bpSkip &&& m) != 0 then none
  else (List.range 8).find? fun k =>
    let b := c.bps.toList.getD k 0
    b.getLsbD 63 && b.setWidth 54 == pc && first ≤ fld b.toNat 54 2 && fld b.toNat 54 2 < first + n

/-- The spin detector after a group of a batch (R201): a change, a fall through its branch, another transfer or a split ends the watch; a take of a short
backward BRA arms a free detector, or counts an iteration. -/
def watchSpin (s : State) (w : Nat) (m : Mask) (pc : Pc) (is : List Instr) : State :=
  let x := s.warp w
  let sp := x.spin
  let bra := is.findSome? fun i => match i with
    | .bra _ off => some off.toInt
    | _ => none
  let ls := lanesOf m
  let took := s.iss.xfer && ls.all fun l => let f := s.fib (fibKey w l); f.live && f.wait == .none &&
    (match bra with
      | some o => f.pc == BitVec.ofInt 54 (pc.toNat + o) && f.word == 0
      | none => false)
  let again := took && pc == sp.pc
  let ends := s.iss.changed || (s.placesOf w ls).length != 1 || (!again && (s.iss.xfer || (bra.isSome && pc == sp.pc)))
  if sp.armed && sp.lanes == m && again && !ends then
    let s1 := s.setWarp w { x with spin := { sp with count := sp.count + 1 } }
    if sp.count + 1 == 16 then s1.later 0 (.spinDemote w) else s1
  else
    let s1 := if sp.armed && sp.lanes == m && ends then s.endSpin w else s
    if !(s1.warp w).spin.armed && took && (match bra with
        | some o => decide (-7 ≤ o) && decide (o ≤ 0)
        | none => false) then
      s1.setWarp w { s1.warp w with spin := ⟨true, pc, m, 0, false⟩ }
    else s1

/-- Fibres of a batch that a group has parted get batches of their own (R154). -/
def regroup (s : State) (w : Nat) (m : Mask) : State :=
  let key (t : State) (l : Nat) : Pc × Nat × Wait := let f := t.fib (fibKey w l); (f.pc, f.word, f.wait)
  let ls := (lanesOf m).filter fun l => (s.fib (fibKey w l)).live
  let same := ls.filter fun l => (s.fib (fibKey w l)).batch == (s.fib (fibKey w (ls.headD 0))).batch
  let ks := (same.map (key s)).eraseDups
  ks.tail.foldl (fun t k => t.rebatch w (maskOf (same.filter fun l => key s l == k))) s
/-- The device merges the batches of two lanes of a warp that stand at the same word and wait at nothing (R154); a spin detector that
watched one of them is free again, for its batch is gone (R201). -/
def mergeBatches (s : State) (w a b : Nat) : State :=
  let f := s.fib (fibKey w a)
  let g := s.fib (fibKey w b)
  if s.laneGoes w a && s.laneGoes w b && f.pc == g.pc && f.word == g.word then
    let ls := lanesOf (s.batchOf w a ||| s.batchOf w b)
    let s1 := ls.foldl (fun t l => t.setFib (fibKey w l) { t.fib (fibKey w l) with batch := f.batch, since := Nat.min f.since g.since }) s
    if ((s1.warp w).spin.lanes &&& maskOf ls) != 0 then s1.endSpin w else s1
  else s
/-- What the end of a group does for halts: a step of the debugger stops the team again (R384), a handler or a save that is over ends
(R367, R374, R380). -/
def afterGroup (s : State) (w : Nat) (m : Mask) : State :=
  let tk := teamOf w
  match (s.team tk).halts with
  | [] => s
  | h :: _ => match h.phase with
    | .stepping =>
      let l := (lanesOf m).headD 0
      let f := s.fib (fibKey w l)
      s.beginHalt w { h with kind := .debug, phase := .stopping, code := 0x32, swcode := 0, lanes := m, rpl := false, wt := f.wait != .none, addr := 0,
                             done := ~~~m, flanes := m, db := 0, service := false, ws := [], seq := 0, failed := 0, ended := none, dbg := false, key := 0 }
    | .handler => s.leaveHandler tk
    | .saving => s.saveDone tk
    | .restoring => s.restoreDone tk
    | _ => s
/-- What follows a word or a group that has changed where its fibres stand: batches, waits, retirement, halts. -/
def settleGroup (s : State) (w : Nat) (m : Mask) : State :=
  let tk := teamOf w
  let s1 := (s.regroup w m).settle tk
  (if s1.allEnded tk then s1.later 1 (.teamRetire tk) else s1).afterGroup w m
/-- Bookkeeping of a group that has issued from `old`: the latch, allowances, skid, RP, spin, batches, waits, timing, halts. -/
def finishGroup (s old : State) (w : Nat) (m : Mask) (pc : Pc) (first : Nat) (is : List Instr) (replay : Bool) : State :=
  let n := is.length
  let tk := teamOf w
  let c := (old.team tk).core
  let l0 := (lanesOf m).headD 0
  let f0 := old.fib (fibKey w l0)
  let wrote := is.flatMap fun i => if i.hdr?.any fun h => !(old.active h).isEmpty then writesOf i else []
  let s := s.dropSlots w (wrote.map (f0.wb + ·))
  let x := s.warp w
  let dec (k : Counter) : Counter := if k.id < old.nextId then { k with vals := k.vals.map fun v => if m.getLsbD v.1 then (v.1, v.2 - n) else v } else k
  let cyc := old.iss.cyc
  let d := is.foldl (fun k i => Nat.max k (distanceOf i s.iss.xfer)) 1
  let others := (old.goers w).any fun b => b.1 != l0 && old.ready_ w b
  let row := if !others then 0 else if f0.batch == x.cur then x.row + 1 else 1
  let skid := old.inSkid w
  let at_ := ((lanesOf m).map fun l => (s.fib (fibKey w l)).pc).eraseDups
  let pkts := (if x.skidPkts.contains pc then x.skidPkts else x.skidPkts ++ [pc]) ++ if s.iss.xfer then at_ else []
  let y : Warp :=
    { x with counters := x.counters.map dec, cur := f0.batch, row := row, nextStart := s.clock + (cyc - 1) + d, lastIssue := s.clock, starving := false,
             bpSkip := x.bpSkip &&& ~~~m,
             skid := if skid then x.skid + 1 else x.skid, skidPkts := if skid then pkts else x.skidPkts,
             skidLeft := if skid then x.skidLeft - 1 else x.skidLeft }
  let s1 := s.setWarp w y
  let s2 := s1.setCore c { s1.core c with issueUntil := s.clock + cyc }
  let leaves := !replay && (s.iss.xfer || first + n == 3 || (lanesOf m).all fun l => !(s.fib (fibKey w l)).live)
  let t := s2.team tk
  let s3 := s2.setTeam tk { t with rp := t.rp + (if leaves then 1 else 0), begun := true }
  let s4 := (lanesOf m).foldl (fun u l => let f := u.fib (fibKey w l); if f.wait == .none then u.setFib (fibKey w l) { f with since := s.clock } else u) s3
  let s5 := if replay then s4 else s4.watchSpin w m pc is
  let s6 := if s5.inSkid w && (4 < (s5.warp w).skidPkts.length || 4 ≤ (s5.warp w).skidPkts.length &&
      ((lanesOf m).any fun l => let f := s5.fib (fibKey w l); f.live && !(s5.warp w).skidPkts.contains f.pc)) then
    s5.setWarp w { s5.warp w with skidLeft := 0 } else s5
  ((s6.notedIssue w).settleGroup w m).forgetAnswers w
/-- Issues a group: decode, debug stops, the words, and what follows (R29 to R45). Where a word cannot issue, the state that answers says so and is thrown
away: the group is tried again. The slots that the operand latch holds and drops are those of the lowest lane's window base (R43; DESIGN CHOICE,
log entry 103). -/
def issueGroup (run : Instr → State → Out) (s : State) (w : Nat) (m only : Mask) (pc : Pc) (first : Nat) (ws : List Nat) (replay : Bool) : Out :=
  let tk := teamOf w
  let c := (s.team tk).core
  let base : Issue := { Issue.none_ with warp := w, lanes := m, only := only, pc := pc, ws := ws, first := first, word := first }
  let fresh : State := if (s.team tk).spawned && !(s.team tk).begun then s.l1Clear c else s
  let s0 : State := { fresh with pre := s.loc, iss := base }
  let tookPort (t : State) (cyc : Nat) : State :=
    ((t.setWarp w { t.warp w with lastIssue := s.clock }).setCore c { t.core c with issueUntil := s.clock + cyc }).forgetAnswers w
  let trap (code sw : BitVec 8) (word : Nat) : Out :=
    if s.inSkid w then .next s0.stopped
    else .next (tookPort (({ s0 with iss := { base with word := word } } : State).takeTrap ⟨.precise, code, false, sw, 0, m, ~~~m⟩) 1)
  let words : Except (DecodeFail × Nat) (List Instr) := if replay then
      (match decodeWord first (ws.getD first 0) with
        | .ok i => .ok [i]
        | .error e => .error (e, first))
    else decodeGroup ws first
  match words with
  | .error e => trap e.1.code 0 e.2
  | .ok is =>
    let phase := ((s.team tk).halts.head?).map Halt.phase
    if (phase == some .saving || phase == some .restoring) && is.any (slotForbids (phase == some .restoring)) then trap 0x01 0 first
    else match (if replay then none else s.breakHit w m pc first is.length) with
    | some k => trap 0x31 (BitVec.ofNat 8 (0x80 + k)) first
    | none =>
      let f0 := s.fib (fibKey w ((lanesOf m).headD 0))
      let (reads, latch) := latchGroup w f0.wb (s.team tk).alloc s.clock is (s.core c).latch
      let place := nextPlace ws pc first
      let s1 : State := ({ s0 with iss := { s0.iss with cyc := readCycles f0.wb reads } } : State).setCore c { s0.core c with latch := latch }
      let s2 := if replay then s1 else s1.sendTo w (lanesOf m) place.1 place.2
      if (is.any fun i => i.unit == .memory) && decide (s.clock < (s.core c).memUntil) then .next s2.stopped
      else match s2.runGroup run is with
      | .next t =>
        if t.iss.stop then .next t
        else if s2.newPrecise t w then .next (tookPort t s2.iss.cyc)
        else
          let afterTaken := (newHalt s2 t w).any fun h => h.kind == .after
          let t1 := match t.watchHit s2 is with
            | some (k, va, ls) =>
              if s.inSkid w || afterTaken then t
              else t.takeTrap ⟨.after, 0x31, false, BitVec.ofNat 8 (0x90 + k), va, ls, ~~~m⟩
            | none => t
          .next (t1.finishGroup s2 w m pc first is replay)
      | r => r

/-! ### The port of a core (R42, R198 to R200) -/

/-- What a group or a word that cannot issue has asked for meanwhile: entries of the write-combining buffer that may be sent (R216, R262), granules that the
host must give back (R411). None where nothing of it is left to do. -/
def blockedWork (s t : State) (c : Nat) : Option State :=
  let kept := ((t.core c).wcb.map Wcb.id)
  let send := (s.core c).wcb.filter fun e => (!kept.contains e.id || t.iss.push.contains e.id) && s.wcbReady c e
  let asks := t.iss.asks.filter fun a => !s.asked a
  if send.isEmpty && asks.isEmpty then none
  else some ((send.foldl (fun u e => if u.wcbReady c e then u.wcbSend c e else u) s).askOnce asks)
/-- An attempt's outcome, or what it leaves to do where it could not issue. -/
def tryOut (s : State) (c : Nat) (o : Out) : Option Out :=
  match o with
  | .next t => if t.iss.stop then (s.blockedWork t c).map .next else some (.next t)
  | r => some r
/-- The group of a packet that a word belongs to ends before this word (R30). -/
def groupEndOf (ws : List Nat) (word : Nat) : Nat :=
  groupEnd ws (if groupEnd ws 0 > word then 0 else if groupEnd ws 1 > word && groupEnd ws 0 ≤ 1 then 1 else 2)
/-- The fibres of a resume point go on after its group, and leave their packet where it ends there (R367, R372). -/
def passResume (s : State) (w : Nat) (p : Pend) (ws : List Nat) : State :=
  let e := groupEndOf ws p.word
  let t := s.team (teamOf w)
  let s1 := if e < 3 || p.lanes == 0 then s else s.setTeam (teamOf w) { t with rp := t.rp + 1 }
  s1.sendTo w (lanesOf (p.lanes &&& s.liveMask w)) (if e < 3 then p.pc else p.pc + 1) (if e < 3 then e else 0)
/-- A warp's pending word is performed again (R365); a resume point lets its fibres go on after their group (R367). -/
def tryReplay (run : Instr → State → Out) (s : State) (w : Nat) (p : Pend) (only : Mask) : Option Out :=
  let x := s.warp w
  let s1 := s.setWarp w { x with replay := x.replay.tail }
  let ws := if p.ws.isEmpty then (x.packet p.pc).getD [] else p.ws
  let m := s.batchOf w ((lanesOf only).headD 0) ||| only
  if ws.isEmpty then none
  else if only == 0 then some (.next (if p.ws.isEmpty then s1.passResume w p ws else s1))
  else if !x.allows m 1 then none
  else s.tryOut (s.team (teamOf w)).core (match s1.issueGroup run w m only p.pc p.word ws true with
    | .next t => .next (if !t.iss.stop && p.ws.isEmpty && !s1.newPrecise t w then t.passResume w p ws else t)
    | r => r)
/-- A warp's replay, or the next group of a batch of it (R199, R365). -/
def tryWarp (run : Instr → State → Out) (s : State) (w : Nat) : Option (Nat × Mask) → Option Out
  | none => (s.replayOf w).bind fun p => s.tryReplay run w p.1 p.2
  | some b =>
    let f := s.fib (fibKey w b.1)
    s.tryOut (s.team (teamOf w)).core (s.issueGroup run w b.2 (BitVec.allOnes 32) f.pc f.word ((s.packetOf w b).getD []) false)
/-- The port tries warps with what each of them may issue, in the order of R200; what cannot issue leaves the warp with what is next in it. -/
def portTries (run : Instr → State → Out) (s : State) : Nat → List (Nat × List (Option (Nat × Mask))) → Option Out
  | 0, _ => none
  | n + 1, ws => match sortBy s.before (ws.filter fun p => !p.2.isEmpty) with
    | (w, b :: bs) :: rest => match s.tryWarp run w b with
      | some o => some o
      | none => portTries run s n ((w, bs) :: rest)
    | _ => none
/-- The port of a core takes the first warp in the order of R200 that has an issuable batch; a sibling in its skid that has none goes no further (R352). -/
def portTakes (run : Instr → State → Out) (s : State) (c : Nat) : Option Out :=
  let ws := (s.warpsOn c).filter fun w => s.canTry w
  let turns := ws.map fun w => (w, s.turnsOf w)
  match s.portTries run (turns.foldl (fun n p => n + p.2.length) 0) turns with
  | some o => some o
  | none => (ws.find? fun w => s.inSkid w && !(s.goers w).isEmpty && (s.wantsFetch w).isNone).map fun w =>
    .next (s.setWarp w { s.warp w with skidLeft := 0 })

/-! ### Words that take effect after their group (R262, R264) -/

/-- A word that comes after a hold, or whose release was not met, takes effect once it can; its hold ends, and its batch goes on. -/
def runTail (run : Instr → State → Out) (s : State) (x : Tail) : Option Out :=
  let w := x.iss.warp
  let c := (s.team (teamOf w)).core
  let ahead := (barAt x.iss.ws x.iss.word).any fun b => ((s.barTails (teamOf w) b).head?.map Tail.hold) != some x.hold
  if x.behind.any (fun b => (s.warp w).holds.any fun h => h.id == b) || !(s.warp w).live || ahead then none
  else match decodeWord x.iss.word (x.iss.ws.getD x.iss.word 0) with
    | .error _ => none
    | .ok i =>
      match run i { s with pre := x.pre, iss := { x.iss with first := x.iss.word, stop := false, xfer := false, changed := false, push := [], asks := [] } } with
      | .next t =>
        if t.iss.stop then (s.blockedWork t c).map .next
        else
          let t0 : State := { t.keepRegs s w x.lost with tails := t.tails.filter fun y => y.hold != x.hold }
          let t1 := t0.unhold w x.hold
          let y := t1.warp w
          let ends := t.iss.changed || t.iss.xfer || (t.placesOf w (lanesOf x.iss.lanes)).length != 1
          let sp := if ends && (y.spin.lanes &&& x.iss.lanes) != 0 then Spin.free else y.spin
          let t2 := t1.setWarp w { y with spin := sp, nextStart := Nat.max y.nextStart (s.clock + distanceOf i t.iss.xfer) }
          let k := t2.team (teamOf w)
          let t3 := if t.iss.xfer && x.iss.word + x.iss.after < 2 then t2.setTeam (teamOf w) { k with rp := k.rp + 1 } else t2
          some (.next ((t3.settleGroup w x.iss.lanes).forgetAnswers w))
      | r => some r

/-! ### Time -/

/-- Lets cycles pass: csr.clock and each context's CTXCYC count (R381). -/
def advance (s : State) (n : Nat) : State :=
  let held := ((s.teams.filter fun t => t.2.phase != .retired).map fun t => t.2.core).eraseDups
  let counts := held.filterMap fun c => ((s.teamsOn c).head?).map fun t => s.ctxOfTeam t.1
  let s1 := counts.foldl (fun t c => t.setCtx c { t.ctx c with cycles := ((t.ctx c).cycles + n) % 2 ^ 64 }) s
  { s1 with clock := s.clock + n, evPhase := false }
/-- The cycles until something may happen: the next event, or a time at which a warp that has a batch may try to start a group or a unit is free; at
least 1. -/
def nextTime (s : State) : Nat :=
  let due := (s.queue.head?.map fun q => q.due).toList
  let warps := s.allWarps.flatMap fun w =>
    let x := s.warp w
    let c := s.core (s.team (teamOf w)).core
    if s.mayIssue w && (x.live && !(s.goers w).isEmpty || !x.replay.isEmpty) then
      [Nat.max (s.clock + 1) (Nat.max x.nextStart c.issueUntil), x.lastIssue + 960]
    else []
  let later := (due ++ warps).filter fun t => s.clock < t
  match later with
  | [] => s.clock + 1
  | t :: ts => ts.foldl Nat.min t
/-- The same machine with one team of one warp at packet 0 of core 0, that packet in hand: a word and two NOPs; the next move is the issue of its group
(DESIGN CHOICE, log entry 21). -/
def placeWord (s : State) (w : Nat) : State :=
  let k := s.nextId
  let h := s.nextTeam
  let r := launchRec (32 * 2 ^ 0x180 + 4 * 2 ^ 0x190 + 2 ^ 0x198 + 2 ^ 0x1A0 + 2 ^ 0x140)
  let gen := nextGen (s.core 0).gen
  let t : Team := { Team.absent with phase := .running, launch := k, core := 0, warps := 1, gen := gen, grant := ⟨[(0, 128)], [], gen, []⟩,
                                     barriers := startBarriers 32, fibres := 32 }
  let s1 : State := { s with nextId := s.nextId + 1, teams := [], tails := [], agenda := [], queue := [], evPhase := false,
                             launches := aset s.launches k ⟨0, 0, 1, 0, r, 1, [], 0, 0, 0, 0, some s.clock, k, 0, none, [(0, 0)]⟩ }
  let s2 := (s1.setCore 0 { s1.core 0 with ctx := some 0, gen := gen, stalled := false, issueUntil := 0 }).addTeam t
  let s3 := s2.putWarp (warpKey h 0) (BitVec.allOnes 32) 0 fun l => s2.startFibre true 0 l 0 0
  s3.setWarp (warpKey h 0) { s3.warp (warpKey h 0) with ibuf := [(0, [w, 15 * 2 ^ 27, 15 * 2 ^ 27])] }

/-! ### The next move -/

/-- Whether an instruction is a word of a program; an agenda holds none of them. -/
def isWord (i : Instr) : Bool := i.hdr?.isSome || (match i with
  | .nop _ => true
  | _ => false)
/-- What the issue selectors do next in this cycle: a warp that starves is marked, a packet is fetched, a word that waited takes effect, a core's port takes a
group. -/
def issueMove (run : Instr → State → Out) (s : State) : Option Out :=
  match s.allWarps.find? s.starved with
  | some w => some (run (.warpStarving w) s)
  | none => match s.allWarps.findSome? fun w => (s.wantsFetch w).map fun pc => (w, pc) with
    | some (w, pc) => some (.next (s.later 0 (.instructionFetch w pc)))
    | none => match s.tails.findSome? fun x => s.runTail run x with
      | some o => some o
      | none => s.busyCores.findSome? fun c => s.portTakes run c
/-- An engine's completion that is due: its arrivals come before the groups of the cycle (R179). -/
def isArrival (x : Timed) : Bool := match x.ev with
  | .engineRecordComplete _ => true
  | _ => false
def arrivalDue (s : State) : Option Timed := s.queue.find? fun x => decide (x.due ≤ s.clock) && isArrival x
/-- The next event of this cycle; none is left: time passes. -/
def eventMove (run : Instr → State → Out) (s : State) : Out :=
  match s.queue with
  | q :: rest => if q.due ≤ s.clock then run q.ev { s with queue := rest } else .next (s.advance (s.nextTime - s.clock))
  | [] => .next (s.advance (s.nextTime - s.clock))
/-- The next move under a meaning of instructions: the agenda, then the cycle: groups, events, the next cycle. -/
def move (run : Instr → State → Out) (s : State) : Out :=
  match s.agenda with
  | .ev i :: rest => if isWord i then .next { s with agenda := rest } else run i { s with agenda := rest }
  | .merge w a b :: rest => .next (({ s with agenda := rest } : State).mergeBatches w a b)
  | .upset u :: rest => .next (({ s with agenda := rest } : State).strike u)
  | .peer m :: rest => .next (({ s with agenda := rest } : State).peerMove m)
  | [] =>
    if s.evPhase then eventMove run s
    else match s.arrivalDue with
      | some x => run x.ev { s with queue := s.queue.erase x }
      | none => match issueMove run s with
        | some o => o
        | none => eventMove run { s with evPhase := true }
end State

/-- A step under a meaning of instructions. -/
def stepWith (run : Instr → State → Out) (s : State) : Out := State.move run s

end Sys2Proof.Machine
end

