-- ==== Sys2Proof/Machine/Dispatch.lean ====
section
/-! DEFINITION. One arm per constructor of Instr: the meaning it calls. -/

namespace Sys2Proof.Machine

def exec (i : Instr) (s : State) : Host.Outcome State Fault Refusal :=
  match i with
  | .add h d a b x => Sys2Proof.Machine.execAdd h d a b x s
  | .sub h d a b x => Sys2Proof.Machine.execSub h d a b x s
  | .mullo h d a b x => Sys2Proof.Machine.execMullo h d a b x s
  | .mulhi h d a b x => Sys2Proof.Machine.execMulhi h d a b x s
  | .mulhu h d a b x => Sys2Proof.Machine.execMulhu h d a b x s
  | .min h d a b x => Sys2Proof.Machine.execMin h d a b x s
  | .max h d a b x => Sys2Proof.Machine.execMax h d a b x s
  | .permb h d a b x => Sys2Proof.Machine.execPermb h d a b x s
  | .and h d a b x => Sys2Proof.Machine.execAnd h d a b x s
  | .or h d a b x => Sys2Proof.Machine.execOr h d a b x s
  | .xor h d a b x => Sys2Proof.Machine.execXor h d a b x s
  | .andn h d a b x => Sys2Proof.Machine.execAndn h d a b x s
  | .shl h d a b x => Sys2Proof.Machine.execShl h d a b x s
  | .shr h d a b x => Sys2Proof.Machine.execShr h d a b x s
  | .sar h d a b x => Sys2Proof.Machine.execSar h d a b x s
  | .rotl h d a b x => Sys2Proof.Machine.execRotl h d a b x s
  | .add64 h d a b x => Sys2Proof.Machine.execAdd64 h d a b x s
  | .sub64 h d a b x => Sys2Proof.Machine.execSub64 h d a b x s
  | .shl64 h d a b x => Sys2Proof.Machine.execShl64 h d a b x s
  | .shr64 h d a b x => Sys2Proof.Machine.execShr64 h d a b x s
  | .sar64 h d a b x => Sys2Proof.Machine.execSar64 h d a b x s
  | .mulw h d a b x => Sys2Proof.Machine.execMulw h d a b x s
  | .minu h d a b x => Sys2Proof.Machine.execMinu h d a b x s
  | .maxu h d a b x => Sys2Proof.Machine.execMaxu h d a b x s
  | .addi h d a imm => Sys2Proof.Machine.execAddi h d a imm s
  | .andi h d a imm => Sys2Proof.Machine.execAndi h d a imm s
  | .ori h d a imm => Sys2Proof.Machine.execOri h d a imm s
  | .xori h d a imm => Sys2Proof.Machine.execXori h d a imm s
  | .shli h d a imm => Sys2Proof.Machine.execShli h d a imm s
  | .shri h d a imm => Sys2Proof.Machine.execShri h d a imm s
  | .sari h d a imm => Sys2Proof.Machine.execSari h d a imm s
  | .muli h d a imm => Sys2Proof.Machine.execMuli h d a imm s
  | .popc h d a => Sys2Proof.Machine.execPopc h d a s
  | .clz h d a => Sys2Proof.Machine.execClz h d a s
  | .ctz h d a => Sys2Proof.Machine.execCtz h d a s
  | .brev h d a => Sys2Proof.Machine.execBrev h d a s
  | .not h d a => Sys2Proof.Machine.execNot h d a s
  | .neg h d a => Sys2Proof.Machine.execNeg h d a s
  | .abs h d a => Sys2Proof.Machine.execAbs h d a s
  | .sextb h d a => Sys2Proof.Machine.execSextb h d a s
  | .sexth h d a => Sys2Proof.Machine.execSexth h d a s
  | .bfe h d a b x => Sys2Proof.Machine.execBfe h d a b x s
  | .bfeu h d a b x => Sys2Proof.Machine.execBfeu h d a b x s
  | .bfi h d a b x => Sys2Proof.Machine.execBfi h d a b x s
  | .funl h d a b x => Sys2Proof.Machine.execFunl h d a b x s
  | .div h d a b x => Sys2Proof.Machine.execDiv h d a b x s
  | .divu h d a b x => Sys2Proof.Machine.execDivu h d a b x s
  | .rem h d a b x => Sys2Proof.Machine.execRem h d a b x s
  | .remu h d a b x => Sys2Proof.Machine.execRemu h d a b x s
  | .bra h off => Sys2Proof.Machine.execBra h off s
  | .icmp h pd pe a b k => Sys2Proof.Machine.execIcmp h pd pe a b k s
  | .icmpi h pd pe a imm k => Sys2Proof.Machine.execIcmpi h pd pe a imm k s
  | .fcmp h pd pe a b k => Sys2Proof.Machine.execFcmp h pd pe a b k s
  | .dcmp h pd pe a b k => Sys2Proof.Machine.execDcmp h pd pe a b k s
  | .pand h pd pe pa pb na nb => Sys2Proof.Machine.execPand h pd pe pa pb na nb s
  | .por h pd pe pa pb na nb => Sys2Proof.Machine.execPor h pd pe pa pb na nb s
  | .pxor h pd pe pa pb na nb => Sys2Proof.Machine.execPxor h pd pe pa pb na nb s
  | .pmov h pd pe pa pb na nb => Sys2Proof.Machine.execPmov h pd pe pa pb na nb s
  | .fadd h d a b x => Sys2Proof.Machine.execFadd h d a b x s
  | .fsub h d a b x => Sys2Proof.Machine.execFsub h d a b x s
  | .fmul h d a b x => Sys2Proof.Machine.execFmul h d a b x s
  | .ffma h d a b x => Sys2Proof.Machine.execFfma h d a b x s
  | .fmin h d a b x => Sys2Proof.Machine.execFmin h d a b x s
  | .fmax h d a b x => Sys2Proof.Machine.execFmax h d a b x s
  | .fminn h d a b x => Sys2Proof.Machine.execFminn h d a b x s
  | .fmaxn h d a b x => Sys2Proof.Machine.execFmaxn h d a b x s
  | .dadd h d a b x => Sys2Proof.Machine.execDadd h d a b x s
  | .dsub h d a b x => Sys2Proof.Machine.execDsub h d a b x s
  | .dmul h d a b x => Sys2Proof.Machine.execDmul h d a b x s
  | .dfma h d a b x => Sys2Proof.Machine.execDfma h d a b x s
  | .dmin h d a b x => Sys2Proof.Machine.execDmin h d a b x s
  | .dmax h d a b x => Sys2Proof.Machine.execDmax h d a b x s
  | .dminn h d a b x => Sys2Proof.Machine.execDminn h d a b x s
  | .dmaxn h d a b x => Sys2Proof.Machine.execDmaxn h d a b x s
  | .call h off sh => Sys2Proof.Machine.execCall h off sh s
  | .hadd2 h d a b x => Sys2Proof.Machine.execHadd2 h d a b x s
  | .hmul2 h d a b x => Sys2Proof.Machine.execHmul2 h d a b x s
  | .hfma2 h d a b x => Sys2Proof.Machine.execHfma2 h d a b x s
  | .hmin2 h d a b x => Sys2Proof.Machine.execHmin2 h d a b x s
  | .hmax2 h d a b x => Sys2Proof.Machine.execHmax2 h d a b x s
  | .badd2 h d a b x => Sys2Proof.Machine.execBadd2 h d a b x s
  | .bmul2 h d a b x => Sys2Proof.Machine.execBmul2 h d a b x s
  | .bfma2 h d a b x => Sys2Proof.Machine.execBfma2 h d a b x s
  | .frcp h d a la => Sys2Proof.Machine.execFrcp h d a la s
  | .frsq h d a la => Sys2Proof.Machine.execFrsq h d a la s
  | .fsqrt h d a la => Sys2Proof.Machine.execFsqrt h d a la s
  | .fex2 h d a la => Sys2Proof.Machine.execFex2 h d a la s
  | .flg2 h d a la => Sys2Proof.Machine.execFlg2 h d a la s
  | .fsin h d a la => Sys2Proof.Machine.execFsin h d a la s
  | .fcos h d a la => Sys2Proof.Machine.execFcos h d a la s
  | .ftanh h d a la => Sys2Proof.Machine.execFtanh h d a la s
  | .drcp h d a la => Sys2Proof.Machine.execDrcp h d a la s
  | .drsq h d a la => Sys2Proof.Machine.execDrsq h d a la s
  | .dsqrt h d a la => Sys2Proof.Machine.execDsqrt h d a la s
  | .cvt h d a dst src => Sys2Proof.Machine.execCvt h d a dst src s
  | .pke4m3 h d a b x => Sys2Proof.Machine.execPke4m3 h d a b x s
  | .pke5m2 h d a b x => Sys2Proof.Machine.execPke5m2 h d a b x s
  | .pke3m2 h d a b x => Sys2Proof.Machine.execPke3m2 h d a b x s
  | .pke2m3 h d a b x => Sys2Proof.Machine.execPke2m3 h d a b x s
  | .pke2m1 h d a b x => Sys2Proof.Machine.execPke2m1 h d a b x s
  | .upk8 h d a b x => Sys2Proof.Machine.execUpk8 h d a b x s
  | .upk6 h d a b x => Sys2Proof.Machine.execUpk6 h d a b x s
  | .upk4 h d a b x => Sys2Proof.Machine.execUpk4 h d a b x s
  | .sel h d a b q neg => Sys2Proof.Machine.execSel h d a b q neg s
  | .shfl h d a b x => Sys2Proof.Machine.execShfl h d a b x s
  | .shflup h d a b x => Sys2Proof.Machine.execShflup h d a b x s
  | .shfldn h d a b x => Sys2Proof.Machine.execShfldn h d a b x s
  | .shflx h d a b x => Sys2Proof.Machine.execShflx h d a b x s
  | .ballot h d q neg => Sys2Proof.Machine.execBallot h d q neg s
  | .wredadd h d a ty x => Sys2Proof.Machine.execWredadd h d a ty x s
  | .wredmin h d a ty x => Sys2Proof.Machine.execWredmin h d a ty x s
  | .wredmax h d a ty x => Sys2Proof.Machine.execWredmax h d a ty x s
  | .movi h d imm => Sys2Proof.Machine.execMovi h d imm s
  | .movhi h d imm => Sys2Proof.Machine.execMovhi h d imm s
  | .ld h d a sz ch la => Sys2Proof.Machine.execLd h d a sz ch la s
  | .st h a b sz ch => Sys2Proof.Machine.execSt h a b sz ch s
  | .lds h d a sz la => Sys2Proof.Machine.execLds h d a sz la s
  | .ldc h d a sz la => Sys2Proof.Machine.execLdc h d a sz la s
  | .sts h a b sz => Sys2Proof.Machine.execSts h a b sz s
  | .stc h a b sz => Sys2Proof.Machine.execStc h a b sz s
  | .rowld h d a la => Sys2Proof.Machine.execRowld h d a la s
  | .rowst h a b => Sys2Proof.Machine.execRowst h a b s
  | .lda h d a sz sc => Sys2Proof.Machine.execLda h d a sz sc s
  | .stl h a b sz sc => Sys2Proof.Machine.execStl h a b sz sc s
  | .fence h ack k sc => Sys2Proof.Machine.execFence h ack k sc s
  | .accadd h a b kd => Sys2Proof.Machine.execAccadd h a b kd s
  | .publish h a sc => Sys2Proof.Machine.execPublish h a sc s
  | .reside h d a => Sys2Proof.Machine.execReside h d a s
  | .unreside h d a => Sys2Proof.Machine.execUnreside h d a s
  | .atom h d a op w la => Sys2Proof.Machine.execAtom h d a op w la s
  | .red h d a op w => Sys2Proof.Machine.execRed h d a op w s
  | .mma h fa fb f db fn => Sys2Proof.Machine.execMma h fa fb f db fn s
  | .mma64 h fa fb f db fn => Sys2Proof.Machine.execMma64 h fa fb f db fn s
  | .scld h a col => Sys2Proof.Machine.execScld h a col s
  | .scldScr h a col => Sys2Proof.Machine.execScldScr h a col s
  | .mdrain h db f => Sys2Proof.Machine.execMdrain h db f s
  | .fmtq h d f => Sys2Proof.Machine.execFmtq h d f s
  | .tcopy h a => Sys2Proof.Machine.execTcopy h a s
  | .tcast h a => Sys2Proof.Machine.execTcast h a s
  | .hgath h a => Sys2Proof.Machine.execHgath h a s
  | .hred h a => Sys2Proof.Machine.execHred h a s
  | .hcvt h a => Sys2Proof.Machine.execHcvt h a s
  | .waitf h msk any => Sys2Proof.Machine.execWaitf h msk any s
  | .flagq h d la => Sys2Proof.Machine.execFlagq h d la s
  | .brr h a => Sys2Proof.Machine.execBrr h a s
  | .callr h a sh => Sys2Proof.Machine.execCallr h a sh s
  | .ret h => Sys2Proof.Machine.execRet h s
  | .join h m => Sys2Proof.Machine.execJoin h m s
  | .leave h m => Sys2Proof.Machine.execLeave h m s
  | .waitm h m => Sys2Proof.Machine.execWaitm h m s
  | .mkmask h m => Sys2Proof.Machine.execMkmask h m s
  | .maskrd h m v => Sys2Proof.Machine.execMaskrd h m v s
  | .maskwr h m v => Sys2Proof.Machine.execMaskwr h m v s
  | .spawn h a e => Sys2Proof.Machine.execSpawn h a e s
  | .fexit h => Sys2Proof.Machine.execFexit h s
  | .yield h => Sys2Proof.Machine.execYield h s
  | .barinit h bar ph v => Sys2Proof.Machine.execBarinit h bar ph v s
  | .bararr h bar ph => Sys2Proof.Machine.execBararr h bar ph s
  | .barwait h bar ph => Sys2Proof.Machine.execBarwait h bar ph s
  | .bararw h bar ph => Sys2Proof.Machine.execBararw h bar ph s
  | .barq h bar v => Sys2Proof.Machine.execBarq h bar v s
  | .rsrd h v => Sys2Proof.Machine.execRsrd h v s
  | .rspop h v => Sys2Proof.Machine.execRspop h v s
  | .rspush h v => Sys2Proof.Machine.execRspush h v s
  | .win h v => Sys2Proof.Machine.execWin h v s
  | .csrr h d num => Sys2Proof.Machine.execCsrr h d num s
  | .csrw h a num => Sys2Proof.Machine.execCsrw h a num s
  | .trap h code => Sys2Proof.Machine.execTrap h code s
  | .eret h => Sys2Proof.Machine.execEret h s
  | .brk h => Sys2Proof.Machine.execBrk h s
  | .hops h d a b => Sys2Proof.Machine.execHops h d a b s
  | .genq h d a => Sys2Proof.Machine.execGenq h d a s
  | .partr h v sel => Sys2Proof.Machine.execPartr h v sel s
  | .partw h v sel => Sys2Proof.Machine.execPartw h v sel s
  | .nop rest => Sys2Proof.Machine.execNop rest s
  | .divideComplete core => Sys2Proof.Machine.execDivideComplete core s
  | .fenceComplete id => Sys2Proof.Machine.execFenceComplete id s
  | .resideComplete id => Sys2Proof.Machine.execResideComplete id s
  | .unresideComplete id => Sys2Proof.Machine.execUnresideComplete id s
  | .scldComplete id => Sys2Proof.Machine.execScldComplete id s
  | .mmaBufferWrite id => Sys2Proof.Machine.execMmaBufferWrite id s
  | .drainSend id => Sys2Proof.Machine.execDrainSend id s
  | .drainAck id => Sys2Proof.Machine.execDrainAck id s
  | .engineRecordValidate id => Sys2Proof.Machine.execEngineRecordValidate id s
  | .engineRecordComplete id => Sys2Proof.Machine.execEngineRecordComplete id s
  | .engineRecordFail id code => Sys2Proof.Machine.execEngineRecordFail id code s
  | .yieldTimeout warp lanes since => Sys2Proof.Machine.execYieldTimeout warp lanes since s
  | .partwComplete id => Sys2Proof.Machine.execPartwComplete id s
  | .instructionFetch warp pc => Sys2Proof.Machine.execInstructionFetch warp pc s
  | .longLatencyResult id lanes regs => Sys2Proof.Machine.execLongLatencyResult id lanes regs s
  | .storeAck id => Sys2Proof.Machine.execStoreAck id s
  | .wcbDrainTimeout core id => Sys2Proof.Machine.execWcbDrainTimeout core id s
  | .l1LineExpire core line => Sys2Proof.Machine.execL1LineExpire core line s
  | .granuleSweep core => Sys2Proof.Machine.execGranuleSweep core s
  | .generationRenewal team => Sys2Proof.Machine.execGenerationRenewal team s
  | .signaturePublish core => Sys2Proof.Machine.execSignaturePublish core s
  | .warpStarving warp => Sys2Proof.Machine.execWarpStarving warp s
  | .spinDemote warp => Sys2Proof.Machine.execSpinDemote warp s
  | .homeRead id => Sys2Proof.Machine.execHomeRead id s
  | .homeWrite id => Sys2Proof.Machine.execHomeWrite id s
  | .homeRmw id => Sys2Proof.Machine.execHomeRmw id s
  | .homeAccumulate id => Sys2Proof.Machine.execHomeAccumulate id s
  | .homeTileUpdate id => Sys2Proof.Machine.execHomeTileUpdate id s
  | .homeRowOperation id => Sys2Proof.Machine.execHomeRowOperation id s
  | .hbmReadReturn id res => Sys2Proof.Machine.execHbmReadReturn id res s
  | .hbmRefresh chan credit => Sys2Proof.Machine.execHbmRefresh chan credit s
  | .dataBankFailure ply bank => Sys2Proof.Machine.execDataBankFailure ply bank s
  | .bankRebuildStep ply => Sys2Proof.Machine.execBankRebuildStep ply s
  | .pageWalk core ctx va => Sys2Proof.Machine.execPageWalk core ctx va s
  | .reserveInvalidate die line => Sys2Proof.Machine.execReserveInvalidate die line s
  | .invalidateConfirm id die => Sys2Proof.Machine.execInvalidateConfirm id die s
  | .faultRecordWrite team => Sys2Proof.Machine.execFaultRecordWrite team s
  | .faultDelivery warp => Sys2Proof.Machine.execFaultDelivery warp s
  | .fackWrite ctx seq => Sys2Proof.Machine.execFackWrite ctx seq s
  | .queueEnable fn q val => Sys2Proof.Machine.execQueueEnable fn q val s
  | .queueDisable fn q val => Sys2Proof.Machine.execQueueDisable fn q val s
  | .tailWrite fn q tail => Sys2Proof.Machine.execTailWrite fn q tail s
  | .launchValidate fn q => Sys2Proof.Machine.execLaunchValidate fn q s
  | .dependenceTest fn q => Sys2Proof.Machine.execDependenceTest fn q s
  | .arbitrate fn => Sys2Proof.Machine.execArbitrate fn s
  | .panelDispatch => Sys2Proof.Machine.execPanelDispatch s
  | .teamRetire team => Sys2Proof.Machine.execTeamRetire team s
  | .abortLaunch fn q seq => Sys2Proof.Machine.execAbortLaunch fn q seq s
  | .preemptRequest ctx all => Sys2Proof.Machine.execPreemptRequest ctx all s
  | .teamSave team => Sys2Proof.Machine.execTeamSave team s
  | .teamFlush team => Sys2Proof.Machine.execTeamFlush team s
  | .drainTimeout team => Sys2Proof.Machine.execDrainTimeout team s
  | .saveHandlerTimeout team => Sys2Proof.Machine.execSaveHandlerTimeout team s
  | .restoreRequest ctx slot => Sys2Proof.Machine.execRestoreRequest ctx slot s
  | .debugHalt ctx val => Sys2Proof.Machine.execDebugHalt ctx val s
  | .debugRawRead core granule => Sys2Proof.Machine.execDebugRawRead core granule s
  | .debugViewRead team granule => Sys2Proof.Machine.execDebugViewRead team granule s
  | .debugWrite team granule byte data => Sys2Proof.Machine.execDebugWrite team granule byte data s
  | .partrComplete id => Sys2Proof.Machine.execPartrComplete id s
  | .returnStackAccessComplete id => Sys2Proof.Machine.execReturnStackAccessComplete id s
  | .cxlCacheResponse id refused data => Sys2Proof.Machine.execCxlCacheResponse id refused data s
  | .vdtApply ctx => Sys2Proof.Machine.execVdtApply ctx s
  | .aliasClear ctx => Sys2Proof.Machine.execAliasClear ctx s
  | .biasFlipToHost fn val => Sys2Proof.Machine.execBiasFlipToHost fn val s
  | .biasFlipToDevice fn val => Sys2Proof.Machine.execBiasFlipToDevice fn val s
  | .memrdShared pa => Sys2Proof.Machine.execMemrdShared pa s
  | .memrdExclusive pa => Sys2Proof.Machine.execMemrdExclusive pa s
  | .memwr pa data => Sys2Proof.Machine.execMemwr pa data s
  | .birsp id data => Sys2Proof.Machine.execBirsp id data s
  | .hostSnoop line => Sys2Proof.Machine.execHostSnoop line s
  | .peerRequest peer act => Sys2Proof.Machine.execPeerRequest peer act s
  | .linkRetry link => Sys2Proof.Machine.execLinkRetry link s
  | .dieLinkFailure a b => Sys2Proof.Machine.execDieLinkFailure a b s
  | .peerUnreachable peer => Sys2Proof.Machine.execPeerUnreachable peer s
  | .functionLevelReset fn => Sys2Proof.Machine.execFunctionLevelReset fn s
  | .vdtWrite ctx val => Sys2Proof.Machine.execVdtWrite ctx val s
  | .grantSet fn grant => Sys2Proof.Machine.execGrantSet fn grant s
  | .keySlotWrite fn slot key => Sys2Proof.Machine.execKeySlotWrite fn slot key s
  | .deviceReset blocks => Sys2Proof.Machine.execDeviceReset blocks s
  | .firmwareUpdateStage img => Sys2Proof.Machine.execFirmwareUpdateStage img s
  | .thermalThrottle => Sys2Proof.Machine.execThermalThrottle s
  | .clockRestore => Sys2Proof.Machine.execClockRestore s
  | .thermalShutdown => Sys2Proof.Machine.execThermalShutdown s
  | .registerWrite fn off wide val => Sys2Proof.Machine.execRegisterWrite fn off wide val s

end Sys2Proof.Machine
end

