-- ==== Sys2Proof/Machine/Step.lean ====
section
/-! DEFINITION. One step of the machine: what the outside has laid on the agenda; else, within a cycle, what the issue selectors do next, then the events
that are due; else cycles pass (log entry 6). And a machine whose next step runs one given word. -/

namespace Sys2Proof.Machine

/-- One step. -/
def step (s : State) : Host.Outcome State Fault Refusal := stepWith exec s

namespace State
/-- The machine with a team of one warp that stands at a packet that holds a word and two NOPs, the packet in its instruction buffer: the issue of that
group is the next move (DESIGN CHOICE, log entry 21). -/
def withFetchWord (s : State) (nbits w : Nat) : State := s.placeWord (w % 2 ^ nbits)
end State

end Sys2Proof.Machine
end

