-- ==== Sys2Proof/Safety.lean ====
section
/-! DEFINITION. What a safe run is, and the terms the statements use: what a word that writes registers or predicates leaves as it was,
and when the registers of a warp's lanes lie apart. -/

namespace Sys2Proof

/-- Memory is in its canonical form. -/
def Machine.State.memOk (s : Machine.State) : Prop := Machine.memWf s.mem = true

/-- Names of started work and of write-combining entries have been given out: a fresh name is none of them. -/
def Machine.State.namesOk (s : Machine.State) : Prop :=
  (∀ id x, s.item id = some x → id < s.nextId) ∧ ∀ c, ∀ e ∈ (s.core c).wcb, e.id < s.nextId

/-- A step is safe when it answers a next state whose memory is in canonical form. -/
def safeStep (s : Machine.State) : Prop := ∃ t, Machine.step s = .next t ∧ t.memOk

namespace Claims
open Sys2Proof.Machine

/-- No core-store granule holds registers of two lanes of the warp in hand: what placing a team gives it (R206). -/
def Apart (s : State) : Prop :=
  ∀ l < 32, ∀ m < 32, l ≠ m → ∀ x y, s.myTeam.regGranule s.iss.warp l x ≠ s.myTeam.regGranule s.iss.warp m y

/-- The granule of register r of a lane, in the window before the group, and the word of it there (R13, R15). -/
def regAt (s : State) (l r : Nat) : Nat × Nat :=
  (s.myTeam.regGranule s.iss.warp l ((s.laneBefore l).wb + r), ((s.laneBefore l).wb + r) % 16)
/-- Register r of a lane as a later state t holds it, in the window before the group. -/
def reg (s t : State) (l r : Nat) : Word := t.logical s.iss.warp l ((s.laneBefore l).wb + r)
/-- Pair r of a lane (R14). -/
def pair (s t : State) (l r : Nat) : DWord := reg s t l (r + 1) ++ reg s t l r

/-- From s to t nothing changes but core-store granules and the mark the spin detector reads: no memory, no other register, predicate,
mask, flag, counter, program counter or special register. Of the granules, only words of registers d to d + n - 1 of the lanes
ls change as the team's generation reads them (R208, R209), and granules that hold none of those do not change at all. -/
def RegFrame (s t : State) (ls : List Nat) (d n : Nat) : Prop :=
  t = { s with loc := { s.loc with gran := t.loc.gran }, iss := { s.iss with changed := t.iss.changed } } ∧
  (∀ a, mget t.mem a = mget s.mem a) ∧
  (∀ g, (∀ l ∈ ls, ∀ i < n, (regAt s l (d + i)).1 ≠ g) → t.granule g = s.granule g) ∧
  (∀ g k, (∀ l ∈ ls, ∀ i < n, regAt s l (d + i) ≠ (g, k)) →
    (t.granule g).read s.myTeam.grant.gen k = (s.granule g).read s.myTeam.grant.gen k)

/-- The word i answers a next state in which register d of every active fibre holds what P asks and nothing else differs. -/
def SetsReg (s : State) (i : Instr) (h : Hdr) (d : Reg) (P : Nat → Word → Prop) : Prop :=
  ∃ t, exec i s = .next t ∧ (∀ l ∈ s.active h, P l (reg s t l d.toNat)) ∧ RegFrame s t (s.active h) d.toNat 1
/-- The same of a pair. -/
def SetsPair (s : State) (i : Instr) (h : Hdr) (d : Reg) (P : Nat → DWord → Prop) : Prop :=
  ∃ t, exec i s = .next t ∧ (∀ l ∈ s.active h, P l (pair s t l d.toNat)) ∧ RegFrame s t (s.active h) d.toNat 2
/-- The same of a floating-point word, which also ORs the bits of its active fibres into its team's csr.exsum (R92, R93): u is the
next state but for that register. -/
def SetsRegEx (s : State) (i : Instr) (h : Hdr) (d : Reg) (f : Nat → Nat × Exs) : Prop :=
  ∃ u, exec i s = .next (u.addEx (teamOf s.iss.warp) (orBits (s.active h) fun l => (f l).2)) ∧
    (∀ l ∈ s.active h, reg s u l d.toNat = BitVec.ofNat 32 (f l).1) ∧ RegFrame s u (s.active h) d.toNat 1
def SetsPairEx (s : State) (i : Instr) (h : Hdr) (d : Reg) (f : Nat → Nat × Exs) : Prop :=
  ∃ u, exec i s = .next (u.addEx (teamOf s.iss.warp) (orBits (s.active h) fun l => (f l).2)) ∧
    (∀ l ∈ s.active h, pair s u l d.toNat = BitVec.ofNat 64 (f l).1) ∧ RegFrame s u (s.active h) d.toNat 2

/-- From s to u nothing changes but predicates pd and pe of the lanes ls and the mark the spin detector reads; p7 reads 1 (R13). -/
def PredFrame (s u : State) (ls : List Nat) (pd pe : PredIx) : Prop :=
  u = { s with loc := { s.loc with fibres := u.loc.fibres }, iss := { s.iss with changed := u.iss.changed } } ∧
  (∀ a, mget u.mem a = mget s.mem a) ∧
  (∀ k, (∀ l ∈ ls, fibKey s.iss.warp l ≠ k) → u.fib k = s.fib k) ∧
  (∀ l ∈ ls, u.lane l = { s.lane l with preds := (u.lane l).preds } ∧ (u.lane l).pred 7 = true ∧
    ∀ p < 7, p ≠ pd.toNat → p ≠ pe.toNat → (u.lane l).pred p = (s.lane l).pred p)
/-- The compare or predicate word i puts c into pd and its complement into pe in every active fibre, pe last; what names p7 is
discarded (R13, R38); bits go into csr.exsum. -/
def SetsPreds (s : State) (i : Instr) (h : Hdr) (pd pe : PredIx) (c : Nat → Bool) (bits : Option (Nat → Exs)) : Prop :=
  ∃ u, exec i s = .next (match bits with
      | none => u
      | some b => u.addEx (teamOf s.iss.warp) (orBits (s.active h) b)) ∧
    (∀ l ∈ s.active h, (pe.toNat ≠ 7 → (u.lane l).pred pe.toNat = !c l) ∧
      (pd.toNat ≠ 7 → pd ≠ pe → (u.lane l).pred pd.toNat = c l)) ∧ PredFrame s u (s.active h) pd pe

/-- Shifts by any amount (R95): r is v shifted left, right, and right with copies of its top bit. -/
def ShiftedLeft {w : Nat} (v : BitVec w) (n : Nat) (r : BitVec w) : Prop := if w ≤ n then r = 0 else r.toNat = v.toNat * 2 ^ n % 2 ^ w
def ShiftedRight {w : Nat} (v : BitVec w) (n : Nat) (r : BitVec w) : Prop := if w ≤ n then r = 0 else r.toNat = v.toNat / 2 ^ n
def ShiftedArith {w : Nat} (v : BitVec w) (n : Nat) (r : BitVec w) : Prop :=
  if w ≤ n then ∀ k < w, r.getLsbD k = v.getLsbD (w - 1) else r.toInt = v.toInt / 2 ^ n
/-- What a condition of R59 says of two words, or of two pairs (R105). -/
def IntCondition (k : ICond) (a b : Word) (x y : DWord) : Prop :=
  match k with
  | .eq => a = b
  | .ne => a ≠ b
  | .lt => a.toInt < b.toInt
  | .le => a.toInt ≤ b.toInt
  | .gt => a.toInt > b.toInt
  | .ge => a.toInt ≥ b.toInt
  | .ltu => a.toNat < b.toNat
  | .leu => a.toNat ≤ b.toNat
  | .gtu => a.toNat > b.toNat
  | .geu => a.toNat ≥ b.toNat
  | .lt64 => x.toInt < y.toInt
  | .le64 => x.toInt ≤ y.toInt
  | .gt64 => x.toInt > y.toInt
  | .ge64 => x.toInt ≥ y.toInt
  | .eq64 => x = y
  | .ne64 => x ≠ y

/-- What a condition of R115 says of two values. -/
def FloatCondition (k : FCond) (x y : FVal) : Bool :=
  let un := x.isNan || y.isNan
  match k with
  | .eq => fvEq x y
  | .ne => !un && !fvEq x y
  | .lt => !un && fvLt x y
  | .le => !un && (fvLt x y || fvEq x y)
  | .gt => !un && fvLt y x
  | .ge => !un && (fvLt y x || fvEq x y)
  | .ord => !un
  | .uno => un
  | .ueq => un || fvEq x y
  | .une => un || !fvEq x y
  | .ult => un || fvLt x y
  | .ule => un || fvLt x y || fvEq x y
  | .ugt => un || fvLt y x
  | .uge => un || fvLt y x || fvEq x y
/-- The bits a compare sets: invalid on a signalling operand, and on any NaN for the four ordered relations (R115). -/
def FloatInvalid (k : FCond) (x y : FVal) : Exs :=
  if x.isSig || y.isSig || ([FCond.lt, .le, .gt, .ge].contains k && (x.isNan || y.isNan)) then 0x001 else 0

/-- The long-latency word i answers a next state in which the warp has one more counter, for the lanes ls with the lookahead la less the
words of its group that follow it (R45), and the results of those lanes are on their way, due after the delay (R210); cores'
is what the word makes of the cores. Nothing else differs. -/
def StartsResult (s : State) (i : Instr) (ls : List Nat) (la delay : Nat) (vals : Nat → List (Nat × Word)) (exs : List (Nat × Exs))
    (cores' : Assoc Core) : Prop :=
  let counter : Counter := ⟨s.nextId, ls.map fun l => (l, la - s.iss.after)⟩
  let result : ResultMsg :=
    ⟨⟨s.iss.warp, s.myTeam.core, s.myTeam.grant.gen, s.nextId⟩, ls.map fun l => (l, vals l), exs, false, [], none, none, false, false⟩
  ∃ t, exec i s = .next t ∧
    t = { s with loc := { s.loc with warps := aset s.loc.warps s.iss.warp { s.myWarp with counters := s.myWarp.counters ++ [counter] } },
                 items := aset s.items (s.nextId + 1) (.result result), nextId := s.nextId + 2, cores := cores', queue := t.queue } ∧
    ⟨s.clock + delay, .longLatencyResult (s.nextId + 1) (BitVec.allOnes 32) (BitVec.allOnes 16)⟩ ∈ t.queue ∧ (∀ q ∈ s.queue, q ∈ t.queue)

/-- From s to t only the fibres of the lanes ls change, each as f says, and whether a transfer was taken (R39): no memory, no register, no
predicate, no other fibre, warp or special register. -/
def Moves (s t : State) (ls : List Nat) (f : Nat → Fibre → Fibre) : Prop :=
  t = { s with loc := { s.loc with fibres := t.loc.fibres }, iss := { s.iss with xfer := t.iss.xfer } } ∧
  (∀ a, mget t.mem a = mget s.mem a) ∧ (∀ l ∈ ls, t.lane l = f l (s.lane l)) ∧
  (∀ k, (∀ l ∈ ls, fibKey s.iss.warp l ≠ k) → t.fib k = s.fib k)
/-- A new WB of a lane costs no memory access (R16): no block is spilled, none refilled. -/
def Quiet (s : State) (l wb : Nat) : Prop :=
  (winPlan (s.lane l).floor (s.lane l).nres s.myTeam.alloc wb (s.lane l).left_).spills = [] ∧
  (winPlan (s.lane l).floor (s.lane l).nres s.myTeam.alloc wb (s.lane l).left_).refills = []
/-- A fibre with WB moved as R16 says. -/
def movedTo (s : State) (wb : Nat) (f : Fibre) : Fibre :=
  let p := winPlan f.floor f.nres s.myTeam.alloc wb f.left_
  { f with wb := wb, floor := p.floor, nres := p.nres, left_ := p.left }
/-- The lowest active fibre fails a check with a code; its word traps precisely with it (R131, R138, R351). -/
def FirstFails (s : State) (i : Instr) (h : Hdr) (code : Nat → Option (BitVec 8)) : Prop :=
  ∀ l rest c, s.active h = l :: rest → code l = some c → exec i s = .next (s.trapPrecise c false (s.active h) 0)

/-- What FMTQ answers of a format word w (R295, R296, R298, R300, R302, R315, R316, R325), field by field. -/
def FormatAnswer (w v : Nat) : Prop :=
  let af := w / 2 ^ 28
  let bf := w / 2 ^ 24 % 16
  let kind := w / 2 ^ 22 % 4
  let flg := w / 2 ^ 17 % 16
  let bits (f : Nat) : Nat := [8, 8, 6, 6, 4, 4, 16, 16, 64].getD f 0
  let mm : Prop := (af ≤ 5 ∧ bf ≤ 5) ∨ (af = 6 ∧ bf = 6) ∨ (af = 7 ∧ bf = 7)
  let m64 : Prop := af = 8 ∧ bf = 8
  let k := if mm then (if Max.max (bits af) (bits bf) ≤ 6 then 128 else if Max.max (bits af) (bits bf) = 8 then 64 else 32)
    else if m64 then 4 else 0
  let image (f : Nat) : Nat := (16 * k * bits f / 8 + 127) / 128
  let cols (f : Nat) : Nat := if f ≤ 4 then k / 32 else if f = 5 then k / 64 + 4 else 0
  if af ≤ 8 ∧ bf ≤ 8 ∧ kind ≤ 2 ∧ (flg ≤ 11 ∨ flg = 15) ∧ w / 2 ^ 11 % 64 = 0 then
    v / 2 ^ 16 = k ∧ v / 2 ^ 12 % 16 = image bf ∧ v / 2 ^ 8 % 16 = image af ∧ v / 32 % 8 = 0 ∧ (v / 16 % 2 = 1 ↔ kind = 1) ∧
    (v / 8 % 2 = 1 ↔ kind ≤ 1 ∨ w / 2 ^ 21 % 2 = 0) ∧ (v / 4 % 2 = 1 ↔ m64) ∧
    (v / 2 % 2 = 1 ↔ mm ∧ (cols af + cols bf = 0 ∨ w % 2 ^ 11 + cols af + cols bf ≤ 2048)) ∧ v % 2 = 1
  else v = 0

/-- The bytes of a store's source registers (R140): byte k stands in register b + k / 4. -/
def storeBytes (s : State) (l : Nat) (b : Reg) (n : Nat) : List Byte :=
  (List.range n).map fun k => BitVec.ofNat 8 ((s.src l (b.toNat + k / 4)).toNat / 2 ^ (8 * (k % 4)))
/-- Byte k of a lane's window as a state t holds it now, in the window before the group (R27, R147). -/
def windowByte (s t : State) (l k : Nat) : Byte := BitVec.ofNat 8 ((reg s t l (k / 4)).toNat / 2 ^ (8 * (k % 4)))
/-- The registers a load fills from its bytes (R140): narrow ones extended as their size says, wide ones register by register. -/
def Loaded (sz : Size) (byte : Nat → Byte) (ws : List Word) : Prop :=
  let u (n : Nat) : Nat := ofBytes ((List.range n).map byte)
  match sz with
  | .u8 => ∃ w, ws = [w] ∧ w.toNat = (byte 0).toNat
  | .s8 => ∃ w, ws = [w] ∧ w.toInt = (byte 0).toInt
  | .u16 => ∃ w, ws = [w] ∧ w.toNat = (byte 0).toNat + 256 * (byte 1).toNat
  | .s16 => ∃ w, ws = [w] ∧ w.toInt = (BitVec.ofNat 16 ((byte 0).toNat + 256 * (byte 1).toNat)).toInt
  | .b32 => ∃ w, ws = [w] ∧ w.toNat = u 4
  | .b64 => ∃ w x, ws = [w, x] ∧ (x ++ w).toNat = u 8
  | .b128 => ∃ w x y z, ws = [w, x, y, z] ∧ (z ++ (y ++ (x ++ w))).toNat = u 16
/-- No scratch granule of the team in hand holds two 64-byte pieces of its scratch (R206). -/
def ScrApart (s : State) : Prop :=
  ∀ x < s.myTeam.scratch, ∀ y < s.myTeam.scratch, x / 64 ≠ y / 64 → s.myTeam.scrGranule x ≠ s.myTeam.scrGranule y
/-- Bytes of a lane's store stand in an entry of its core's write-combining buffer, or in a write of that line on its way (R216). -/
def Pending (t : State) (c w l pa : Nat) (bs : List Byte) : Prop :=
  (∃ e ∈ (t.core c).wcb, e.warp = w ∧ e.line = lineOf pa ∧ ∃ p ∈ e.parts, p.lane = l ∧ p.off = pa % 128 ∧ p.bytes = bs) ∨
  (∃ id r, t.item id = some (.write r) ∧ r.warp = w ∧ r.core = c ∧ r.line = lineOf pa ∧
    ∃ p ∈ r.parts, p.lane = l ∧ p.off = pa % 128 ∧ p.bytes = bs)
/-- From s to t no byte of memory, no register, predicate, warp or team changes; of the fibres only acknowledgement counts of the lanes
ls, each by one (R50). -/
def Counted (s t : State) (ls : List Nat) : Prop :=
  (∀ a, mget t.mem a = mget s.mem a) ∧ t.loc.gran = s.loc.gran ∧ t.loc.warps = s.loc.warps ∧ t.teams = s.teams ∧
  (∀ l ∈ ls, t.lane l = { s.lane l with acks := (s.lane l).acks + 1 }) ∧ (∀ k, (∀ l ∈ ls, fibKey s.iss.warp l ≠ k) → t.fib k = s.fib k)
/-- A lane's long-latency access is on its way: a read of its line, or a result that a near copy gave already (R210, R240). -/
def Requested (s t : State) (o : LaneOk) (d : Reg) (sz : Size) : Prop :=
  let dest : Dest := ⟨s.iss.warp, s.myTeam.core, s.myTeam.grant.gen, s.nextId⟩
  ∃ id, (∃ r, t.item id = some (.read r) ∧ r.dest = dest ∧ r.line = lineOf o.2.2.1 ∧
      (o.2.2.1 % 128 + sizeBytes sz ≤ 128 → r.lo ≤ o.2.2.1 % 128 ∧ o.2.2.1 % 128 + sizeBytes sz ≤ r.lo + r.n) ∧
      ∃ x ∈ r.lanes, x.lane = o.1 ∧ x.va = o.2.1 ∧ x.pa = o.2.2.1 ∧ x.sz = sz ∧ x.dst = (s.laneBefore o.1).wb + d.toNat) ∨
    (∃ m, t.item id = some (.result m) ∧ m.dest = dest ∧ ∃ ws, (o.1, ws) ∈ m.vals)
/-- From s to t the warp in hand has one more allowance counter, for lanes ls with lookahead la (R45), and no byte of memory, no register, fibre,
other warp or team changes. -/
def Launched (s t : State) (ls : List Nat) (la : Nat) : Prop :=
  let counter : Counter := ⟨s.nextId, ls.map fun l => (l, la - s.iss.after)⟩
  (∀ a, mget t.mem a = mget s.mem a) ∧ t.loc.gran = s.loc.gran ∧ (∀ k, t.fib k = s.fib k) ∧ t.teams = s.teams ∧
  t.loc.warps = aset s.loc.warps s.iss.warp { s.myWarp with counters := s.myWarp.counters ++ [counter] }

/-- From s to t an item is started under the next name, the lanes, or the whole warp, are held until it ends (R354), and the event that ends
it is due; of the fibres only acknowledgement counts of the lanes ls rise, each by one; no byte of memory, register, other warp or
team changes. -/
def Holds (s t : State) (x : Item) (lanes : Mask) (whole : Bool) (ev : Instr) (ls : List Nat) : Prop :=
  let hold : Hold := ⟨s.nextId, lanes, whole⟩
  t.item s.nextId = some x ∧ (∃ q ∈ t.queue, q.ev = ev) ∧
  t.loc.warps = aset s.loc.warps s.iss.warp { s.myWarp with holds := s.myWarp.holds ++ [hold] } ∧
  (∀ a, mget t.mem a = mget s.mem a) ∧ t.loc.gran = s.loc.gran ∧ t.teams = s.teams ∧
  (∀ l ∈ ls, t.lane l = { s.lane l with acks := (s.lane l).acks + 1 }) ∧ (∀ k, (∀ l ∈ ls, fibKey s.iss.warp l ≠ k) → t.fib k = s.fib k)
/-- The batch or warp that an item held goes on, and the item is gone (R354). -/
def Released (t : State) (w id : Nat) : Prop := t.item id = none ∧ ∀ x ∈ (t.warp w).holds, x.id ≠ id
/-- No entry waits in the write-combining buffer, no work is on its way, no write is outstanding, and no lane of an SCLD of the warp has a fault to be
replayed: every release is met at once (R262, R324). -/
def Settled (s : State) : Prop :=
  (s.core s.myTeam.core).wcb = [] ∧ s.items = [] ∧ s.outs = [] ∧ s.scldFaulted s.iss.warp = false
/-- The launch of a team has not ended: a trap halts the team (R363). -/
def Unended (s : State) (tk : Nat) : Prop := ((aget s.launches (s.team tk).launch).bind Launch.ending) = none
/-- The skein holds no error and no bank of it has failed (R237 to R239). -/
def Sound (s : State) : Prop := s.upsets = [] ∧ s.failedBanks = []
/-- No store to scratch and no tile to scratch is on its way, and no LDC of the warp reads its own team's scratch (R256, R266, R312). -/
def ScratchQuiet (s : State) : Prop :=
  (∀ j ∈ s.items, ∀ ws, j.2 ≠ .stc ws) ∧ ∀ l off n, s.tileOver s.iss.warp off n = false ∧
    s.ldcBefore s.iss.warp l (teamOf s.iss.warp) off n = false

/-- A request's turn has come at its home (R259), and the host has no say in it first (R411, R414). -/
def Arrives (s : State) (id : Nat) : Prop :=
  s.askingHost id = false ∧ s.firstInOrder id = true ∧
  ∀ x, s.item id = some x → s.gateOf x 0 = none
/-- The bytes of a write land (R258): of parts that cover one byte the last stands, and every other byte of memory stays. -/
def Lands (s t : State) (line : Nat) (parts : List WPart) : Prop :=
  let covers (p : WPart) (a : Nat) : Prop := line + p.off ≤ a ∧ a < line + p.off + p.bytes.length
  (∀ a, (∀ p ∈ parts, ¬covers p a) → mget t.mem a = mget s.mem a) ∧
  ∀ ps p qs, parts = ps ++ p :: qs → ∀ k < p.bytes.length, (∀ q ∈ qs, ¬covers q (line + p.off + k)) →
    mget t.mem (line + p.off + k) = p.bytes.getD k 0
/-- Bytes from pa on read as a number v, little-endian (R2), and no other byte of memory differs from s. -/
def Stores (s t : State) (pa n v : Nat) : Prop :=
  (∀ k < n, (mget t.mem (pa + k)).toNat = v / 2 ^ (8 * k) % 256) ∧ ∀ a, (a < pa ∨ pa + n ≤ a) → mget t.mem a = mget s.mem a
/-- The new value of an atomic (R278). -/
def AtomNew {n : Nat} (f : Fmt) (op : AtomOp) (o v c r : BitVec n) : Prop :=
  match op with
  | .add => r = o + v
  | .and => ∀ k < n, r.getLsbD k = (o.getLsbD k && v.getLsbD k)
  | .or => ∀ k < n, r.getLsbD k = (o.getLsbD k || v.getLsbD k)
  | .xor => ∀ k < n, r.getLsbD k = (o.getLsbD k != v.getLsbD k)
  | .min => r.toInt = Min.min o.toInt v.toInt
  | .max => r.toInt = Max.max o.toInt v.toInt
  | .minu => r.toNat = Min.min o.toNat v.toNat
  | .maxu => r.toNat = Max.max o.toNat v.toNat
  | .exch => r = v
  | .cas => r = if o = v then c else o
  | .incw => r = if v.toNat ≤ o.toNat then 0 else o + 1
  | .decw => r = if o = 0 ∨ v.toNat < o.toNat then v else o - 1
  | .fadd => r.toNat = (fAdd f (f.value o.toNat) (f.value v.toNat)).1
  | .fmin => r.toNat = (fSelect f fvMin (f.value o.toNat) (f.value v.toNat)).1
  | .fmax => r.toNat = (fSelect f fvMax (f.value o.toNat) (f.value v.toNat)).1

end Claims
end Sys2Proof
end

