-- ==== Sys2Proof/Certificates/Slice0/Obligations.lean ====
section
/-! DEFINITION. The statements of this model, for the provers. `Sys2Proof.Claims` (Safety.lean) holds the terms they share. -/

open Sys2Proof Sys2Proof.Machine Sys2Proof.Claims


/-! ### Integer words (spec/06) -/

/-- R96, R98 (MINU, MAXU): the three-register integer words, arithmetic read off as numbers. In every state whose lanes' registers lie apart, and for
every guard, each active fibre's vd gets the value and nothing else changes. R98: the wide words. -/
def Obligations.IntegerThreeRegisterResults : Prop :=
  (∀ (s : State) (h : Hdr) (d a b : Reg) (x : Bool), Apart s →
    SetsReg s (.add h d a b x) h d (fun l v => v.toNat = ((s.srcR a l).toNat + (s.srcR b l).toNat) % 2 ^ 32) ∧
    SetsReg s (.sub h d a b x) h d (fun l v => (v.toNat : Int) = ((s.srcR a l).toNat - (s.srcR b l).toNat : Int) % 2 ^ 32) ∧
    SetsReg s (.mullo h d a b x) h d (fun l v => v.toNat = (s.srcR a l).toNat * (s.srcR b l).toNat % 2 ^ 32) ∧
    SetsReg s (.mulhi h d a b x) h d (fun l v => v.toInt = (s.srcR a l).toInt * (s.srcR b l).toInt / 2 ^ 32) ∧
    SetsReg s (.mulhu h d a b x) h d (fun l v => v.toNat = (s.srcR a l).toNat * (s.srcR b l).toNat / 2 ^ 32) ∧
    SetsReg s (.min h d a b x) h d (fun l v => v.toInt = Min.min (s.srcR a l).toInt (s.srcR b l).toInt) ∧
    SetsReg s (.max h d a b x) h d (fun l v => v.toInt = Max.max (s.srcR a l).toInt (s.srcR b l).toInt) ∧
    SetsReg s (.minu h d a b x) h d (fun l v => v.toNat = Min.min (s.srcR a l).toNat (s.srcR b l).toNat) ∧
    SetsReg s (.maxu h d a b x) h d (fun l v => v.toNat = Max.max (s.srcR a l).toNat (s.srcR b l).toNat)) ∧
  (∀ (s : State) (h : Hdr) (d a b : Reg) (x : Bool), Apart s →
    SetsPair s (.add64 h d a b x) h d (fun l v => v.toNat = ((s.srcX a l).toNat + (s.srcX b l).toNat) % 2 ^ 64) ∧
    SetsPair s (.sub64 h d a b x) h d (fun l v => (v.toNat : Int) = ((s.srcX a l).toNat - (s.srcX b l).toNat : Int) % 2 ^ 64) ∧
    SetsPair s (.mulw h d a b x) h d (fun l v => v.toInt = (s.srcR a l).toInt * (s.srcR b l).toInt))

/-- R96, R97, R101: the words that select bits. PERMB takes byte k of the old vd over va for selector k below 8, else 0; BFE and BFEU take a field of
va from bit pos on, past bit 31 its sign or 0; BFI puts a field into the old vd; FUNL shifts va over the old vd. -/
def Obligations.IntegerBitResults : Prop :=
  ∀ (s : State) (h : Hdr) (d a b : Reg) (x : Bool), Apart s →
    SetsReg s (.and h d a b x) h d (fun l v => ∀ k < 32, v.getLsbD k = ((s.srcR a l).getLsbD k && (s.srcR b l).getLsbD k)) ∧
    SetsReg s (.or h d a b x) h d (fun l v => ∀ k < 32, v.getLsbD k = ((s.srcR a l).getLsbD k || (s.srcR b l).getLsbD k)) ∧
    SetsReg s (.xor h d a b x) h d (fun l v => ∀ k < 32, v.getLsbD k = ((s.srcR a l).getLsbD k != (s.srcR b l).getLsbD k)) ∧
    SetsReg s (.andn h d a b x) h d (fun l v => ∀ k < 32, v.getLsbD k = ((s.srcR a l).getLsbD k && !(s.srcR b l).getLsbD k)) ∧
    SetsReg s (.permb h d a b x) h d (fun l v => ∀ i < 4,
      let sel := (s.srcR b l).toNat / 2 ^ (4 * i) % 16
      v.toNat / 2 ^ (8 * i) % 256 =
        if 8 ≤ sel then 0 else ((s.srcR d l).toNat * 2 ^ 32 + (s.srcR a l).toNat) / 2 ^ (8 * sel) % 256) ∧
    SetsReg s (.bfe h d a b x) h d (fun l v =>
      let pos := (s.srcR b l).toNat % 256
      let len := Min.min ((s.srcR b l).toNat / 256 % 256) 32
      let bit (t : Nat) : Bool := if t ≤ 31 then (s.srcR a l).getLsbD t else (s.srcR a l).getLsbD 31
      if len = 0 then v = 0 else ∀ k < 32, v.getLsbD k = bit (pos + Min.min k (len - 1))) ∧
    SetsReg s (.bfeu h d a b x) h d (fun l v =>
      let pos := (s.srcR b l).toNat % 256
      let len := Min.min ((s.srcR b l).toNat / 256 % 256) 32
      ∀ k < 32, v.getLsbD k = (decide (k < len) && (s.srcR a l).getLsbD (pos + k))) ∧
    SetsReg s (.bfi h d a b x) h d (fun l v =>
      let pos := (s.srcR b l).toNat % 256
      let len := Min.min ((s.srcR b l).toNat / 256 % 256) 32
      ∀ k < 32, v.getLsbD k = if pos ≤ k ∧ k < pos + len then (s.srcR a l).getLsbD (k - pos) else (s.srcR d l).getLsbD k) ∧
    SetsReg s (.funl h d a b x) h d (fun l v =>
      v.toNat = ((s.srcR a l).toNat * 2 ^ 32 + (s.srcR d l).toNat) * 2 ^ ((s.srcR b l).toNat % 64) / 2 ^ 32 % 2 ^ 32)

/-- R95, whole: every shift amount is an unsigned number and none is illegal. A register shift takes it from all 32 bits of vb, an immediate shift
from the 7-bit field; from 32 on SHL and SHR give 0 and SAR copies of bit 31, from 64 on SHL64 and SHR64 give 0 and SAR64 copies of bit 63; below
that they shift; ROTL rotates by the amount modulo 32. -/
def Obligations.ShiftsTakeEveryAmount : Prop :=
  ∀ (s : State) (h : Hdr) (d a b : Reg) (x : Bool) (i : BitVec 7), Apart s →
    SetsReg s (.shl h d a b x) h d (fun l v => ShiftedLeft (s.srcR a l) (s.srcR b l).toNat v) ∧
    SetsReg s (.shr h d a b x) h d (fun l v => ShiftedRight (s.srcR a l) (s.srcR b l).toNat v) ∧
    SetsReg s (.sar h d a b x) h d (fun l v => ShiftedArith (s.srcR a l) (s.srcR b l).toNat v) ∧
    SetsReg s (.rotl h d a b x) h d (fun l v => ∀ k < 32, v.getLsbD ((k + (s.srcR b l).toNat) % 32) = (s.srcR a l).getLsbD k) ∧
    SetsReg s (.shli h d a i) h d (fun l v => ShiftedLeft (s.srcR a l) i.toNat v) ∧
    SetsReg s (.shri h d a i) h d (fun l v => ShiftedRight (s.srcR a l) i.toNat v) ∧
    SetsReg s (.sari h d a i) h d (fun l v => ShiftedArith (s.srcR a l) i.toNat v) ∧
    SetsPair s (.shl64 h d a b x) h d (fun l v => ShiftedLeft (s.srcX a l) (s.srcR b l).toNat v) ∧
    SetsPair s (.shr64 h d a b x) h d (fun l v => ShiftedRight (s.srcX a l) (s.srcR b l).toNat v) ∧
    SetsPair s (.sar64 h d a b x) h d (fun l v => ShiftedArith (s.srcX a l) (s.srcR b l).toNat v)

/-- R99 (but its shifts, which R95's statement has), R109: immediates, sign-extended; MOVI and MOVHI. R100: the one-operand words. -/
def Obligations.ImmediateAndOneOperandResults : Prop :=
  (∀ (s : State) (h : Hdr) (d a : Reg) (i : BitVec 7) (w : BitVec 16), Apart s →
    SetsReg s (.addi h d a i) h d (fun l v => (v.toNat : Int) = ((s.srcR a l).toNat + i.toInt : Int) % 2 ^ 32) ∧
    SetsReg s (.andi h d a i) h d (fun l v => ∀ k < 32, v.getLsbD k = ((s.srcR a l).getLsbD k && i.getLsbD (Min.min k 6))) ∧
    SetsReg s (.ori h d a i) h d (fun l v => ∀ k < 32, v.getLsbD k = ((s.srcR a l).getLsbD k || i.getLsbD (Min.min k 6))) ∧
    SetsReg s (.xori h d a i) h d (fun l v => ∀ k < 32, v.getLsbD k = ((s.srcR a l).getLsbD k != i.getLsbD (Min.min k 6))) ∧
    SetsReg s (.muli h d a i) h d (fun l v => (v.toNat : Int) = (s.srcR a l).toInt * i.toInt % 2 ^ 32) ∧
    SetsReg s (.movi h d w) h d (fun _ v => v.toInt = w.toInt) ∧
    SetsReg s (.movhi h d w) h d (fun l v => v.toNat = w.toNat * 2 ^ 16 + (s.srcR d l).toNat % 2 ^ 16)) ∧
  (∀ (s : State) (h : Hdr) (d a : Reg), Apart s →
    SetsReg s (.popc h d a) h d (fun l v => v.toNat = ((List.range 32).filter fun k => (s.srcR a l).getLsbD k).length) ∧
    SetsReg s (.clz h d a) h d (fun l v => v.toNat ≤ 32 ∧ (s.srcR a l).toNat < 2 ^ (32 - v.toNat) ∧
      (v.toNat < 32 → 2 ^ (31 - v.toNat) ≤ (s.srcR a l).toNat)) ∧
    SetsReg s (.ctz h d a) h d (fun l v => v.toNat ≤ 32 ∧ (∀ k < v.toNat, (s.srcR a l).getLsbD k = false) ∧
      (v.toNat < 32 → (s.srcR a l).getLsbD v.toNat = true)) ∧
    SetsReg s (.brev h d a) h d (fun l v => ∀ k < 32, v.getLsbD (31 - k) = (s.srcR a l).getLsbD k) ∧
    SetsReg s (.not h d a) h d (fun l v => ∀ k < 32, v.getLsbD k = !(s.srcR a l).getLsbD k) ∧
    SetsReg s (.neg h d a) h d (fun l v => (v.toNat + (s.srcR a l).toNat) % 2 ^ 32 = 0) ∧
    SetsReg s (.abs h d a) h d (fun l v => v.toNat = (s.srcR a l).toInt.natAbs) ∧
    SetsReg s (.sextb h d a) h d (fun l v => ∀ k < 32, v.getLsbD k = (s.srcR a l).getLsbD (Min.min k 7)) ∧
    SetsReg s (.sexth h d a) h d (fun l v => ∀ k < 32, v.getLsbD k = (s.srcR a l).getLsbD (Min.min k 15)))

/-- R105 to R108: integer compares write a condition and its complement, predicate words combine two predicates, SEL chooses by one. R115: FCMP and
DCMP for every condition: ordered conditions are false and unordered ones true where an operand is a NaN; a relation below or above sets invalid
on any NaN, the others on a signalling one. -/
def Obligations.CompareAndPredicateResults : Prop :=
  (∀ (s : State) (h : Hdr) (pd pe pa pb : PredIx) (d a b : Reg) (i : BitVec 6) (k : ICond) (na nb : Bool),
    (∃ c, (∀ l, c l = true ↔ IntCondition k (s.srcR a l) (s.srcR b l) (s.srcX a l) (s.srcX b l)) ∧
      SetsPreds s (.icmp h pd pe a b k) h pd pe c none) ∧
    (k.wide = false → ∃ c, (∀ l, c l = true ↔ IntCondition k (s.srcR a l)
        (if k = .ltu ∨ k = .leu ∨ k = .gtu ∨ k = .geu then BitVec.ofNat 32 i.toNat else BitVec.ofInt 32 i.toInt) 0 0) ∧
      SetsPreds s (.icmpi h pd pe a i k) h pd pe c none) ∧
    SetsPreds s (.pand h pd pe pa pb na nb) h pd pe (fun l => s.srcPred l pa na && s.srcPred l pb nb) none ∧
    SetsPreds s (.por h pd pe pa pb na nb) h pd pe (fun l => s.srcPred l pa na || s.srcPred l pb nb) none ∧
    SetsPreds s (.pxor h pd pe pa pb na nb) h pd pe (fun l => s.srcPred l pa na != s.srcPred l pb nb) none ∧
    SetsPreds s (.pmov h pd pe pa pb na nb) h pd pe (fun l => s.srcPred l pa na) none ∧
    (Apart s → SetsReg s (.sel h d a b pa na) h d (fun l v => v = if s.srcPred l pa na then s.srcR a l else s.srcR b l))) ∧
  (∀ (s : State) (h : Hdr) (pd pe : PredIx) (a b : Reg) (k : FCond),
    SetsPreds s (.fcmp h pd pe a b k) h pd pe (fun l => FloatCondition k (fp32.value (s.srcR a l).toNat) (fp32.value (s.srcR b l).toNat))
      (some fun l => FloatInvalid k (fp32.value (s.srcR a l).toNat) (fp32.value (s.srcR b l).toNat)) ∧
    SetsPreds s (.dcmp h pd pe a b k) h pd pe (fun l => FloatCondition k (fp64.value (s.srcX a l).toNat) (fp64.value (s.srcX b l).toNat))
      (some fun l => FloatInvalid k (fp64.value (s.srcX a l).toNat) (fp64.value (s.srcX b l).toNat)))

/-- R35: a never word has no effect, whatever its other bits. R34 to R37, R56 to R69: words written out from the encoding tables, and the two decode
traps. -/
def Obligations.WordsDecodeAsTheTablesSay : Prop :=
  (∀ (s : State) (idx : Nat) (w : BitVec 32), w.extractLsb 30 27 = 15#4 →
    ∃ bits, decodeWord idx w.toNat = .ok (.nop bits) ∧ exec (.nop bits) s = .next s) ∧
  (-- C 0, N 0, P 7, MAJ 0: vd 3, va 1, vb 2, function 0, hold 0
  decodeWord 0 0x38030420 = .ok (.add ⟨false, false, 7⟩ 3 1 2 false) ∧
  -- the spec's worked words: JOIN m2; never words; word 2 with C = 1; illegal before reserved; FENCE with scope 5
  decodeWord 0 0x3F982000 = .ok (.join ⟨false, false, 7⟩ 2) ∧
  decodeWord 1 0x3E900045 = .ok (.fence ⟨false, false, 7⟩ true .acqrel .die) ∧
  decodeWord 0 0x7FFFFFFF = .ok (.nop 0x7FFFFFF) ∧ decodeWord 2 0x7FFFFFFF = .ok (.nop 0x7FFFFFF) ∧
  decodeWord 0 0xBFFFFFFF = .error .illegal ∧ decodeWord 0 0xBFFFEFFF = .error .reserved ∧ decodeWord 2 0xBFFFEFFF = .error .illegal ∧
  decodeWord 0 0x3C400004 = .error .illegal)

/-! ### Divides (R102, R103) -/

/-- R102: quotient and remainder of every divide. A divisor of 0 gives all ones, or the dividend for a remainder, with int-div-zero; the most negative
number over -1 wraps; otherwise the quotient is cut toward zero and the remainder has the dividend's sign. R103: a divide that finds the core's
divider free holds its whole warp, and the divider carries the results and their bits to its completion 36 cycles after the read cycles; then
DIVIDE_COMPLETE writes them, sets the bits and frees divider and warp. Without an active fibre nothing happens. While the divider is taken the
word cannot issue. R103, R104: DIVIDE_COMPLETE, no sooner than the divide's cycle: the results stand in the registers, the operand latch and the
spin detector's watch aside nothing else changes but that the divider is free and the warp goes on from the next cycle. -/
def Obligations.DividesRunToTheirValues : Prop :=
  (∀ a b : Word,
    (b = 0 → ∀ sgn, divWord sgn false a b = (BitVec.allOnes 32, exIntDiv) ∧ divWord sgn true a b = (a, exIntDiv)) ∧
    (b ≠ 0 → ∀ sgn rem, (divWord sgn rem a b).2 = 0) ∧
    (b ≠ 0 → (divWord false false a b).1.toNat = a.toNat / b.toNat ∧ (divWord false true a b).1.toNat = a.toNat % b.toNat) ∧
    (a = BitVec.intMin 32 → b = BitVec.allOnes 32 → (divWord true false a b).1 = BitVec.intMin 32 ∧ (divWord true true a b).1 = 0) ∧
    (b ≠ 0 → ¬(a = BitVec.intMin 32 ∧ b = BitVec.allOnes 32) →
      let q := (divWord true false a b).1.toInt
      let r := (divWord true true a b).1.toInt
      a.toInt = q * b.toInt + r ∧ r.natAbs < b.toInt.natAbs ∧ (r ≠ 0 → (r < 0 ↔ a.toInt < 0)))) ∧
  (∀ (s : State) (h : Hdr) (d a b : Reg) (x sgn rem : Bool),
    let i : Instr := if sgn then (if rem then .rem h d a b x else .div h d a b x) else if rem then .remu h d a b x else .divu h d a b x
    let ck := s.myTeam.core
    let due := s.clock + (s.iss.cyc - 1) + 36
    (s.active h = [] → exec i s = .next s) ∧
    (s.active h ≠ [] → (s.core ck).divider ≠ none → exec i s = .next s.stopped) ∧
    (s.active h ≠ [] → (s.core ck).divider = none → ∃ t j, exec i s = .next t ∧ (t.core ck).divider = some j ∧ j.warp = s.iss.warp ∧ j.due = due ∧ j.hold = s.nextId ∧
      j.vals = (s.active h).map (fun l => (l, (s.laneBefore l).wb + d.toNat, (divWord sgn rem (s.srcR a l) (s.srcR b l)).1)) ∧
      j.exs = orBits (s.active h) (fun l => (divWord sgn rem (s.srcR a l) (s.srcR b l)).2) ∧
      (∀ m, (t.warp s.iss.warp).heldIn m = true) ∧ ⟨due, .divideComplete ck⟩ ∈ t.queue ∧
      t = { s with loc := { s.loc with warps := t.loc.warps }, cores := t.cores, queue := t.queue, nextId := s.nextId + 1 } ∧
      (∀ c, c ≠ ck → t.core c = s.core c) ∧ t.core ck = { s.core ck with divider := some j } ∧
      (∀ w, w ≠ s.iss.warp → t.warp w = s.warp w) ∧ (∀ q ∈ s.queue, q ∈ t.queue))) ∧
  (∀ (s : State) (ck : Nat) (j : DivJob), (s.core ck).divider = some j →
    let tm := s.team (teamOf j.warp)
    let place (p : Nat × Nat × Word) : Nat × Nat := (tm.regGranule j.warp p.1 p.2.1, p.2.1 % 16)
    (s.clock < j.due → exec (.divideComplete ck) s = .next s) ∧
    (j.due ≤ s.clock → (∀ p ∈ j.vals, ∀ q ∈ j.vals, p ≠ q → place p ≠ place q) →
    ∃ t, exec (.divideComplete ck) s = .next t ∧ (∀ p ∈ j.vals, t.logical j.warp p.1 p.2.1 = p.2.2) ∧
      t = { s with loc := { s.loc with gran := t.loc.gran, warps := t.loc.warps }, cores := t.cores,
                   teams := aset s.teams (teamOf j.warp) { tm with exsum := tm.exsum ||| j.exs } } ∧
      t.warp j.warp = { s.warp j.warp with holds := (s.warp j.warp).holds.filter (fun h => h.id != j.hold), spin := (t.warp j.warp).spin,
                                           nextStart := Nat.max (s.warp j.warp).nextStart (s.clock + 1) } ∧
      (∀ w, w ≠ j.warp → t.warp w = s.warp w) ∧ t.core ck = { s.core ck with divider := none, latch := (t.core ck).latch } ∧
      (∀ c, c ≠ ck → t.core c = { s.core c with latch := (t.core c).latch }) ∧
      (∀ a, mget t.mem a = mget s.mem a) ∧
      (∀ g k, (∀ p ∈ j.vals, place p ≠ (g, k)) → (t.granule g).read tm.grant.gen k = (s.granule g).read tm.grant.gen k)))

/-! ### Floating point (spec/07) -/

/-- R72, R73: a value that a format of 16 bits or more can hold is stored as its own code and sets no bit, for FP64, FP32, FP16 and BF16; a NaN
becomes the canonical NaN. R81: round to nearest, ties to even, of m × 2^-sh. -/
def Obligations.RoundingAndStoring : Prop :=
  (∀ f ∈ [fp64, fp32, fp16, bf16], ∀ w < 2 * f.signBit,
    (((f.value w).isNan = false → storeWide f (f.value w) = (w, 0)) ∧
     ((f.value w).isNan = true → storeWide f (f.value w) = (f.nanCode, 0)))) ∧
  (∀ m sh : Nat,
    let k := (roundShift .rne m sh).1
    2 * (m - k * 2 ^ sh) ≤ 2 ^ sh ∧ 2 * (k * 2 ^ sh - m) ≤ 2 ^ sh ∧
    ((2 * (m - k * 2 ^ sh) = 2 ^ sh ∨ 2 * (k * 2 ^ sh - m) = 2 ^ sh) → sh ≠ 0 → k % 2 = 0) ∧
    ((roundShift .rne m sh).2 = true ↔ m = k * 2 ^ sh))

/-- R110 to R113: the FP32 words. Each active fibre's vd gets the operation on the values of va and vb (and of the old vd for FFMA), rounded once, and
csr.exsum the bits of all active fibres. R110 to R113: the FP64 words, over pairs. R114: the packed words act on both halves as the FP16 or BF16
operation, element 1 in bits 31:16; their bits are the OR of both. -/
def Obligations.FloatArithmeticResults : Prop :=
  (∀ (s : State) (h : Hdr) (d a b : Reg) (x : Bool), Apart s →
    let A (l : Nat) : FVal := fp32.value (s.srcR a l).toNat
    let B (l : Nat) : FVal := fp32.value (s.srcR b l).toNat
    let D (l : Nat) : FVal := fp32.value (s.srcR d l).toNat
    SetsRegEx s (.fadd h d a b x) h d (fun l => fAdd fp32 (A l) (B l)) ∧
    SetsRegEx s (.fsub h d a b x) h d (fun l => fAdd fp32 (A l) (B l).neg) ∧
    SetsRegEx s (.fmul h d a b x) h d (fun l => fMul fp32 (A l) (B l)) ∧
    SetsRegEx s (.ffma h d a b x) h d (fun l => fFma fp32 (A l) (B l) (D l)) ∧
    SetsRegEx s (.fmin h d a b x) h d (fun l => fSelect fp32 fvMin (A l) (B l)) ∧
    SetsRegEx s (.fmax h d a b x) h d (fun l => fSelect fp32 fvMax (A l) (B l)) ∧
    SetsRegEx s (.fminn h d a b x) h d (fun l => fSelect fp32 fvMinN (A l) (B l)) ∧
    SetsRegEx s (.fmaxn h d a b x) h d (fun l => fSelect fp32 fvMaxN (A l) (B l))) ∧
  (∀ (s : State) (h : Hdr) (d a b : Reg) (x : Bool), Apart s →
    let A (l : Nat) : FVal := fp64.value (s.srcX a l).toNat
    let B (l : Nat) : FVal := fp64.value (s.srcX b l).toNat
    let D (l : Nat) : FVal := fp64.value (s.srcX d l).toNat
    SetsPairEx s (.dadd h d a b x) h d (fun l => fAdd fp64 (A l) (B l)) ∧
    SetsPairEx s (.dsub h d a b x) h d (fun l => fAdd fp64 (A l) (B l).neg) ∧
    SetsPairEx s (.dmul h d a b x) h d (fun l => fMul fp64 (A l) (B l)) ∧
    SetsPairEx s (.dfma h d a b x) h d (fun l => fFma fp64 (A l) (B l) (D l)) ∧
    SetsPairEx s (.dmin h d a b x) h d (fun l => fSelect fp64 fvMin (A l) (B l)) ∧
    SetsPairEx s (.dmax h d a b x) h d (fun l => fSelect fp64 fvMax (A l) (B l)) ∧
    SetsPairEx s (.dminn h d a b x) h d (fun l => fSelect fp64 fvMinN (A l) (B l)) ∧
    SetsPairEx s (.dmaxn h d a b x) h d (fun l => fSelect fp64 fvMaxN (A l) (B l))) ∧
  (∀ (s : State) (h : Hdr) (d a b : Reg) (x : Bool), Apart s →
    let el (f : Fmt) (r : Reg) (e l : Nat) : FVal := f.value ((s.srcR r l).toNat / 2 ^ (16 * e) % 2 ^ 16)
    let both (r : Nat → Nat → Nat × Exs) (l : Nat) : Nat × Exs := ((r 1 l).1 * 2 ^ 16 + (r 0 l).1, (r 0 l).2 ||| (r 1 l).2)
    SetsRegEx s (.hadd2 h d a b x) h d (both fun e l => fAdd fp16 (el fp16 a e l) (el fp16 b e l)) ∧
    SetsRegEx s (.hmul2 h d a b x) h d (both fun e l => fMul fp16 (el fp16 a e l) (el fp16 b e l)) ∧
    SetsRegEx s (.hfma2 h d a b x) h d (both fun e l => fFma fp16 (el fp16 a e l) (el fp16 b e l) (el fp16 d e l)) ∧
    SetsRegEx s (.hmin2 h d a b x) h d (both fun e l => fSelect fp16 fvMin (el fp16 a e l) (el fp16 b e l)) ∧
    SetsRegEx s (.hmax2 h d a b x) h d (both fun e l => fSelect fp16 fvMax (el fp16 a e l) (el fp16 b e l)) ∧
    SetsRegEx s (.badd2 h d a b x) h d (both fun e l => fAdd bf16 (el bf16 a e l) (el bf16 b e l)) ∧
    SetsRegEx s (.bmul2 h d a b x) h d (both fun e l => fMul bf16 (el bf16 a e l) (el bf16 b e l)) ∧
    SetsRegEx s (.bfma2 h d a b x) h d (both fun e l => fFma bf16 (el bf16 a e l) (el bf16 b e l) (el bf16 d e l)))

/-- R120 to R122: CVT, destination by source type: the source's exact value, rounded to nearest even in a floating-point destination, or truncated and
held within an integer destination's range, a NaN giving 0 there. R122: conversion to an integer type truncates and saturates. R123 to R125: the
pack words divide the two FP32 values of xa by the scale that vb names, round them to the narrow format, and put them into element pair k of vd;
the other elements stay, and a 6-bit word's top byte is 0. R126: the unpack words decode pair k of va, multiply by the scale and write two FP32
values. -/
def Obligations.ConversionAndPackingResults : Prop :=
  (∀ (s : State) (h : Hdr) (d a : Reg) (dst src : NumType), Apart s →
    let v (l : Nat) : FVal := cvtSource src (s.srcR a l) (if src.isWide then s.srcX a l else 0)
    (dst.isWide = false → SetsRegEx s (.cvt h d a dst src) h d (fun l => cvtResult dst (v l))) ∧
    (dst.isWide = true → SetsPairEx s (.cvt h d a dst src) h d (fun l => cvtResult dst (v l)))) ∧
  (∀ (v : Int) (m : Nat) (e : Int) (neg : Bool),
    (cvtResult .s32 (ofInt v)).1 = (Max.max (-(2 ^ 31)) (Min.min (2 ^ 31 - 1) v) % 2 ^ 32).toNat ∧
    (cvtResult .u32 (ofInt v)).1 = (Max.max 0 (Min.min (2 ^ 32 - 1) v)).toNat ∧
    (cvtResult .s64 (ofInt v)).1 = (Max.max (-(2 ^ 63)) (Min.min (2 ^ 63 - 1) v) % 2 ^ 64).toNat ∧
    (cvtResult .u64 (ofInt v)).1 = (Max.max 0 (Min.min (2 ^ 64 - 1) v)).toNat ∧
    (e < 0 → (cvtResult .u32 (.fin neg m e)).1 = if neg then 0 else Min.min (2 ^ 32 - 1) (m / 2 ^ (-e).toNat)) ∧
    (cvtResult .s32 (.inf false)).1 = 2 ^ 31 - 1 ∧ (cvtResult .s32 (.inf true)).1 = 2 ^ 31 ∧ (cvtResult .s32 (.nan false)).1 = 0) ∧
  (∀ (s : State) (h : Hdr) (d a b : Reg) (x : Bool), Apart s →
    let ctl (l : Nat) : Nat := (s.srcR b l).toNat
    let packs (i : Instr) (f : Fmt) (bits count : Nat) : Prop :=
      ∃ r, SetsRegEx s i h d r ∧ ∀ l,
        let sat := !((f.top == .e4m3 || f.top == .e5m2) && (ctl l).testBit 2)
        let k := ctl l % (count / 2)
        let src (j : Nat) : FVal := fp32.value (s.src l (a.toNat + j)).toNat
        let el (j : Nat) : Nat × Exs := storeNarrow f sat (match e8m0 (ctl l / 256) with
          | some e => (src j).scale (-e)
          | none => .nan false)
        (r l).2 = ((el 0).2 ||| sigBits [src 0]) ||| ((el 1).2 ||| sigBits [src 1]) ∧ (r l).1 < 2 ^ (bits * count) ∧
        ∀ e < count, (r l).1 / 2 ^ (bits * e) % 2 ^ bits =
          if e = 2 * k then (el 0).1 % 2 ^ bits else if e = 2 * k + 1 then (el 1).1 % 2 ^ bits
          else (s.srcR d l).toNat / 2 ^ (bits * e) % 2 ^ bits
    packs (.pke4m3 h d a b x) e4m3 8 4 ∧ packs (.pke5m2 h d a b x) e5m2 8 4 ∧ packs (.pke3m2 h d a b x) e3m2 6 4 ∧
    packs (.pke2m3 h d a b x) e2m3 6 4 ∧ packs (.pke2m1 h d a b x) e2m1 4 8) ∧
  (∀ (s : State) (h : Hdr) (d a b : Reg) (x : Bool), Apart s →
    let ctl (l : Nat) : Nat := (s.srcR b l).toNat
    let unpacks (i : Instr) (bits count : Nat) (dec : Bool → Nat → FVal) : Prop :=
      ∃ r, SetsPairEx s i h d r ∧ ∀ l,
        let k := ctl l % (count / 2)
        let el (j : Nat) : Nat × Exs :=
          let v := dec ((ctl l).testBit 3) ((s.srcR a l).toNat / 2 ^ (bits * (2 * k + j)) % 2 ^ bits)
          storeWide fp32 (match e8m0 (ctl l / 256) with
            | some e => v.scale e
            | none => .nan false)
        r l = ((el 0).1 + (el 1).1 * 2 ^ 32, (el 0).2 ||| (el 1).2)
    unpacks (.upk8 h d a b x) 8 4 (fun alt c => if alt then e5m2.value c else e4m3.value c) ∧
    unpacks (.upk6 h d a b x) 6 4 (fun alt c => if alt then e2m3.value c else e3m2.value c) ∧
    unpacks (.upk4 h d a b x) 4 8 (fun alt c => if alt then qn4Value c else e2m1.value c))

/-- R45, R116 to R119, R210: the special functions, where a fibre is active, the unit is not held and the warp has a counter left: the results go out
under a new counter, due 12 cycles after the read cycles, or 20 for the FP64 ones, which hold the unit for 8 cycles rather than 2. The functions
whose last bit a part decides are read through `Config.sfuFree`, of which nothing is known (log entry 10). -/
def Obligations.SpecialFunctionsStart : Prop :=
  ∀ (s : State) (h : Hdr) (d a : Reg) (la : BitVec 4),
    let ck := s.myTeam.core
    let go (i : Instr) (wide : Bool) (f : Nat → Nat × Exs) : Prop :=
      StartsResult s i (s.active h) la.toNat (s.iss.cyc - 1 + if wide then 20 else 12)
        (fun l => let lr := (s.laneBefore l).wb + d.toNat
          if wide then [(lr, BitVec.ofNat 32 (f l).1), (lr + 1, BitVec.ofNat 32 ((f l).1 / 2 ^ 32))] else [(lr, BitVec.ofNat 32 (f l).1)])
        ((s.active h).map fun l => (l, (f l).2))
        (aset s.cores ck { s.core ck with sfuUntil := s.clock + if wide then 8 else 2 })
    let A (l : Nat) : FVal := fp32.value (s.srcR a l).toNat
    let X (l : Nat) : FVal := fp64.value (s.srcX a l).toNat
    s.active h ≠ [] → (s.core ck).sfuUntil ≤ s.clock → s.myWarp.counters.length < 8 →
    go (.frcp h d a la) false (fun l => sfuRcp fp32 (A l)) ∧
    go (.frsq h d a la) false (fun l => sfuRsq fp32 (rsqUp 1 ((s.srcR a l).setWidth 64)) (A l)) ∧
    go (.fsqrt h d a la) false (fun l => sfuSqrt fp32 (A l)) ∧
    go (.fex2 h d a la) false (fun l => sfuEx2 (s.srcR a l)) ∧
    go (.flg2 h d a la) false (fun l => sfuLg2 (s.srcR a l)) ∧
    go (.fsin h d a la) false (fun l => sfuSinCos false (s.srcR a l)) ∧
    go (.fcos h d a la) false (fun l => sfuSinCos true (s.srcR a l)) ∧
    go (.ftanh h d a la) false (fun l => sfuTanh (s.srcR a l)) ∧
    go (.drcp h d a la) true (fun l => sfuRcp fp64 (X l)) ∧
    go (.drsq h d a la) true (fun l => sfuRsq fp64 (rsqUp 9 (s.srcX a l)) (X l)) ∧
    go (.dsqrt h d a la) true (fun l => sfuSqrt fp64 (X l))

/-- R210, R45: a result whose writes and publishes are done arrives whole, while the warp lives, the generation it carries is accepted and the
registers are resident: every word is written, the counter lets the lanes go, the bits are ORed in and the result is gone. -/
def Obligations.LongLatencyResultArrives : Prop :=
  ∀ (s : State) (id : Nat) (m : ResultMsg), s.item id = some (.result m) → m.pubs = [] → m.tag = none → m.seq = none →
    (s.warp m.dest.warp).live = true → s.accepts (s.team (teamOf m.dest.warp)) m.dest.gen = true →
    (∀ v ∈ m.vals, v.2 ≠ [] ∧ v.1 < 32) → (∀ e ∈ m.exs, ∃ v ∈ m.vals, v.1 = e.1) →
    let w := m.dest.warp
    let tm := s.team (teamOf w)
    let place (l lr : Nat) : Nat × Nat := (tm.regGranule w l lr, lr % 16)
    (∀ v ∈ m.vals, let f := s.fib (fibKey w v.1); ∀ x ∈ v.2, f.floor ≤ x.1 / 16 * 16 ∧ x.1 / 16 * 16 < f.floor + 16 * f.nres) →
    ((m.vals.flatMap fun v => v.2.map fun x => place v.1 x.1).Nodup) →
    ∃ t, exec (.longLatencyResult id (BitVec.allOnes 32) (BitVec.allOnes 16)) s = .next t ∧
      (∀ v ∈ m.vals, ∀ x ∈ v.2, t.logical w v.1 x.1 = x.2) ∧ t.item id = none ∧
      (t.team (teamOf w)) = { tm with exsum := tm.exsum ||| m.exs.foldl (fun b e => b ||| e.2) 0 } ∧
      (∀ k ∈ (t.warp w).counters, k.id = m.dest.cid → ∀ v ∈ m.vals, ∀ y ∈ k.vals, y.1 ≠ v.1) ∧
      t.mem = s.mem ∧ t.loc.fibres = s.loc.fibres ∧ (∀ k, k ≠ id → t.item k = s.item k) ∧
      (∀ g k, (∀ v ∈ m.vals, ∀ x ∈ v.2, place v.1 x.1 ≠ (g, k)) → (t.granule g).read tm.grant.gen k = (s.granule g).read tm.grant.gen k)

/-! ### Values across lanes, and words that read the machine's own state (spec/11, 13, 19, 28) -/

/-- R181 to R183: the shuffles take va of the lane their source names when that lane is active, else the lane's own; BALLOT gives every active fibre
the mask of active fibres whose predicate is true. R184: the warp reductions over integers give every active fibre the sum modulo 2^32, the least
or the greatest of the active fibres' values; over FP32 the fixed tree's sum, the minimumNumber or maximumNumber, with the bits of every step. -/
def Obligations.CrossLaneResults : Prop :=
  (∀ (s : State) (h : Hdr) (d a b : Reg) (x : Bool) (q : PredIx) (neg : Bool), Apart s →
    let A := s.srcR a
    let n (l : Nat) : Nat := (s.srcR b l).toNat
    SetsReg s (.shfl h d a b x) h d (fun l v => v = if n l % 32 ∈ s.active h then A (n l % 32) else A l) ∧
    SetsReg s (.shflup h d a b x) h d (fun l v => v = if n l ≤ l ∧ l - n l ∈ s.active h then A (l - n l) else A l) ∧
    SetsReg s (.shfldn h d a b x) h d (fun l v => v = if l + n l ≤ 31 ∧ l + n l ∈ s.active h then A (l + n l) else A l) ∧
    SetsReg s (.shflx h d a b x) h d (fun l v => v = if l ^^^ (n l % 32) ∈ s.active h then A (l ^^^ (n l % 32)) else A l) ∧
    SetsReg s (.ballot h d q neg) h d (fun _ v => ∀ m < 32, v.getLsbD m = true ↔ m ∈ s.active h ∧ s.srcPred m q neg = true)) ∧
  (∀ (s : State) (h : Hdr) (d a : Reg) (x : Bool), Apart s →
    let vs := (s.active h).map (s.srcR a)
    SetsReg s (.wredadd h d a .signed x) h d (fun _ v => v.toNat = (vs.map BitVec.toNat).sum % 2 ^ 32) ∧
    SetsReg s (.wredadd h d a .unsigned x) h d (fun _ v => v.toNat = (vs.map BitVec.toNat).sum % 2 ^ 32) ∧
    SetsReg s (.wredmin h d a .signed x) h d (fun _ v => v ∈ vs ∧ ∀ y ∈ vs, v.toInt ≤ y.toInt) ∧
    SetsReg s (.wredmin h d a .unsigned x) h d (fun _ v => v ∈ vs ∧ ∀ y ∈ vs, v.toNat ≤ y.toNat) ∧
    SetsReg s (.wredmax h d a .signed x) h d (fun _ v => v ∈ vs ∧ ∀ y ∈ vs, y.toInt ≤ v.toInt) ∧
    SetsReg s (.wredmax h d a .unsigned x) h d (fun _ v => v ∈ vs ∧ ∀ y ∈ vs, y.toNat ≤ v.toNat) ∧
    (s.active h ≠ [] →
      let brings (i : Instr) (r : Nat × Exs) : Prop := ∃ u, exec i s = .next (u.addEx (teamOf s.iss.warp) r.2) ∧
        (∀ l ∈ s.active h, reg s u l d.toNat = BitVec.ofNat 32 r.1) ∧ RegFrame s u (s.active h) d.toNat 1
      let fs := vs.map fun v => fp32.value v.toNat
      brings (.wredmin h d a .f32 x) (reduceSelect fvMinN fs) ∧ brings (.wredmax h d a .f32 x) (reduceSelect fvMaxN fs) ∧
      ∃ r, treeSum (fun l => if (s.active h).contains l then some (s.srcR a l).toNat else none) = some r ∧
        brings (.wredadd h d a .f32 x) (if (fp32.value r.1).isNan then fp32.nanCode else r.1, r.2 ||| sigBits fs)))

/-- R169, R180, R325, R395: MASKRD, BARQ, FMTQ and HOPS write what the warp's masks before the group, the team's barriers, a format word and the
virtual die table say into vd, and change nothing else. -/
def Obligations.QueryWordResults : Prop :=
  ∀ (s : State) (h : Hdr) (d a b : Reg) (m : MaskIx) (bar : BitVec 4), Apart s →
    let vdt := (s.ctx (s.ctxOfWarp s.iss.warp)).vdt
    SetsReg s (.maskrd h m d) h d (fun _ v => v = (s.pre.warp s.iss.warp).mask m.toNat) ∧
    SetsReg s (.barq h bar d) h d (fun _ v =>
      let x := s.myTeam.barriers.toList.getD bar.toNat (Barrier.start 0)
      v.toNat = (x.phase.toNat % 2 ^ 8 * 2 ^ 16 + (if x.ov then 2 ^ 15 else 0) + x.cnt[0]) % 2 ^ 32) ∧
    SetsReg s (.fmtq h d a) h d (fun l v => FormatAnswer (s.srcR a l).toNat v.toNat) ∧
    SetsReg s (.hops h d a b) h d (fun l v =>
      let i := (s.srcR a l).toNat
      let j := (s.srcR b l).toNat
      let entry (n : Nat) : Nat := vdt.toNat / 2 ^ (8 * n) % 256
      let die (n : Nat) : Nat := entry n / 16 % 4
      v = if 3 < i ∨ 3 < j ∨ entry i < 128 ∨ entry j < 128 then BitVec.allOnes 32
        else if die i = die j then 0 else if die i + die j = 3 then 2 else 1)

/-- R214: GENQ tells for each lane's core address whether the granule carries the team's generation, whether it is void, and the team's generation;
lanes whose address names no place fault with 0x11, and the others still get their word. -/
def Obligations.GenerationQueryResults : Prop :=
  ∀ (s : State) (h : Hdr) (d a : Reg), Apart s →
    let tm := s.myTeam
    let place (l : Nat) : Option Nat := (coreAt tm (s.srcR a l).toNat).map fun x => match x with
      | .scratch off => tm.scrGranule off
      | .reg n _ => tm.regGranule s.iss.warp l ((s.laneBefore l).wb + n)
    ((∀ l ∈ s.active h, (place l).isSome) → ∃ t, exec (.genq h d a) s = .next t ∧ RegFrame s t (s.active h) d.toNat 1 ∧
      ∀ l ∈ s.active h, ∀ g, place l = some g → (reg s t l d.toNat).toNat =
        (if (s.granule g).tag = tm.grant.gen then 2 ^ 17 else 0) + (if (s.granule g).tag = 0 then 2 ^ 16 else 0) + tm.grant.gen.toNat) ∧
    (∀ l ∈ s.active h, place l = none → tm.halts = [] → Unended s (teamOf s.iss.warp) → ∃ t x, exec (.genq h d a) s = .next t ∧
      (t.team (teamOf s.iss.warp)).halts = [x] ∧ x.kind = .lane ∧ x.code = 0x11 ∧ x.flanes.getLsbD l = true)

/-! ### Control and status registers (R24, R136 to R139, R361) -/

/-- R24, R137, R138, R361: CSRR of an assigned register with a register field that fits reads it into every active fibre: a 64-bit one into a pair, a
32-bit one into a register. Handler registers answer to a handler batch. R139, R361: CSRW writes the writable bits. csr.rsbase keeps bits 63:3 and
csr.spill bits 63:6 of each active fibre's pair; csr.exsum takes 9 bits, csr.epc 58 bits and csr.donemask 32 bits from the highest active fibre;
csr.epred takes 7 bits of each. R138: a CSR access that has an active fibre and names an unassigned number, writes a read-only register or touches
a handler register outside a handler batch traps precisely with permission 0x11; an odd register for a 64-bit one traps with 0x01, and 0x11 comes
first. Without an active fibre the word does nothing. -/
def Obligations.CsrAccesses : Prop :=
  (∀ (s : State) (h : Hdr) (d : Reg) (num : BitVec 12) (info : CsrInfo), Apart s → csrInfo num.toNat = some info →
    (info.handler = true → inHandlerBatch s = true) →
    (info.wide = false → SetsReg s (.csrr h d num) h d (fun l v => v = (csrRead s l num.toNat).setWidth 32)) ∧
    (info.wide = true → d.toNat % 2 = 0 → SetsPair s (.csrr h d num) h d (fun l v => v = csrRead s l num.toNat)) ∧
    (∀ l, csrRead s l 0x001 = BitVec.ofNat 64 (s.lane l).fid ∧ csrRead s l 0x002 = BitVec.ofNat 64 s.myTeam.teamid ∧
      csrRead s l 0x003 = BitVec.ofNat 64 s.myTeam.panelid ∧ csrRead s l 0x004 = BitVec.ofNat 64 s.myTeam.stage ∧
      csrRead s l 0x006 = BitVec.ofNat 64 (s.ctxOfWarp s.iss.warp) ∧ csrRead s l 0x007 = s.myTeam.gen.setWidth 64 ∧
      csrRead s l 0x008 = BitVec.ofNat 64 (s.lane l).wb ∧ csrRead s l 0x009 = BitVec.ofNat 64 (s.lane l).depth ∧
      csrRead s l 0x010 = (s.lane l).rsbase ∧ csrRead s l 0x012 = (s.lane l).spill ∧ csrRead s l 0x014 = s.myTeam.exsum.setWidth 64 ∧
      csrRead s l 0x016 = (s.lane l).lastseq ∧ csrRead s l 0x018 = BitVec.ofNat 64 s.clock ∧
      csrRead s l 0x01A = (s.ctx (s.ctxOfWarp s.iss.warp)).vdt ∧ csrRead s l 0x100 = s.myTeam.epc ∧ csrRead s l 0x104 = s.myTeam.frec ∧
      csrRead s l 0x106 = s.myTeam.cause.setWidth 64 ∧ csrRead s l 0x107 = s.myTeam.donemask.setWidth 64 ∧
      csrRead s l 0x108 = (s.lane l).epred.setWidth 64 ∧ csrRead s l 0x10A = s.myTeam.faddr)) ∧
  (∀ (s : State) (h : Hdr) (a : Reg) (top : Nat), (s.active h).getLast? = some top →
    let tk := teamOf s.iss.warp
    let lanes (num : BitVec 12) (f : Nat → Fibre → Fibre) : Prop := ∃ t, exec (.csrw h a num) s = .next t ∧
      t = { s with loc := { s.loc with fibres := t.loc.fibres } } ∧ (∀ l ∈ s.active h, t.lane l = f l (s.lane l)) ∧
      (∀ k, (∀ l ∈ s.active h, fibKey s.iss.warp l ≠ k) → t.fib k = s.fib k)
    let team (num : BitVec 12) (x : Team) : Prop := exec (.csrw h a num) s = .next (s.setTeam tk x)
    (a.toNat % 2 = 0 → lanes 0x010 (fun l f => { f with rsbase := BitVec.ofNat 64 ((s.srcX a l).toNat / 8 * 8) }) ∧
      lanes 0x012 (fun l f => { f with spill := BitVec.ofNat 64 ((s.srcX a l).toNat / 64 * 64) })) ∧
    team 0x014 { s.myTeam with exsum := BitVec.ofNat 9 (s.srcR a top).toNat } ∧
    (inHandlerBatch s = true → team 0x107 { s.myTeam with donemask := s.srcR a top } ∧
      (a.toNat % 2 = 0 → team 0x100 { s.myTeam with epc := BitVec.ofNat 64 ((s.srcX a top).toNat % 2 ^ 58) }) ∧
      lanes 0x108 (fun l f => { f with epred := BitVec.ofNat 7 (s.srcR a l).toNat }))) ∧
  (∀ (s : State) (h : Hdr) (r : Reg) (num : BitVec 12),
    let info := csrInfo num.toNat
    let perm (write : Bool) : Prop := match info with
      | none => True
      | some i => (write = true ∧ i.writable = false) ∨ (i.handler = true ∧ inHandlerBatch s = false)
    let odd : Prop := match info with
      | none => False
      | some i => i.wide = true ∧ r.toNat % 2 = 1
    (s.active h = [] → exec (.csrr h r num) s = .next s ∧ exec (.csrw h r num) s = .next s) ∧
    (s.active h ≠ [] →
      (perm false → exec (.csrr h r num) s = .next (s.trapPrecise 0x11 false (s.active h) 0)) ∧
      (perm true → exec (.csrw h r num) s = .next (s.trapPrecise 0x11 false (s.active h) 0)) ∧
      (¬perm false → odd → exec (.csrr h r num) s = .next (s.trapPrecise 0x01 false (s.active h) 0)) ∧
      (¬perm true → odd → exec (.csrw h r num) s = .next (s.trapPrecise 0x01 false (s.active h) 0))))

/-! ### Lane masks, barriers, waits (spec/11) -/

/-- R165, R168, R169: MKMASK, MASKWR and LEAVE write a mask of the warp; LEAVE also takes the lanes out of the wait records of that mask: of waiting
fibres, of fibres whose wait a handler keeps, and of words whose wait has still to begin. R168, R170, R178, R343: the waiting words. JOIN and
WAITM put the active members of their mask, as it stood before the group, to wait with the mask's value, WAITF and BARWAIT the active fibres at
their flags and at their phase; each remembers the word that made it wait. JOIN and WAITM do so once the fibres' writes are released at warp
scope; nothing stands in the way of fibres that have no outstanding write. R174, R175: FEXIT ends the active fibres, takes their lanes out of m0
and discards their return stacks; YIELD makes them wait for the other warps of the core that have a ready batch, and lasts 64 cycles at most;
where there is no such warp it does nothing. -/
def Obligations.MaskWaitAndExitWords : Prop :=
  (∀ (s : State) (h : Hdr) (m : MaskIx) (v : Reg) (top : Nat), m.toNat < 12 → (s.active h).getLast? = some top →
    let w := s.iss.warp
    let sets (i : Instr) (x : Mask) : Prop := ∃ t, exec i s = .next t ∧
      t = { s with loc := { s.loc with warps := t.loc.warps }, iss := { s.iss with changed := true } } ∧ (∀ u, u ≠ w → t.warp u = s.warp u) ∧
      t.warp w = { s.warp w with masks := (t.warp w).masks } ∧
      (∀ k < 12, (t.warp w).mask k = if k = m.toNat then x else (s.warp w).mask k)
    (∃ x, (∀ l < 32, x.getLsbD l = true ↔ l ∈ s.active h) ∧ sets (.mkmask h m) x) ∧
    sets (.maskwr h m v) (s.srcR v top) ∧
    ∃ t x, exec (.leave h m) s = .next t ∧
      (∀ l < 32, x.getLsbD l = true ↔ (s.myWarp.mask m.toNat).getLsbD l = true ∧ l ∉ s.active h) ∧
      t = { s with loc := { s.loc with warps := t.loc.warps, fibres := t.loc.fibres }, iss := { s.iss with changed := true }, tails := t.tails } ∧
      (∀ u, u ≠ w → t.warp u = s.warp u) ∧ (∀ k < 12, (t.warp w).mask k = if k = m.toNat then x else (s.warp w).mask k) ∧
      (let left (r q : Wait) : Prop := ∀ j k y, r = .mask j k y →
         ∃ z, q = .mask j k z ∧ ∀ n < 32, z.getLsbD n = true ↔ y.getLsbD n = true ∧ (k = m.toNat → n ∉ s.active h)
       (∀ l < 32, t.lane l = { s.lane l with wait := (t.lane l).wait, kept := (t.lane l).kept } ∧ left (s.lane l).wait (t.lane l).wait ∧
         left (s.lane l).kept (t.lane l).kept)) ∧
      (∀ k, (∀ l < 32, fibKey w l ≠ k) → t.fib k = s.fib k) ∧ t.tails.length = s.tails.length ∧
      ∀ (n : Nat) (y z : Tail), s.tails[n]? = some y → t.tails[n]? = some z → z.iss = y.iss ∧ z.hold = y.hold ∧ (y.iss.warp ≠ w → z = y) ∧
        (y.iss.warp = w → ∀ i < 32, ((z.pre.warp w).mask m.toNat).getLsbD i = true ↔
          ((y.pre.warp w).mask m.toNat).getLsbD i = true ∧ i ∉ s.active h)) ∧
  (∀ (s : State) (h : Hdr) (m : MaskIx) (msk : BitVec 12) (any : Bool) (bar : BitVec 4) (ph : BitVec 2),
    let waits (i : Instr) (ls : List Nat) (rec : Wait) : Prop := ∃ t, exec i s = .next t ∧
      (∀ l ∈ ls, t.lane l = { s.lane l with wait := rec, since := s.clock, rpc := s.iss.pc, rword := s.iss.word }) ∧
      (∀ k, (∀ l ∈ ls, fibKey s.iss.warp l ≠ k) → t.fib k = s.fib k) ∧ t.mem = s.mem ∧ t.loc.gran = s.loc.gran ∧
      (∀ w, t.warp w = { s.warp w with spin := (t.warp w).spin }) ∧ t.teams = s.teams
    let before : Mask := (s.pre.warp s.iss.warp).mask m.toNat
    let members := (s.active h).filter fun l => before.getLsbD l
    waits (.waitf h msk any) (s.active h) (.flags msk any) ∧
    waits (.barwait h bar ph) (s.active h)
      (.bar bar.toNat (BitVec.ofNat 32 ((s.barrier (teamOf s.iss.warp) bar.toNat).phase.toNat + ph.toNat))) ∧
    (Settled s →
      waits (.join h m) members (.mask true m.toNat before) ∧
      waits (.waitm h m) members (.mask false m.toNat before))) ∧
  (∀ (s : State) (h : Hdr),
    let w := s.iss.warp
    let others := (s.warpsOn s.myTeam.core).filter fun u => u != w && s.warpReady u
    (∃ t, exec (.fexit h) s = .next t ∧ t = { s with loc := { s.loc with fibres := t.loc.fibres, warps := t.loc.warps } } ∧
      (∀ l ∈ s.active h, t.lane l = { s.lane l with live := false, held := [], wait := .none }) ∧
      (∀ k, (∀ l ∈ s.active h, fibKey w l ≠ k) → t.fib k = s.fib k) ∧
      (∀ l < 32, ((t.warp w).mask 0).getLsbD l = true ↔ ((s.warp w).mask 0).getLsbD l = true ∧ l ∉ s.active h) ∧
      (∀ k, 0 < k → k < 12 → (t.warp w).mask k = (s.warp w).mask k)) ∧
    (s.active h ≠ [] → others = [] → exec (.yield h) s = .next s) ∧
    (s.active h ≠ [] → others ≠ [] → ∃ t, exec (.yield h) s = .next t ∧
      (∀ l ∈ s.active h, (t.lane l).wait = .yield others s.clock) ∧
      (∃ lanes, (∀ l < 32, lanes.getLsbD l = true ↔ l ∈ s.active h) ∧ ⟨s.clock + 64, .yieldTimeout w lanes s.clock⟩ ∈ t.queue) ∧
      t.mem = s.mem ∧ t.loc.gran = s.loc.gran ∧ t.teams = s.teams) ∧
    (∀ lanes since, ∃ t, exec (.yieldTimeout w lanes since) s = .next t ∧
      (∀ l < 32, lanes.getLsbD l = true → (s.lane l).live = true → s.running w l = true → (∃ o, (s.lane l).wait = .yield o since) →
        (t.lane l).wait = .none) ∧
      t = { s with loc := { s.loc with fibres := t.loc.fibres } } ∧ ∀ k, t.fib k = { s.fib k with wait := (t.fib k).wait, since := (t.fib k).since }))

/-- R176, R178: what n arrivals at phase j of a barrier do, before any phase completes: the count grows up to E and the excess sets OV; then, while
cnt[0] is E, the phase advances and the counts move down. R177 to R179: BARINIT, BARARR and BARARW where the team's fibres have no outstanding
write. BARINIT takes E from the highest active fibre, 0 standing for the team's fibres; BARARR arrives once for every active fibre; BARARW does so
too, and its fibres wait for the phase they named unless it has completed. -/
def Obligations.BarrierResults : Prop :=
  (∀ (b : Barrier) (j n : Nat) (hj : j < 4), 0 < b.e → (∀ k (_ : k < 4), b.cnt[k] ≤ b.e) →
    let c := b.arrive j n
    let met (k : Nat) : Nat := if hk : k < 4 then (if k = j then Min.min b.e (b.cnt[k] + n) else b.cnt[k]) else 0
    (c.ov = (b.ov || decide (b.e < b.cnt[j] + n))) ∧ c.e = b.e ∧
    ∃ p ≤ 4, c.phase = b.phase + BitVec.ofNat 32 p ∧ (∀ k (_ : k < 4), c.cnt[k] = met (k + p)) ∧ (∀ k < p, met k = b.e) ∧ met p ≠ b.e) ∧
  (∀ (s : State) (h : Hdr) (bar : BitVec 4) (ph : BitVec 2) (v : Reg) (top : Nat), (s.active h).getLast? = some top →
    Settled s → s.myTeam.warps ≤ 32 →
    let tk := teamOf s.iss.warp
    let b := s.barrier tk bar.toNat
    let n := (s.srcR v top).toNat % 4096
    (∃ t, exec (.barinit h bar ph v) s = .next t ∧
      t.barrier tk bar.toNat = b.init (if n = 0 then s.myTeam.fibres else n) (ph == 1) ∧ t.mem = s.mem ∧ t.loc.gran = s.loc.gran ∧
      ∀ k < 16, k ≠ bar.toNat → t.barrier tk k = s.barrier tk k) ∧
    (∃ t, exec (.bararr h bar ph) s = .next t ∧ t.barrier tk bar.toNat = b.arrive ph.toNat (s.active h).length ∧ t.mem = s.mem ∧
      t.loc.gran = s.loc.gran ∧ ∀ k < 16, k ≠ bar.toNat → t.barrier tk k = s.barrier tk k) ∧
    (∃ t, exec (.bararw h bar ph) s = .next t ∧ t.barrier tk bar.toNat = b.arrive ph.toNat (s.active h).length ∧ t.mem = s.mem ∧
      (State.phasePassed (b.arrive ph.toNat (s.active h).length).phase (b.phase + ph.setWidth 32) = false →
        ∀ l ∈ s.active h, (t.lane l).wait = .bar bar.toNat (b.phase + ph.setWidth 32))))

/-! ### Control, the window, the return stack (spec/02, spec/08) -/

/-- R127 to R129: BRA sends every active fibre to the packet at the signed offset, modulo 2^54; BRR each to its own pair's packet, and traps with
permission where a pair names none; a fibre whose guard is false goes on. -/
def Obligations.BranchResults : Prop :=
  ∀ (s : State) (h : Hdr) (off : BitVec 22) (a : Reg),
    (∃ t pc, exec (.bra h off) s = .next t ∧ ((pc.toNat : Int) = (s.iss.pc.toNat + off.toInt : Int) % 2 ^ 54) ∧
      Moves s t (s.active h) (fun _ f => { f with pc := pc, word := 0 }) ∧ (s.active h ≠ [] → t.iss.xfer = true)) ∧
    ((∀ l ∈ s.active h, (s.srcX a l).toNat < 2 ^ 54) → ∃ t, exec (.brr h a) s = .next t ∧
      Moves s t (s.active h) (fun l f => { f with pc := BitVec.ofNat 54 (s.srcX a l).toNat, word := 0 }) ∧
      (s.active h ≠ [] → t.iss.xfer = true)) ∧
    ((∃ l ∈ s.active h, 2 ^ 54 ≤ (s.srcX a l).toNat) → exec (.brr h a) s = .next (s.trapPrecise 0x11 false (s.active h) 0))

/-- R15, R16: what a change of WB does to the resident blocks of a fibre that keeps the invariant: every needed block is resident afterwards, the
resident blocks number at most A/16, only resident blocks below the needed ones are spilled, oldest first, the floor rising by 16 for each, and of
the needed blocks that are not resident just those below the old ones and those that were spilled or discarded before are refilled (DEDUCED, log
entry 58: a block that was never resident needs no refill). The list of blocks that have left is kept. -/
def Obligations.WindowPlanKeepsTheInvariant : Prop :=
  ∀ (lo nres c wb : Nat) (left : List Nat), 4 ≤ c → c ≤ 16 → (c = 4 → wb % 16 = 0) → 4 ≤ nres → nres ≤ c →
    let p := winPlan (16 * lo) nres (16 * c) wb left
    p.floor % 16 = 0 ∧ p.nres ≤ c ∧ 4 ≤ p.nres ∧
    (∀ b, wb / 16 ≤ b → 16 * b < wb + 64 → p.floor / 16 ≤ b ∧ b < p.floor / 16 + p.nres) ∧
    (∀ k (hk : k < p.spills.length), p.spills[k] = lo + k ∧ lo + k < lo + nres ∧ lo + k < wb / 16) ∧
    (∀ b, b ∈ p.refills ↔ wb / 16 ≤ b ∧ 16 * b < wb + 64 ∧ (b < lo ∨ (lo + nres ≤ b ∧ b ∈ left))) ∧
    (∀ b, b ∈ p.left ↔ (b ∈ left ∨ (lo ≤ b ∧ b < lo + nres)) ∧ ¬(p.floor / 16 ≤ b ∧ b < p.floor / 16 + p.nres)) ∧
    (∀ b, lo ≤ b → b < lo + nres → b < p.floor / 16 → b ∈ p.spills)

/-- R17, R19 to R21, R131: CALL and CALLR where no block must be spilled and the hardware stack has room: the entry (k, PC + 1) is pushed, WB rises by
k, the fibre goes to its target. The checks come in the order of R131. R21, R132: RET where the top entry is held, is not the last one held above
a deeper stack, and needs no refill: it is popped, WB falls by its shift, the fibre goes on at its packet. Its checks trap before any effect. -/
def Obligations.CallAndReturnResults : Prop :=
  (∀ (s : State) (h : Hdr) (off : BitVec 16) (sh : BitVec 6) (a : Reg),
    let k := sh.toNat
    let entry : DWord := BitVec.ofNat 64 (k * 2 ^ 58 + (s.iss.pc.toNat + 1) % 2 ^ 54)
    let pc : Pc := BitVec.ofInt 54 (s.iss.pc.toNat + off.toInt)
    let refuses (l : Nat) : Option (BitVec 8) :=
      if s.myTeam.alloc = 64 ∧ k % 16 ≠ 0 then some 0x12 else if 2 ^ 26 - 64 < (s.lane l).wb + k then some 0x11
      else if (s.lane l).depth = 2 ^ 26 then some 0x11 else none
    let after (target : Nat → Pc) (l : Nat) (f : Fibre) : Fibre :=
      { movedTo s (f.wb + k) f with held := entry :: f.held, depth := f.depth + 1, pc := target l, word := 0 }
    let runs : Prop := ∀ l ∈ s.active h, refuses l = none ∧ (s.lane l).held.length < 16 ∧ Quiet s l ((s.lane l).wb + k)
    (runs → ∃ t, exec (.call h off sh) s = .next t ∧ Moves s t (s.active h) (after fun _ => pc)) ∧
    (runs → (∀ l ∈ s.active h, (s.srcX a l).toNat < 2 ^ 54) → ∃ t, exec (.callr h a sh) s = .next t ∧
      Moves s t (s.active h) (after fun l => BitVec.ofNat 54 (s.srcX a l).toNat)) ∧
    FirstFails s (.call h off sh) h refuses ∧
    FirstFails s (.callr h a sh) h (fun l => if 2 ^ 54 ≤ (s.srcX a l).toNat then some 0x11 else refuses l)) ∧
  (∀ (s : State) (h : Hdr) (top : Nat → DWord),
    let k (l : Nat) : Nat := (top l).toNat / 2 ^ 58
    ((∀ l ∈ s.active h, (s.lane l).depth ≠ 0 ∧ (s.lane l).held.head? = some (top l) ∧
        ((s.lane l).held.length = 1 → (s.lane l).depth = 1) ∧ (s.myTeam.alloc = 64 → k l % 16 = 0) ∧ k l ≤ (s.lane l).wb ∧
        Quiet s l ((s.lane l).wb - k l)) →
      ∃ t, exec (.ret h) s = .next t ∧ Moves s t (s.active h) (fun l f =>
        { movedTo s (f.wb - k l) f with held := List.tail f.held, depth := f.depth - 1, pc := BitVec.ofNat 54 (top l).toNat, word := 0 })) ∧
    FirstFails s (.ret h) h (fun l =>
      if (s.lane l).depth = 0 ∨ (s.lane l).held.head? ≠ some (top l) then none
      else if s.myTeam.alloc = 64 ∧ k l % 16 ≠ 0 then some 0x12 else if (s.lane l).wb < k l then some 0x11 else none))

/-- R22, whole: a RET at csr.rsdepth = 0 ends the fibre, exactly as FEXIT does; as a RET it is a taken transfer besides (R127, R292). -/
def Obligations.ReturnAtDepthZeroEndsTheFibre : Prop :=
  ∀ (s : State) (h : Hdr), s.active h ≠ [] → (∀ l ∈ s.active h, (s.lane l).depth = 0) →
    ∃ u, exec (.fexit h) s = .next u ∧ exec (.ret h) s = .next { u with iss := { u.iss with xfer := true } }

/-- R134: RSRD, RSPOP, RSPUSH and WIN where no block is spilled or refilled and the entries they need are held; where csr.rsdepth is not above n, RSRD
gives all ones, and so does RSPOP at depth 0. RSPOP writes its pair in the new window. R21, R134: what a return-stack access brings when it
completes: an RSRD's entry into its pair, the entry below a pop back into the hardware stack; the fibres are released. -/
def Obligations.ReturnStackResults : Prop :=
  (∀ (s : State) (h : Hdr) (v : Reg), Apart s →
    let n (l : Nat) : Nat := (s.srcR v l).toNat
    ((∀ l ∈ s.active h, (s.lane l).depth ≤ n l ∨ n l < (s.lane l).held.length) → SetsPair s (.rsrd h v) h v (fun l x =>
      x = if (s.lane l).depth ≤ n l then BitVec.allOnes 64 else (s.lane l).held.getD (n l) 0)) ∧
    ((∀ l ∈ s.active h, (s.lane l).depth = 0) → SetsPair s (.rspop h v) h v (fun _ x => x = BitVec.allOnes 64)) ∧
    (∀ top : Nat → DWord,
      let k (l : Nat) : Nat := (top l).toNat / 2 ^ 58
      (∀ l ∈ s.active h, (s.lane l).depth ≠ 0 ∧ (s.lane l).held.head? = some (top l) ∧ ((s.lane l).held.length = 1 → (s.lane l).depth = 1) ∧
        (s.myTeam.alloc = 64 → k l % 16 = 0) ∧ k l ≤ (s.lane l).wb ∧ Quiet s l ((s.lane l).wb - k l)) →
      ∃ t, exec (.rspop h v) s = .next t ∧ (∀ l ∈ s.active h,
          t.lane l = { movedTo s ((s.lane l).wb - k l) (s.lane l) with held := (s.lane l).held.tail, depth := (s.lane l).depth - 1 } ∧
          t.logical s.iss.warp l ((s.lane l).wb - k l + v.toNat + 1) ++ t.logical s.iss.warp l ((s.lane l).wb - k l + v.toNat) = top l) ∧
        (∀ a, mget t.mem a = mget s.mem a) ∧ (∀ j, (∀ l ∈ s.active h, fibKey s.iss.warp l ≠ j) → t.fib j = s.fib j) ∧
        (∀ g, (∀ l ∈ s.active h, ∀ i < 2, s.myTeam.regGranule s.iss.warp l ((s.lane l).wb - k l + v.toNat + i) ≠ g) → t.granule g = s.granule g) ∧
        t = { s with loc := t.loc, cores := t.cores, iss := { s.iss with changed := t.iss.changed } } ∧
        (∀ j, t.warp j = { s.warp j with spin := (t.warp j).spin }) ∧
        (∀ j, t.core j = { s.core j with latch := (t.core j).latch } ∧ ∀ e ∈ (t.core j).latch, e ∈ (s.core j).latch)) ∧
    ((∀ l ∈ s.active h, (s.lane l).depth ≠ 2 ^ 26 ∧ (s.lane l).held.length < 16) →
      let pushed (l : Nat) : DWord := BitVec.ofNat 64 ((s.srcX v l).toNat / 2 ^ 58 * 2 ^ 58 + (s.srcX v l).toNat % 2 ^ 54)
      ∃ t, exec (.rspush h v) s = .next t ∧
        Moves s t (s.active h) (fun l f => { f with depth := f.depth + 1, held := pushed l :: f.held })) ∧
    ((∀ l ∈ s.active h, (s.myTeam.alloc = 64 → (s.srcR v l).toInt % 16 = 0) ∧ 0 ≤ ((s.lane l).wb : Int) + (s.srcR v l).toInt ∧
        ((s.lane l).wb : Int) + (s.srcR v l).toInt ≤ 2 ^ 26 - 64 ∧ Quiet s l (((s.lane l).wb : Int) + (s.srcR v l).toInt).toNat) →
      ∃ t, exec (.win h v) s = .next t ∧
        Moves s t (s.active h) (fun l f => movedTo s ((f.wb : Int) + (s.srcR v l).toInt).toNat f)) ∧
    FirstFails s (.rspush h v) h (fun l => if (s.lane l).depth = 2 ^ 26 then some 0x11 else none) ∧
    FirstFails s (.win h v) h (fun l => if s.myTeam.alloc = 64 ∧ (s.srcR v l).toInt % 16 ≠ 0 then some 0x12
      else if ((s.lane l).wb : Int) + (s.srcR v l).toInt < 0 ∨ 2 ^ 26 - 64 < ((s.lane l).wb : Int) + (s.srcR v l).toInt then some 0x11
      else none)) ∧
  (∀ (s : State) (id w l dst : Nat) (v : DWord) (below : Bool),
    s.item id = some (.rs ⟨w, [(l, below, v, dst)], []⟩) → (s.warp w).live = true →
    (below = true → (s.fib (fibKey w l)).held = [] ∧ (s.fib (fibKey w l)).depth ≠ 0) →
    ∃ t, exec (.returnStackAccessComplete id) s = .next t ∧ t.item id = none ∧ t.mem = s.mem ∧ t.teams = s.teams ∧
      (∀ x ∈ (t.warp w).holds, x.id ≠ id) ∧ (∀ u, u ≠ w → t.warp u = s.warp u) ∧ (∀ k, k ≠ id → t.item k = s.item k) ∧
      (below = false → t.logical w l (dst + 1) ++ t.logical w l dst = v ∧ t.loc.fibres = s.loc.fibres) ∧
      (below = true → (t.fib (fibKey w l)).held = [v] ∧ t.loc.gran = s.loc.gran ∧ ∀ k, k ≠ fibKey w l → t.fib k = s.fib k))

/-! ### Memory words as the core issues them (spec/08, spec/13, spec/14, spec/17) -/

/-- R27, R146, R147, R203: LDS and STS by core addresses below the team's scratch size or in the register range. Loads bring the bytes that stand
there, 20 cycles after their read cycles and one more for each pass after the first; of stores to one byte the highest lane's stands, and every
other byte of scratch, every register and all of memory stay; a store into registers takes their latch entries away (R43). -/
def Obligations.CoreStoreWordResults : Prop :=
  ∀ (s : State) (h : Hdr) (d a b : Reg) (sz : Size) (la : BitVec 4), Apart s → ScrApart s → ScratchQuiet s → s.active h ≠ [] → s.myTeam.phase ≠ .retired →
    (∀ g, s.stale s.myTeam g = false) →
    let tm := s.myTeam
    let n := sizeBytes sz
    let c (l : Nat) : Nat := (s.srcR a l).toNat
    let inScr (l : Nat) : Prop := c l < tm.scratch ∧ c l % n = 0
    let inReg (l : Nat) : Prop := tm.scratch ≤ c l ∧ 0x80000000 ≤ c l ∧ c l < 0x80000100 ∧ c l % n = 0
    let byte (l k : Nat) : Byte := if c l < tm.scratch then s.scrByte tm (c l + k) else windowByte s s l (c l - 0x80000000 + k)
    let p := passes (((s.active h).filter fun l => decide (c l < tm.scratch)).flatMap fun l => wordsAt (teamOf s.iss.warp) (c l) n)
    let cores' := aset s.cores tm.core { s.core tm.core with memUntil := s.clock + s.iss.cyc - 1 + p }
    ((∀ l ∈ s.active h, inScr l ∨ inReg l) → s.myWarp.counters.length < 8 →
      ∃ vals : Nat → List Word, (∀ l ∈ s.active h, Loaded sz (byte l) (vals l)) ∧
        StartsResult s (.lds h d a sz la) (s.active h) la.toNat (s.iss.cyc - 1 + 20 + (p - 1))
          (fun l => (List.range (vals l).length).map fun i => ((s.laneBefore l).wb + d.toNat + i, (vals l).getD i 0)) [] cores') ∧
    ((∀ l ∈ s.active h, inScr l ∧ c l + n ≤ tm.scratch) → ∃ t, exec (.sts h a b sz) s = .next t ∧
      (∀ l ∈ s.active h, ∀ k < n, (∀ m ∈ s.active h, l < m → c m ≤ c l + k → c m + n ≤ c l + k) →
        t.scrByte tm (c l + k) = (storeBytes s l b n).getD k 0) ∧
      (∀ o < tm.scratch, (∀ l ∈ s.active h, c l ≤ o → c l + n ≤ o) → t.scrByte tm o = s.scrByte tm o) ∧
      (∀ g, (∀ l ∈ s.active h, tm.scrGranule (c l) ≠ g) → t.granule g = s.granule g) ∧
      t = { s with loc := { s.loc with gran := t.loc.gran }, cores := cores', iss := { s.iss with changed := true } }) ∧
    ((∀ l ∈ s.active h, inReg l) → ∃ t, exec (.sts h a b sz) s = .next t ∧
      (∀ l ∈ s.active h, ∀ k < (n + 3) / 4 * 4,
        let o := (c l - 0x80000000) % 4
        windowByte s t l ((c l - 0x80000000) / 4 * 4 + k) =
          if o ≤ k ∧ k < o + n then (storeBytes s l b n).getD (k - o) 0 else windowByte s s l ((c l - 0x80000000) / 4 * 4 + k)) ∧
      (∀ g k, (∀ l ∈ s.active h, ∀ i < (n + 3) / 4, regAt s l ((c l - 0x80000000) / 4 + i) ≠ (g, k)) →
        (t.granule g).read tm.grant.gen k = (s.granule g).read tm.grant.gen k) ∧
      t = { s with loc := { s.loc with gran := t.loc.gran }, cores := t.cores, iss := { s.iss with changed := true } } ∧
      ∀ k, let x := ({ s with cores := cores' } : State).core k
        t.core k = { x with latch := (t.core k).latch } ∧ ∀ e ∈ (t.core k).latch, e ∈ x.latch)

/-- R203, R205, R210, R288: LDC and STC by cluster addresses that name places of the panel's teams. A load asks the target cores under one counter and
brings the bytes that stand there when it is served; a store's writes are on their way under the generation of the grant they name, each counts
until it is acknowledged, and when they arrive they land in a grant that still accepts that generation and nowhere else. -/
def Obligations.ClusterWordResults : Prop :=
  ∀ (s : State) (h : Hdr) (d a b : Reg) (sz : Size) (la : BitVec 4) (place : Nat → ClusterAt), s.active h ≠ [] →
    let n := sizeBytes sz
    let w := s.iss.warp
    let ok := (s.active h).map fun l => (l, place l)
    s.behindOwnTile n ok = false →
    ((∀ l ∈ s.active h, s.clusterCheck (s.srcR a l).toNat n true = .ok (place l)) → s.myWarp.counters.length < 8 →
      ∃ t r due, exec (.ldc h d a sz la) s = .next t ∧ Launched s t (s.active h) la.toNat ∧ t.item (s.nextId + 1) = some (.ldc r) ∧
        r.dest = ⟨w, s.myTeam.core, s.myTeam.grant.gen, s.nextId⟩ ∧
        r.lanes = (s.active h).map (fun l => ⟨l, (place l).core, (place l).team, (place l).off, sz, (s.laneBefore l).wb + d.toNat⟩) ∧
        ⟨due, .homeRead (s.nextId + 1)⟩ ∈ t.queue ∧ due + r.rest = s.clock + (s.iss.cyc - 1) + s.clusterTime ok n 20 48) ∧
    (∀ (id : Nat) (r : LdcReq), s.item id = some (.ldc r) → id < s.nextId → s.scratchFirst id r.dest.core (r.lanes.map LdcLane.core) = true →
      ∃ (t : State) (vals : LdcLane → List Word), exec (.homeRead id) s = .next t ∧ t.item id = none ∧ t.mem = s.mem ∧ t.loc = s.loc ∧
        (∀ x ∈ r.lanes, Loaded x.sz (fun k => s.scrByte (s.team x.team) (x.off + k)) (vals x)) ∧
        t.item s.nextId = some (.result ⟨r.dest, r.lanes.map fun x =>
          (x.lane, (List.range (vals x).length).map fun i => (x.dst + i, (vals x).getD i 0)), [], false, [], none, none, false, false⟩) ∧
        ⟨s.clock + r.rest, .longLatencyResult s.nextId (BitVec.allOnes 32) (BitVec.allOnes 16)⟩ ∈ t.queue) ∧
    ((∀ l ∈ s.active h, s.clusterCheck (s.srcR a l).toNat n false = .ok (place l) ∧ (s.lane l).acks < 65535) →
      ∃ t, exec (.stc h a b sz) s = .next t ∧ Counted s t (s.active h) ∧
        t.item s.nextId = some (.stc ((s.active h).map fun l =>
          ⟨w, l, (place l).core, (place l).team, if (place l).team = 0 then 0 else (s.team (place l).team).grant.gen, (place l).off,
            storeBytes s l b n⟩)) ∧
        (∀ l ∈ s.active h, ∃ o ∈ t.outs, o.id = s.nextId ∧ o.fibre = fibKey w l ∧ o.dest = 3) ∧ ∃ q ∈ t.queue, q.ev = .homeWrite s.nextId) ∧
    (∀ (id : Nat) (x : LateScr), s.item id = some (.stc [x]) →
      s.scratchFirst id (s.team (teamOf ((s.countedOn id).headD 0 / 32))).core [x.core] = true →
      let tm := s.team x.team
      let lands : Prop := tm.phase ≠ .retired ∧ (tm.grant.gen = x.gen ∨ x.gen ∈ tm.grant.accepted)
      ∃ t, exec (.homeWrite id) s = .next t ∧ t.mem = s.mem ∧ (¬lands → t.loc.gran = s.loc.gran) ∧
        (lands → (∀ i < x.bytes.length, ∀ j < x.bytes.length, (x.off + i) / 64 ≠ (x.off + j) / 64 →
            tm.scrGranule (x.off + i) ≠ tm.scrGranule (x.off + j)) →
          (∀ i < x.bytes.length, t.scrByte tm (x.off + i) = x.bytes.getD i 0) ∧
          (∀ g, (∀ i < x.bytes.length, tm.scrGranule (x.off + i) ≠ g) → t.granule g = s.granule g)) ∧
        (∃ m, t.item id = some (.ack m)) ∧ ∃ q ∈ t.queue, q.ev = .storeAck id)

/-- R50, R140, R142, R216, R240, R274, R275: LD, LDA, ST and STL whose lanes all pass their checks. A load's lanes are each asked for under one
allowance counter, where the core has requests left (R9); a store's bytes stand in the write-combining buffer or are on their way, its counts are
raised, and no byte of memory has changed yet (WritesLandAndReturn says when it does). A lane that fails its check makes a lane fault. R141, R245:
the checks of one lane come in the order range, alignment, translation and rights, residency and contract, reach, and each gives its own code; a
context that does not translate raises not-present. -/
def Obligations.PlainMemoryWords : Prop :=
  (∀ (s s1 : State) (h : Hdr) (d a b : Reg) (sz : Size) (ch : Hint) (sc : Scope) (la : BitVec 4) (ok : List LaneOk) (bad : List LaneBad),
    let c := s.myTeam.core
    (s.checkLanes (s.active h) (s.srcX a) (sizeBytes sz) .r State.barRead = (ok, [], s1) → ok ≠ [] → s.myWarp.counters.length < 8 →
      s1.roomForRequests c (linesOf ok).length = true →
      (∃ t, exec (.ld h d a sz ch la) s = .next t ∧ Launched s t (s.active h) la.toNat ∧ ∀ o ∈ ok, Requested s t o d sz) ∧
      (∃ t, exec (.lda h d a sz sc) s = .next t ∧ Launched s t (s.active h) 0 ∧ ∀ o ∈ ok, Requested s t o d sz)) ∧
    (s.checkLanes (s.active h) (s.srcX a) (sizeBytes sz) .w State.barPlain = (ok, [], s1) → (s.core c).wcb = [] →
      (∀ l ∈ s.active h, (s.lane l).acks < 65535) →
      (∃ t, exec (.st h a b sz ch) s = .next t ∧ Counted s t (s.active h) ∧
        ∀ o ∈ ok, Pending t c s.iss.warp o.1 o.2.2.1 (storeBytes s o.1 b (sizeBytes sz))) ∧
      (∃ t, exec (.stl h a b sz sc) s = .next t ∧ Counted s t (s.active h) ∧
        ∀ o ∈ ok, Pending t c s.iss.warp o.1 o.2.2.1 (storeBytes s o.1 b (sizeBytes sz)))) ∧
    (s.checkLanes (s.active h) (s.srcX a) (sizeBytes sz) .r State.barRead = ([], bad, s1) → bad ≠ [] → s1.roomForRequests c 0 = true →
      exec (.ld h d a sz ch la) s = .next (s1.trapLanes bad) ∧ exec (.lda h d a sz sc) s = .next (s1.trapLanes bad)) ∧
    (s.checkLanes (s.active h) (s.srcX a) (sizeBytes sz) .w State.barPlain = ([], bad, s1) → bad ≠ [] →
      exec (.st h a b sz ch) s = .next (s1.marked.trapLanes bad))) ∧
  (∀ (s : State) (core c : Nat) (va : DWord) (size : Nat) (nd : Need) (bar : State → Nat → Option (BitVec 8)),
    let r := (s.laneCheck core c va size nd bar).1
    (2 ^ 57 ≤ va.toNat → r = .error (0x11, false)) ∧
    (va.toNat < 2 ^ 57 → va.toNat % size ≠ 0 → r = .error (0x12, false)) ∧
    (va.toNat < 2 ^ 57 → va.toNat % size = 0 →
      ((s.ctx c).troot.getLsbD 63 = false → r = .error (0x10, false)) ∧
      (∀ code leaf t, s.xlate core c va.toNat = (.bad code leaf, t) → r = .error (code, leaf)) ∧
      (∀ pa leaf bits via t, s.xlate core c va.toNat = (.ok pa leaf bits via, t) →
        (State.leafAllows nd leaf = false → r = .error (0x11, true)) ∧
        (State.leafAllows nd leaf = true → t.peerAllows nd pa = false → r = .error (0x11, false)) ∧
        (State.leafAllows nd leaf = true → t.peerAllows nd pa = true → ∀ code, bar t pa = some code → r = .error (code, false)) ∧
        (State.leafAllows nd leaf = true → t.peerAllows nd pa = true → bar t pa = none →
          r = if t.unreachable core pa then .error (0x21, false) else .ok (pa, State.attrOf leaf via)))))

/-- R277 to R281: ATOM, RED and ACCADD whose lanes all pass their checks, where the warp has nothing in the write-combining buffer and the core has
requests left: every lane's request is on its way with its operands; ATOM has an allowance counter, RED and ACCADD raise the counts; memory has
not changed (AtomicsAndRowsAtTheirHomes and AccumulationAtItsHome say what the homes do). R289, R290: ROWLD takes its address from the highest
active lane, ROWST needs the full warp and traps with 0x05 without it; their one request is on its way, a ROWST's with word 32 × j + l from
register b + j of lane l. -/
def Obligations.AtomicAndRowWords : Prop :=
  (∀ (s s1 : State) (h : Hdr) (d a b : Reg) (op : AtomOp) (w : Bool) (kd : AccKind) (la : BitVec 4) (ok : List LaneOk),
    (s.core s.myTeam.core).wcb = [] → ok ≠ [] →
    let room (n : Nat) : Prop := s1.roomForRequests s.myTeam.core n = true
    let operand (l k : Nat) : DWord := if w then s.src l (d.toNat + 2 * k + 1) ++ s.src l (d.toNat + 2 * k)
      else (s.src l (d.toNat + k)).setWidth 64
    let sent (t : State) (ret : Bool) (o : LaneOk) : Prop := ∃ id r, t.item id = some (.rmw r) ∧ (∃ q ∈ t.queue, q.ev = .homeRmw id) ∧
      r.dest.warp = s.iss.warp ∧ (ret = true → r.dest.cid = s.nextId) ∧ r.ret = ret ∧ r.op = op ∧ r.w = w ∧
      r.lane = ⟨o.1, o.2.1, o.2.2.1, (s.laneBefore o.1).wb + d.toNat, operand o.1 0, if op = .cas then operand o.1 1 else 0⟩
    (s.checkLanes (s.active h) (s.srcX a) (if w then 8 else 4) .rw State.barPlain = (ok, [], s1) → room ok.length →
      (s.myWarp.counters.length < 8 →
        ∃ t, exec (.atom h d a op w la) s = .next t ∧ Launched s t (s.active h) la.toNat ∧ ∀ o ∈ ok, sent t true o) ∧
      ((∀ l ∈ s.active h, (s.lane l).acks < 65535) →
        ∃ t, exec (.red h d a op w) s = .next t ∧ Counted s t (s.active h) ∧ ∀ o ∈ ok, sent t false o)) ∧
    (s.checkLanes (s.active h) (s.srcX a) (if kd = .acc64 then 8 else 4) .rw (State.barAcc kd) = (ok, [], s1) → room (linesOf ok).length →
      (∀ l ∈ s.active h, (s.lane l).acks < 65535) →
      ∃ t, exec (.accadd h a b kd) s = .next t ∧ Counted s t (s.active h) ∧
        ∀ o ∈ ok, ∃ id r, t.item id = some (.acc r) ∧ (∃ q ∈ t.queue, q.ev = .homeAccumulate id) ∧ r.warp = s.iss.warp ∧ r.kd = kd ∧
          r.line = lineOf o.2.2.1 ∧
          ⟨0, o.1, o.2.1, o.2.2.1, kd, if kd = .acc64 then s.src o.1 (b.toNat + 1) ++ s.src o.1 b.toNat else (s.src o.1 b.toNat).setWidth 64, o.2.2.2⟩
            ∈ r.lanes)) ∧
  (∀ (s s1 : State) (h : Hdr) (d a b : Reg) (la : BitVec 4) (top pa : Nat) (at_ : Attr), (s.active h).getLast? = some top →
    (s.core s.myTeam.core).wcb = [] → s1.roomForRequests s.myTeam.core 1 = true →
    (s.laneCheck s.myTeam.core (s.ctxOfWarp s.iss.warp) (s.srcX a top) 2048 .r State.barRowRead = (.ok (pa, at_), s1) →
      s.myWarp.counters.length < 8 →
      ∃ t r, exec (.rowld h d a la) s = .next t ∧ Launched s t (s.active h) la.toNat ∧ t.item (s.nextId + 1) = some (.row r) ∧
        (∃ q ∈ t.queue, q.ev = .homeRowOperation (s.nextId + 1)) ∧ r.store = none ∧ r.pa = pa ∧ r.dest.cid = s.nextId ∧
        r.dst = (s.active h).map fun l => (l, (s.laneBefore l).wb + d.toNat)) ∧
    ((s.active h).length < 32 → exec (.rowst h a b) s = .next (s.trapPrecise 0x05 false (s.active h) 0)) ∧
    (s.laneCheck s.myTeam.core (s.ctxOfWarp s.iss.warp) (s.srcX a top) 2048 .w State.barDevice = (.ok (pa, at_), s1) →
      (s.active h).length = 32 → (∀ l ∈ s.active h, (s.lane l).acks < 65535) →
      ∃ t r ws, exec (.rowst h a b) s = .next t ∧ Counted s t (s.active h) ∧ t.item s.nextId = some (.row r) ∧
        (∃ q ∈ t.queue, q.ev = .homeRowOperation s.nextId) ∧ r.store = some ws ∧ r.pa = pa ∧ ws.length = 512 ∧
        ∀ j < 16, ∀ l < 32, ws[32 * j + l]? = some (s.src l (b.toNat + j))))

/-- R222, R276, R285 to R287, R329, R344, R354: the words that hold their batch, or their whole warp, until the device has done their work, and FLAGQ,
whose word comes as a long-latency result. -/
def Obligations.HoldingWords : Prop :=
  ∀ (s s0 : State) (h : Hdr) (d a : Reg) (ack : Bool) (k : FenceKind) (sc : Scope) (la : BitVec 4) (sp : Nat → Nat) (view : Nat → Nat),
    s.active h ≠ [] → (s.core s.myTeam.core).wcb = [] →
    let w := s.iss.warp
    let id := s.nextId
    let ls := s.active h
    let all := maskOf ls
    let batch := maskOf (lanesOf s.iss.lanes)
    let job (release : Bool) (rec_ : Nat → BitVec 128) : Item :=
      .reside ⟨release, w, ls.map fun l => (l, (s.laneBefore l).wb + d.toNat, rec_ l), ⟨s.iss.pc, s.iss.word, s.iss.ws⟩, 0, [], []⟩
    let part (write : Bool) (val : Nat → DWord) : Item := .part ⟨write, w, ls.map fun l => (l, sp l, (s.laneBefore l).wb + d.toNat, val l), []⟩
    let mapped : Prop := ∀ l ∈ ls, partTarget (s.ctx (s.ctxOfWarp w)).vdt (s.srcR a l) = some (sp l)
    let record (l : Nat) : BitVec 256 := (s.srcPair l (a.toNat + 6) ++ s.srcPair l (a.toNat + 4)) ++ (s.srcPair l (a.toNat + 2) ++ s.srcPair l a.toNat)
    let submits (i : Instr) (e : EngKind) : Prop := ∃ t, exec i s = .next t ∧
      Holds s t (.submit ⟨e, w, ls.map fun l => (l, record l), ⟨s.iss.pc, s.iss.word, s.iss.ws⟩, []⟩) batch false (.engineRecordValidate id) []
    (∃ t, exec (.fence h ack k sc) s = .next t ∧ Holds s t (.fence ⟨w, all, k, ack, sc, []⟩) batch false (.fenceComplete id) []) ∧
    (viewsOf s ls (s.srcX a) = (ls.map fun l => (l, view l), [], s0) → (∀ l ∈ ls, (s.lane l).acks < 65535) → ∃ t flips, exec (.publish h a sc) s = .next t ∧
      Holds s t (.fence ⟨w, all, .release, false, sc, flips⟩) batch false (.fenceComplete id) ls ∧
      (∀ l ∈ ls, ∃ f ∈ flips, f.entry = view l ∧ l ∈ f.lanes) ∧ (flips.map FlipReq.entry).Nodup) ∧
    (∃ t, exec (.reside h d a) s = .next t ∧
      Holds s t (job false fun l => s.srcPair l (a.toNat + 2) ++ s.srcPair l a.toNat) all true (.resideComplete id) []) ∧
    (∃ t, exec (.unreside h d a) s = .next t ∧ Holds s t (job true fun l => (s.srcX a l).setWidth 128) all true (.unresideComplete id) []) ∧
    (mapped → (∃ t, exec (.partr h d a) s = .next t ∧ Holds s t (part false fun _ => 0) all true (.partrComplete id) []) ∧
      (firmwareCtx s (s.ctxOfWarp w) = true →
        ∃ t, exec (.partw h d a) s = .next t ∧ Holds s t (part true (s.srcX d)) all true (.partwComplete id) [])) ∧
    (firmwareCtx s (s.ctxOfWarp w) = false → exec (.partw h d a) s = .next (s.trapPrecise 0x11 false ls 0)) ∧
    submits (.tcopy h a) .tcopy ∧ submits (.tcast h a) .tcast ∧ submits (.hgath h a) .hgath ∧ submits (.hred h a) .hred ∧
    submits (.hcvt h a) .hcvt ∧
    (s.myWarp.counters.length < 8 → ∃ t, exec (.flagq h d la) s = .next t ∧ Launched s t ls la.toNat ∧
      t.item (id + 1) = some (.flagq ⟨w, s.myTeam.core, s.myTeam.grant.gen, id⟩ (ls.map fun l => (l, (s.laneBefore l).wb + d.toNat))) ∧
      ∃ q ∈ t.queue, q.due = s.clock + (s.iss.cyc - 1 + 8) ∧ ∃ m r, q.ev = .longLatencyResult (id + 1) m r)

/-- R263, R276, R285: a fence that has nothing to wait for releases its batch: a fence with an acquire at core scope or wider empties its core's L1; a
PUBLISH sends the flip of its view's entry toward the entry's home, and memory changes there: bit 0 of byte 24 of the entry and no other byte. A
fence that has an outstanding write of its scope holds on. R221 to R223: PARTR_COMPLETE and PARTW_COMPLETE give the lane the register's old value
and release the warp; the write leaves the value with its quotas at most 16 and its reserved bits zero in that register, and every other partition
register as it was. R227 to R232, R286, R287: what RESIDE and UNRESIDE tell a lane once its fence is met: INVALID and MISALIGNED for records that
break the rules, NOCONTRACT for a base without a contract; an UNRESIDE of a contract's base takes it off the list. A RESIDE whose record,
translations, granules and rows are in order registers its contract with status OK: a PINS range reads zero from then on, and no other byte of
memory changes. The warp is released. -/
def Obligations.HeldWorkCompletes : Prop :=
  (∀ (s : State) (id : Nat) (x : FlipReq) (j : FenceJob), s.namesOk →
    let c := (s.team (teamOf j.warp)).core
    (s.items = [(id, .fence j)] → (s.core c).wcb = [] → s.outs = [] → j.flips = [] →
      ∃ t, exec (.fenceComplete id) s = .next t ∧ Released t j.warp id ∧ t.mem = s.mem ∧ t.loc.gran = s.loc.gran ∧
        (j.k ≠ .release → atCore j.sc = true → (t.core c).l1 = []) ∧ (j.k = .release → t.cores = s.cores)) ∧
    (s.items = [(id, .fence j)] → (s.core c).wcb = [] → s.outs = [] → j.flips = [x] → j.k = .release →
      ∃ t n, exec (.fenceComplete id) s = .next t ∧ Released t j.warp id ∧ t.mem = s.mem ∧ t.loc.gran = s.loc.gran ∧
        t.item n = some (.flip x) ∧ (∃ q ∈ t.queue, q.ev = .homeWrite n) ∧ ∀ l ∈ x.lanes, ∃ o ∈ t.outs, o.id = n ∧ o.fibre = fibKey x.warp l) ∧
    (s.items = [(id, .fence j)] → (s.core c).wcb = [] →
      ∀ l o, l ∈ lanesOf j.lanes → o ∈ s.outs → o.fibre = fibKey j.warp l → o.id < id → j.k ≠ .acquire → j.sc = .system →
      ∃ t, exec (.fenceComplete id) s = .next t ∧ t.item id = some (.fence j) ∧ t.loc.warps = s.loc.warps ∧ ∃ q ∈ t.queue, q.ev = .fenceComplete id) ∧
    (s.item id = some (.flip x) → Arrives s id → s.unreachable x.core x.entry = false → (s.writeAct x.entry (· ^^^ 1)).2 = none → s.memOk →
      ∃ t m, exec (.homeWrite id) s = .next t ∧ mget t.mem (x.entry + 24) = (mget s.mem (x.entry + 24)) ^^^ 1 ∧
        (∀ a, a ≠ x.entry + 24 → mget t.mem a = mget s.mem a) ∧ t.loc = s.loc ∧ t.item id = some (.ack m) ∧
        m.lanes = x.lanes.map (fibKey x.warp) ∧ ∃ q ∈ t.queue, q.ev = .storeAck id)) ∧
  (∀ (s : State) (id w l sp dst : Nat) (v : DWord) (write : Bool), s.item id = some (.part ⟨write, w, [(l, sp, dst, v)], []⟩) →
    (s.warp w).live = true →
    let done (i : Instr) : Prop := ∃ t, exec i s = .next t ∧ Released t w id ∧
      t.logical w l (dst + 1) ++ t.logical w l dst = s.partOf sp ∧ (∀ x, x ≠ sp → t.partOf x = s.partOf x) ∧
      (write = false → t.parts = s.parts ∧ t.mem = s.mem) ∧
      (write = true →
        let q (i : Nat) : Nat := Min.min 16 (v.toNat / 2 ^ (32 + 8 * i) % 32)
        (t.partOf sp).toNat = v.toNat % 2 ^ 32 + q 0 * 2 ^ 32 + q 1 * 2 ^ 40 + q 2 * 2 ^ 48)
    done (.partrComplete id) ∧ done (.partwComplete id)) ∧
  (∀ (s : State) (id w l dst : Nat) (rec_ : BitVec 128) (release : Bool) (src : Where_),
    s.items = [(id, .reside ⟨release, w, [(l, dst, rec_)], src, 0, [], []⟩)] → (s.warp w).live = true →
    (s.core (s.team (teamOf w)).core).wcb = [] → s.outs = [] →
    let ctx := s.ctxOfWarp w
    let base := rec_.toNat % 2 ^ 64
    let len := rec_.toNat / 2 ^ 64 % 2 ^ 24
    let kind := rec_.toNat / 2 ^ 92 % 16
    let answers (i : Instr) (st : Nat) (cs : List Contract) : Prop := ∃ t, exec i s = .next t ∧ Released t w id ∧
      (t.logical w l dst).toNat = st ∧ t.contracts = cs
    (release = false → (5 ≤ kind ∨ len = 0) → answers (.resideComplete id) 4 s.contracts) ∧
    (release = false → kind < 5 → len ≠ 0 → rec_.toNat / 2 ^ 88 % 16 = 0 → rec_.toNat / 2 ^ 96 = 0 → kind ≠ 2 → base % 4096 ≠ 0 →
      answers (.resideComplete id) 2 s.contracts) ∧
    (release = true → (base % 4096 ≠ 0 ∨ 2 ^ 57 ≤ base) → answers (.unresideComplete id) 2 s.contracts) ∧
    (release = true → base % 4096 = 0 → base < 2 ^ 57 → s.lost = [] → (∀ c ∈ s.contracts, ¬(c.ctx = ctx ∧ c.base.toNat = base)) →
      answers (.unresideComplete id) 5 s.contracts) ∧
    (∀ c, release = true → base % 4096 = 0 → base < 2 ^ 57 → s.lost = [] → s.contracts = [c] → c.ctx = ctx → c.base.toNat = base →
      answers (.unresideComplete id) 0 []) ∧
    (∀ s1 pages, release = false → kind < 4 → 0 < len → (kind = 2 ↔ rec_.toNat / 2 ^ 96 % 2 ^ 12 ≠ 0) → (kind ≠ 2 → rec_.toNat / 2 ^ 96 = 0) →
      rec_.toNat / 2 ^ 88 % 16 = 0 → base % 4096 = 0 → base + 4096 * len ≤ 2 ^ 56 →
      resideGrans (s.team (teamOf w)).core ctx base len 0 ((s.fencePush (resideFence ⟨false, w, [], src, 0, [], []⟩ l)).fenceAcquire
        (resideFence ⟨false, w, [], src, 0, [], []⟩ l)) = (.ok pages, s1) →
      let gs := pages.map Prod.fst
      conflictAt s1 0 [] gs = none → s1.contracts.length < 4096 →
      exceedsAt s1 ctx (wayOfKind kind) [] (rowNeeds kind (rec_.toNat / 2 ^ 96 % 2 ^ 12) 0 [] gs) = none →
      ∃ t c, exec (.resideComplete id) s = .next t ∧ Released t w id ∧ (t.logical w l dst).toNat = 0 ∧
        t.contracts = s1.contracts ++ [c] ∧ c.ctx = ctx ∧ c.kind = kind ∧ c.base.toNat = base ∧ c.grans = gs ∧
        (kind ≠ 1 → t.mem = s.mem) ∧ (kind = 1 → ∀ a, mget t.mem a = if a / 4096 ∈ gs then 0 else mget s.mem a)))

/-! ### The homes of memory (spec/14, spec/16, spec/17, spec/28) -/

/-- R240 to R242, R258: a read served at its home brings the bytes that stand there when every sector it needs is in the skein; else it waits for HBM,
and a good answer brings them. Reads change no byte of memory. -/
def Obligations.HomeReadsBringTheBytes : Prop :=
  ∀ (s : State) (id : Nat) (r : ReadReq) (spot : Spot) (miss : List Nat), s.namesOk → (s.contracts.map Contract.id).Nodup → r.scale = false →
    (∀ x ∈ r.lanes, x.own = []) → r.lanes ≠ [] →
    let pa := r.line + r.lo
    let brings (t : State) : Prop := (∀ a, mget t.mem a = mget s.mem a) ∧ ∃ n m, t.item n = some (.result m) ∧ m.dest = r.dest ∧
      (∃ q ∈ t.queue, ∃ ls rs, q.ev = .longLatencyResult n ls rs) ∧ m.vals.map Prod.fst = r.lanes.map LoadLane.lane ∧
      ∀ k (hk : k < r.lanes.length), ∃ ws, Loaded r.lanes[k].sz (fun i => s.homeByte (r.line + (r.lanes[k].pa % 128 + i))) ws ∧
        m.vals[k]? = some (r.lanes[k].lane, (List.range ws.length).map fun i => (r.lanes[k].dst + i, ws.getD i 0))
    let found := s.spotFor pa ((r.lanes.head?.map LoadLane.at_).getD Attr.plain).cls r.hint
    let cold := found.1.missing found.2 (sectorsOf pa r.n)
    (s.item id = some (.read r) → Arrives s id → Sound s → s.homeStop r.dest.core pa = none →
      ∃ t, exec (.homeRead id) s = .next t ∧ (cold = [] → brings t) ∧
        (cold ≠ [] → t.item id = some (.hbm r found.2 cold) ∧ t.mem = s.mem ∧ ∃ q ∈ t.queue, ∃ res, q.ev = .hbmReadReturn id res)) ∧
    (s.item id = some (.hbm r spot miss) → ∃ t, exec (.hbmReadReturn id .good) s = .next t ∧ brings t) ∧
    (s.item id = some (.hbm r spot miss) → ∃ t, exec (.hbmReadReturn id .corrected) s = .next t ∧ brings t ∧ s.log.length < t.log.length)

/-- R50, R216, R241, R258: a write whose turn has come at its home puts its bytes into memory and nothing else, takes the next sequence tag of that
home, and its acknowledgement goes back for the fibres that count on it. R50, R250, R399: an acknowledgement waits for invalidations that are
still open, which a die confirms once they have reached its reserve; one that waits for nothing lowers the counts of its fibres by one and gives
them its sequence tag. An answer to the host or a peer that nothing keeps back reaches its port. No byte of memory changes. -/
def Obligations.WritesLandAndReturn : Prop :=
  (∀ (s : State) (id : Nat) (w : WriteReq), s.memOk → s.item id = some (.write w) → Arrives s id → Sound s → w.parts ≠ [] →
    s.homeStop w.core w.line = none → s.accxAt w.line = false →
    (∀ p ∈ w.parts, ∀ x, s.codeFails w.ctx p.at_ x = false) → s.hostSide w.line = false →
    ∃ t m, exec (.homeWrite id) s = .next t ∧ Lands s t w.line w.parts ∧ t.memOk ∧ t.item id = some (.ack m) ∧ m.warp = w.warp ∧
      m.lanes = storesOf w.warp w.parts ∧ m.seq = some ((aget s.seqs (homeOf w.line)).getD 0 + 1) ∧
      aget t.seqs (homeOf w.line) = some ((aget s.seqs (homeOf w.line)).getD 0 + 1) ∧
      (∀ g, g ≠ homeOf w.line → aget t.seqs g = aget s.seqs g) ∧ (∃ q ∈ t.queue, q.ev = .storeAck id) ∧ t.loc = s.loc ∧ t.teams = s.teams) ∧
  (∀ (s : State) (id : Nat) (m : AckMsg) (ans : PortAnswer),
    (s.item id = some (.ack m) → m.dies ≠ [] →
      ∃ t, exec (.storeAck id) s = .next t ∧ t.item id = some (.ack m) ∧ t.loc = s.loc ∧ ∃ q ∈ t.queue, q.ev = .storeAck id) ∧
    (s.item id = some (.ack m) → m.dies = [] → m.gate = [] → (s.warp m.warp).live = true → m.held = [] → m.lanes.Nodup →
      ∃ t, exec (.storeAck id) s = .next t ∧ t.mem = s.mem ∧ t.loc.gran = s.loc.gran ∧ (∀ o ∈ t.outs, o.id ≠ m.out) ∧
        (∀ k ∈ m.lanes, t.fib k = { s.fib k with acks := (s.fib k).acks - 1, lastseq := m.seq.getD (s.fib k).lastseq }) ∧
        (∀ k, k ∉ m.lanes → t.fib k = s.fib k)) ∧
    (s.item id = some (.ack m) → ∀ d, ∃ t n, exec (.invalidateConfirm id d) s = .next t ∧ t.item id = some (.ack n) ∧
      (∀ x, x ∈ n.dies ↔ x ∈ m.dies ∧ ¬(x.2.1 = d ∧ x.2.2 = true)) ∧
      t.mem = s.mem ∧ t.loc = s.loc) ∧
    (s.item id = some (.port [] ans) → exec (.storeAck id) s = .next { s.dropItem id with port := ans }))

/-- R260, R277 to R279: an atomic at its home reads the old value, puts the new one in its place and changes no other byte; ATOM sends the old value
back, RED only an acknowledgement. Words of 32 bits, then of 64. R236, R289, R290: a row operation is one indivisible access of 2,048 bytes: ROWST
puts all of its words there, word 32 × j + l at byte 128 × j + 4 × l, and changes nothing else; ROWLD brings register j of lane l the word at that
byte. -/
def Obligations.AtomicsAndRowsAtTheirHomes : Prop :=
  (∀ (s : State) (id : Nat) (r : RmwReq), s.memOk → s.namesOk → (s.contracts.map Contract.id).Nodup → s.item id = some (.rmw r) → Arrives s id →
    Sound s → s.homeStop r.dest.core r.lane.pa = none → (∀ a, s.accxAt a = false) →
    (∀ x, s.codeFails r.ctx r.at_ x = false) →
    let pa := r.lane.pa
    ∃ t, exec (.homeRmw id) s = .next t ∧ t.memOk ∧
      (r.w = false → ∃ n : BitVec 32, Stores s t pa 4 n.toNat ∧
        AtomNew fp32 r.op (BitVec.ofNat 32 (s.rd pa 4)) (r.lane.v.setWidth 32) (r.lane.c.setWidth 32) n) ∧
      (r.w = true → ∃ n : BitVec 64, Stores s t pa 8 n.toNat ∧ AtomNew fp64 r.op (BitVec.ofNat 64 (s.rd pa 8)) r.lane.v r.lane.c n) ∧
      (r.ret = true → ∃ k m, t.item k = some (.result m) ∧ m.dest = r.dest ∧
        m.vals = [(r.lane.lane, if r.w then [(r.lane.dst, BitVec.ofNat 32 (s.rd pa 4)), (r.lane.dst + 1, BitVec.ofNat 32 (s.rd (pa + 4) 4))]
          else [(r.lane.dst, BitVec.ofNat 32 (s.rd pa 4))])]) ∧
      (r.ret = false → ∃ m, t.item id = some (.ack m) ∧ m.lanes = [fibKey r.dest.warp r.lane.lane])) ∧
  (∀ (s : State) (id : Nat) (r : RowReq), s.memOk → s.namesOk → (s.contracts.map Contract.id).Nodup → s.item id = some (.row r) → Arrives s id →
    Sound s → s.unreachable r.dest.core r.pa = false → s.lostAt r.pa = false → (∀ a, s.accxAt a = false) →
    (∀ x, s.codeFails r.ctx r.at_ x = false) →
    ∃ t, exec (.homeRowOperation id) s = .next t ∧
      (∀ ws, r.store = some ws → ws.length = 512 → (∃ m, t.item id = some (.ack m) ∧ m.lanes = (lanesOf r.lanes).map (fibKey r.dest.warp)) ∧
        (∀ k < 512, ∀ i < 4, (mget t.mem (r.pa + 4 * k + i)).toNat = (ws.getD k 0).toNat / 2 ^ (8 * i) % 256) ∧
        ∀ a, (a < r.pa ∨ r.pa + 2048 ≤ a) → mget t.mem a = mget s.mem a) ∧
      (r.store = none → t.mem = s.mem ∧ ∃ n m, t.item n = some (.result m) ∧ m.dest = r.dest ∧
        m.vals = r.dst.map fun d => (d.1, (List.range 16).map fun j => (d.2 + j, BitVec.ofNat 32 (s.rd (r.pa + 128 * j + 4 * d.1) 4)))))

/-- R281 to R284, R433: an ACCADD's lane at its home adds to its element and to nothing else: FP32 and FP64 elements by one rounded addition, an ACCX
element exactly in fixed point, memory as it was; a refused one changes nothing, and its operand is held with the code. -/
def Obligations.AccumulationAtItsHome : Prop :=
  ∀ (s : State) (id core warp ctx line : Nat) (x : HeldAcc), s.memOk → s.item id = some (.acc ⟨core, warp, ctx, x.kd, line, [x]⟩) →
    Arrives s id → Sound s → (∀ y, s.codeFails ctx x.at_ y = false) →
    let v := x.x.toNat
    ∃ t m, exec (.homeAccumulate id) s = .next t ∧ t.memOk ∧ t.item id = some (.ack m) ∧ m.lanes = [fibKey warp x.lane] ∧ m.warp = warp ∧
      (s.accRefused core line x.kd = none →
        (x.kd = .acc32 → ∃ e, fAdd fp32 (fp32.value (s.rd x.pa 4)) (fp32.value (v % 2 ^ 32)) = e ∧ Stores s t x.pa 4 e.1 ∧ m.exs = e.2) ∧
        (x.kd = .acc64 → ∃ e, fAdd fp64 (fp64.value (s.rd x.pa 8)) (fp64.value v) = e ∧ Stores s t x.pa 8 e.1 ∧ m.exs = e.2) ∧
        (x.kd = .accx → t.mem = s.mem ∧ m.exs = (accxConvert (v % 2 ^ 32)).2 ∧
          aget t.accx (x.pa / 4) = some (s.accxElem x.pa + BitVec.ofInt 128 (accxConvert (v % 2 ^ 32)).1) ∧
          ∀ k, k ≠ x.pa / 4 → aget t.accx k = aget s.accx k)) ∧
      (∀ code, s.accRefused core line x.kd = some code → t.mem = s.mem ∧ t.accx = s.accx ∧ m.code = code ∧ m.held = [x])

/-! ### What cores and the memory side do by themselves (spec/12 to spec/16, spec/28, spec/30) -/

/-- R215, R216, R246, R267, R399: an entry of the write-combining buffer whose time has come is sent whole, or tries again where a release in it is
not met; a core drops an L1 line, a reserve drops an invalidated copy and can then confirm it; a core with no write on its way publishes and
clears its signature; a page walk installs what the tables say in the core's and the cluster's cache, or leaves nothing there; a core that the
package lacks walks nothing (R8, R11). None of them changes a byte of memory, a register or a fibre. R200, R201, R237 to R239, R431: the counters
and marks of refresh, of a failed data bank and its rebuild, of a starving warp and of a spinning batch. Values stay what they were. A bank or ply
that the device does not have is no such event. -/
def Obligations.MachineEvents : Prop :=
  (∀ (s : State) (core id line die ctx : Nat) (va : DWord),
    let keeps (t : State) : Prop := t.mem = s.mem ∧ t.loc = s.loc ∧ t.teams = s.teams
    (∃ t, exec (.wcbDrainTimeout core id) s = .next t ∧ keeps t ∧
      ∀ e, (s.core core).wcb.find? (fun e => e.id == id) = some e →
        (s.wcbReady core e = true → (∀ x ∈ (t.core core).wcb, x.id ≠ id) ∧ (∃ q ∈ t.queue, q.ev = .homeWrite id) ∧
          ∃ r, t.item id = some (.write r) ∧ r.core = core ∧ r.warp = e.warp ∧ r.line = e.line ∧ r.parts = e.parts) ∧
        (s.wcbReady core e = false → t.cores = s.cores ∧ ∃ q ∈ t.queue, q.ev = .wcbDrainTimeout core id)) ∧
    (∃ t, exec (.l1LineExpire core line) s = .next t ∧ keeps t ∧ aget (t.core core).l1 line = none ∧
      ∀ y, y ≠ line → aget (t.core core).l1 y = aget (s.core core).l1 y) ∧
    (∃ t, exec (.reserveInvalidate die line) s = .next t ∧ keeps t ∧ (∀ x, x ∈ t.reserve ↔ x ∈ s.reserve ∧ ¬(x.die = die ∧ x.line = line)) ∧
      ∀ k m, s.item k = some (.ack m) → ∃ n, t.item k = some (.ack n) ∧ ∀ x, x ∈ n.dies ↔
        (x ∈ m.dies ∧ ¬(x.1 = line ∧ x.2.1 = die)) ∨ (x = (line, die, true) ∧ ∃ b, (line, die, b) ∈ m.dies)) ∧
    (∃ t, exec (.signaturePublish core) s = .next t ∧ keeps t ∧ ((s.core core).wcb = [] → s.outs = [] → (s.core core).publishing = none →
      (∀ e ∈ (s.core core).sig, e.2.2 < s.nextId) → (t.core core).sig = [])) ∧
    (core < 1024 → core % 64 < s.liveCores (clusterOf core) → ∃ t, exec (.pageWalk core ctx va) s = .next t ∧ keeps t ∧
      ((∀ o, s.tlbFind o ctx va.toNat = none) → va.toNat < 2 ^ 56 →
        (∀ pa leaf bits via u, s.walkGeneral (dieOfCore core) ctx va.toNat = (.ok pa leaf bits via, u) →
          ∃ x ∈ t.tlbs, x.owner = core ∧ x.ctx = ctx ∧ x.va = va.toNat / 2 ^ bits ∧ x.pa = pa / 2 ^ bits * 2 ^ bits ∧ x.leaf = leaf ∧ x.via = via) ∧
        (∀ code leaf u, s.walkGeneral (dieOfCore core) ctx va.toNat = (.bad code leaf, u) → t.tlbs = s.tlbs))) ∧
    ((1024 ≤ core ∨ s.liveCores (clusterOf core) ≤ core % 64) → exec (.pageWalk core ctx va) s = .fault .noSuchUnit)) ∧
  (∀ (s : State) (chan ply bank warp : Nat) (credit : Int),
    let x := s.warp warp
    (∃ t, exec (.hbmRefresh chan credit) s = .next t ∧ t = { s with refresh := t.refresh } ∧ (∀ c, c ≠ chan → aget t.refresh c = aget s.refresh c) ∧
      ∃ n k, aget t.refresh chan = some (n, k) ∧ n = (((aget s.refresh chan).map Prod.fst).getD 0 + 1) % 2 ^ 20 ∧ -8 ≤ k ∧ k ≤ 8 ∧
        (-8 ≤ credit → credit ≤ 8 → k = credit)) ∧
    (ply < 1024 → bank < 16 → ∃ t, exec (.dataBankFailure ply bank) s = .next t ∧ (ply, bank, 0) ∈ t.failedBanks ∧ t.mem = s.mem ∧ t.loc = s.loc ∧
      (∃ q ∈ t.queue, q.ev = .bankRebuildStep ply) ∧
      ((∀ q ∈ s.queue, q.ev ≠ .bankRebuildStep ply) → ∃ q ∈ t.queue, q.due = s.clock + 16 ∧ q.ev = .bankRebuildStep ply)) ∧
    (1024 ≤ ply ∨ 16 ≤ bank → exec (.dataBankFailure ply bank) s = .fault .noSuchUnit) ∧
    (let opened (b : Nat × Nat × Nat) : Bool := b.1 == ply && decide (b.2.2 < 8192)
     (s.failedBanks.find? opened = none → exec (.bankRebuildStep ply) s = .next s) ∧
     (∀ b, s.failedBanks.find? opened = some b → ∃ t, exec (.bankRebuildStep ply) s = .next t ∧
       t = { s with failedBanks := s.failedBanks.map fun x => if x = b then (ply, b.2.1, b.2.2 + 1) else x, queue := t.queue, upsets := t.upsets } ∧
       (∀ u, (u.parity = true ∨ s.canRebuild u.at_ = true) → (u ∈ t.upsets ↔ u ∈ s.upsets)) ∧
       (t.failedBanks.any opened = true → ∃ q ∈ t.queue, q.ev = .bankRebuildStep ply))) ∧
    (x.live = true → s.warpReady warp = true → x.lastIssue + 960 ≤ s.clock →
      exec (.warpStarving warp) s = .next (s.setWarp warp { x with starving := true })) ∧
    ((x.live = false ∨ s.warpReady warp = false ∨ s.clock < x.lastIssue + 960) → exec (.warpStarving warp) s = .next s) ∧
    (let demoted : Spin := { x.spin with demoted := true }
     x.spin.armed = true → 16 ≤ x.spin.count → exec (.spinDemote warp) s = .next (s.setWarp warp { x with spin := demoted })) ∧
    ((x.spin.armed = false ∨ x.spin.count < 16) → exec (.spinDemote warp) s = .next s))

/-- R206, R208, R212: the sweep of a core voids the granules of no live grant whose tags are 16,384 or more generations old and no others; the renewal
of a grant that lags 24,576 generations gives it the core's next generation as soon as the core may grant one (a team without a generation yet has
no grant to renew), still accepts the old one while a request carries it, and every granule that read its contents under the old one reads the
same under the new. A sweep forgets old generations that no request carries any more. Neither changes a granule's contents or a byte of memory. -/
def Obligations.GenerationsAreKeptApart : Prop :=
  ∀ (s : State) (core team : Nat),
    let tm := s.team team
    let mine := runGranules tm.grant.win ++ runGranules tm.grant.scr
    (∃ t, exec (.granuleSweep core) s = .next t ∧ t.mem = s.mem ∧
      (∀ k, let a := (t.team k).grant.accepted
        t.team k = { s.team k with grant := { (s.team k).grant with accepted := a } } ∧ (∀ x ∈ a, x ∈ (s.team k).grant.accepted) ∧
        ∀ x ∈ (s.team k).grant.accepted, x ∈ s.openGens k → x ∈ a) ∧ (∃ q ∈ t.queue, q.ev = .granuleSweep core) ∧
      ∀ g, let free : Prop := g / 16384 = core ∧ ∀ x ∈ s.teamsOn core, g % 16384 ∉ runGranules x.2.grant.win ∧ g % 16384 ∉ runGranules x.2.grant.scr
        let old : Prop := 16384 ≤ ((s.core core).gen - (s.granule g).tag).toNat
        (t.granule g).data = (s.granule g).data ∧ (free ∧ old → (t.granule g).tag = 0) ∧ (¬(free ∧ old) → (t.granule g).tag = (s.granule g).tag)) ∧
    ((tm.phase = .retired ∨ tm.grant.gen = 0 ∨ ((s.core tm.core).gen - tm.grant.gen).toNat < 24576) → exec (.generationRenewal team) s = .next s) ∧
    (tm.phase ≠ .retired → tm.grant.gen ≠ 0 → 24576 ≤ ((s.core tm.core).gen - tm.grant.gen).toNat →
      (s.clock < (s.core tm.core).nextGrant →
        exec (.generationRenewal team) s = .next (s.later ((s.core tm.core).nextGrant - s.clock) (.generationRenewal team))) ∧
      ((s.core tm.core).nextGrant ≤ s.clock → ∃ t, exec (.generationRenewal team) s = .next t ∧ t.mem = s.mem ∧
        (t.team team).grant.gen = (t.core tm.core).gen ∧ (t.core tm.core).gen = State.nextGen (s.core tm.core).gen ∧
        (tm.grant.gen ∈ s.openGens team → tm.grant.gen ∈ (t.team team).grant.accepted) ∧ (∀ g, (t.granule g).data = (s.granule g).data) ∧
        (∀ g, g / 16384 = tm.core → g % 16384 ∈ mine → (s.granule g).tag = tm.grant.gen → ∀ k,
          (t.granule g).read (t.team team).grant.gen k = (s.granule g).read tm.grant.gen k) ∧
        ∀ g, (g / 16384 ≠ tm.core ∨ g % 16384 ∉ mine) → t.granule g = s.granule g))

/-- R25, R29, R32: a fetched packet is the three words that stand at 12 × PC, little-endian, where the batch's context translates and lets it execute,
the host holds none of it, no reserve near by holds a copy and no error is met; a packet whose last byte lies above 2^56 - 1 traps the batch that
stands there precisely, before any word of it. -/
def Obligations.PacketsAreFetched : Prop :=
  ∀ (s : State) (warp : Nat) (pc : Pc), (s.warp warp).live = true → (s.warp warp).packet pc = none →
    let core := (s.team (teamOf warp)).core
    let va (i : Nat) : Nat := 12 * pc.toNat + 4 * i
    (∀ x : Tlb, 12 * pc.toNat + 12 ≤ 2 ^ 56 → s.translates (s.ctxOfWarp warp) = true → State.leafAllows .x x.leaf = true →
      (s.contracts.map Contract.id).Nodup → Sound s → s.bad = [] → s.keyOf = [] → (∀ i < 3, s.tlbFind core (s.ctxOfWarp warp) (va i) = some x ∧
        let pa := x.pa + va i % 2 ^ x.bits
        s.peerAllows .x pa = true ∧ s.unreachable core pa = false ∧
        (∀ q : ReadReq, q.line = lineOf pa → q.lo = pa % 128 → q.n = 4 → q.hint = .normal → s.reserveCopy core q = none) ∧
        s.gateFor warp (s.ctxOfWarp warp / 64) pa 4 (State.attrOf x.leaf x.via).tracked false = .open_) →
      ∃ t ws, exec (.instructionFetch warp pc) s = .next t ∧ t.mem = s.mem ∧ t.loc.gran = s.loc.gran ∧ t.loc.fibres = s.loc.fibres ∧
        (t.warp warp).ibuf.getLast? = some (pc, ws) ∧ ws.length = 3 ∧
        ((t.warp warp).ibuf.length ≤ 8 ∨ ∀ p ∈ (t.warp warp).ibuf.dropLast, ∃ l < 32, (s.fib (fibKey warp l)).live = true ∧ (s.fib (fibKey warp l)).pc = p.1) ∧
        (∀ p ∈ (s.warp warp).ibuf, ∀ l < 32, (s.fib (fibKey warp l)).live = true → (s.fib (fibKey warp l)).pc = p.1 → p ∈ (t.warp warp).ibuf) ∧
        ∀ i < 3, ws[i]? = some (s.homeRd (x.pa + va i % 2 ^ x.bits) 4)) ∧
    (2 ^ 56 < 12 * pc.toNat + 12 → ∀ l, (allLanes.find? fun l => (s.fib (fibKey warp l)).live && (s.fib (fibKey warp l)).pc == pc &&
        (s.fib (fibKey warp l)).wait == .none) = some l → (s.team (teamOf warp)).halts = [] → Unended s (teamOf warp) →
      ∃ t h, exec (.instructionFetch warp pc) s = .next t ∧ (t.team (teamOf warp)).halts = [h] ∧ h.kind = .precise ∧ h.code = 0x11 ∧ h.pc = pc ∧
        h.word = (s.fib (fibKey warp l)).word ∧ h.lanes = s.batchOf warp l)

/-! ### Traps (spec/24) -/

/-- R350 to R352, R358, R367: TRAP and BRK stop the team after their group; a word that traps precisely leaves its fibres at its group's first word;
of lanes that fault together the lowest decides the code. Siblings run on for 12 groups at most, the trapping warp for none, and the record is
due. No byte of memory and no register changes. In a team whose launch has ended no halt begins (R363). -/
def Obligations.TrapsStopTheTeam : Prop :=
  ∀ (s : State) (h : Hdr) (sw code : BitVec 8) (leaf : Bool) (addr : DWord) (rest : List LaneBad) (l : Nat), s.myTeam.halts = [] →
    let tk := teamOf s.iss.warp
    let place := nextPlace s.iss.ws s.iss.pc s.iss.first
    let stops (o : Out) (x : Halt → Prop) : Prop := ∃ t y, o = .next t ∧ (t.team tk).halts = [y] ∧ y.phase = .stopping ∧ y.warp = warpIx s.iss.warp ∧
      y.lanes = s.iss.lanes ∧ x y ∧ t.mem = s.mem ∧ t.loc.gran = s.loc.gran ∧ (∃ q ∈ t.queue, q.ev = .faultRecordWrite tk) ∧
      ∀ i < s.myTeam.warps, (t.warp (warpKey tk i)).skidLeft ≤ 12 ∧ (i = warpIx s.iss.warp → (t.warp (warpKey tk i)).skidLeft = 0)
    (¬Unended s tk → ((s.trapPrecise code leaf (s.active h) addr).team tk).halts = [] ∧ ((s.trapLanes ((l, code, leaf, addr) :: rest)).team tk).halts = []) ∧
    (s.active h = [] → exec (.trap h sw) s = .next s ∧ exec (.brk h) s = .next s) ∧
    (∀ k ∈ lanesOf s.iss.lanes, ((s.trapPrecise code leaf (s.active h) addr).lane k).pc = s.iss.pc ∧
      ((s.trapPrecise code leaf (s.active h) addr).lane k).word = s.iss.first) ∧
    (Unended s tk →
    (s.active h ≠ [] → stops (exec (.trap h sw) s) (fun y => y.kind = .after ∧ y.code = 0x30 ∧ y.swcode = sw ∧ (y.pc, y.word) = place ∧
      y.rpl = false ∧ y.flanes = maskOf (s.active h))) ∧
    (s.active h ≠ [] → stops (exec (.brk h) s) (fun y => y.kind = .after ∧ y.code = 0x31 ∧ y.swcode = 0 ∧ (y.pc, y.word) = place ∧
      y.rpl = false ∧ y.flanes = maskOf (s.active h))) ∧
    stops (.next (s.trapPrecise code leaf (s.active h) addr)) (fun y => y.kind = .precise ∧ y.code = code ∧ y.pc = s.iss.pc ∧
      y.word = s.iss.first ∧ y.rpl = false ∧ y.addr = addr ∧ y.done = ~~~s.iss.lanes ∧ y.service = serviceCode code leaf) ∧
    stops (.next (s.trapLanes ((l, code, leaf, addr) :: rest))) (fun y => y.kind = .lane ∧ y.code = code ∧ y.pc = s.iss.pc ∧ y.word = s.iss.word ∧
      y.rpl = true ∧ y.addr = addr ∧ (∀ k < 32, y.done.getLsbD k = true ↔ k ≠ l ∧ ∀ f ∈ rest, f.1 ≠ k) ∧
      ∀ k < 32, y.flanes.getLsbD k = true ↔ k = l ∨ ∃ f ∈ rest, f.1 = k ∧ f.2.1 = code))

/-- R355, R357 to R362: when a halt is complete and the ring has room, the device writes the record: its sequence, code and state stand where R358
puts them, and no byte outside its 1,024 changes. A service trap's core stalls and its fibres stay as they are; a handler trap's batch enters the
handler: p0 to p6 saved into csr.epred, WB raised by 64, the handler's CSRs filled, the fibres at TRAPVEC. -/
def Obligations.FaultRecordsAreWritten : Prop :=
  ∀ (s : State) (tk n : Nat) (h : Halt), s.memOk → (s.team tk).halts = [h] → h.phase = .stopping → h.kind = .precise →
    h.warp < 32 → s.haltComplete tk = true → (∀ a, s.accxAt a = false) → (s.contracts.map Contract.id).Nodup → Sound s →
    let c := s.ctxOfTeam tk
    let x := s.ctx c
    let base := x.fring.toNat / 1024 * 1024
    let seq := (x.ftail.toNat + 1) % 2 ^ 32
    let rec_ := base + 1024 * ((seq + 2 ^ 32 - 1) % 2 ^ 32 % 2 ^ n)
    let w := warpKey tk h.warp
    let ls := (lanesOf h.lanes).filter fun l => (s.fib (fibKey w l)).live
    x.fring.toNat % 16 = n → 2 ≤ n → n ≤ 12 → (seq + 2 ^ 32 - x.fhead.toNat) % 2 ^ 32 ≤ 2 ^ n → s.toDebugger c h = false →
    (h.service = false → x.trapvec.toNat % 2 ^ 54 ≠ 0 ∧ ls ≠ [] ∧ ∀ l ∈ ls, let f := s.fib (fibKey w l)
      f.wb ≤ 2 ^ 26 - 128 ∧ (winPlan f.floor f.nres (s.team tk).alloc (f.wb + 64) f.left_).spills = [] ∧
        (winPlan f.floor f.nres (s.team tk).alloc (f.wb + 64) f.left_).refills = []) →
    ∃ t y, exec (.faultRecordWrite tk) s = .next t ∧ t.memOk ∧ (t.team tk).halts = [y] ∧ y.seq = seq ∧ y.code = h.code ∧
      t.rd rec_ 4 = seq ∧ mget t.mem (rec_ + 4) = h.code ∧ mget t.mem (rec_ + 5) = h.swcode ∧
      (mget t.mem (rec_ + 6)).toNat = (if h.service then 0 else 1) ∧ t.rd (rec_ + 8) 8 = (epcWord h).toNat ∧ t.rd (rec_ + 16) 8 = h.addr.toNat ∧
      t.rd (rec_ + 24) 4 = h.done.toNat ∧ t.rd (rec_ + 28) 4 = h.flanes.toNat ∧
      (∀ a, (a < rec_ ∨ rec_ + 1024 ≤ a) → mget t.mem a = mget s.mem a) ∧ (t.ctx c).ftail.toNat = seq ∧
      (h.service = true → y.phase = .recorded ∧ (t.core (s.team tk).core).stalled = true ∧ t.loc.fibres = s.loc.fibres) ∧
      (h.service = false → y.phase = .handler ∧ (t.team tk).epc = epcWord h ∧ (t.team tk).frec.toNat = rec_ % 2 ^ 64 ∧
        (t.team tk).cause.toNat = h.code.toNat + 256 * h.swcode.toNat ∧ (t.team tk).donemask = h.done ∧ (t.team tk).faddr = h.addr ∧
        ∀ l ∈ ls, let f := s.fib (fibKey w l)
          let g := t.fib (fibKey w l)
          g.epred = f.preds ∧ g.wb = f.wb + 64 ∧ g.pc.toNat = x.trapvec.toNat % 2 ^ 54 ∧ g.word = 0 ∧ g.wait = .none)

/-- R360, R365: a write of FACK that names no open record does nothing. A response RETRY ends a recorded halt of a team whose fibres wait for no flag,
closes the record and sets its STATE, where no error of memory stands in the way; a response that is neither RETRY nor DELIVER ends the launch,
FAULTED. The write does nothing for a context that is not granted (R406). -/
def Obligations.ResponsesAreActedOn : Prop :=
  ∀ (s : State) (c tk : Nat) (seq : Word) (h : Halt) (rest : List Halt),
    let rec_ := recordAt (s.ctx c) seq.toNat
    ((s.ctxGranted c = false ∨ ∀ r ∈ (s.ctx c).openRecs, r.1 ≠ seq.toNat) → exec (.fackWrite c seq) s = .next s) ∧
    (s.memOk → s.ctxGranted c = true → (s.ctx c).openRecs = [(seq.toNat, tk)] → (s.team tk).halts = h :: rest → h.phase = .recorded → h.seq = seq.toNat →
      h.dbg = false → (∀ a, s.accxAt a = false) → (s.contracts.map Contract.id).Nodup → Sound s → s.bad = [] →
      ((mget s.mem (rec_ + 7)) = 1 → s.roomToResend tk = true → (∀ k m a, (s.fib k).wait ≠ .flags m a) → ∃ t, exec (.fackWrite c seq) s = .next t ∧ (t.team tk).halts = rest ∧
        (t.ctx c).openRecs = [] ∧ mget t.mem (rec_ + 6) = 2) ∧
      ((mget s.mem (rec_ + 7)) ≠ 1 → (mget s.mem (rec_ + 7)) ≠ 2 → ∀ x, aget s.launches (s.team tk).launch = some x → x.ending = none →
        ∃ t, exec (.fackWrite c seq) s = .next t ∧
          (aget t.launches (s.team tk).launch = none ∨ ∃ y, aget t.launches (s.team tk).launch = some y ∧ y.ending = some 4)))

/-- R361, R365, R367: ERET makes the fibres of a handler batch wait, and traps with permission anywhere else. When every fibre of the batch waits
there and nothing it started is due (R48), the handler ends: p0 to p6 come back from csr.epred, WB falls by 64, each fibre goes on where it stood,
or at the place csr.epc names where the handler has changed it; the record is closed, its STATE 2. R366: a fault that waits for a warp's group
boundary stops the team there: at the batch of the lowest live fibre that waits at nothing, with the fault's code, DB byte, address and lanes. A
fault of lanes of one word in flight stops it at that word, which those lanes are to perform again (R364, R365). Without such a fault nothing
happens. -/
def Obligations.HandlersAndLateFaults : Prop :=
  (∀ (s : State) (hd : Hdr) (tk : Nat) (h : Halt),
    (s.active hd ≠ [] → mayEret s = false → exec (.eret hd) s = .next (s.trapPrecise 0x11 false (s.active hd) 0)) ∧
    (s.active hd ≠ [] → mayEret s = true → ∃ t, exec (.eret hd) s = .next t ∧ (∀ l ∈ s.active hd, (t.lane l).wait = .eret) ∧ t.mem = s.mem ∧
      t.loc.gran = s.loc.gran ∧ t.teams = s.teams ∧ t.iss.xfer = true) ∧
    (s.active hd = [] → exec (.eret hd) s = .next s) ∧
    (s.memOk → (s.team tk).halts = [h] → h.phase = .handler → h.warp < 32 → h.wt = false → (∀ k m a, (s.fib k).wait ≠ .flags m a) →
      s.nothingDue tk = true → s.roomToResend tk = true → (∀ a, s.accxAt a = false) → (s.contracts.map Contract.id).Nodup → Sound s → s.bad = [] →
      let w := warpKey tk h.warp
      let ls := (lanesOf h.lanes).filter fun l => (s.fib (fibKey w l)).live
      let rec_ := recordAt (s.ctx (s.ctxOfTeam tk)) h.seq
      let epc := (s.team tk).epc
      (∀ l ∈ ls, let f := s.fib (fibKey w l)
        f.wait = .eret ∧ f.wb ≤ 2 ^ 26 ∧ (winPlan f.floor f.nres (s.team tk).alloc (f.wb - 64) f.left_).spills = [] ∧
          (winPlan f.floor f.nres (s.team tk).alloc (f.wb - 64) f.left_).refills = []) →
      ((s.leaveHandler tk).team tk).halts = [] ∧ mget (s.leaveHandler tk).mem (rec_ + 6) = 2 ∧
      (∀ a, a ≠ rec_ + 6 → mget (s.leaveHandler tk).mem a = mget s.mem a) ∧
      ∀ l ∈ ls, let f := s.fib (fibKey w l)
        let g := (s.leaveHandler tk).fib (fibKey w l)
        g.preds = f.epred ∧ g.wb = f.wb - 64 ∧ g.wait = .none ∧
        (epc = epcWord h → g.pc = f.hpc ∧ g.word = f.hword) ∧
        (epc ≠ epcWord h → g.pc.toNat = epc.toNat % 2 ^ 54 ∧ g.word = Min.min 2 (epc.toNat / 2 ^ 54 % 4)))) ∧
  (∀ (s : State) (w l : Nat) (f : LateFault) (rest : List LateFault), (s.team (teamOf w)).halts = [] → Unended s (teamOf w) →
    let free := (lanesOf (s.liveMask w)).filter fun l => (s.fib (fibKey w l)).wait == .none && s.running w l
    ((s.warp w).late = [] → exec (.faultDelivery w) s = .next s) ∧
    ((s.warp w).late = f :: rest → f.src = none → f.db ≠ 0x40 → free.head? = some l → (s.warp w).holds = [] →
      ∃ t y, exec (.faultDelivery w) s = .next t ∧ (t.team (teamOf w)).halts = [y] ∧ y.kind = .drain ∧ y.code = f.code ∧ y.db = f.db ∧
        y.addr = f.addr ∧ y.done = ~~~f.undone ∧ y.flanes = f.lanes ∧ y.warp = warpIx w ∧ y.lanes = s.batchOf w l ∧
        y.pc = (s.fib (fibKey w l)).pc ∧ y.word = (s.fib (fibKey w l)).word ∧ (t.warp w).late = rest ∧
        t.mem = s.mem ∧ t.loc.gran = s.loc.gran) ∧
    (∀ p, (s.warp w).late = [f] → f.src = some p → (lanesOf (s.liveMask w)).find? (fun k => f.undone.getLsbD k) = some l →
      s.heldHard w (s.batchOf w l) = false →
      ∃ t y, exec (.faultDelivery w) s = .next t ∧ (t.team (teamOf w)).halts = [y] ∧ y.kind = .lane ∧ y.code = f.code ∧ y.addr = f.addr ∧
        y.done = ~~~f.undone ∧ y.flanes = f.lanes ∧ y.rpl = true ∧ y.pc = p.pc ∧ y.word = p.word ∧ y.lanes = s.batchOf w l ∧
        (t.warp w).late = [] ∧ t.mem = s.mem ∧ t.loc.gran = s.loc.gran))

/-! ### SPAWN, placement, dispatch (spec/10, spec/11, spec/12, spec/13) -/

/-- R171 to R173, R206: SPAWN by a team whose launch stands. An entry of 2^54 or more traps with permission; without room, or without a team index
left, every active fibre gets 0xFFFFFFFF; before its core may grant a generation the word cannot issue. Else, where no write is outstanding and
the grant lies apart from the spawner's registers, a new team runs on the same core: one warp, the active lanes live at the entry with their v0 to
v7 copied from va on, and every active fibre gets its index. Nothing else changes. -/
def Obligations.SpawnResults : Prop :=
  ∀ (s : State) (h : Hdr) (a e : Reg) (top : Nat) (x : Launch), Apart s → (s.active h).getLast? = some top →
    aget s.launches s.myTeam.launch = some x →
    let tm := s.myTeam
    let c := tm.core
    let w := s.iss.warp
    let n := teamCount x.r + x.spawnedTeams
    let g := s.reserveRuns c 1 tm.alloc 0
    let i : Instr := .spawn h a e
    let k := s.nextTeam
    (2 ^ 54 ≤ (s.srcX e top).toNat → exec i s = .next (s.trapPrecise 0x11 false (s.active h) 0)) ∧
    ((s.srcX e top).toNat < 2 ^ 54 →
      (s.fitsCore c 1 tm.alloc 0 = false ∨ 2 ^ 32 - 1 ≤ n → SetsReg s i h a fun _ v => v = BitVec.allOnes 32) ∧
      (s.fitsCore c 1 tm.alloc 0 = true → n < 2 ^ 32 - 1 →
        (s.clock < (s.core c).nextGrant → exec i s = .next s.stopped) ∧
        ((s.core c).nextGrant ≤ s.clock → Settled s → teamOf w < k → 64 ≤ tm.alloc → tm.alloc % 16 = 0 → (runGranules g.win).Nodup →
          (runGranules g.win).length = 2 * tm.alloc →
          (∀ l < 32, ∀ r, ∀ y ∈ runGranules g.win, tm.regGranule w l r ≠ c * 16384 + y) →
          ∃ t, exec i s = .next t ∧ (∀ l ∈ s.active h, (reg s t l a.toNat).toNat = n) ∧
            (t.team k).phase = .running ∧ (t.team k).launch = tm.launch ∧ (t.team k).core = c ∧ (t.team k).warps = 1 ∧ (t.team k).teamid = n ∧
            (t.team k).panelid = tm.panelid ∧ (t.team k).stage = tm.stage ∧ (t.team k).gen = tm.gen ∧ (t.team k).alloc = tm.alloc ∧
            (t.team k).scratch = 0 ∧ (t.team k).fibres = (s.active h).length ∧ (t.team k).halts = [] ∧ (t.team k).exsum = 0 ∧
            (t.team k).grant.gen = State.nextGen (s.core c).gen ∧ (t.core c).gen = State.nextGen (s.core c).gen ∧
            (t.core c).nextGrant = s.clock + 16 ∧
            (∀ l < 32, ((t.fib (k * 1024 + l)).live = true ↔ l ∈ s.active h) ∧ ((t.warp (k * 32)).mask 0).getLsbD l = decide (l ∈ s.active h)) ∧
            (∀ l ∈ s.active h, let f := t.fib (k * 1024 + l)
              f.pc.toNat = (s.srcX e top).toNat ∧ f.word = 0 ∧ f.fid = l ∧ f.wb = 0 ∧ f.depth = 0 ∧ f.preds = 0 ∧ f.acks = 0 ∧ f.wait = .none ∧
                ∀ r < 8, t.logical (k * 32) l r = s.src l (a.toNat + r)) ∧
            (∃ y, aget t.launches tm.launch = some y ∧ y.spawnedTeams = x.spawnedTeams + 1) ∧ t.mem = s.mem ∧
            (∀ j, j / 1024 ≠ k → t.fib j = s.fib j) ∧ (∀ j, j ≠ k → j ≠ teamOf w → t.team j = s.team j) ∧
            t.team (teamOf w) = { tm with hasSpawned := true })))

/-- R156, R196, R206: the granules taken for an allocation are granules of its core that no resident team holds, all different, in the amounts its
shape asks for, wherever the residents' runs lie apart and leave room; they stand under no generation yet. R206: a generation that a core gives
follows its last one and is never 0; the core gives the next one 16 cycles later at the earliest, and may give one from then on only. Nothing else
of the machine changes but events that it makes due. R28, R152, R165, R176, R196, R206: what placing a team gives it: its indices, shape, granules
and 16 barriers of its fibres; in each warp all lanes live, mask 0 full and the other masks, the flags and the counters empty; each fibre at the
entry, its spill and return-stack bases by its number in the launch. When its core gives it a generation, it has that one, and v0 to v7 hold what
R28 lists. No memory changes. -/
def Obligations.TeamsArePlaced : Prop :=
  (∀ (s : State) (c warps alloc scratch : Nat),
    let held := (s.teamsOn c).flatMap fun t => t.2.grant.win ++ t.2.grant.scr
    let r := s.reserveRuns c warps alloc scratch
    let mine := runGranules r.win ++ runGranules r.scr
    (runGranules held).Nodup → (∀ x ∈ held, x.2 ≠ 0) → (∀ g ∈ runGranules held, g < 16384) →
    (runGranules held).length + 2 * alloc * warps + scratch / 64 ≤ 16384 →
    mine.Nodup ∧ (runGranules r.win).length = 2 * alloc * warps ∧ (runGranules r.scr).length = scratch / 64 ∧
    (∀ g ∈ mine, g < 16384 ∧ g ∉ runGranules held) ∧ r.gen = 0 ∧ r.accepted = []) ∧
  (∀ (s : State) (c : Nat),
    let t := s.takeGen c
    let g := (s.core c).gen
    (t.core c).gen ≠ 0 ∧ (g ≠ BitVec.allOnes 16 → (t.core c).gen = g + 1) ∧ (g = BitVec.allOnes 16 → (t.core c).gen = 1) ∧
    (t.core c).nextGrant = Max.max s.clock (s.core c).nextGrant + 16 ∧ (s.mayGrant c = true ↔ (s.core c).nextGrant ≤ s.clock) ∧
    (∀ d, d ≠ c → t.core d = s.core d) ∧ t.mem = s.mem ∧ t.loc = s.loc ∧ t.teams = s.teams ∧ (∀ q ∈ s.queue, q ∈ t.queue)) ∧
  (∀ (s : State) (k ti c : Nat) (x : Launch), aget s.launches k = some x →
    let r := x.r
    let n := recWarps r
    let g := s.reserveRuns c n (recAlloc r) r.scratch
    let p := ti / perPanel r
    let st := ti / r.width % r.stages
    let j := s.nextTeam
    let t := s.placeTeam k x ti c
    let u := t.grantTeam j
    let tm := t.team j
    let fresh := State.nextGen (s.core c).gen
    let vs (fid : Nat) : List Nat := [r.param.toNat % 2 ^ 32, r.param.toNat / 2 ^ 32, fid, ti, p, st, teamCount r, r.panels]
    0 < n → n ≤ 32 → 4 ≤ r.win → (runGranules g.win).Nodup → (runGranules g.win).length = 2 * recAlloc r * n →
    tm.phase = .placed ∧ tm.launch = k ∧ tm.core = c ∧ tm.warps = n ∧ tm.teamid = ti ∧ tm.panelid = p ∧ tm.stage = st ∧ tm.alloc = 16 * r.win ∧
    tm.scratch = r.scratch ∧ tm.strict = r.strict ∧ tm.fibres = r.fibres ∧ tm.grant = g ∧ tm.exsum = 0 ∧ tm.halts = [] ∧
    (∀ i < 16, t.barrier j i = Barrier.start r.fibres) ∧ t.nextTeam = j + 1 ∧
    (∀ i < n, let y := t.warp (j * 32 + i)
      y.live = true ∧ y.mask 0 = BitVec.allOnes 32 ∧ (∀ m, 0 < m → y.mask m = 0) ∧ (∀ m, y.flag m = FlagSt.zero) ∧ y.counters = [] ∧ y.holds = []) ∧
    (∀ i < n, ∀ l < 32, let f := t.fib (j * 1024 + i * 32 + l)
      let fid := 32 * i + l
      f.live = true ∧ f.pc = r.entry ∧ f.word = 0 ∧ f.fid = fid ∧ f.wb = 0 ∧ f.depth = 0 ∧ f.preds = 0 ∧ f.acks = 0 ∧ f.wait = .none ∧
      f.spill.toNat = (r.spillb.toNat + (ti * r.fibres + fid) * r.spills) % 2 ^ 64 ∧
      f.rsbase.toNat = (r.rsb.toNat + (ti * r.fibres + fid) * r.rss) % 2 ^ 64 ∧ u.fib (j * 1024 + i * 32 + l) = f ∧
      ∀ m < 8, (u.logical (j * 32 + i) l m).toNat = (vs fid).getD m 0 % 2 ^ 32) ∧
    u.team j = { tm with gen := fresh, grant := { g with gen := fresh } } ∧ (u.core c).gen = fresh ∧
    (s.teamsOn c = [] → (t.core c).ctx = some x.ctx) ∧
    t.mem = s.mem ∧ u.mem = s.mem ∧ (∀ m, m / 1024 ≠ j → t.fib m = s.fib m ∧ u.fib m = s.fib m) ∧
    (∀ m, m ≠ j → t.team m = s.team m ∧ u.team m = s.team m))

/-- R185 to R187: a write of a queue's configuration half enables a disabled queue whose fields and rings are good, with HEAD, DONE and TAIL 0 and the
credit its weight; where they are not, ERR is set with ERRCODE 2; it disables an enabled one. A TAIL more than the ring's length ahead of HEAD
sets ERRCODE 1 and disables, be the queue enabled or not; any other is taken, and the record is looked at 200 cycles later. The times at which it
is done or tried again that no rule gives are the model's (log entry 24). -/
def Obligations.QueueRegistersAreWritten : Prop :=
  ∀ (s : State) (fn q : Nat) (val : DWord) (tail : Word),
    let x := s.queueOf fn q
    let v := val.toNat
    let logn := v / 2 ^ 32 % 2 ^ 8
    let weight := v / 2 ^ 40 % 2 ^ 8
    let ctx := v / 2 ^ 48 % 2 ^ 8
    let good : Prop := 4 ≤ logn ∧ logn ≤ 16 ∧ weight ≠ 0 ∧ (∃ g, (s.func fn).grant = some g ∧ ctx < g.ctxn) ∧
      s.ringOk fn x.ring.toNat (128 * 2 ^ logn) = true ∧ s.ringOk fn x.cring.toNat (64 * 2 ^ logn) = true
    let only (t : State) : Prop := t = { s with queues := t.queues } ∧ ∀ j, j ≠ fn * 64 + q → aget t.queues j = aget s.queues j
    (fn < 33 ∧ q < 64 → (∀ i ∈ [Instr.queueEnable fn q val, Instr.queueDisable fn q val], ∃ t, exec i s = .next t ∧ only t ∧
        let y := t.queueOf fn q
        y.ring = x.ring ∧ y.cring = x.cring ∧ y.irq = val.getLsbD 57 ∧
        (x.en = false → val.getLsbD 56 = true → good → y.en = true ∧ y.head = 0 ∧ y.done = 0 ∧ y.tail = 0 ∧ y.err = false ∧ y.errcode = 0 ∧
          y.logn = logn ∧ y.weight = weight ∧ y.ctx = ctx ∧ y.credit = weight) ∧
        (x.en = false → val.getLsbD 56 = true → ¬good → y.en = false ∧ y.err = true ∧ y.errcode = 2) ∧
        (x.en = false → val.getLsbD 56 = false → y.en = false ∧ y.err = x.err ∧ y.errcode = x.errcode) ∧
        (x.en = true → y.en = val.getLsbD 56 ∧ y.logn = x.logn ∧ y.weight = x.weight ∧ y.ctx = x.ctx ∧ y.head = x.head ∧ y.tail = x.tail ∧
          y.done = x.done)) ∧
      (2 ^ x.logn < (tail - x.head).toNat → ∃ t, exec (.tailWrite fn q tail) s = .next t ∧ only t ∧
        (t.queueOf fn q).tail = tail ∧ (t.queueOf fn q).err = true ∧ (t.queueOf fn q).errcode = 1 ∧ (t.queueOf fn q).en = false) ∧
      ((tail - x.head).toNat ≤ 2 ^ x.logn → ∃ t, exec (.tailWrite fn q tail) s = .next t ∧
        t.queueOf fn q = { x with tail := tail } ∧ ⟨s.clock + 200, .launchValidate fn q⟩ ∈ t.queue ∧
        t = { s with queues := t.queues, queue := t.queue })) ∧
    (33 ≤ fn ∨ 64 ≤ q → exec (.queueEnable fn q val) s = .fault .noSuchUnit ∧ exec (.queueDisable fn q val) s = .fault .noSuchUnit ∧
      exec (.tailWrite fn q tail) s = .fault .noSuchUnit)

/-- R186, R189 to R194: the record at the head of an enabled queue whose completion slot is free. A refused one is consumed with STATUS 1, an
inadmissible one with 2, an aborted one with 5: HEAD passes it, the sequence is complete, its completion record stands at its slot; a good one is
kept. (The record can be read, and no completion ring lies in an ACCX range.) Then an abort of it consumes it with STATUS 5 and a failed
dependence with STATUS 3, met ones make it eligible, and else the test is made again. The times at which it is done or tried again that no rule
gives are the model's (log entry 24). -/
def Obligations.HeadRecordsAreJudged : Prop :=
  ∀ (s : State) (fn q : Nat), s.memOk → (∀ a, s.accxAt a = false) → (s.contracts.map Contract.id).Nodup → Sound s →
    (s.queueOf fn q).cring.toNat % 64 = 0 →
    let x := s.queueOf fn q
    let seq := (x.head.toNat + 1) % 2 ^ 32
    let slot := (seq + 2 ^ 32 - 1) % 2 ^ 32 % 2 ^ x.logn
    let a := x.ring.toNat + 128 * slot
    let n := s.homeRd a 128
    let r := launchRec n
    let c := x.cring.toNat + 64 * slot
    let consumes (i : Instr) (status : Nat) (tag : DWord) : Prop := ∃ t, exec i s = .next t ∧ (t.queueOf fn q).head.toNat = seq ∧
      (t.queueOf fn q).valid = none ∧ (seq, status) ∈ (t.queueOf fn q).statuses ∧ t.rd c 4 = seq ∧ t.rd (c + 4) 2 = status ∧
      (mget t.mem (c + 6)).toNat = q % 256 ∧ t.rd (c + 24) 8 = tag.toNat ∧ (∀ a, (a < c ∨ c + 64 ≤ a) → mget t.mem a = mget s.mem a) ∧
      t.launches = s.launches ∧ t.loc = s.loc ∧ t.teams = s.teams
    let v := Instr.launchValidate fn q
    (x.en = false ∨ x.head = x.tail → exec v s = .next s) ∧
    (x.en = true → x.head ≠ x.tail → State.slotFree x = true → (s.homeFetch a 128 0 s.bad.contains).2 = none →
      (seq ∈ x.aborted → consumes v 5 r.tag) ∧
      (seq ∉ x.aborted → x.valid = none → (recRefused n q seq = true → consumes v 1 r.tag) ∧
        (recRefused n q seq = false → s.admissible (fn * 64 + x.ctx) r = false → consumes v 2 r.tag) ∧
        (recRefused n q seq = false → s.admissible (fn * 64 + x.ctx) r = true → ∃ t, exec v s = .next t ∧
          t.queueOf fn q = { x with valid := some (r, false) } ∧ ⟨s.clock + 10, .dependenceTest fn q⟩ ∈ t.queue ∧ t.mem = s.mem))) ∧
    (let d := Instr.dependenceTest fn q
     (∀ r, x.valid = some (r, false) → x.en = true → seq ∈ x.aborted → consumes d 5 r.tag) ∧
     (∀ r, x.valid = some (r, false) → x.en = true → seq ∉ x.aborted →
      ((∃ y ∈ r.deps, depFailed s fn y = true) → consumes d 3 r.tag) ∧
      ((∀ y ∈ r.deps, depFailed s fn y = false ∧ depMet s fn y = true) → ∃ t, exec d s = .next t ∧
        t.queueOf fn q = { x with valid := some (r, true) } ∧ ⟨s.clock + 20, .arbitrate fn⟩ ∈ t.queue ∧ t.mem = s.mem) ∧
      ((∀ y ∈ r.deps, depFailed s fn y = false) → (∃ y ∈ r.deps, depMet s fn y = false) → ∃ t, exec d s = .next t ∧
        t.queues = s.queues ∧ ⟨s.clock + 64, d⟩ ∈ t.queue ∧ t.mem = s.mem)) ∧
     (x.valid = none → exec d s = .next s))

/-- R157, R161, R193, R195, R363, R408, R422: arbitration takes the head of the one eligible queue that has credit as a launch, and gives every team
of a persistent one its place; dispatch places the next panel of the one launch that waits, in the one cluster where it fits, at the indices that
follow; a team whose fibres have ended and whose writes are performed retires and counts; an abort, while no other of its function is in progress,
ends the launch it names with STATUS 5. The times at which it is done or tried again that no rule gives are the model's (log entry 24). -/
def Obligations.LaunchesRunAndEnd : Prop :=
  ∀ (s : State) (fn q k tk : Nat) (x : Launch) (r : LaunchRec) (seq : Word) (cores : List Nat),
    let y := s.queueOf fn q
    let off : Prop := s.firmware.shut = true ∨ s.firmware.recovery = true
    (¬off → s.eligible fn = [(q, r)] → q < 64 → y.credit ≠ 0 → y.valid = some (r, true) → ∃ t z, exec (.arbitrate fn) s = .next t ∧
      aget t.launches s.nextId = some z ∧ z.fn = fn ∧ z.q = q ∧ z.seq = (y.head.toNat + 1) % 2 ^ 32 ∧ z.ctx = fn * 64 + y.ctx ∧ z.r = r ∧
      z.nextPanel = 0 ∧ z.retiredTeams = 0 ∧ z.ending = none ∧ (t.queueOf fn q).head = y.head + 1 ∧ (t.queueOf fn q).valid = none ∧
      (t.queueOf fn q).credit = y.credit - 1 ∧ ⟨s.clock + 100, .panelDispatch⟩ ∈ t.queue ∧ t.mem = s.mem ∧
      (r.persistent = false → t.loc = s.loc ∧ t.teams = s.teams) ∧
      (r.persistent = true → ∀ j < r.panels * perPanel r, let tm := t.team (s.nextTeam + j)
        tm.phase = .placed ∧ tm.launch = s.nextId ∧ tm.teamid = j) ∧
      ∀ j, j ≠ s.nextId → aget t.launches j = aget s.launches j) ∧
    (off → exec (.arbitrate fn) s = .next s ∧ exec .panelDispatch s = .next s.grantDue) ∧
    (¬off → (∀ f < 33, s.grantDue.awaiting f = []) → exec .panelDispatch s = .next s.grantDue) ∧
    (¬off → s.launches = [(k, x)] → x.fn < 33 → x.ending = none → x.r.persistent = false → x.undispatched = [] → x.nextPanel < x.r.panels →
      0 < perPanel x.r → s.preempting x.ctx = false → (∀ y ∈ s.teams, y.2.phase ≠ .placed) →
      State.panelCluster x (State.panelTeams x.r x.nextPanel) = none →
      (s.clustersOf x.ctx).filterMap (fun cl => s.fitCluster x.ctx x.r [] (perPanel x.r) cl) = [cores] →
      ∃ t, exec .panelDispatch s = .next t ∧ t.nextTeam = s.nextTeam + perPanel x.r ∧ t.mem = s.mem ∧
        (∃ z, aget t.launches k = some z ∧ z.nextPanel = x.nextPanel + 1) ∧
        ∀ j < perPanel x.r, let tm := t.team (s.nextTeam + j)
          tm.phase ≠ .retired ∧ tm.launch = k ∧ tm.teamid = x.nextPanel * perPanel x.r + j ∧ tm.core = cores.getD j 0) ∧
    (let tm := s.team tk
     (tm.phase = .retired → exec (.teamRetire tk) s = .next s) ∧
     (tm.phase ≠ .retired → aget s.launches tm.launch = some x → x.ending = none → (s.allEnded tk = false → exec (.teamRetire tk) s = .next s) ∧
       (s.allEnded tk = true → s.allAcked tk = true → s.workOpen tk = false → s.faultOpen tk = false → tm.halts = [] →
         ∃ t, exec (.teamRetire tk) s = .next t ∧ (t.team tk).phase = .retired ∧
           (aget t.launches tm.launch = none ∨ ∃ z, aget t.launches tm.launch = some z ∧ z.retiredTeams = x.retiredTeams + 1 ∧
             z.exsum = x.exsum ||| tm.exsum)))) ∧
    (fn < 33 → q < 64 → (s.func fn).abort.toNat / 2 ^ 32 % 4 = 1 → exec (.abortLaunch fn q seq) s = .next s) ∧
    (fn < 33 → q < 64 → (s.func fn).abort.toNat / 2 ^ 32 % 4 ≠ 1 → s.launches = [(k, x)] → x.fn = fn → x.q = q → x.seq = seq.toNat → x.ending = none → ∃ t, exec (.abortLaunch fn q seq) s = .next t ∧
      (aget t.launches k = none ∨ ∃ z, aget t.launches k = some z ∧ z.ending = some 5)) ∧
    (33 ≤ fn ∨ 64 ≤ q → exec (.abortLaunch fn q seq) s = .fault .noSuchUnit)

/-! ### The matrix unit (spec/19, spec/20) -/

/-- R294 to R319: MMA and MMA64 by a full warp whose buffer is free for it, whose unit is free and whose earlier SCLDs are complete. The tests come in
R294's order. A word that adds starts a product for its buffer: element 16 × m + n is the dot product of row m of A and column n of B, scaled,
rounded alone or added to what the buffer will hold; it is written 24 cycles later, 32 for MMA64. A word that drains also sends the buffer on its
way, and so does MDRAIN from an open buffer of its warp; from another buffer it changes no buffer. -/
def Obligations.MatrixWords : Prop :=
  ∀ (s s1 : State) (h : Hdr) (wide : Bool) (fa fb : BitVec 3) (f : Reg) (db : BitVec 2) (fn : MmaFn),
    let i : Instr := if wide then .mma64 h fa fb f db fn else .mma h fa fb f db fn
    let md : Instr := .mdrain h db f
    let c := s.myTeam.core
    let w := s.iss.warp
    let b := s.buf c db.toNat
    let x := fmtWord (s.srcR f 0)
    let k := kOfPair x.af x.bf
    let starts : Bool := fn == .start || fn == .startDrain
    let drains : Bool := fn == .chainDrain || fn == .startDrain
    let fits : Prop := combinationFits wide fa.toNat fb.toNat x = true ∧ (starts = true ∨ b.st ≠ .open_ ∨ b.wide = wide) ∧
      (drains = true → drainFits wide x = true)
    let old : Option (List DWord) := if starts then none else some (if b.st = .free then List.replicate 256 0 else s.forwarded c db.toNat)
    let product (sums : List DWord) : Prop := sums.length = 256 ∧ ∀ m < 16, ∀ n < 16, sums[16 * m + n]? = some (bufferElem wide
      (old.map fun o => o.getD (16 * m + n) 0)
      (dotRow (s.operandRow c fa.toNat x.af k x.asc m) (s.operandRow c fb.toNat x.bf k (x.asc + scaleCols x.af k) n)
        (s.superScale c x.af k x.asc m) (s.superScale c x.bf k (x.asc + scaleCols x.af k) n)).1).1
    let begun (t : State) : Prop := ∃ id j, t.item id = some (.mma j) ∧ j.core = c ∧ j.buf = db.toNat ∧ j.team = teamOf w ∧ product j.sums ∧
      ⟨s.clock + (if wide then 32 else 24), .mmaBufferWrite id⟩ ∈ t.queue ∧ (t.core c).matrixUntil = s.clock + (if wide then 4 else 1)
    let room : Prop := (∀ l < 32, (s.lane l).acks < 65535) ∧ (x.flg < 12 → (s.myWarp.flag x.flg).n < 255) ∧ (s.core c).wcb = [] ∧ s.requestsOf c ≤ 2048
    let free : Prop := (s.core c).matrixUntil ≤ s.clock
    let ready : Prop := free ∧ s.bufferHeld c db.toNat w = false ∧ s.scldOpen w s.nextId = false
    let sent (t : State) (va : DWord) (pa : Nat) : Prop := (t.buf c db.toNat).st = .draining ∧ ∃ id r, t.item id = some (.drain r) ∧
      (∃ q ∈ t.queue, q.ev = .drainSend id) ∧ r.core = c ∧ r.buf = db.toNat ∧ r.warp = w ∧ r.flag = x.flg ∧ r.acc = x.kind ∧ r.va = va ∧ r.pa = pa ∧
      (r.scratch = true ↔ x.dst = 1) ∧ ∀ l < 32, (t.lane l).acks = (s.lane l).acks + 1
    let keeps (t : State) : Prop := t.mem = s.mem ∧ t.loc.gran = s.loc.gran
    s.active h ≠ [] →
    (¬ready → exec i s = .next s.stopped) ∧ (¬free → exec md s = .next s.stopped) ∧
    (∀ j ∈ [i, md], (j = i → ready) → free →
      ((s.active h).length < 32 → exec j s = .next (s.trapPrecise 0x05 false (s.active h) 0)) ∧
      ((s.active h).length = 32 → (∃ l < 32, s.srcR f l ≠ s.srcR f 0) → exec j s = .next (s.trapPrecise 0x03 false (s.active h) 0)) ∧
      ((s.active h).length = 32 → (∀ l < 32, s.srcR f l = s.srcR f 0) → fmtDefined x = false →
        exec j s = .next (s.trapPrecise 0x01 false (s.active h) 0))) ∧
    ((s.active h).length = 32 → (∀ l < 32, s.srcR f l = s.srcR f 0) → fmtDefined x = true → free →
      (ready →
        (¬fits → exec i s = .next (s.trapPrecise 0x04 false (s.active h) 0)) ∧
        (fits → drains = false → ∃ t, exec i s = .next t ∧ begun t ∧ keeps t ∧ t.loc = s.loc ∧ (t.buf c db.toNat).st = .open_ ∧
          (t.buf c db.toNat).warp = w ∧ (t.buf c db.toNat).wide = wide) ∧
        (∀ va pa a, fits → drains = true → s.drainTarget f x = (.ok (va, pa, a), s1) → room →
          ∃ t, exec i s = .next t ∧ begun t ∧ keeps t ∧ sent t va pa)) ∧
      (b.st = .open_ → b.warp = w → (drainFits b.wide x = false → exec md s = .next (s.trapPrecise 0x04 false (s.active h) 0)) ∧
        ∀ va pa a, drainFits b.wide x = true → s.drainTarget f x = (.ok (va, pa, a), s1) → room →
          ∃ t, exec md s = .next t ∧ keeps t ∧ sent t va pa) ∧
      ((b.st ≠ .open_ ∨ b.warp ≠ w) → (12 ≤ x.flg ∨ (s.myWarp.flag x.flg).n < 255) → ∃ t, exec md s = .next t ∧ keeps t ∧
        (12 ≤ x.flg → t.loc = s.loc) ∧ ∀ n, t.buf c n = s.buf c n))

/-- R320 to R324: SCLD and SCLD.SCR take the column word of the highest fibre whose guard is true and trap with 0x01 where it is undefined. Lanes that
pass are read for the scale store, from global memory line by line, from scratch with its own time: a piece of work gathers their bytes. -/
def Obligations.ScaleLoadWords : Prop :=
  ∀ (s s1 : State) (h : Hdr) (a col : Reg) (top c n g : Nat) (q : Bool) (ok : List LoadLane),
    ((lanesOf s.iss.lanes).filter fun l => guardTrue h (s.laneBefore l)).getLast? = some top → s.active h ≠ [] →
    (s.core s.myTeam.core).matrixUntil ≤ s.clock →
    let plan (addr : Nat → DWord) : List (Nat × List (DWord × Size × Nat)) :=
      ((s.active h).map fun l => (l, scldLane c n g q l (addr l))).filter fun x => !x.2.isEmpty
    let scr := plan fun l => (s.srcR a l).setWidth 64
    let core := s.myTeam.core
    let keeps (t : State) : Prop := t.mem = s.mem ∧ t.loc = s.loc ∧ t.teams = s.teams ∧ (t.core core).matrixUntil = s.clock + 1 ∧
      (t.core core).scale = (s.core core).scale
    let gathers (t : State) (id : Nat) (x : ScldReq) : Prop := t.item id = some (.scld x) ∧ x.core = core ∧ x.warp = s.iss.warp ∧ x.lost = []
    (columnWord (s.srcR col top) = none → exec (.scld h a col) s = .next (s.trapPrecise 0x01 false (s.active h) 0) ∧
      exec (.scldScr h a col) s = .next (s.trapPrecise 0x01 false (s.active h) 0)) ∧
    (columnWord (s.srcR col top) = some (c, n, g, q) →
      (scldChecks (s.takeMatrix 1) (plan (s.srcX a)) = (ok, [], s1) → ok ≠ [] → s1.requestsOf core + (ok.map fun o => lineOf o.pa).eraseDups.length ≤ 2048 →
        ∃ t sid x, exec (.scld h a col) s = .next t ∧ keeps t ∧ gathers t sid x ∧
          ∀ o ∈ ok, (∃ id r, t.item id = some (.read r) ∧ r.scale = true ∧ r.dest.cid = sid ∧ r.line = lineOf o.pa ∧ o ∈ r.lanes ∧
              ∃ y ∈ t.queue, y.ev = .homeRead id) ∨
            ((∀ i < sizeBytes o.sz, ∃ v, (o.lane, o.dst + i, v) ∈ x.writes) ∧ ∃ y ∈ t.queue, y.ev = .scldComplete sid)) ∧
      ((∀ x ∈ scr, ∀ y ∈ x.2, y.1.toNat < s.myTeam.scratch ∧ y.1.toNat % sizeBytes y.2.1 = 0) → (∀ gr, s.stale s.myTeam gr = false) →
        ScratchQuiet s → ∃ t x, exec (.scldScr h a col) s = .next t ∧ keeps t ∧ gathers t s.nextId x ∧ x.reads = 0 ∧
          ⟨x.due, .scldComplete s.nextId⟩ ∈ t.queue ∧ s.clock + 20 ≤ x.due ∧
          (∀ l p v, (l, p, v) ∈ x.writes ↔ ∃ y ∈ scr, y.1 = l ∧ ∃ z ∈ y.2, ∃ i < sizeBytes z.2.1, p = z.2.2 + i ∧
            v = s.scrByte s.myTeam (z.1.toNat + i))))

/-- R304, R309 to R314, R324: what the matrix unit's work does when it comes due. A product is written into its buffer and its bits into the summary,
behind those of earlier words into it; a drain whose products are written and before which no other stands goes out as a tile, FP32 sums as FP64
values where the target is FP64; a tile adds element by element, in the team's scratch while the generation stands, or at its home, where memory
changes nowhere else; its acknowledgement frees the buffer, or leaves it Pending with the fault; scale bytes reach the scale store when every read
has ended, those of lanes that faulted excepted. -/
def Obligations.MatrixWorkIsDone : Prop :=
  ∀ (s : State) (id : Nat),
    (∀ j : MmaJob, s.item id = some (.mma j) → j.buf < 4 →
      ((∃ y ∈ s.items, y.1 < id ∧ ∃ m, y.2 = .mma m ∧ m.core = j.core ∧ m.buf = j.buf) → exec (.mmaBufferWrite id) s = .next (s.later 1 (.mmaBufferWrite id))) ∧
      ((∀ y ∈ s.items, ∀ m, y.2 = .mma m → m.core = j.core → m.buf = j.buf → id ≤ y.1) → ∃ t, exec (.mmaBufferWrite id) s = .next t ∧ t.item id = none ∧
      t.buf j.core j.buf = { s.buf j.core j.buf with elems := j.sums } ∧ (t.team j.team).exsum = (s.team j.team).exsum ||| j.exs ∧ t.mem = s.mem ∧
      t.loc = s.loc ∧ ∀ b, b ≠ j.buf → t.buf j.core b = s.buf j.core b)) ∧
    (∀ r : DrainReq, s.items = [(id, .drain r)] →
      let b := s.buf r.core r.buf
      let es : List DWord := b.elems.map fun e => if r.acc = 1 ∧ b.wide = false then BitVec.ofNat 64 (storeWide fp64 (fp32.value e.toNat)).1 else e
      ∃ t, exec (.drainSend id) s = .next t ∧ t.mem = s.mem ∧ t.loc = s.loc ∧ (∃ q ∈ t.queue, q.ev = .homeTileUpdate id) ∧
        t.item id = some (.tile { r with elems := es })) ∧
    (∀ r : DrainReq, s.item id = some (.tile r) → s.namesOk → (r.acc ≠ 1 → ∀ e ∈ r.elems, e.toNat < 2 ^ 32) →
      let wd := r.acc == 1
      let n := if wd then 8 else 4
      let f := if wd then fp64 else fp32
      let tm := s.team (teamOf r.warp)
      let x (i : Nat) : FVal := f.value (r.elems.getD i 0).toNat
      let old (i : Nat) : Nat := ofBytes ((List.range n).map fun k => s.scrByte tm (r.pa + n * i + k))
      let acked (t : State) (code : BitVec 8) : Prop := (∃ d, t.item id = some (.drainAck d) ∧ d.fault = code ∧ d.buf = r.buf ∧ d.core = r.core ∧
          d.flag = r.flag ∧ d.warp = r.warp ∧ ∃ m, t.item d.ackId = some (.ack m) ∧ m.lanes = allLanes.map (fibKey r.warp)) ∧
        ∃ q ∈ t.queue, q.ev = .drainAck id
      (r.scratch = true → (∀ y ∈ s.scratchOnWay r.core r.core, id ≤ y) → tm.phase ≠ .retired → (tm.grant.gen = r.gen ∨ r.gen ∈ tm.grant.accepted) → r.pa % 64 = 0 →
        (∀ i < n * 4, ∀ j < n * 4, i ≠ j → tm.scrGranule (r.pa + 64 * i) ≠ tm.scrGranule (r.pa + 64 * j)) →
        ∃ t, exec (.homeTileUpdate id) s = .next t ∧ t.mem = s.mem ∧ acked t 0 ∧
          ∀ i < 256, ∀ k < n, (t.scrByte tm (r.pa + n * i + k)).toNat = (fAdd f (f.value (old i)) (x i)).1 / 2 ^ (8 * k) % 256) ∧
      (r.scratch = true → (∀ y ∈ s.scratchOnWay r.core r.core, id ≤ y) → (tm.phase = .retired ∨ (tm.grant.gen ≠ r.gen ∧ r.gen ∉ tm.grant.accepted)) →
        ∃ t, exec (.homeTileUpdate id) s = .next t ∧ acked t 0 ∧ t.mem = s.mem ∧ t.loc = s.loc) ∧
      (r.scratch = false → s.memOk → Arrives s id → Sound s → (∀ y, s.codeFails r.ctx r.at_ y = false) →
        (∀ code, ((State.tileLines r.pa r.acc).findSome? fun y => s.accRefused r.core y (State.accKindOf r.acc)) = some code →
          ∃ t, exec (.homeTileUpdate id) s = .next t ∧ acked t code ∧ t.mem = s.mem ∧ t.accx = s.accx) ∧
        ((∀ y ∈ State.tileLines r.pa r.acc, s.accRefused r.core y (State.accKindOf r.acc) = none) → r.acc ≤ 1 →
          ∃ t, exec (.homeTileUpdate id) s = .next t ∧ acked t 0 ∧ t.memOk ∧
            (∀ i < 256, ∀ k < n, (mget t.mem (r.pa + n * i + k)).toNat =
              (fAdd f (f.value (s.rd (r.pa + n * i) n)) (x i)).1 / 2 ^ (8 * k) % 256) ∧
            ∀ a, (a < r.pa ∨ r.pa + 256 * n ≤ a) → mget t.mem a = mget s.mem a))) ∧
    (∀ r : DrainReq, s.item id = some (.drainAck r) → r.ackId ≠ id → r.buf < 4 →
      ((s.item r.ackId).isSome = true → ∃ t, exec (.drainAck id) s = .next t ∧ t.items = s.items ∧ ∃ q ∈ t.queue, q.ev = .drainAck id) ∧
      (s.item r.ackId = none → ∃ t, exec (.drainAck id) s = .next t ∧ t.item id = none ∧ t.mem = s.mem ∧
        (r.fault = 0 → t.buf r.core r.buf = Buf.empty) ∧
        (r.fault ≠ 0 → (t.buf r.core r.buf).st = .pending ∧ (t.buf r.core r.buf).elems = (s.buf r.core r.buf).elems ∧
          ((s.warp r.warp).live = true → ∃ y ∈ (t.warp r.warp).late, y.code = r.fault ∧ y.db = BitVec.ofNat 8 (0x80 + r.buf) ∧ y.addr = r.va)))) ∧
    (∀ r : ScldReq, s.item id = some (.scld r) →
      let ws := (r.writes.filter fun x => !r.lost.contains x.1).map Prod.snd
      (r.reads ≠ 0 ∨ s.clock < r.due → exec (.scldComplete id) s = .next s) ∧
      (r.reads = 0 → r.due ≤ s.clock → (ws.map Prod.fst).Nodup → ∃ t, exec (.scldComplete id) s = .next t ∧ t.item id = none ∧ t.mem = s.mem ∧ t.loc = s.loc ∧
        (∀ p ∈ ws, aget (t.core r.core).scale p.1 = some p.2) ∧
        ∀ k, (∀ p ∈ ws, p.1 ≠ k) → aget (t.core r.core).scale k = aget (s.core r.core).scale k))

/-! ### Copy and hook engines (spec/21) -/

/-- R328 to R344: engine records. A submitted record whose release is met and that finds room is judged: accepted, it goes to its engine and raises
its flag's count; refused, it makes a fault of its lane; either way the batch goes on. An accepted record reads its source, then puts its output
piece by piece, in an order that no rule gives and no statement chooses, into the scratch of a team whose generation stands, or at its home into
the written half of its view; when every write is acknowledged its view is published by bit 0 of the entry's byte 24, if it asks for that; then it
arrives at its barrier and sets its flag; one that fails leaves everything as it is but its flag. A copy's rows are the source's bytes, or its
transpose. -/
def Obligations.EngineRecordsAreDone : Prop :=
  ∀ (s s1 : State) (id : Nat), s.namesOk →
    let quietFlags : Prop := ∀ k m a, (s.fib k).wait ≠ .flags m a
    let flagged (t : State) (w k : Nat) (code : BitVec 8) : Prop := k < 12 → (s.warp w).live = true → s.liveMask w ≠ 0 → quietFlags →
      let f := (s.warp w).flag k
      let g := (t.warp w).flag k
      g.n = f.n - 1 ∧ (g.f = true ↔ f.f = true ∨ f.n ≤ 1) ∧ (g.er = true ↔ f.er = true ∨ code ≠ 0) ∧ (f.er = false → code ≠ 0 → g.code = code)
    (∀ (e : EngKind) (w l : Nat) (rec_ : BitVec 256) (src : Where_), s.items = [(id, .submit ⟨e, w, [(l, rec_)], src, []⟩)] → l < 32 →
      (s.warp w).live = true → (s.core (s.team (teamOf w)).core).wcb = [] → s.outs = [] →
      let x := engRec rec_
      let c := (s.team (teamOf w)).core
      (x.flg < 12 → ((s.warp w).flag x.flg).n < 255) →
      (∀ p, s.validateRec c (s.ctxOfWarp w) w e rec_ = (.ok p, s1) → ∃ t n j, exec (.engineRecordValidate id) s = .next t ∧
        (∀ y ∈ (t.warp w).holds, y.id ≠ id) ∧ t.item n = some (.engine j) ∧ j.kind = e ∧ j.recw = rec_ ∧ j.warp = w ∧ j.stage = 0 ∧ j.targets = p.targets ∧
        j.idx = p.idx ∧ j.srcPages = p.srcPages ∧ j.dstPages = p.dstPages ∧ (∃ q ∈ t.queue, q.ev = .engineRecordComplete n) ∧
        (x.flg < 12 → ((t.warp w).flag x.flg).n = ((s.warp w).flag x.flg).n + 1) ∧ t.mem = s.mem ∧ t.loc.gran = s.loc.gran) ∧
      (∀ code leaf addr, s.validateRec c (s.ctxOfWarp w) w e rec_ = (.error (code, leaf, addr), s1) → ∃ t f, exec (.engineRecordValidate id) s = .next t ∧
        Released t w id ∧ f ∈ (t.warp w).late ∧ f.code = code ∧ f.addr = addr ∧ f.undone = BitVec.twoPow 32 l ∧ t.mem = s.mem ∧
        t.loc.gran = s.loc.gran)) ∧
    (∀ j : EngJob, s.item id = some (.engine j) →
      let x := engRec j.recw
      let ev := Instr.engineRecordComplete id
      let secs := State.engSectors j x
      let i := s.choice j.runs.length
      let rest := j.runs.eraseIdx i
      let goesOn (t : State) (k : EngJob) : Prop := t.item id = some (.engine k) ∧ ∃ q ∈ t.queue, q.ev = ev
      let still (t : State) : Prop := t.mem = s.mem ∧ t.loc.gran = s.loc.gran
      let ends (t : State) (code : BitVec 8) : Prop := t.item id = none ∧ still t ∧ flagged t j.warp x.flg code
      (∀ code, ∃ t, exec (.engineRecordFail id code) s = .next t ∧ ends t code) ∧
      (j.stage = 0 → s.engGates j.ctx false (secs.map fun y => (32 * y.1, 32, y.2)) = [] →
        (∀ code, s.engRead j secs = (.error code, s1) → ∃ t, exec ev s = .next t ∧ ends t code) ∧
        (s.engRead j secs = (.ok s1, s1) → ∃ t runs, exec ev s = .next t ∧ still t ∧
          goesOn t { j with stage := 1, exs := (s1.engOutput j x).2, runs := runs } ∧
          (∀ r ∈ runs, ((if x.ds = 1 then x.dst else j.dbase) + r.1) % 128 + r.2.length ≤ 128 ∧ ∃ o ∈ (s1.engOutput j x).1,
            o.1 ≤ r.1 ∧ r.1 + r.2.length ≤ o.1 + o.2.length ∧ ∀ i < r.2.length, r.2.getD i 0 = o.2.getD (r.1 - o.1 + i) 0) ∧
          ∀ o ∈ (s1.engOutput j x).1, ∀ i < o.2.length, ∃ r ∈ runs, r.1 ≤ o.1 + i ∧ o.1 + i < r.1 + r.2.length)) ∧
      (j.stage = 1 → j.runs = [] → ∃ t, exec ev s = .next t ∧ still t ∧ goesOn t { j with stage := 2 }) ∧
      (∀ r d gen ph off, j.stage = 1 → j.runs[i]? = some r → x.ds = 1 → j.targets = [(d, gen, ph, off)] →
        let tm := s.team d
        let lands : Prop := tm.phase ≠ .retired ∧ (tm.grant.gen = gen ∨ gen ∈ tm.grant.accepted)
        ∃ t, exec ev s = .next t ∧ t.mem = s.mem ∧ goesOn t { j with runs := rest } ∧ (¬lands → t.loc.gran = s.loc.gran) ∧
          (lands → off + r.1 + r.2.length ≤ tm.scratch →
            (∀ m < tm.scratch, ∀ n < tm.scratch, m / 64 ≠ n / 64 → tm.scrGranule m ≠ tm.scrGranule n) →
            (∀ i < r.2.length, t.scrByte tm (off + r.1 + i) = r.2.getD i 0) ∧
            ∀ o < tm.scratch, (o < off + r.1 ∨ off + r.1 + r.2.length ≤ o) → t.scrByte tm o = s.scrByte tm o)) ∧
      (∀ r pa at_, j.stage = 1 → j.runs[i]? = some r → x.ds = 0 → State.engDst j r.1 = some (pa, at_) → s.memOk → Sound s →
        s.engGates j.ctx true [(pa, r.2.length, at_)] = [] → s.dieCut (State.engDie j.engine) pa = false → s.accxAt pa = false →
        (∀ y, s.codeFails j.ctx at_ y = false) → ∃ t a m, exec ev s = .next t ∧ t.memOk ∧ goesOn t { j with runs := rest, acks := j.acks ++ [a] } ∧
          t.item a = some (.ack m) ∧ m.lanes = [] ∧ (∀ i < r.2.length, mget t.mem (pa + i) = r.2.getD i 0) ∧
          ∀ b, (b < pa ∨ pa + r.2.length ≤ b) → mget t.mem b = mget s.mem b) ∧
      (j.stage = 2 ∨ j.stage = 3 →
        ((∃ a ∈ j.acks, (s.item a).isSome = true) → exec ev s = .next (s.later 8 ev)) ∧
        ((∀ a ∈ j.acks, s.item a = none) →
          (j.stage = 2 → x.pub = 1 → s.memOk → Sound s → s.bad = [] → s.dieCut (State.engDie j.engine) j.entry = false → ∃ t a m, exec ev s = .next t ∧ t.memOk ∧
            mget t.mem (j.entry + 24) = ((mget s.mem (j.entry + 24)) &&& 0xFE) ||| BitVec.ofNat 8 j.half ∧
            (∀ b, b ≠ j.entry + 24 → mget t.mem b = mget s.mem b) ∧ goesOn t { j with stage := 3, acks := [a] } ∧ t.item a = some (.ack m)) ∧
          (∀ d gen ph off, j.stage = 3 ∨ x.pub = 0 → j.targets = [] ∨ j.targets = [(d, gen, ph, off)] →
            let tm := s.team d
            let lands : Prop := j.targets ≠ [] ∧ tm.phase ≠ .retired ∧ (tm.grant.gen = gen ∨ gen ∈ tm.grant.accepted)
            let b := s.barrier d x.bar
            let ahead := (ph + BitVec.ofNat 32 x.ph - b.phase).toNat
            (j.targets ≠ [] → s.barTails d x.bar = []) → ∃ t, exec ev s = .next t ∧ ends t 0 ∧ (t.team (teamOf j.warp)).exsum = (s.team (teamOf j.warp)).exsum ||| j.exs ∧
              (¬lands → t.barrier d x.bar = b) ∧ (lands → ahead < 4 → t.barrier d x.bar = b.arrive ahead 1) ∧
              (lands → 4 ≤ ahead → t.barrier d x.bar = { b with ov := true }))))) ∧
    (∀ (j : EngJob), let x := engRec j.recw
      let srcRow (r : Nat) : List Byte := (List.range (srcRowBytes x)).map fun i => s.engByte j x (x.src + r * x.sstr + i)
      fieldsBad j.kind x = false →
      (j.kind = .tcopy ∨ j.kind = .tcast → x.t = 0 → s.engOutput j x = ((List.range x.rows).map fun r => (r * x.w5, srcRow r), 0)) ∧
      (j.kind = .hgath → s.engOutput j x = ((List.range x.rows).map fun i => (i * srcRowBytes x, srcRow (j.idx.getD i 0)), 0)) ∧
      (j.kind = .tcopy ∨ j.kind = .tcast → x.t = 1 → 2 ≤ x.es →
        let n := esBits x.es / 8
        s.engOutput j x = ((List.range x.cols).map fun c => (c * x.w5, (List.range (x.rows * n)).map fun i =>
          s.engByte j x (x.src + i / n * x.sstr + (c * n + i % n))), 0))) ∧
    (∀ (d : Dest) (l lr : Nat), s.item id = some (.flagq d [(l, lr)]) → (s.warp d.warp).live = true → s.accepts (s.team (teamOf d.warp)) d.gen = true →
      (let f := s.fib (fibKey d.warp l); f.floor ≤ lr / 16 * 16 ∧ lr / 16 * 16 < f.floor + 16 * f.nres) → l < 32 →
      ∃ t, exec (.longLatencyResult id (BitVec.allOnes 32) (BitVec.allOnes 16)) s = .next t ∧ t.item id = none ∧ t.mem = s.mem ∧
        (∀ k ∈ (t.warp d.warp).counters, k.id = d.cid → ∀ y ∈ k.vals, y.1 ≠ l) ∧
        ∀ k < 32, (t.logical d.warp l lr).getLsbD k = if k < 12 then ((s.warp d.warp).flag k).f
          else (decide (16 ≤ k) && decide (k < 28) && ((s.warp d.warp).flag (k - 16)).er))

/-! ### Pre-emption and debugging (spec/25, spec/13) -/

/-- R370 to R375, R379, R380, R406: a request for pre-emption while one is in progress, and any of a context that its function has not, does nothing;
with nothing to take off it is done at once; else each team named is taken off by its action. A drain that lasts too long becomes a save, a save
or restore handler that lasts 2^20 cycles ends its launch. A team to flush or save is held first; quiet, it retires where its fibres have all
ended; else it is thrown away and its index returns to its launch, or, where its slot can be written, the save handler is entered in every live
fibre; when every fibre is at its ERET and nothing of the team is open, MAGIC is written and the team leaves. A restore refuses what no slot
holds, and rebuilds the team of one that fits. The times at which it is done or tried again that no rule gives are the model's (log entry 24). -/
def Obligations.TeamsAreTakenOff : Prop :=
  ∀ (s u : State) (c tk slot : Nat) (all : Bool) (x : Launch) (act : Instr),
    let k := s.ctx c
    let tm := s.team tk
    let ends (t : State) : Prop := aget t.launches tm.launch = none ∨ ∃ y, aget t.launches tm.launch = some y ∧ y.ending = some 4
    let again (i : Instr) (d : Nat) : Prop := exec i s = .next (s.later d i)
    (c < 33 * 64 → k.preq.toNat / 2 ^ 32 % 256 = 1 ∨ s.ctxGranted c = false → exec (.preemptRequest c all) s = .next s) ∧
    (c < 33 * 64 → s.ctxGranted c = true → k.preq.toNat / 2 ^ 32 % 256 ≠ 1 → s.taken c all = [] → s.takingOff c = false → ∃ t, exec (.preemptRequest c all) s = .next t ∧
      (t.ctx c).preq.toNat = 2 ^ 33 + (if all then 2 else 0) ∧ t = { s with ctxs := t.ctxs } ∧ ∀ d, d ≠ c → t.ctx d = s.ctx d) ∧
    (c < 33 * 64 → s.ctxGranted c = true → k.preq.toNat / 2 ^ 32 % 256 ≠ 1 → s.taken c all = [tk] → tm.draining = false → ∃ t, exec (.preemptRequest c all) s = .next t ∧
      (s.actionFor tk < 3 → (t.team tk).draining = true ∧ t.mem = s.mem ∧ (⟨s.clock + (if s.actionFor tk = 0 then 65536 else 1),
        if s.actionFor tk = 0 then .drainTimeout tk else if s.actionFor tk = 1 then .teamFlush tk else .teamSave tk⟩ : Timed) ∈ t.queue) ∧
      (s.actionFor tk = 3 → aget s.launches tm.launch = some x → x.ending = none → ends t)) ∧
    (tm.phase = .retired ∨ tm.draining = false → exec (.drainTimeout tk) s = .next s ∧ exec (.teamFlush tk) s = .next s ∧
      exec (.teamSave tk) s = .next s) ∧
    (tm.phase ≠ .retired → tm.draining = true →
      ((s.ctx (s.ctxOfTeam tk)).savevec ≠ 0 → exec (.drainTimeout tk) s = .next (s.later 1 (.teamSave tk))) ∧
      ((s.ctx (s.ctxOfTeam tk)).savevec = 0 → aget s.launches tm.launch = some x → x.ending = none →
        ∃ t, exec (.drainTimeout tk) s = .next t ∧ ends t) ∧
      (s.quiet tk = false → tm.halts = [] → Unended s tk → ∀ i ∈ [Instr.teamFlush tk, Instr.teamSave tk], (i = .teamSave tk → tm.slot = none) →
        ∃ t h, exec i s = .next t ∧ (t.team tk).halts = [h] ∧ h.kind = .preempt ∧ h.phase = .stopping ∧ t.mem = s.mem ∧
          t.loc.gran = s.loc.gran ∧ ⟨s.clock + 16, i⟩ ∈ t.queue) ∧
      (s.quiet tk = true → s.mayRetire tk = true → (act = .teamFlush tk ∨ (act = .teamSave tk ∧ tm.slot = none)) →
        exec act s = .next (s.retire tk) ∧ ((s.retire tk).team tk).phase = .retired) ∧
      (s.quiet tk = true → s.mayRetire tk = false → aget s.launches tm.launch = some x → ∃ t y, exec (.teamFlush tk) s = .next t ∧ aget t.teams tk = none ∧
        aget t.launches tm.launch = some y ∧ y.undispatched = x.undispatched ++ [tm.teamid] ∧ t.mem = s.mem) ∧
      (s.quiet tk = true → s.mayRetire tk = false → tm.slot = none →
        ((s.ctx (s.ctxOfTeam tk)).savesz.toNat < tm.scratch + 0xE000 → again (.teamSave tk) 256) ∧
        (tm.scratch + 0xE000 ≤ (s.ctx (s.ctxOfTeam tk)).savesz.toNat → s.freeSlot (s.ctxOfTeam tk) = none → again (.teamSave tk) 256) ∧
        (tm.scratch + 0xE000 ≤ (s.ctx (s.ctxOfTeam tk)).savesz.toNat → s.freeSlot (s.ctxOfTeam tk) = some slot → s.saveInto tk slot = .ok u → tm.warps ≤ 32 →
          exec (.teamSave tk) s = .next u ∧ (u.team tk).slot = some slot ∧ (u.team tk).halts.head?.map Halt.phase = some .saving ∧
          (∀ i < tm.warps, ∀ l < 32, let f := s.fib (fibKey (warpKey tk i) l)
            let g := u.fib (fibKey (warpKey tk i) l)
            f.live = true → g.live = true ∧ g.wb = f.wb + 64 ∧ g.pc.toNat = (s.ctx (s.ctxOfTeam tk)).savevec.toNat % 2 ^ 54 ∧ g.word = 0 ∧ g.wait = .none)))) ∧
    (tm.halts = [] → exec (.saveHandlerTimeout tk) s = .next s) ∧
    (∀ h, tm.halts.head? = some h → h.phase = .saving ∨ h.phase = .restoring → h.ended = some (s.clock - 2 ^ 20) → 2 ^ 20 ≤ s.clock →
      s.allAtEret tk = false → aget s.launches tm.launch = some x → x.ending = none → ∃ t, exec (.saveHandlerTimeout tk) s = .next t ∧ ends t) ∧
    (∀ h rest, tm.halts = h :: rest → h.phase = .saving → tm.slot = some slot →
      (s.allAtEret tk = false → s.clock < h.ended.getD s.clock + 2 ^ 20 → exec (.saveHandlerTimeout tk) s = .next s) ∧
      (s.allAtEret tk = true → s.nothingDue tk = true → s.workOpen tk = false → s.allAcked tk = true → (∀ o ∈ s.outs, teamOf (o.fibre / 32) ≠ tk) →
        s.ctxWrite (dieOfCore tm.core) (s.ctxOfTeam tk) (teamTag tk) (s.slotAddr (s.ctxOfTeam tk) slot) (leBytes 4 0xB4C5) = .ok u →
        ∃ t, exec (.saveHandlerTimeout tk) s = .next t ∧ aget t.teams tk = none ∧ t.mem = u.mem ∧ (∀ j, j ≠ tk → t.team j = s.team j))) ∧
    (c < 33 * 64 → s.ctxGranted c = false → exec (.restoreRequest c slot) s = .next s) ∧
    (∀ n gs, c < 33 * 64 → s.ctxGranted c = true → ((∀ w, s.groupStatus c (s.slotGroup c slot) ≠ .wait w) ∧ s.saved = [] ∧ n = 1) ∨
        (s.groupStatus c (s.slotGroup c slot) = .ok (n, gs) ∧ 1 ≤ n ∧ n ≤ 3) →
      ∃ t, exec (.restoreRequest c slot) s = .next t ∧ (t.ctx c).rstat.toNat = 256 + n ∧ t = { s with ctxs := t.ctxs, items := t.items } ∧
        ∀ d, d ≠ c → t.ctx d = s.ctx d) ∧
    (∀ g core v, c < 33 * 64 → s.ctxGranted c = true → s.groupStatus c (s.slotGroup c slot) = .ok (0, [(g, core)]) → aget s.saved g.key = some v →
      (∀ p ∈ s.teams, p.2.phase ≠ .placed) →
      ((s.setCtx c { s.ctx c with rstat := 256 }).restoreTeam c g core).slotFrameFits s.nextTeam = true → ∃ t h, exec (.restoreRequest c slot) s = .next t ∧
      (t.ctx c).rstat.toNat = 256 ∧ t.mem = s.mem ∧ (t.team s.nextTeam).phase ≠ .retired ∧ (t.team s.nextTeam).core = core ∧
      (t.team s.nextTeam).teamid = v.team.teamid ∧ (t.team s.nextTeam).launch = v.team.launch ∧ (t.team s.nextTeam).alloc = v.team.alloc ∧
      (t.team s.nextTeam).halts.head? = some h ∧ h.kind = .preempt ∧ h.phase = .restoring)

/-- R213, R382: the debug port. A raw read gives a granule's tag and words, a view read what its grant reads, a write of eight bytes changes those as
the grant reads them and no others; a granule that is not the grant's is refused, one of a core that the package lacks (R8, R11) is no such
access. DBGCTL takes its bits; with HALT, TGT and ATT it stops the running team it names at once. -/
def Obligations.DebugPortReadsAndWrites : Prop :=
  ∀ (s : State) (core g tk b c : Nat) (data val : DWord),
    let tm := s.team tk
    let at_ := tm.core * 16384 + g
    let word (t : State) (i : Nat) : Nat := t.port.data.toNat / 2 ^ (32 * i) % 2 ^ 32
    let only (t : State) : Prop := t = { s with port := t.port }
    let mine : Prop := tm.phase ≠ .retired ∧ assigned tm g = true
    (core < 1024 → core % 64 < s.liveCores (core / 64) → g < 16384 → ∃ t, exec (.debugRawRead core g) s = .next t ∧ only t ∧ t.port.ok = true ∧
      t.port.tag = (s.granule (core * 16384 + g)).tag ∧ ∀ i (hi : i < 16), word t i = ((s.granule (core * 16384 + g)).data[i]).toNat) ∧
    (1024 ≤ core ∨ s.liveCores (core / 64) ≤ core % 64 ∨ 16384 ≤ g → exec (.debugRawRead core g) s = .fault .noSuchUnit) ∧
    (∃ t, exec (.debugViewRead tk g) s = .next t ∧ only t ∧ (¬mine → t.port.ok = false) ∧
      (mine → t.port.ok = true ∧ t.port.tag = (s.granule at_).tag ∧ ∀ i < 16, word t i = ((s.granule at_).read tm.grant.gen i).toNat)) ∧
    (∃ t, exec (.debugWrite tk g b data) s = .next t ∧ t.mem = s.mem ∧ t.teams = s.teams ∧ t.loc.fibres = s.loc.fibres ∧
      (¬mine ∨ 64 < b + 8 → only t ∧ t.port.ok = false) ∧
      (mine → b + 8 ≤ 64 → t.port.ok = true ∧ (t.granule at_).tag = tm.grant.gen ∧ (∀ k, k ≠ at_ → t.granule k = s.granule k) ∧
        ∀ o < 64, ((t.granule at_).byte tm.grant.gen o).toNat =
          if b ≤ o ∧ o < b + 8 then data.toNat / 2 ^ (8 * (o - b)) % 256 else ((s.granule at_).byte tm.grant.gen o).toNat)) ∧
    (c < 33 * 64 → s.ctxGranted c = false → exec (.debugHalt c val) s = .next s) ∧
    (c < 33 * 64 → s.ctxGranted c = true → ∃ t, exec (.debugHalt c val) s = .next t ∧ (t.ctx c).dbgctl = val &&& 0xE3FF0000FFFFFFFF ∧ t.mem = s.mem ∧ t.loc.gran = s.loc.gran ∧
      (val.getLsbD 62 = false → t.teams = s.teams ∧ t.loc = s.loc) ∧
      (val.getLsbD 62 = true → s.teams = [(tk, tm)] → tm.phase = .running → tm.teamid = val.toNat % 2 ^ 32 → tm.halts = [] → Unended s tk →
        ((aget s.launches tm.launch).map Launch.ctx) = some c → tm.warps ≤ 32 → (∃ i < tm.warps, s.liveMask (warpKey tk i) ≠ 0) →
        ∃ h, (t.team tk).halts = [h] ∧ h.kind = .debug ∧ h.phase = .stopping ∧ h.code = 0x32 ∧ h.swcode = 0xFF ∧ h.warp < tm.warps ∧
          (∀ i < h.warp, s.liveMask (warpKey tk i) = 0) ∧ ∃ q ∈ t.queue, q.ev = .faultRecordWrite tk))

/-! ### The host port, peers, firmware (spec/28, spec/29, spec/30) -/

/-- R410 to R416: the host's reads give the granule's bytes, where it can be read, and leave it S or O, or H; its writes put 64 bytes there and leave
it I, but for an ACCX range, which they do not change; an address outside device memory is no such access. A response applies the host's data and,
where the leaf is tracked, lets the agent hold the line; a refused translation is permission for the lanes of a read, an access made within a step
finds the refusal when it is tried again. A snoop takes the line from the agent. A bias flip ends with its outcome in BSTAT. -/
def Obligations.HostAccessesAreServed : Prop :=
  ∀ (s : State) (pa id fn : Nat) (data : Gran) (val : DWord) (w : HostWait), s.memOk → Sound s → (s.contracts.map Contract.id).Nodup →
    let g := pa / 64
    let got := s.homeFetch (64 * g) 64 (s.pageClass pa) s.bad.contains
    let granule (t : State) (g : Nat) (d : Gran) : Prop := (∀ k < 64, (mget t.mem (64 * g + k)).toNat = d.toNat / 2 ^ (8 * k) % 256) ∧
      ∀ a, (a < 64 * g ∨ 64 * g + 64 ≤ a) → mget t.mem a = mget s.mem a
    let reads (i : Instr) (next : MbState) : Prop := ∃ t, exec i s = .next t ∧ t.mem = s.mem ∧ t.loc = s.loc ∧
      (got.2 = none → t.port.ok = true ∧ t.port.data.toNat = s.homeRd (64 * g) 64 ∧ (s.inWindow pa = true → t.mbState g = next)) ∧
      (∀ code, got.2 = some code → t.port.ok = false ∧ t.port.tag.toNat = code.toNat)
    (regionOf pa = .device → reads (.memrdShared pa) (got.1.sOrO g) ∧ reads (.memrdExclusive pa) .h ∧
      (s.accxAt pa = false → ∃ t, exec (.memwr pa data) s = .next t ∧ granule t g data ∧ t.memOk ∧ t.loc = s.loc ∧
        (s.inWindow pa = true → t.mbState g = .i)) ∧
      (s.deviceSide pa = true → s.accxAt pa = true → ∃ t, exec (.memwr pa data) s = .next t ∧
        t = { s with log := t.log, mbox := t.mbox, port := t.port })) ∧
    (regionOf pa ≠ .device → exec (.memrdShared pa) s = .fault .noSuchUnit ∧ exec (.memrdExclusive pa) s = .fault .noSuchUnit ∧
      exec (.memwr pa data) s = .fault .noSuchUnit) ∧
    (s.item id = some (.host w) → s.item w.inner = none → s.accxAt (64 * w.ask.line) = false →
      (s.hostSide (64 * w.ask.line) = false →
        (∃ t, exec (.birsp id (some data)) s = .next t ∧ t.item id = none ∧ granule t w.ask.line data ∧ t.loc = s.loc ∧
          (w.ask.excl = true → t.mbState w.ask.line = .i)) ∧
        ∃ t, exec (.birsp id none) s = .next t ∧ t.item id = none ∧ t.mem = s.mem ∧ t.loc = s.loc) ∧
      (s.inWindow (64 * w.ask.line) = false → w.refused = none →
        ∃ t, exec (.cxlCacheResponse id false (some data)) s = .next t ∧ granule t w.ask.line data ∧ t.loc = s.loc ∧
          t.item id = (if w.inner = 0 then some (.host { w with refused := some false }) else none) ∧
          (w.ask.tracked = true → t.agentHolds w.ask.fn w.ask.line w.ask.excl = true) ∧
          (w.ask.tracked = false → t.hostLines = s.hostLines))) ∧
    (s.item id = some (.host w) → s.inWindow (64 * w.ask.line) = false → w.refused = none → w.inner = 0 →
      exec (.cxlCacheResponse id true none) s = .next (s.putItem id (.host { w with refused := some true }))) ∧
    (∀ r : ReadReq, s.item id = some (.host w) → s.inWindow (64 * w.ask.line) = false → w.refused = none → w.inner ≠ 0 → w.inner ≠ id → s.item w.inner = some (.read r) → (s.warp r.dest.warp).live = true → r.lanes ≠ [] →
      ∃ t f, exec (.cxlCacheResponse id true none) s = .next t ∧ t.item id = none ∧ t.item w.inner = none ∧ f ∈ (t.warp r.dest.warp).late ∧
        f.code = 0x11 ∧ f.undone = maskOf (r.lanes.map LoadLane.lane) ∧ t.mem = s.mem ∧ t.loc.gran = s.loc.gran) ∧
    exec (.hostSnoop pa) s = .next { s with hostLines := s.hostLines.filter fun x => x.2.1 != g } ∧
    (fn < 33 → ∀ toHost : Bool,
      let i : Instr := if toHost then .biasFlipToHost fn val else .biasFlipToDevice fn val
      let p := val.toNat / 2 ^ 16 % 2 ^ 36
      ∃ t, exec i s = .next t ∧ t.mem = s.mem ∧ t.loc = s.loc ∧
        (∀ code, biasStop s fn val toHost = some code → (t.func fn).bstat.toNat = 256 + code ∧ t = { s with funcs := t.funcs }) ∧
        (biasStop s fn val toHost = none → (t.func fn).bstat.toNat = 256 ∧
          (toHost = true → p ∈ t.hostBias ∧ ∀ x ∈ t.reserve, x.line / 65536 ≠ p) ∧
          (toHost = false → p ∉ t.hostBias ∧ ∀ x ∈ t.hostLines, x.2.1 / 1024 ≠ p))) ∧
    (33 ≤ fn → exec (.biasFlipToHost fn val) s = .fault .noSuchUnit ∧ exec (.biasFlipToDevice fn val) s = .fault .noSuchUnit)

/-- R391, R402, R418 to R420, R431: an access of a peer outside device memory is answered with permission, in a lost range with residency-lost; else a
read answers with the bytes, a write changes its bytes and no others, an atomic puts its new value and answers with the old, an accumulation adds
as a core's does, and a tile does so element by element; with the answer go the exception bits. A retried flit only adds to the log; a failed link
and an unreachable peer are remembered. -/
def Obligations.PeersAndLinks : Prop :=
  ∀ (s : State) (peer pa n a b : Nat) (bs : List Byte) (op : AtomOp) (wide : Bool) (v c x : DWord) (xs : List DWord) (kd : AccKind), s.memOk → (s.contracts.map Contract.id).Nodup →
    let acts : List PeerAct := [.read pa n, .write pa bs, .rmw op wide pa v c, .acc kd pa x, .tile kd pa xs]
    let wd := kd == .acc64
    let e := if wd then 8 else 4
    let f := if wd then fp64 else fp32
    let code (t : State) (k : Nat) : Prop := t.port.ok = decide (k = 0) ∧ t.port.tag = BitVec.ofNat 16 k
    -- the answer stands at the port, or goes there once the accesses that it must follow are performed (R250)
    let answers (t : State) (d : Nat) : Prop := (code t 0 ∧ t.port.data.toNat = d) ∨
      ∃ id gate y, t.item id = some (.port gate y) ∧ y.ok = true ∧ y.tag = 0 ∧ y.data.toNat = d
    let clean : Prop := Sound s ∧ s.bad = []
    (∀ y ∈ acts, (regionOf pa ≠ .device → ∃ t, exec (.peerRequest peer y) s = .next t ∧ code t 0x11 ∧ t = { s with port := t.port }) ∧
      (regionOf pa = .device → s.lostAt pa = true → ∃ t, exec (.peerRequest peer y) s = .next t ∧ code t 0x13 ∧ t = { s with port := t.port })) ∧
    (regionOf pa = .device → s.lostAt pa = false →
      ((s.homeFetch pa n (s.pageClass pa) s.bad.contains).2 = none → n ≤ 128 → ∃ t, exec (.peerRequest peer (.read pa n)) s = .next t ∧ code t 0 ∧
        t.port.data.toNat = s.homeRd pa n ∧ t.mem = s.mem ∧ t.loc = s.loc) ∧
      (clean → (∀ k, s.accxAt k = false) →
        (∃ t, exec (.peerRequest peer (.write pa bs)) s = .next t ∧ answers t 0 ∧ t.memOk ∧ t.loc = s.loc ∧
          (∀ k < bs.length, mget t.mem (pa + k) = bs.getD k 0) ∧ ∀ k, (k < pa ∨ pa + bs.length ≤ k) → mget t.mem k = mget s.mem k) ∧
        ∃ t, exec (.peerRequest peer (.rmw op wide pa v c)) s = .next t ∧
          (∃ e : Exs, answers t (s.rd pa (if wide then 8 else 4) + e.toNat * 2 ^ 64)) ∧ t.loc = s.loc ∧
          (wide = false → ∃ m : BitVec 32, Stores s t pa 4 m.toNat ∧
            AtomNew fp32 op (BitVec.ofNat 32 (s.rd pa 4)) (v.setWidth 32) (c.setWidth 32) m) ∧
          (wide = true → ∃ m : BitVec 64, Stores s t pa 8 m.toNat ∧ AtomNew fp64 op (BitVec.ofNat 64 (s.rd pa 8)) v c m)) ∧
      (s.accxAt pa = true → (∀ y ∈ acts.take 3, (∀ m, y ≠ .read pa m) → ∃ t, exec (.peerRequest peer y) s = .next t ∧ code t 0x14 ∧
        t = { s with port := t.port })) ∧
      (∀ k, clean → s.accxAt pa = true → kd = .accx → s.accRefused (homeDie pa * 256) pa kd = none → k = accxConvert (x.toNat % 2 ^ 32) →
        ∃ t, exec (.peerRequest peer (.acc kd pa x)) s = .next t ∧ answers t k.2.toNat ∧ t.mem = s.mem ∧
          aget t.accx (pa / 4) = some (s.accxElem pa + BitVec.ofInt 128 k.1)) ∧
      (∀ k, s.accRefused (homeDie pa * 256) pa kd = some k → ∃ t, exec (.peerRequest peer (.acc kd pa x)) s = .next t ∧ code t k.toNat ∧
        t = { s with port := t.port }) ∧
      (clean → (∀ y ∈ xs, wd = false → y.toNat < 2 ^ 32) → kd ≠ .accx →
        (∀ i < xs.length, s.accRefused (homeDie (pa + e * i) * 256) (pa + e * i) kd = none) →
        ∃ t d, exec (.peerRequest peer (.tile kd pa xs)) s = .next t ∧ answers t d ∧ t.memOk ∧
          (∀ i < xs.length, ∀ k < e, (mget t.mem (pa + e * i + k)).toNat =
            (fAdd f (f.value (s.rd (pa + e * i) e)) (f.value (xs.getD i 0).toNat)).1 / 2 ^ (8 * k) % 256) ∧
          ∀ k, (k < pa ∨ pa + e * xs.length ≤ k) → mget t.mem k = mget s.mem k)) ∧
    exec (.linkRetry n) s = .next { s with log := s.log ++ [⟨s.clock, .dieLink, [n]⟩] } ∧
    (a < 4 → b < 4 → a ≠ b → a ^^^ b ≠ 3 → ∃ t, exec (.dieLinkFailure a b) s = .next t ∧ (a, b) ∈ t.deadLinks ∧
      t = { s with deadLinks := t.deadLinks, log := t.log } ∧ (∀ p ∈ s.deadLinks, p ∈ t.deadLinks)) ∧
    (4 ≤ a ∨ 4 ≤ b ∨ a = b ∨ a ^^^ b = 3 → exec (.dieLinkFailure a b) s = .fault .noSuchUnit) ∧
    exec (.peerUnreachable peer) s = .next { s with deadPeers := s.deadPeers ++ [peer], log := s.log ++ [⟨s.clock, .ossel, [peer]⟩] }

/-- R185, R245, R356, R376, R382, R405 to R407, R423, R436: a register write of 8 bytes, or of one half, sets the writable bits of the queue, function
or context register it names and nothing else; a write that holds TAIL, a queue's configuration, FACK, RSLOT, or a GO, does what the register's
own rule says; a misaligned one, one of a zero area, one of an enabled queue's rings and one of a context that is not granted do nothing, and a
misaligned read, one of a zero area and one of such a context gives zero. ALIAS_CLEAR makes DBLMAP 0. The function-level reset disables the
function's queues, zeroes its context blocks but for their virtual die tables, and drops their cached translations. -/
def Obligations.RegistersAreWritten : Prop :=
  ∀ (s : State) (fn off : Nat) (wide : Bool) (val : DWord),
    let i := Instr.registerWrite fn off wide val
    let q := off / 64
    let x := s.queueOf fn q
    let half (old : DWord) : Nat := if wide then val.toNat else if off % 8 = 4 then val.toNat % 2 ^ 32 * 2 ^ 32 + old.toNat % 2 ^ 32
      else old.toNat / 2 ^ 32 * 2 ^ 32 + val.toNat % 2 ^ 32
    let c := fn * 64 + (off - 0x10000) / 0x400
    let r := (off - 0x10000) % 0x400 / 8 * 8
    let hi : Prop := wide = true ∨ off % 8 = 4
    let lo : Prop := wide = true ∨ off % 8 = 0
    let granted : Prop := ∃ g, (s.func fn).grant = some g ∧ (off - 0x10000) / 0x400 < g.ctxn
    (fn < 33 →
      (off % (if wide then 8 else 4) ≠ 0 → exec i s = .next s ∧ s.registerRead fn off wide = 0) ∧
      ((0x1040 ≤ off ∧ off < 0x10000) ∨ 0x20000 ≤ off ∨ (0x10000 ≤ off ∧ off < 0x20000 ∧ ¬granted) → exec i s = .next s ∧ s.registerRead fn off wide = 0) ∧
      (off % (if wide then 8 else 4) = 0 → off < 0x1000 → 2 ≤ off % 64 / 8 →
        (off % 64 / 8 = 2 → hi → exec i s = exec (.tailWrite fn q (BitVec.ofNat 32 (half 0 / 2 ^ 32))) s) ∧
        (off % 64 / 8 = 3 → hi → exec i s = .next (s.configQueue fn q (BitVec.ofNat 64 (half (queueWord x 3))))) ∧
        (¬hi ∨ 4 ≤ off % 64 / 8 → exec i s = .next s)) ∧
      (off % (if wide then 8 else 4) = 0 → 0x1000 ≤ off → off < 0x1040 →
        let r := (off - 0x1000) / 8 * 8
        let w : DWord := BitVec.ofNat 64 (half (s.funcWord fn r))
        (r ≠ 0x08 → r ≠ 0x10 → exec i s = .next s) ∧
        (r = 0x08 → w.getLsbD 63 = true → exec i s = exec (.abortLaunch fn (w.toNat / 2 ^ 56 % 64) (BitVec.ofNat 32 w.toNat)) s) ∧
        (r = 0x10 → w.getLsbD 63 = true → exec i s = exec (if w.getLsbD 62 then .biasFlipToDevice fn w else .biasFlipToHost fn w) s) ∧
        (w.getLsbD 63 = false → ∃ t, exec i s = .next t ∧ t = { s with funcs := t.funcs } ∧ (∀ j, j ≠ fn → t.func j = s.func j) ∧
          (r = 0x10 → t.func fn = { s.func fn with bias := w }) ∧
          (r = 0x08 → (s.func fn).abort.toNat / 2 ^ 32 % 4 ≠ 1 →
            t.func fn = { s.func fn with abort := (t.func fn).abort } ∧ (t.func fn).abort.toNat % 2 ^ 32 = w.toNat % 2 ^ 32 ∧
              (t.func fn).abort.toNat / 2 ^ 56 % 64 = w.toNat / 2 ^ 56 % 64 ∧
              (t.func fn).abort.toNat / 2 ^ 32 % 4 = (s.func fn).abort.toNat / 2 ^ 32 % 4))) ∧
      (off % (if wide then 8 else 4) = 0 → 0x10000 ≤ off → off < 0x20000 → granted →
        (r = 0x28 → lo → exec i s = exec (.fackWrite c (BitVec.ofNat 32 (half 0))) s) ∧
        (r = 0x38 → lo → (s.ctx c).preq.toNat / 2 ^ 32 % 256 ≠ 1 → val.getLsbD 0 = true → exec i s = exec (.preemptRequest c (val.getLsbD 1)) s) ∧
        (r = 0x70 → lo → exec i s = exec (.restoreRequest c (half 0 % 2 ^ 32)) s) ∧
        (r = 0x88 → hi → exec i s = exec (.debugHalt c (BitVec.ofNat 64 (half (s.ctx c).dbgctl))) s)) ∧
      (off % (if wide then 8 else 4) = 0 → off < 0x1000 → off % 64 / 8 < 2 → ∃ t, exec i s = .next t ∧ t = { s with queues := t.queues } ∧
        (∀ j, j ≠ fn * 64 + q → aget t.queues j = aget s.queues j) ∧ (x.en = true → t = s) ∧
        (x.en = false → off % 64 / 8 = 0 → let y := t.queueOf fn q
          y.ring.toNat = half x.ring / 128 * 128 ∧ y = { x with ring := y.ring }) ∧
        (x.en = false → off % 64 / 8 = 1 → let y := t.queueOf fn q
          y.cring.toNat = half x.cring / 64 * 64 ∧ y = { x with cring := y.cring })) ∧
      (off % (if wide then 8 else 4) = 0 → 0x10000 ≤ off → off < 0x20000 → r ≠ 0x28 → r ≠ 0x38 → r ≠ 0x70 → r ≠ 0x88 →
        ∃ t, exec i s = .next t ∧ t = { s with ctxs := t.ctxs, tlbs := t.tlbs } ∧ (∀ d, d ≠ c → t.ctx d = s.ctx d) ∧
        (granted → r = 0x60 → (t.ctx c).savevec.toNat = half (s.ctx c).savevec % 2 ^ 54 ∧ t.tlbs = s.tlbs) ∧
        (granted → r = 0x30 → (t.ctx c).trapvec.toNat = half (s.ctx c).trapvec % 2 ^ 54) ∧
        (granted → r = 0x48 → (t.ctx c).saveb.toNat = half (s.ctx c).saveb / 4096 * 4096) ∧
        (granted → r = 0x58 → (t.ctx c).nslot.toNat = half (s.ctx c).nslot % 2 ^ 16) ∧
        (granted → r = 0x20 → (t.ctx c).fhead.toNat = half ((s.ctx c).fhead ++ (s.ctx c).ftail) / 2 ^ 32 ∧ (t.ctx c).ftail = (s.ctx c).ftail) ∧
        (granted → r = 0x00 → (t.ctx c).troot = BitVec.ofNat 64 (half (s.ctx c).troot) &&& 0x800FFFFFFFFFF01F ∧ ∀ y ∈ t.tlbs, y.ctx ≠ c)) ∧
      (∃ t, exec (.functionLevelReset fn) s = .next t ∧ (∀ j < 64, (t.queueOf fn j).en = false) ∧
        (∀ j < 64, (aget s.ctxs (fn * 64 + j)).isSome = true → let k := s.ctx (fn * 64 + j)
          t.ctx (fn * 64 + j) = { Ctx.reset with vdt := k.vdt, vdtNext := k.vdtNext }) ∧ (∀ y ∈ t.tlbs, y.ctx / 64 ≠ fn))) ∧
    (33 ≤ fn → exec i s = .fault .noSuchUnit ∧ exec (.functionLevelReset fn) s = .fault .noSuchUnit) ∧
    (fn < 33 * 64 → s.ctxGranted fn = false → exec (.aliasClear fn) s = .next s) ∧
    (fn < 33 * 64 → s.ctxGranted fn = true →
      ∃ t, exec (.aliasClear fn) s = .next t ∧ t = { s with ctxs := t.ctxs } ∧ (∀ d, d ≠ fn → t.ctx d = s.ctx d) ∧ (t.ctx fn).dblmap = 0 ∧
        t.ctx fn = { s.ctx fn with dblmap := 0 }) ∧
    (33 * 64 ≤ fn → exec (.aliasClear fn) s = .fault .noSuchUnit)

/-- R392, R393, R407, R421, R422, R426 to R432: what trusted firmware and the Needle do. A virtual die table is taken where it keeps its rules, at
once or once its context has no team on a core; a grant within its limits, with which the function's cached translations go, and every function's
where the window moves, and key slots of a function without launch and contract, are set; a reset is State.reset with the harvest map of good
blocks and memory as it was (log entries 30 and 88); an image is staged where its signature and version hold; the clock falls and rises by steps
of 100 MHz between 1,200 and 2,000; a shutdown ends the launch that is there. The times at which it is done or tried again that no rule gives are
the model's (log entry 24). -/
def Obligations.FirmwareActs : Prop :=
  ∀ (s : State) (c fn slot key : Nat) (val : DWord) (g : GrantRec) (bl : ConfigBlocks) (img : FirmwareImage),
    let k := s.ctx c
    let least := if img.root then s.firmware.minRoot else s.firmware.minMain
    let mapOk : Prop := (∀ h ∈ bl.harvest, h.1 < 16 ∧ h.2 < 48) ∧ ∀ cl < 16, (bl.harvest.eraseDups.filter fun h => h.1 == cl).length ≤ 2
    let taken : Prop := bl.signed = true ∧ bl.bound = true ∧ mapOk
    (33 * 64 ≤ c → exec (.vdtWrite c val) s = .fault .noSuchUnit) ∧
    (c < 33 * 64 → vdtOk val = true → ∃ t, exec (.vdtWrite c val) s = .next t ∧ t = { s with ctxs := t.ctxs, queue := t.queue } ∧
      (hasTeams s c = true → t.ctx c = { k with vdtNext := some (val &&& 0xFFFFFFFFBFBFBFBF) } ∧ ⟨s.clock + 1, .vdtApply c⟩ ∈ t.queue) ∧
      (hasTeams s c = false → t.ctx c = { k with vdt := val &&& 0xFFFFFFFFBFBFBFBF, vdtNext := none })) ∧
    (c < 33 * 64 → vdtOk val = false → exec (.vdtWrite c val) s = .next s) ∧
    (k.vdtNext = none → exec (.vdtApply c) s = .next s) ∧
    (k.vdtNext = some val → (hasTeams s c = true → exec (.vdtApply c) s = .next (s.later 64 (.vdtApply c))) ∧
      (hasTeams s c = false → ∃ t, exec (.vdtApply c) s = .next t ∧ t.ctx c = { k with vdt := val, vdtNext := none } ∧
        t = { s with ctxs := t.ctxs, queue := t.queue })) ∧
    (fn < 33 → grantOk g = true → ∃ t, exec (.grantSet fn g) s = .next t ∧ (t.func fn).grant = some g ∧
      (t.func fn).fstat.toNat = (g.ctxn * 256 + g.pod) % 2 ^ 64 ∧ (∀ j, j ≠ fn → t.func j = s.func j) ∧
      (∀ y ∈ t.tlbs, y ∈ s.tlbs ∧ y.ctx / 64 ≠ fn) ∧ (t.mbOn = s.mbOn → t.mbbase = s.mbbase → t.mbox = s.mbox ∧ ∀ y ∈ s.tlbs, y.ctx / 64 ≠ fn → y ∈ t.tlbs) ∧
      (t.mbOn ≠ s.mbOn ∨ t.mbbase ≠ s.mbbase → t.tlbs = [] ∧ t.mbox = []) ∧
      (∀ base host, g.window = some (base, host) → t.mbOn = true ∧ t.mbbase = BitVec.ofNat 64 base ∧ t.mbhost = host) ∧
      t = { s with funcs := t.funcs, mbbase := t.mbbase, mbhost := t.mbhost, mbOn := t.mbOn, mbox := t.mbox, tlbs := t.tlbs, pod := g.pod,
                   peerRanges := g.peerRanges }) ∧
    (fn < 33 → grantOk g = false → exec (.grantSet fn g) s = .next s) ∧
    (33 ≤ fn → exec (.grantSet fn g) s = .fault .noSuchUnit) ∧
    (fn < 33 → slot < 16 → (∀ l ∈ s.launches, l.2.fn ≠ fn) → (∀ y ∈ s.contracts, y.ctx / 64 ≠ fn) → ∃ t, exec (.keySlotWrite fn slot key) s = .next t ∧
      (slot, key) ∈ (t.func fn).keys ∧ (∀ p, p.1 ≠ slot → (p ∈ (t.func fn).keys ↔ p ∈ (s.func fn).keys)) ∧ t = { s with funcs := t.funcs }) ∧
    (fn < 33 → slot < 16 → (∃ l ∈ s.launches, l.2.fn = fn) ∨ (∃ y ∈ s.contracts, y.ctx / 64 = fn) → exec (.keySlotWrite fn slot key) s = .next s) ∧
    (33 ≤ fn ∨ 16 ≤ slot → exec (.keySlotWrite fn slot key) s = .fault .noSuchUnit) ∧
    (∃ t, exec (.deviceReset bl) s = .next t ∧ t.mem = s.mem ∧ t.loc = State.reset.loc ∧ t.teams = [] ∧ t.cores = [] ∧ t.launches = [] ∧ t.queues = [] ∧
      t.ctxs = [] ∧ t.funcs = [] ∧ t.items = [] ∧ t.outs = [] ∧ t.rows = [] ∧ t.tlbs = [] ∧ t.contracts = [] ∧ t.clock = 0 ∧
      (t.firmware.recovery = true ↔ ¬(taken ∧ bl.imagesOk = true)) ∧ (taken → t.harvest = bl.harvest) ∧ (¬taken → t.harvest = s.harvest)) ∧
    (img.signed = true ∧ least ≤ img.version → ∃ t, exec (.firmwareUpdateStage img) s = .next t ∧ img ∈ t.firmware.staged ∧
      t = { s with firmware := t.firmware } ∧ t.firmware = { s.firmware with staged := t.firmware.staged }) ∧
    (img.signed = false ∨ img.version < least → exec (.firmwareUpdateStage img) s = .next s) ∧
    (∃ t, exec .thermalThrottle s = .next t ∧ t.firmware.mhz = Max.max 1200 (s.firmware.mhz - 100) ∧ t = { s with firmware := t.firmware, log := t.log }) ∧
    (∃ t, exec .clockRestore s = .next t ∧ t.firmware.mhz = Min.min 2000 (s.firmware.mhz + 100) ∧ t = { s with firmware := t.firmware }) ∧
    (∃ t, exec .thermalShutdown s = .next t ∧ t.firmware.shut = true ∧ ∀ n x, aget s.launches n = some x → x.ending = none →
      s.launches = [(n, x)] → aget t.launches n = none ∨ ∃ y, aget t.launches n = some y ∧ y.ending = some 5)

/-! ### Decoding, stepping, reset, invariants (spec/03, spec/04) -/

/-- R29 to R36, R41, R179, R198: a step runs the decoded instruction. Where the outside has laid nothing on the agenda, no warp starves, needs a
packet or has a word that waits, the warp that the port takes has a batch that may issue, its packet is in hand, and the batch stands at a group
of one word that decodes, then the step is exec of that instruction in the machine whose lanes already stand past the group, and then what issue
adds: the counters and times of a group that has issued; nothing but the time of the trap, and that the port is taken, where the word trapped
precisely. A word that cannot issue changes nothing but what it asked for meanwhile. The completions of engine records that are due come before
the groups of a cycle, after the groups its other events come, each run as it is, and then cycles pass; a packet that a warp needs is asked for
first, and what the outside lays on the agenda is done before all. The order within a cycle is the model's (log entry 6). -/
def Obligations.StepRunsTheDecodedInstruction : Prop :=
  (∀ (s : State) (c w l : Nat) (m : Mask) (ws : List Nat) (i : Instr), s.agenda = [] → s.evPhase = false → s.arrivalDue = none → s.tails = [] →
    (∀ v ∈ s.allWarps, s.starved v = false ∧ s.wantsFetch v = none) → s.busyCores.head? = some c → (s.warpsOn c).filter s.canTry = [w] →
    (s.team (teamOf w)).core = c → s.replayOf w = none → (s.candidates w).head? = some (l, m) → (lanesOf m).head? = some l →
    let f := s.fib (fibKey w l)
    let place := nextPlace ws f.pc f.word
    (s.warp w).packet f.pc = some ws → groupLength ws f.word = 1 → decodeWord f.word (ws.getD f.word 0) = .ok i →
    (s.team (teamOf w)).halts = [] → (s.team (teamOf w)).spawned = false → s.breakHit w m f.pc f.word 1 = none →
    (∀ h ∈ (s.warp w).holds, h.id < s.nextId) →
    let got := latchGroup w f.wb (s.team (teamOf w)).alloc s.clock [i] (s.core c).latch
    let iss : Issue := { Issue.none_ with warp := w, lanes := m, pc := f.pc, ws := ws, first := f.word, word := f.word, cyc := readCycles f.wb got.1 }
    let u : State := { s with pre := s.loc, iss := iss }
    let g := (u.setCore c { s.core c with latch := got.2 }).sendTo w (lanesOf m) place.1 place.2
    (∀ r, exec i g = .fault r → step s = .fault r) ∧ ∀ t, exec i g = .next t →
      (t.iss.stop = true → ∀ u, s.blockedWork t c = some u → step s = .next u) ∧
      (t.iss.stop = false → g.newPrecise t w = true →
        step s = .next (((t.setWarp w { t.warp w with lastIssue := s.clock }).setCore c { t.core c with issueUntil := s.clock + iss.cyc }).forgetAnswers w)) ∧
      (t.iss.stop = false → g.newPrecise t w = false → t.watchHit g [i] = none →
        step s = .next (t.finishGroup g w m f.pc f.word [i] false))) ∧
  (∀ (s : State) (i : Instr) (rest : List Act), s.agenda = .ev i :: rest → State.isWord i = false → step s = exec i { s with agenda := rest }) ∧
  (∀ (s : State) (x : Timed), s.agenda = [] → s.evPhase = false → s.arrivalDue = some x → step s = exec x.ev { s with queue := s.queue.erase x }) ∧
  (∀ (s : State) (w : Nat) (pc : Pc), s.agenda = [] → s.evPhase = false → s.arrivalDue = none → (∀ v ∈ s.allWarps, s.starved v = false) →
    (s.allWarps.findSome? fun v => (s.wantsFetch v).map fun p => (v, p)) = some (w, pc) → step s = .next (s.later 0 (.instructionFetch w pc))) ∧
  (∀ (s : State), s.agenda = [] → (s.evPhase = true ∨ (s.arrivalDue = none ∧ s.tails = [] ∧ ∀ x ∈ s.teams, x.2.phase ≠ .running)) →
    let a : State := { s with evPhase := true }
    (∀ q rest, s.queue = q :: rest → q.due ≤ s.clock → step s = exec q.ev { a with queue := rest }) ∧
    ((∀ q, s.queue.head? = some q → s.clock < q.due) → ∃ n, 0 < n ∧ step s = .next (a.advance n)))

/-- R9, R221, R227, R258, R268, R307, R342, R413, and log entries 1 to 5 for what the spec leaves open: the machine right after reset. Nothing runs,
every byte of memory reads 0 (log entry 3), every partition register holds sixteen cache ways with every quota at 16, every page has the device's
bias, every buffer is free, and the invariants below hold. -/
def Obligations.ResetState : Prop :=
  let s := State.reset
  s.memOk ∧ s.namesOk ∧ s.clock = 0 ∧ s.teams = [] ∧ s.launches = [] ∧ s.agenda = [] ∧ s.tails = [] ∧ s.upsets = [] ∧ s.failedBanks = [] ∧ s.queue = [] ∧ s.items = [] ∧ s.outs = [] ∧
  (∀ a, mget s.mem a = 0) ∧ (∀ sp, s.partOf sp = 0x0010101000000000) ∧ s.hostBias = [] ∧ s.contracts = [] ∧ s.lost = [] ∧
  (∀ w k, s.fib w = Fibre.absent ∧ (s.warp w).mask k = 0 ∧ (s.warp w).flag k = FlagSt.zero) ∧
  (∀ c b, s.buf c b = Buf.empty) ∧ (∀ g, (s.granule g).tag = 0) ∧ (∀ f q, (s.queueOf f q).en = false) ∧
  (∀ c, c < 16 → ∀ k, k < 48 → ((c, k) ∈ s.harvest ↔ 46 ≤ k)) ∧ s.firmware.mhz = 2000 ∧ s.firmware.shut = false

/-- R34, R37, R56 to R69: decoding and encoding agree. Every well-formed word whose guard is not never, with every operand at every value its fields
admit, encodes into 32 bits that decode to it, at every position that may hold it; so does every never word; and every word of 32 bits that
decodes is the encoding of what it decodes to, so that no bit is dropped. -/
def Obligations.DecodeAndEncodeAgree : Prop :=
  (∀ (idx : Nat) (i : Instr) (h : Hdr), i.hdr? = some h → i.wf = true → ¬(h.n = true ∧ h.p = 7) → (idx = 2 → h.c = false) →
    encode i < 2 ^ 32 ∧ decodeWord idx (encode i) = .ok i) ∧
  (∀ (idx : Nat) (bits : BitVec 28), encode (.nop bits) < 2 ^ 32 ∧ decodeWord idx (encode (.nop bits)) = .ok (.nop bits)) ∧
  (∀ (idx w : Nat) (i : Instr), w < 2 ^ 32 → decodeWord idx w = .ok i → encode i = w)

/-- Every step keeps memory in its canonical form: addresses rise, and no byte that reads as empty memory is listed (R246, log entry 3). -/
def Obligations.MemoryStaysCanonical : Prop :=
  ∀ s t : State, s.memOk → step s = .next t → t.memOk

/-- Every step keeps names apart: a name that is still to be given belongs to no work on its way and to no entry of a write-combining buffer, so that
no answer reaches other work than its own (R212, R262). -/
def Obligations.NamesStayFresh : Prop :=
  ∀ s t : State, s.namesOk → step s = .next t → t.namesOk
end

