-- ==== Sys2Proof/Laws/State.lean ====
section
/-! SUPPORT. What each update of the state does to every field: the field it sets, and that every other field stands. -/

namespace Sys2Proof.Machine.State

@[simp] theorem setTeam_fields (s : State) (t : Nat) (x : Team) :
    (s.setTeam t x).loc = s.loc ∧ (s.setTeam t x).pre = s.pre ∧ (s.setTeam t x).iss = s.iss ∧ (s.setTeam t x).tails = s.tails ∧
    (s.setTeam t x).teams = aset s.teams t x ∧ (s.setTeam t x).cores = s.cores ∧ (s.setTeam t x).clock = s.clock ∧ (s.setTeam t x).nextId = s.nextId ∧
    (s.setTeam t x).nextTeam = s.nextTeam ∧ (s.setTeam t x).agenda = s.agenda ∧ (s.setTeam t x).queue = s.queue ∧ (s.setTeam t x).evPhase = s.evPhase ∧
    (s.setTeam t x).choices = s.choices ∧ (s.setTeam t x).items = s.items ∧ (s.setTeam t x).outs = s.outs ∧ (s.setTeam t x).mem = s.mem ∧
    (s.setTeam t x).parts = s.parts ∧ (s.setTeam t x).rows = s.rows ∧ (s.setTeam t x).contracts = s.contracts ∧ (s.setTeam t x).lost = s.lost ∧
    (s.setTeam t x).accx = s.accx ∧ (s.setTeam t x).seqs = s.seqs ∧ (s.setTeam t x).track = s.track ∧ (s.setTeam t x).tlbs = s.tlbs ∧
    (s.setTeam t x).reserve = s.reserve ∧ (s.setTeam t x).sharers = s.sharers ∧ (s.setTeam t x).bad = s.bad ∧ (s.setTeam t x).keyOf = s.keyOf ∧
    (s.setTeam t x).upsets = s.upsets ∧ (s.setTeam t x).failedBanks = s.failedBanks ∧ (s.setTeam t x).deadLinks = s.deadLinks ∧ (s.setTeam t x).deadPeers = s.deadPeers ∧
    (s.setTeam t x).peerAccx = s.peerAccx ∧ (s.setTeam t x).peerFaults = s.peerFaults ∧ (s.setTeam t x).hostBias = s.hostBias ∧ (s.setTeam t x).mbOn = s.mbOn ∧
    (s.setTeam t x).mbbase = s.mbbase ∧ (s.setTeam t x).mbhost = s.mbhost ∧ (s.setTeam t x).pod = s.pod ∧ (s.setTeam t x).peerRanges = s.peerRanges ∧
    (s.setTeam t x).mbox = s.mbox ∧ (s.setTeam t x).hostLines = s.hostLines ∧ (s.setTeam t x).refresh = s.refresh ∧ (s.setTeam t x).launches = s.launches ∧
    (s.setTeam t x).queues = s.queues ∧ (s.setTeam t x).ctxs = s.ctxs ∧ (s.setTeam t x).funcs = s.funcs ∧ (s.setTeam t x).fnTurn = s.fnTurn ∧
    (s.setTeam t x).harvest = s.harvest ∧ (s.setTeam t x).firmware = s.firmware ∧ (s.setTeam t x).log = s.log ∧ (s.setTeam t x).irqs = s.irqs ∧
    (s.setTeam t x).port = s.port ∧ (s.setTeam t x).saved = s.saved := by
  and_intros <;> rfl

@[simp] theorem setCore_fields (s : State) (c : Nat) (x : Core) :
    (s.setCore c x).loc = s.loc ∧ (s.setCore c x).pre = s.pre ∧ (s.setCore c x).iss = s.iss ∧ (s.setCore c x).tails = s.tails ∧ (s.setCore c x).teams = s.teams ∧
    (s.setCore c x).cores = aset s.cores c x ∧ (s.setCore c x).clock = s.clock ∧ (s.setCore c x).nextId = s.nextId ∧ (s.setCore c x).nextTeam = s.nextTeam ∧
    (s.setCore c x).agenda = s.agenda ∧ (s.setCore c x).queue = s.queue ∧ (s.setCore c x).evPhase = s.evPhase ∧ (s.setCore c x).choices = s.choices ∧
    (s.setCore c x).items = s.items ∧ (s.setCore c x).outs = s.outs ∧ (s.setCore c x).mem = s.mem ∧ (s.setCore c x).parts = s.parts ∧ (s.setCore c x).rows = s.rows ∧
    (s.setCore c x).contracts = s.contracts ∧ (s.setCore c x).lost = s.lost ∧ (s.setCore c x).accx = s.accx ∧ (s.setCore c x).seqs = s.seqs ∧
    (s.setCore c x).track = s.track ∧ (s.setCore c x).tlbs = s.tlbs ∧ (s.setCore c x).reserve = s.reserve ∧ (s.setCore c x).sharers = s.sharers ∧
    (s.setCore c x).bad = s.bad ∧ (s.setCore c x).keyOf = s.keyOf ∧ (s.setCore c x).upsets = s.upsets ∧ (s.setCore c x).failedBanks = s.failedBanks ∧
    (s.setCore c x).deadLinks = s.deadLinks ∧ (s.setCore c x).deadPeers = s.deadPeers ∧ (s.setCore c x).peerAccx = s.peerAccx ∧
    (s.setCore c x).peerFaults = s.peerFaults ∧ (s.setCore c x).hostBias = s.hostBias ∧ (s.setCore c x).mbOn = s.mbOn ∧ (s.setCore c x).mbbase = s.mbbase ∧
    (s.setCore c x).mbhost = s.mbhost ∧ (s.setCore c x).pod = s.pod ∧ (s.setCore c x).peerRanges = s.peerRanges ∧ (s.setCore c x).mbox = s.mbox ∧
    (s.setCore c x).hostLines = s.hostLines ∧ (s.setCore c x).refresh = s.refresh ∧ (s.setCore c x).launches = s.launches ∧ (s.setCore c x).queues = s.queues ∧
    (s.setCore c x).ctxs = s.ctxs ∧ (s.setCore c x).funcs = s.funcs ∧ (s.setCore c x).fnTurn = s.fnTurn ∧ (s.setCore c x).harvest = s.harvest ∧
    (s.setCore c x).firmware = s.firmware ∧ (s.setCore c x).log = s.log ∧ (s.setCore c x).irqs = s.irqs ∧ (s.setCore c x).port = s.port ∧ (s.setCore c x).saved = s.saved := by
  and_intros <;> rfl

@[simp] theorem setFib_fields (s : State) (k : Nat) (f : Fibre) :
    (s.setFib k f).loc.gran = s.loc.gran ∧ (s.setFib k f).loc.fibres = aset s.loc.fibres k f ∧ (s.setFib k f).loc.warps = s.loc.warps ∧ (s.setFib k f).pre = s.pre ∧
    (s.setFib k f).iss = s.iss ∧ (s.setFib k f).tails = s.tails ∧ (s.setFib k f).teams = s.teams ∧ (s.setFib k f).cores = s.cores ∧ (s.setFib k f).clock = s.clock ∧
    (s.setFib k f).nextId = s.nextId ∧ (s.setFib k f).nextTeam = s.nextTeam ∧ (s.setFib k f).agenda = s.agenda ∧ (s.setFib k f).queue = s.queue ∧
    (s.setFib k f).evPhase = s.evPhase ∧ (s.setFib k f).choices = s.choices ∧ (s.setFib k f).items = s.items ∧ (s.setFib k f).outs = s.outs ∧
    (s.setFib k f).mem = s.mem ∧ (s.setFib k f).parts = s.parts ∧ (s.setFib k f).rows = s.rows ∧ (s.setFib k f).contracts = s.contracts ∧ (s.setFib k f).lost = s.lost ∧
    (s.setFib k f).accx = s.accx ∧ (s.setFib k f).seqs = s.seqs ∧ (s.setFib k f).track = s.track ∧ (s.setFib k f).tlbs = s.tlbs ∧ (s.setFib k f).reserve = s.reserve ∧
    (s.setFib k f).sharers = s.sharers ∧ (s.setFib k f).bad = s.bad ∧ (s.setFib k f).keyOf = s.keyOf ∧ (s.setFib k f).upsets = s.upsets ∧
    (s.setFib k f).failedBanks = s.failedBanks ∧ (s.setFib k f).deadLinks = s.deadLinks ∧ (s.setFib k f).deadPeers = s.deadPeers ∧ (s.setFib k f).peerAccx = s.peerAccx ∧
    (s.setFib k f).peerFaults = s.peerFaults ∧ (s.setFib k f).hostBias = s.hostBias ∧ (s.setFib k f).mbOn = s.mbOn ∧ (s.setFib k f).mbbase = s.mbbase ∧
    (s.setFib k f).mbhost = s.mbhost ∧ (s.setFib k f).pod = s.pod ∧ (s.setFib k f).peerRanges = s.peerRanges ∧ (s.setFib k f).mbox = s.mbox ∧
    (s.setFib k f).hostLines = s.hostLines ∧ (s.setFib k f).refresh = s.refresh ∧ (s.setFib k f).launches = s.launches ∧ (s.setFib k f).queues = s.queues ∧
    (s.setFib k f).ctxs = s.ctxs ∧ (s.setFib k f).funcs = s.funcs ∧ (s.setFib k f).fnTurn = s.fnTurn ∧ (s.setFib k f).harvest = s.harvest ∧
    (s.setFib k f).firmware = s.firmware ∧ (s.setFib k f).log = s.log ∧ (s.setFib k f).irqs = s.irqs ∧ (s.setFib k f).port = s.port ∧ (s.setFib k f).saved = s.saved := by
  and_intros <;> rfl

@[simp] theorem setWarp_fields (s : State) (w : Nat) (x : Warp) :
    (s.setWarp w x).loc.gran = s.loc.gran ∧ (s.setWarp w x).loc.fibres = s.loc.fibres ∧ (s.setWarp w x).loc.warps = aset s.loc.warps w x ∧ (s.setWarp w x).pre = s.pre ∧
    (s.setWarp w x).iss = s.iss ∧ (s.setWarp w x).tails = s.tails ∧ (s.setWarp w x).teams = s.teams ∧ (s.setWarp w x).cores = s.cores ∧ (s.setWarp w x).clock = s.clock ∧
    (s.setWarp w x).nextId = s.nextId ∧ (s.setWarp w x).nextTeam = s.nextTeam ∧ (s.setWarp w x).agenda = s.agenda ∧ (s.setWarp w x).queue = s.queue ∧
    (s.setWarp w x).evPhase = s.evPhase ∧ (s.setWarp w x).choices = s.choices ∧ (s.setWarp w x).items = s.items ∧ (s.setWarp w x).outs = s.outs ∧
    (s.setWarp w x).mem = s.mem ∧ (s.setWarp w x).parts = s.parts ∧ (s.setWarp w x).rows = s.rows ∧ (s.setWarp w x).contracts = s.contracts ∧
    (s.setWarp w x).lost = s.lost ∧ (s.setWarp w x).accx = s.accx ∧ (s.setWarp w x).seqs = s.seqs ∧ (s.setWarp w x).track = s.track ∧ (s.setWarp w x).tlbs = s.tlbs ∧
    (s.setWarp w x).reserve = s.reserve ∧ (s.setWarp w x).sharers = s.sharers ∧ (s.setWarp w x).bad = s.bad ∧ (s.setWarp w x).keyOf = s.keyOf ∧
    (s.setWarp w x).upsets = s.upsets ∧ (s.setWarp w x).failedBanks = s.failedBanks ∧ (s.setWarp w x).deadLinks = s.deadLinks ∧ (s.setWarp w x).deadPeers = s.deadPeers ∧
    (s.setWarp w x).peerAccx = s.peerAccx ∧ (s.setWarp w x).peerFaults = s.peerFaults ∧ (s.setWarp w x).hostBias = s.hostBias ∧ (s.setWarp w x).mbOn = s.mbOn ∧
    (s.setWarp w x).mbbase = s.mbbase ∧ (s.setWarp w x).mbhost = s.mbhost ∧ (s.setWarp w x).pod = s.pod ∧ (s.setWarp w x).peerRanges = s.peerRanges ∧
    (s.setWarp w x).mbox = s.mbox ∧ (s.setWarp w x).hostLines = s.hostLines ∧ (s.setWarp w x).refresh = s.refresh ∧ (s.setWarp w x).launches = s.launches ∧
    (s.setWarp w x).queues = s.queues ∧ (s.setWarp w x).ctxs = s.ctxs ∧ (s.setWarp w x).funcs = s.funcs ∧ (s.setWarp w x).fnTurn = s.fnTurn ∧
    (s.setWarp w x).harvest = s.harvest ∧ (s.setWarp w x).firmware = s.firmware ∧ (s.setWarp w x).log = s.log ∧ (s.setWarp w x).irqs = s.irqs ∧
    (s.setWarp w x).port = s.port ∧ (s.setWarp w x).saved = s.saved := by
  and_intros <;> rfl

@[simp] theorem setGranule_fields (s : State) (g : Nat) (x : Granule) :
    (s.setGranule g x).loc.gran = aset s.loc.gran g x ∧ (s.setGranule g x).loc.fibres = s.loc.fibres ∧ (s.setGranule g x).loc.warps = s.loc.warps ∧
    (s.setGranule g x).pre = s.pre ∧ (s.setGranule g x).iss = s.iss ∧ (s.setGranule g x).tails = s.tails ∧ (s.setGranule g x).teams = s.teams ∧
    (s.setGranule g x).cores = s.cores ∧ (s.setGranule g x).clock = s.clock ∧ (s.setGranule g x).nextId = s.nextId ∧ (s.setGranule g x).nextTeam = s.nextTeam ∧
    (s.setGranule g x).agenda = s.agenda ∧ (s.setGranule g x).queue = s.queue ∧ (s.setGranule g x).evPhase = s.evPhase ∧ (s.setGranule g x).choices = s.choices ∧
    (s.setGranule g x).items = s.items ∧ (s.setGranule g x).outs = s.outs ∧ (s.setGranule g x).mem = s.mem ∧ (s.setGranule g x).parts = s.parts ∧
    (s.setGranule g x).rows = s.rows ∧ (s.setGranule g x).contracts = s.contracts ∧ (s.setGranule g x).lost = s.lost ∧ (s.setGranule g x).accx = s.accx ∧
    (s.setGranule g x).seqs = s.seqs ∧ (s.setGranule g x).track = s.track ∧ (s.setGranule g x).tlbs = s.tlbs ∧ (s.setGranule g x).reserve = s.reserve ∧
    (s.setGranule g x).sharers = s.sharers ∧ (s.setGranule g x).bad = s.bad ∧ (s.setGranule g x).keyOf = s.keyOf ∧ (s.setGranule g x).upsets = s.upsets ∧
    (s.setGranule g x).failedBanks = s.failedBanks ∧ (s.setGranule g x).deadLinks = s.deadLinks ∧ (s.setGranule g x).deadPeers = s.deadPeers ∧
    (s.setGranule g x).peerAccx = s.peerAccx ∧ (s.setGranule g x).peerFaults = s.peerFaults ∧ (s.setGranule g x).hostBias = s.hostBias ∧
    (s.setGranule g x).mbOn = s.mbOn ∧ (s.setGranule g x).mbbase = s.mbbase ∧ (s.setGranule g x).mbhost = s.mbhost ∧ (s.setGranule g x).pod = s.pod ∧
    (s.setGranule g x).peerRanges = s.peerRanges ∧ (s.setGranule g x).mbox = s.mbox ∧ (s.setGranule g x).hostLines = s.hostLines ∧
    (s.setGranule g x).refresh = s.refresh ∧ (s.setGranule g x).launches = s.launches ∧ (s.setGranule g x).queues = s.queues ∧ (s.setGranule g x).ctxs = s.ctxs ∧
    (s.setGranule g x).funcs = s.funcs ∧ (s.setGranule g x).fnTurn = s.fnTurn ∧ (s.setGranule g x).harvest = s.harvest ∧ (s.setGranule g x).firmware = s.firmware ∧
    (s.setGranule g x).log = s.log ∧ (s.setGranule g x).irqs = s.irqs ∧ (s.setGranule g x).port = s.port ∧ (s.setGranule g x).saved = s.saved := by
  and_intros <;> rfl

@[simp] theorem setCtx_fields (s : State) (c : Nat) (x : Ctx) :
    (s.setCtx c x).loc = s.loc ∧ (s.setCtx c x).pre = s.pre ∧ (s.setCtx c x).iss = s.iss ∧ (s.setCtx c x).tails = s.tails ∧ (s.setCtx c x).teams = s.teams ∧
    (s.setCtx c x).cores = s.cores ∧ (s.setCtx c x).clock = s.clock ∧ (s.setCtx c x).nextId = s.nextId ∧ (s.setCtx c x).nextTeam = s.nextTeam ∧
    (s.setCtx c x).agenda = s.agenda ∧ (s.setCtx c x).queue = s.queue ∧ (s.setCtx c x).evPhase = s.evPhase ∧ (s.setCtx c x).choices = s.choices ∧
    (s.setCtx c x).items = s.items ∧ (s.setCtx c x).outs = s.outs ∧ (s.setCtx c x).mem = s.mem ∧ (s.setCtx c x).parts = s.parts ∧ (s.setCtx c x).rows = s.rows ∧
    (s.setCtx c x).contracts = s.contracts ∧ (s.setCtx c x).lost = s.lost ∧ (s.setCtx c x).accx = s.accx ∧ (s.setCtx c x).seqs = s.seqs ∧
    (s.setCtx c x).track = s.track ∧ (s.setCtx c x).tlbs = s.tlbs ∧ (s.setCtx c x).reserve = s.reserve ∧ (s.setCtx c x).sharers = s.sharers ∧
    (s.setCtx c x).bad = s.bad ∧ (s.setCtx c x).keyOf = s.keyOf ∧ (s.setCtx c x).upsets = s.upsets ∧ (s.setCtx c x).failedBanks = s.failedBanks ∧
    (s.setCtx c x).deadLinks = s.deadLinks ∧ (s.setCtx c x).deadPeers = s.deadPeers ∧ (s.setCtx c x).peerAccx = s.peerAccx ∧ (s.setCtx c x).peerFaults = s.peerFaults ∧
    (s.setCtx c x).hostBias = s.hostBias ∧ (s.setCtx c x).mbOn = s.mbOn ∧ (s.setCtx c x).mbbase = s.mbbase ∧ (s.setCtx c x).mbhost = s.mbhost ∧
    (s.setCtx c x).pod = s.pod ∧ (s.setCtx c x).peerRanges = s.peerRanges ∧ (s.setCtx c x).mbox = s.mbox ∧ (s.setCtx c x).hostLines = s.hostLines ∧
    (s.setCtx c x).refresh = s.refresh ∧ (s.setCtx c x).launches = s.launches ∧ (s.setCtx c x).queues = s.queues ∧ (s.setCtx c x).ctxs = aset s.ctxs c x ∧
    (s.setCtx c x).funcs = s.funcs ∧ (s.setCtx c x).fnTurn = s.fnTurn ∧ (s.setCtx c x).harvest = s.harvest ∧ (s.setCtx c x).firmware = s.firmware ∧
    (s.setCtx c x).log = s.log ∧ (s.setCtx c x).irqs = s.irqs ∧ (s.setCtx c x).port = s.port ∧ (s.setCtx c x).saved = s.saved := by
  and_intros <;> rfl

@[simp] theorem setFunc_fields (s : State) (f : Nat) (x : Func) :
    (s.setFunc f x).loc = s.loc ∧ (s.setFunc f x).pre = s.pre ∧ (s.setFunc f x).iss = s.iss ∧ (s.setFunc f x).tails = s.tails ∧ (s.setFunc f x).teams = s.teams ∧
    (s.setFunc f x).cores = s.cores ∧ (s.setFunc f x).clock = s.clock ∧ (s.setFunc f x).nextId = s.nextId ∧ (s.setFunc f x).nextTeam = s.nextTeam ∧
    (s.setFunc f x).agenda = s.agenda ∧ (s.setFunc f x).queue = s.queue ∧ (s.setFunc f x).evPhase = s.evPhase ∧ (s.setFunc f x).choices = s.choices ∧
    (s.setFunc f x).items = s.items ∧ (s.setFunc f x).outs = s.outs ∧ (s.setFunc f x).mem = s.mem ∧ (s.setFunc f x).parts = s.parts ∧ (s.setFunc f x).rows = s.rows ∧
    (s.setFunc f x).contracts = s.contracts ∧ (s.setFunc f x).lost = s.lost ∧ (s.setFunc f x).accx = s.accx ∧ (s.setFunc f x).seqs = s.seqs ∧
    (s.setFunc f x).track = s.track ∧ (s.setFunc f x).tlbs = s.tlbs ∧ (s.setFunc f x).reserve = s.reserve ∧ (s.setFunc f x).sharers = s.sharers ∧
    (s.setFunc f x).bad = s.bad ∧ (s.setFunc f x).keyOf = s.keyOf ∧ (s.setFunc f x).upsets = s.upsets ∧ (s.setFunc f x).failedBanks = s.failedBanks ∧
    (s.setFunc f x).deadLinks = s.deadLinks ∧ (s.setFunc f x).deadPeers = s.deadPeers ∧ (s.setFunc f x).peerAccx = s.peerAccx ∧
    (s.setFunc f x).peerFaults = s.peerFaults ∧ (s.setFunc f x).hostBias = s.hostBias ∧ (s.setFunc f x).mbOn = s.mbOn ∧ (s.setFunc f x).mbbase = s.mbbase ∧
    (s.setFunc f x).mbhost = s.mbhost ∧ (s.setFunc f x).pod = s.pod ∧ (s.setFunc f x).peerRanges = s.peerRanges ∧ (s.setFunc f x).mbox = s.mbox ∧
    (s.setFunc f x).hostLines = s.hostLines ∧ (s.setFunc f x).refresh = s.refresh ∧ (s.setFunc f x).launches = s.launches ∧ (s.setFunc f x).queues = s.queues ∧
    (s.setFunc f x).ctxs = s.ctxs ∧ (s.setFunc f x).funcs = aset s.funcs f x ∧ (s.setFunc f x).fnTurn = s.fnTurn ∧ (s.setFunc f x).harvest = s.harvest ∧
    (s.setFunc f x).firmware = s.firmware ∧ (s.setFunc f x).log = s.log ∧ (s.setFunc f x).irqs = s.irqs ∧ (s.setFunc f x).port = s.port ∧ (s.setFunc f x).saved = s.saved := by
  and_intros <;> rfl

@[simp] theorem setQueue_fields (s : State) (fn q : Nat) (x : Queue) :
    (s.setQueue fn q x).loc = s.loc ∧ (s.setQueue fn q x).pre = s.pre ∧ (s.setQueue fn q x).iss = s.iss ∧ (s.setQueue fn q x).tails = s.tails ∧
    (s.setQueue fn q x).teams = s.teams ∧ (s.setQueue fn q x).cores = s.cores ∧ (s.setQueue fn q x).clock = s.clock ∧ (s.setQueue fn q x).nextId = s.nextId ∧
    (s.setQueue fn q x).nextTeam = s.nextTeam ∧ (s.setQueue fn q x).agenda = s.agenda ∧ (s.setQueue fn q x).queue = s.queue ∧ (s.setQueue fn q x).evPhase = s.evPhase ∧
    (s.setQueue fn q x).choices = s.choices ∧ (s.setQueue fn q x).items = s.items ∧ (s.setQueue fn q x).outs = s.outs ∧ (s.setQueue fn q x).mem = s.mem ∧
    (s.setQueue fn q x).parts = s.parts ∧ (s.setQueue fn q x).rows = s.rows ∧ (s.setQueue fn q x).contracts = s.contracts ∧ (s.setQueue fn q x).lost = s.lost ∧
    (s.setQueue fn q x).accx = s.accx ∧ (s.setQueue fn q x).seqs = s.seqs ∧ (s.setQueue fn q x).track = s.track ∧ (s.setQueue fn q x).tlbs = s.tlbs ∧
    (s.setQueue fn q x).reserve = s.reserve ∧ (s.setQueue fn q x).sharers = s.sharers ∧ (s.setQueue fn q x).bad = s.bad ∧ (s.setQueue fn q x).keyOf = s.keyOf ∧
    (s.setQueue fn q x).upsets = s.upsets ∧ (s.setQueue fn q x).failedBanks = s.failedBanks ∧ (s.setQueue fn q x).deadLinks = s.deadLinks ∧
    (s.setQueue fn q x).deadPeers = s.deadPeers ∧ (s.setQueue fn q x).peerAccx = s.peerAccx ∧ (s.setQueue fn q x).peerFaults = s.peerFaults ∧
    (s.setQueue fn q x).hostBias = s.hostBias ∧ (s.setQueue fn q x).mbOn = s.mbOn ∧ (s.setQueue fn q x).mbbase = s.mbbase ∧ (s.setQueue fn q x).mbhost = s.mbhost ∧
    (s.setQueue fn q x).pod = s.pod ∧ (s.setQueue fn q x).peerRanges = s.peerRanges ∧ (s.setQueue fn q x).mbox = s.mbox ∧ (s.setQueue fn q x).hostLines = s.hostLines ∧
    (s.setQueue fn q x).refresh = s.refresh ∧ (s.setQueue fn q x).launches = s.launches ∧ (s.setQueue fn q x).queues = aset s.queues (fn * 64 + q) x ∧
    (s.setQueue fn q x).ctxs = s.ctxs ∧ (s.setQueue fn q x).funcs = s.funcs ∧ (s.setQueue fn q x).fnTurn = s.fnTurn ∧ (s.setQueue fn q x).harvest = s.harvest ∧
    (s.setQueue fn q x).firmware = s.firmware ∧ (s.setQueue fn q x).log = s.log ∧ (s.setQueue fn q x).irqs = s.irqs ∧ (s.setQueue fn q x).port = s.port ∧
    (s.setQueue fn q x).saved = s.saved := by
  and_intros <;> rfl

@[simp] theorem stopped_fields (s : State) :
    s.stopped.loc = s.loc ∧ s.stopped.pre = s.pre ∧ s.stopped.iss.warp = s.iss.warp ∧ s.stopped.iss.lanes = s.iss.lanes ∧ s.stopped.iss.only = s.iss.only ∧
    s.stopped.iss.pc = s.iss.pc ∧ s.stopped.iss.ws = s.iss.ws ∧ s.stopped.iss.first = s.iss.first ∧ s.stopped.iss.word = s.iss.word ∧ s.stopped.iss.after = s.iss.after ∧
    s.stopped.iss.stop = true ∧ s.stopped.iss.xfer = s.iss.xfer ∧ s.stopped.iss.changed = s.iss.changed ∧ s.stopped.iss.cyc = s.iss.cyc ∧
    s.stopped.iss.name0 = s.iss.name0 ∧ s.stopped.iss.push = s.iss.push ∧ s.stopped.iss.asks = s.iss.asks ∧ s.stopped.tails = s.tails ∧ s.stopped.teams = s.teams ∧
    s.stopped.cores = s.cores ∧ s.stopped.clock = s.clock ∧ s.stopped.nextId = s.nextId ∧ s.stopped.nextTeam = s.nextTeam ∧ s.stopped.agenda = s.agenda ∧
    s.stopped.queue = s.queue ∧ s.stopped.evPhase = s.evPhase ∧ s.stopped.choices = s.choices ∧ s.stopped.items = s.items ∧ s.stopped.outs = s.outs ∧
    s.stopped.mem = s.mem ∧ s.stopped.parts = s.parts ∧ s.stopped.rows = s.rows ∧ s.stopped.contracts = s.contracts ∧ s.stopped.lost = s.lost ∧ s.stopped.accx = s.accx ∧
    s.stopped.seqs = s.seqs ∧ s.stopped.track = s.track ∧ s.stopped.tlbs = s.tlbs ∧ s.stopped.reserve = s.reserve ∧ s.stopped.sharers = s.sharers ∧
    s.stopped.bad = s.bad ∧ s.stopped.keyOf = s.keyOf ∧ s.stopped.upsets = s.upsets ∧ s.stopped.failedBanks = s.failedBanks ∧ s.stopped.deadLinks = s.deadLinks ∧
    s.stopped.deadPeers = s.deadPeers ∧ s.stopped.peerAccx = s.peerAccx ∧ s.stopped.peerFaults = s.peerFaults ∧ s.stopped.hostBias = s.hostBias ∧
    s.stopped.mbOn = s.mbOn ∧ s.stopped.mbbase = s.mbbase ∧ s.stopped.mbhost = s.mbhost ∧ s.stopped.pod = s.pod ∧ s.stopped.peerRanges = s.peerRanges ∧
    s.stopped.mbox = s.mbox ∧ s.stopped.hostLines = s.hostLines ∧ s.stopped.refresh = s.refresh ∧ s.stopped.launches = s.launches ∧ s.stopped.queues = s.queues ∧
    s.stopped.ctxs = s.ctxs ∧ s.stopped.funcs = s.funcs ∧ s.stopped.fnTurn = s.fnTurn ∧ s.stopped.harvest = s.harvest ∧ s.stopped.firmware = s.firmware ∧
    s.stopped.log = s.log ∧ s.stopped.irqs = s.irqs ∧ s.stopped.port = s.port ∧ s.stopped.saved = s.saved := by
  and_intros <;> rfl

@[simp] theorem marked_fields (s : State) :
    s.marked.loc = s.loc ∧ s.marked.pre = s.pre ∧ s.marked.iss.warp = s.iss.warp ∧ s.marked.iss.lanes = s.iss.lanes ∧ s.marked.iss.only = s.iss.only ∧
    s.marked.iss.pc = s.iss.pc ∧ s.marked.iss.ws = s.iss.ws ∧ s.marked.iss.first = s.iss.first ∧ s.marked.iss.word = s.iss.word ∧ s.marked.iss.after = s.iss.after ∧
    s.marked.iss.stop = s.iss.stop ∧ s.marked.iss.xfer = s.iss.xfer ∧ s.marked.iss.changed = true ∧ s.marked.iss.cyc = s.iss.cyc ∧ s.marked.iss.name0 = s.iss.name0 ∧
    s.marked.iss.push = s.iss.push ∧ s.marked.iss.asks = s.iss.asks ∧ s.marked.tails = s.tails ∧ s.marked.teams = s.teams ∧ s.marked.cores = s.cores ∧
    s.marked.clock = s.clock ∧ s.marked.nextId = s.nextId ∧ s.marked.nextTeam = s.nextTeam ∧ s.marked.agenda = s.agenda ∧ s.marked.queue = s.queue ∧
    s.marked.evPhase = s.evPhase ∧ s.marked.choices = s.choices ∧ s.marked.items = s.items ∧ s.marked.outs = s.outs ∧ s.marked.mem = s.mem ∧ s.marked.parts = s.parts ∧
    s.marked.rows = s.rows ∧ s.marked.contracts = s.contracts ∧ s.marked.lost = s.lost ∧ s.marked.accx = s.accx ∧ s.marked.seqs = s.seqs ∧ s.marked.track = s.track ∧
    s.marked.tlbs = s.tlbs ∧ s.marked.reserve = s.reserve ∧ s.marked.sharers = s.sharers ∧ s.marked.bad = s.bad ∧ s.marked.keyOf = s.keyOf ∧ s.marked.upsets = s.upsets ∧
    s.marked.failedBanks = s.failedBanks ∧ s.marked.deadLinks = s.deadLinks ∧ s.marked.deadPeers = s.deadPeers ∧ s.marked.peerAccx = s.peerAccx ∧
    s.marked.peerFaults = s.peerFaults ∧ s.marked.hostBias = s.hostBias ∧ s.marked.mbOn = s.mbOn ∧ s.marked.mbbase = s.mbbase ∧ s.marked.mbhost = s.mbhost ∧
    s.marked.pod = s.pod ∧ s.marked.peerRanges = s.peerRanges ∧ s.marked.mbox = s.mbox ∧ s.marked.hostLines = s.hostLines ∧ s.marked.refresh = s.refresh ∧
    s.marked.launches = s.launches ∧ s.marked.queues = s.queues ∧ s.marked.ctxs = s.ctxs ∧ s.marked.funcs = s.funcs ∧ s.marked.fnTurn = s.fnTurn ∧
    s.marked.harvest = s.harvest ∧ s.marked.firmware = s.firmware ∧ s.marked.log = s.log ∧ s.marked.irqs = s.irqs ∧ s.marked.port = s.port ∧ s.marked.saved = s.saved := by
  and_intros <;> rfl

@[simp] theorem named_fields (s : State) :
    s.named.loc = s.loc ∧ s.named.pre = s.pre ∧ s.named.iss = s.iss ∧ s.named.tails = s.tails ∧ s.named.teams = s.teams ∧ s.named.cores = s.cores ∧
    s.named.clock = s.clock ∧ s.named.nextId = s.nextId + 1 ∧ s.named.nextTeam = s.nextTeam ∧ s.named.agenda = s.agenda ∧ s.named.queue = s.queue ∧
    s.named.evPhase = s.evPhase ∧ s.named.choices = s.choices ∧ s.named.items = s.items ∧ s.named.outs = s.outs ∧ s.named.mem = s.mem ∧ s.named.parts = s.parts ∧
    s.named.rows = s.rows ∧ s.named.contracts = s.contracts ∧ s.named.lost = s.lost ∧ s.named.accx = s.accx ∧ s.named.seqs = s.seqs ∧ s.named.track = s.track ∧
    s.named.tlbs = s.tlbs ∧ s.named.reserve = s.reserve ∧ s.named.sharers = s.sharers ∧ s.named.bad = s.bad ∧ s.named.keyOf = s.keyOf ∧ s.named.upsets = s.upsets ∧
    s.named.failedBanks = s.failedBanks ∧ s.named.deadLinks = s.deadLinks ∧ s.named.deadPeers = s.deadPeers ∧ s.named.peerAccx = s.peerAccx ∧
    s.named.peerFaults = s.peerFaults ∧ s.named.hostBias = s.hostBias ∧ s.named.mbOn = s.mbOn ∧ s.named.mbbase = s.mbbase ∧ s.named.mbhost = s.mbhost ∧
    s.named.pod = s.pod ∧ s.named.peerRanges = s.peerRanges ∧ s.named.mbox = s.mbox ∧ s.named.hostLines = s.hostLines ∧ s.named.refresh = s.refresh ∧
    s.named.launches = s.launches ∧ s.named.queues = s.queues ∧ s.named.ctxs = s.ctxs ∧ s.named.funcs = s.funcs ∧ s.named.fnTurn = s.fnTurn ∧
    s.named.harvest = s.harvest ∧ s.named.firmware = s.firmware ∧ s.named.log = s.log ∧ s.named.irqs = s.irqs ∧ s.named.port = s.port ∧ s.named.saved = s.saved := by
  and_intros <;> rfl

@[simp] theorem chosen_fields (s : State) :
    s.chosen.loc = s.loc ∧ s.chosen.pre = s.pre ∧ s.chosen.iss = s.iss ∧ s.chosen.tails = s.tails ∧ s.chosen.teams = s.teams ∧ s.chosen.cores = s.cores ∧
    s.chosen.clock = s.clock ∧ s.chosen.nextId = s.nextId ∧ s.chosen.nextTeam = s.nextTeam ∧ s.chosen.agenda = s.agenda ∧ s.chosen.queue = s.queue ∧
    s.chosen.evPhase = s.evPhase ∧ s.chosen.choices = s.choices.tail ∧ s.chosen.items = s.items ∧ s.chosen.outs = s.outs ∧ s.chosen.mem = s.mem ∧
    s.chosen.parts = s.parts ∧ s.chosen.rows = s.rows ∧ s.chosen.contracts = s.contracts ∧ s.chosen.lost = s.lost ∧ s.chosen.accx = s.accx ∧ s.chosen.seqs = s.seqs ∧
    s.chosen.track = s.track ∧ s.chosen.tlbs = s.tlbs ∧ s.chosen.reserve = s.reserve ∧ s.chosen.sharers = s.sharers ∧ s.chosen.bad = s.bad ∧ s.chosen.keyOf = s.keyOf ∧
    s.chosen.upsets = s.upsets ∧ s.chosen.failedBanks = s.failedBanks ∧ s.chosen.deadLinks = s.deadLinks ∧ s.chosen.deadPeers = s.deadPeers ∧
    s.chosen.peerAccx = s.peerAccx ∧ s.chosen.peerFaults = s.peerFaults ∧ s.chosen.hostBias = s.hostBias ∧ s.chosen.mbOn = s.mbOn ∧ s.chosen.mbbase = s.mbbase ∧
    s.chosen.mbhost = s.mbhost ∧ s.chosen.pod = s.pod ∧ s.chosen.peerRanges = s.peerRanges ∧ s.chosen.mbox = s.mbox ∧ s.chosen.hostLines = s.hostLines ∧
    s.chosen.refresh = s.refresh ∧ s.chosen.launches = s.launches ∧ s.chosen.queues = s.queues ∧ s.chosen.ctxs = s.ctxs ∧ s.chosen.funcs = s.funcs ∧
    s.chosen.fnTurn = s.fnTurn ∧ s.chosen.harvest = s.harvest ∧ s.chosen.firmware = s.firmware ∧ s.chosen.log = s.log ∧ s.chosen.irqs = s.irqs ∧ s.chosen.port = s.port ∧
    s.chosen.saved = s.saved := by
  and_intros <;> rfl

@[simp] theorem later_fields (s : State) (n : Nat) (e : Instr) :
    (s.later n e).loc = s.loc ∧ (s.later n e).pre = s.pre ∧ (s.later n e).iss = s.iss ∧ (s.later n e).tails = s.tails ∧ (s.later n e).teams = s.teams ∧
    (s.later n e).cores = s.cores ∧ (s.later n e).clock = s.clock ∧ (s.later n e).nextId = s.nextId ∧ (s.later n e).nextTeam = s.nextTeam ∧
    (s.later n e).agenda = s.agenda ∧ (s.later n e).queue = State.later.insertTimed s.queue ⟨s.clock + n, e⟩ ∧ (s.later n e).evPhase = s.evPhase ∧
    (s.later n e).choices = s.choices ∧ (s.later n e).items = s.items ∧ (s.later n e).outs = s.outs ∧ (s.later n e).mem = s.mem ∧ (s.later n e).parts = s.parts ∧
    (s.later n e).rows = s.rows ∧ (s.later n e).contracts = s.contracts ∧ (s.later n e).lost = s.lost ∧ (s.later n e).accx = s.accx ∧ (s.later n e).seqs = s.seqs ∧
    (s.later n e).track = s.track ∧ (s.later n e).tlbs = s.tlbs ∧ (s.later n e).reserve = s.reserve ∧ (s.later n e).sharers = s.sharers ∧ (s.later n e).bad = s.bad ∧
    (s.later n e).keyOf = s.keyOf ∧ (s.later n e).upsets = s.upsets ∧ (s.later n e).failedBanks = s.failedBanks ∧ (s.later n e).deadLinks = s.deadLinks ∧
    (s.later n e).deadPeers = s.deadPeers ∧ (s.later n e).peerAccx = s.peerAccx ∧ (s.later n e).peerFaults = s.peerFaults ∧ (s.later n e).hostBias = s.hostBias ∧
    (s.later n e).mbOn = s.mbOn ∧ (s.later n e).mbbase = s.mbbase ∧ (s.later n e).mbhost = s.mbhost ∧ (s.later n e).pod = s.pod ∧
    (s.later n e).peerRanges = s.peerRanges ∧ (s.later n e).mbox = s.mbox ∧ (s.later n e).hostLines = s.hostLines ∧ (s.later n e).refresh = s.refresh ∧
    (s.later n e).launches = s.launches ∧ (s.later n e).queues = s.queues ∧ (s.later n e).ctxs = s.ctxs ∧ (s.later n e).funcs = s.funcs ∧
    (s.later n e).fnTurn = s.fnTurn ∧ (s.later n e).harvest = s.harvest ∧ (s.later n e).firmware = s.firmware ∧ (s.later n e).log = s.log ∧ (s.later n e).irqs = s.irqs ∧
    (s.later n e).port = s.port ∧ (s.later n e).saved = s.saved := by
  and_intros <;> rfl

@[simp] theorem putItem_fields (s : State) (k : Nat) (i : Item) :
    (s.putItem k i).loc = s.loc ∧ (s.putItem k i).pre = s.pre ∧ (s.putItem k i).iss = s.iss ∧ (s.putItem k i).tails = s.tails ∧ (s.putItem k i).teams = s.teams ∧
    (s.putItem k i).cores = s.cores ∧ (s.putItem k i).clock = s.clock ∧ (s.putItem k i).nextId = s.nextId ∧ (s.putItem k i).nextTeam = s.nextTeam ∧
    (s.putItem k i).agenda = s.agenda ∧ (s.putItem k i).queue = s.queue ∧ (s.putItem k i).evPhase = s.evPhase ∧ (s.putItem k i).choices = s.choices ∧
    (s.putItem k i).items = aset s.items k i ∧ (s.putItem k i).outs = s.outs ∧ (s.putItem k i).mem = s.mem ∧ (s.putItem k i).parts = s.parts ∧
    (s.putItem k i).rows = s.rows ∧ (s.putItem k i).contracts = s.contracts ∧ (s.putItem k i).lost = s.lost ∧ (s.putItem k i).accx = s.accx ∧
    (s.putItem k i).seqs = s.seqs ∧ (s.putItem k i).track = s.track ∧ (s.putItem k i).tlbs = s.tlbs ∧ (s.putItem k i).reserve = s.reserve ∧
    (s.putItem k i).sharers = s.sharers ∧ (s.putItem k i).bad = s.bad ∧ (s.putItem k i).keyOf = s.keyOf ∧ (s.putItem k i).upsets = s.upsets ∧
    (s.putItem k i).failedBanks = s.failedBanks ∧ (s.putItem k i).deadLinks = s.deadLinks ∧ (s.putItem k i).deadPeers = s.deadPeers ∧
    (s.putItem k i).peerAccx = s.peerAccx ∧ (s.putItem k i).peerFaults = s.peerFaults ∧ (s.putItem k i).hostBias = s.hostBias ∧ (s.putItem k i).mbOn = s.mbOn ∧
    (s.putItem k i).mbbase = s.mbbase ∧ (s.putItem k i).mbhost = s.mbhost ∧ (s.putItem k i).pod = s.pod ∧ (s.putItem k i).peerRanges = s.peerRanges ∧
    (s.putItem k i).mbox = s.mbox ∧ (s.putItem k i).hostLines = s.hostLines ∧ (s.putItem k i).refresh = s.refresh ∧ (s.putItem k i).launches = s.launches ∧
    (s.putItem k i).queues = s.queues ∧ (s.putItem k i).ctxs = s.ctxs ∧ (s.putItem k i).funcs = s.funcs ∧ (s.putItem k i).fnTurn = s.fnTurn ∧
    (s.putItem k i).harvest = s.harvest ∧ (s.putItem k i).firmware = s.firmware ∧ (s.putItem k i).log = s.log ∧ (s.putItem k i).irqs = s.irqs ∧
    (s.putItem k i).port = s.port ∧ (s.putItem k i).saved = s.saved := by
  and_intros <;> rfl

@[simp] theorem dropItem_fields (s : State) (k : Nat) :
    (s.dropItem k).loc = s.loc ∧ (s.dropItem k).pre = s.pre ∧ (s.dropItem k).iss = s.iss ∧ (s.dropItem k).tails = s.tails ∧ (s.dropItem k).teams = s.teams ∧
    (s.dropItem k).cores = s.cores ∧ (s.dropItem k).clock = s.clock ∧ (s.dropItem k).nextId = s.nextId ∧ (s.dropItem k).nextTeam = s.nextTeam ∧
    (s.dropItem k).agenda = s.agenda ∧ (s.dropItem k).queue = s.queue ∧ (s.dropItem k).evPhase = s.evPhase ∧ (s.dropItem k).choices = s.choices ∧
    (s.dropItem k).items = adel s.items k ∧ (s.dropItem k).outs = s.outs ∧ (s.dropItem k).mem = s.mem ∧ (s.dropItem k).parts = s.parts ∧ (s.dropItem k).rows = s.rows ∧
    (s.dropItem k).contracts = s.contracts ∧ (s.dropItem k).lost = s.lost ∧ (s.dropItem k).accx = s.accx ∧ (s.dropItem k).seqs = s.seqs ∧
    (s.dropItem k).track = s.track ∧ (s.dropItem k).tlbs = s.tlbs ∧ (s.dropItem k).reserve = s.reserve ∧ (s.dropItem k).sharers = s.sharers ∧
    (s.dropItem k).bad = s.bad ∧ (s.dropItem k).keyOf = s.keyOf ∧ (s.dropItem k).upsets = s.upsets ∧ (s.dropItem k).failedBanks = s.failedBanks ∧
    (s.dropItem k).deadLinks = s.deadLinks ∧ (s.dropItem k).deadPeers = s.deadPeers ∧ (s.dropItem k).peerAccx = s.peerAccx ∧ (s.dropItem k).peerFaults = s.peerFaults ∧
    (s.dropItem k).hostBias = s.hostBias ∧ (s.dropItem k).mbOn = s.mbOn ∧ (s.dropItem k).mbbase = s.mbbase ∧ (s.dropItem k).mbhost = s.mbhost ∧
    (s.dropItem k).pod = s.pod ∧ (s.dropItem k).peerRanges = s.peerRanges ∧ (s.dropItem k).mbox = s.mbox ∧ (s.dropItem k).hostLines = s.hostLines ∧
    (s.dropItem k).refresh = s.refresh ∧ (s.dropItem k).launches = s.launches ∧ (s.dropItem k).queues = s.queues ∧ (s.dropItem k).ctxs = s.ctxs ∧
    (s.dropItem k).funcs = s.funcs ∧ (s.dropItem k).fnTurn = s.fnTurn ∧ (s.dropItem k).harvest = s.harvest ∧ (s.dropItem k).firmware = s.firmware ∧
    (s.dropItem k).log = s.log ∧ (s.dropItem k).irqs = s.irqs ∧ (s.dropItem k).port = s.port ∧ (s.dropItem k).saved = s.saved := by
  and_intros <;> rfl

@[simp] theorem start_fields (s : State) (i : Item) :
    (s.start i).loc = s.loc ∧ (s.start i).pre = s.pre ∧ (s.start i).iss = s.iss ∧ (s.start i).tails = s.tails ∧ (s.start i).teams = s.teams ∧
    (s.start i).cores = s.cores ∧ (s.start i).clock = s.clock ∧ (s.start i).nextId = s.nextId + 1 ∧ (s.start i).nextTeam = s.nextTeam ∧ (s.start i).agenda = s.agenda ∧
    (s.start i).queue = s.queue ∧ (s.start i).evPhase = s.evPhase ∧ (s.start i).choices = s.choices ∧ (s.start i).items = aset s.items s.nextId i ∧
    (s.start i).outs = s.outs ∧ (s.start i).mem = s.mem ∧ (s.start i).parts = s.parts ∧ (s.start i).rows = s.rows ∧ (s.start i).contracts = s.contracts ∧
    (s.start i).lost = s.lost ∧ (s.start i).accx = s.accx ∧ (s.start i).seqs = s.seqs ∧ (s.start i).track = s.track ∧ (s.start i).tlbs = s.tlbs ∧
    (s.start i).reserve = s.reserve ∧ (s.start i).sharers = s.sharers ∧ (s.start i).bad = s.bad ∧ (s.start i).keyOf = s.keyOf ∧ (s.start i).upsets = s.upsets ∧
    (s.start i).failedBanks = s.failedBanks ∧ (s.start i).deadLinks = s.deadLinks ∧ (s.start i).deadPeers = s.deadPeers ∧ (s.start i).peerAccx = s.peerAccx ∧
    (s.start i).peerFaults = s.peerFaults ∧ (s.start i).hostBias = s.hostBias ∧ (s.start i).mbOn = s.mbOn ∧ (s.start i).mbbase = s.mbbase ∧
    (s.start i).mbhost = s.mbhost ∧ (s.start i).pod = s.pod ∧ (s.start i).peerRanges = s.peerRanges ∧ (s.start i).mbox = s.mbox ∧ (s.start i).hostLines = s.hostLines ∧
    (s.start i).refresh = s.refresh ∧ (s.start i).launches = s.launches ∧ (s.start i).queues = s.queues ∧ (s.start i).ctxs = s.ctxs ∧ (s.start i).funcs = s.funcs ∧
    (s.start i).fnTurn = s.fnTurn ∧ (s.start i).harvest = s.harvest ∧ (s.start i).firmware = s.firmware ∧ (s.start i).log = s.log ∧ (s.start i).irqs = s.irqs ∧
    (s.start i).port = s.port ∧ (s.start i).saved = s.saved := by
  and_intros <;> rfl

@[simp] theorem stoppedBehind_fields (s : State) (ids : List Nat) :
    (s.stoppedBehind ids).loc = s.loc ∧ (s.stoppedBehind ids).pre = s.pre ∧ (s.stoppedBehind ids).iss.warp = s.iss.warp ∧ (s.stoppedBehind ids).iss.lanes = s.iss.lanes ∧
    (s.stoppedBehind ids).iss.only = s.iss.only ∧ (s.stoppedBehind ids).iss.pc = s.iss.pc ∧ (s.stoppedBehind ids).iss.ws = s.iss.ws ∧
    (s.stoppedBehind ids).iss.first = s.iss.first ∧ (s.stoppedBehind ids).iss.word = s.iss.word ∧ (s.stoppedBehind ids).iss.after = s.iss.after ∧
    (s.stoppedBehind ids).iss.stop = true ∧ (s.stoppedBehind ids).iss.xfer = s.iss.xfer ∧ (s.stoppedBehind ids).iss.changed = s.iss.changed ∧
    (s.stoppedBehind ids).iss.cyc = s.iss.cyc ∧ (s.stoppedBehind ids).iss.name0 = s.iss.name0 ∧ (s.stoppedBehind ids).iss.push = s.iss.push ++ ids ∧
    (s.stoppedBehind ids).iss.asks = s.iss.asks ∧ (s.stoppedBehind ids).tails = s.tails ∧ (s.stoppedBehind ids).teams = s.teams ∧ (s.stoppedBehind ids).cores = s.cores ∧
    (s.stoppedBehind ids).clock = s.clock ∧ (s.stoppedBehind ids).nextId = s.nextId ∧ (s.stoppedBehind ids).nextTeam = s.nextTeam ∧
    (s.stoppedBehind ids).agenda = s.agenda ∧ (s.stoppedBehind ids).queue = s.queue ∧ (s.stoppedBehind ids).evPhase = s.evPhase ∧
    (s.stoppedBehind ids).choices = s.choices ∧ (s.stoppedBehind ids).items = s.items ∧ (s.stoppedBehind ids).outs = s.outs ∧ (s.stoppedBehind ids).mem = s.mem ∧
    (s.stoppedBehind ids).parts = s.parts ∧ (s.stoppedBehind ids).rows = s.rows ∧ (s.stoppedBehind ids).contracts = s.contracts ∧ (s.stoppedBehind ids).lost = s.lost ∧
    (s.stoppedBehind ids).accx = s.accx ∧ (s.stoppedBehind ids).seqs = s.seqs ∧ (s.stoppedBehind ids).track = s.track ∧ (s.stoppedBehind ids).tlbs = s.tlbs ∧
    (s.stoppedBehind ids).reserve = s.reserve ∧ (s.stoppedBehind ids).sharers = s.sharers ∧ (s.stoppedBehind ids).bad = s.bad ∧ (s.stoppedBehind ids).keyOf = s.keyOf ∧
    (s.stoppedBehind ids).upsets = s.upsets ∧ (s.stoppedBehind ids).failedBanks = s.failedBanks ∧ (s.stoppedBehind ids).deadLinks = s.deadLinks ∧
    (s.stoppedBehind ids).deadPeers = s.deadPeers ∧ (s.stoppedBehind ids).peerAccx = s.peerAccx ∧ (s.stoppedBehind ids).peerFaults = s.peerFaults ∧
    (s.stoppedBehind ids).hostBias = s.hostBias ∧ (s.stoppedBehind ids).mbOn = s.mbOn ∧ (s.stoppedBehind ids).mbbase = s.mbbase ∧
    (s.stoppedBehind ids).mbhost = s.mbhost ∧ (s.stoppedBehind ids).pod = s.pod ∧ (s.stoppedBehind ids).peerRanges = s.peerRanges ∧ (s.stoppedBehind ids).mbox = s.mbox ∧
    (s.stoppedBehind ids).hostLines = s.hostLines ∧ (s.stoppedBehind ids).refresh = s.refresh ∧ (s.stoppedBehind ids).launches = s.launches ∧
    (s.stoppedBehind ids).queues = s.queues ∧ (s.stoppedBehind ids).ctxs = s.ctxs ∧ (s.stoppedBehind ids).funcs = s.funcs ∧ (s.stoppedBehind ids).fnTurn = s.fnTurn ∧
    (s.stoppedBehind ids).harvest = s.harvest ∧ (s.stoppedBehind ids).firmware = s.firmware ∧ (s.stoppedBehind ids).log = s.log ∧ (s.stoppedBehind ids).irqs = s.irqs ∧
    (s.stoppedBehind ids).port = s.port ∧ (s.stoppedBehind ids).saved = s.saved := by
  and_intros <;> rfl

@[simp] theorem stoppedFor_fields (s : State) (asks : List Ask) :
    (s.stoppedFor asks).loc = s.loc ∧ (s.stoppedFor asks).pre = s.pre ∧ (s.stoppedFor asks).iss.warp = s.iss.warp ∧ (s.stoppedFor asks).iss.lanes = s.iss.lanes ∧
    (s.stoppedFor asks).iss.only = s.iss.only ∧ (s.stoppedFor asks).iss.pc = s.iss.pc ∧ (s.stoppedFor asks).iss.ws = s.iss.ws ∧
    (s.stoppedFor asks).iss.first = s.iss.first ∧ (s.stoppedFor asks).iss.word = s.iss.word ∧ (s.stoppedFor asks).iss.after = s.iss.after ∧
    (s.stoppedFor asks).iss.stop = true ∧ (s.stoppedFor asks).iss.xfer = s.iss.xfer ∧ (s.stoppedFor asks).iss.changed = s.iss.changed ∧
    (s.stoppedFor asks).iss.cyc = s.iss.cyc ∧ (s.stoppedFor asks).iss.name0 = s.iss.name0 ∧ (s.stoppedFor asks).iss.push = s.iss.push ∧
    (s.stoppedFor asks).iss.asks = s.iss.asks ++ asks ∧ (s.stoppedFor asks).tails = s.tails ∧ (s.stoppedFor asks).teams = s.teams ∧ (s.stoppedFor asks).cores = s.cores ∧
    (s.stoppedFor asks).clock = s.clock ∧ (s.stoppedFor asks).nextId = s.nextId ∧ (s.stoppedFor asks).nextTeam = s.nextTeam ∧
    (s.stoppedFor asks).agenda = s.agenda ∧ (s.stoppedFor asks).queue = s.queue ∧ (s.stoppedFor asks).evPhase = s.evPhase ∧
    (s.stoppedFor asks).choices = s.choices ∧ (s.stoppedFor asks).items = s.items ∧ (s.stoppedFor asks).outs = s.outs ∧ (s.stoppedFor asks).mem = s.mem ∧
    (s.stoppedFor asks).parts = s.parts ∧ (s.stoppedFor asks).rows = s.rows ∧ (s.stoppedFor asks).contracts = s.contracts ∧ (s.stoppedFor asks).lost = s.lost ∧
    (s.stoppedFor asks).accx = s.accx ∧ (s.stoppedFor asks).seqs = s.seqs ∧ (s.stoppedFor asks).track = s.track ∧ (s.stoppedFor asks).tlbs = s.tlbs ∧
    (s.stoppedFor asks).reserve = s.reserve ∧ (s.stoppedFor asks).sharers = s.sharers ∧ (s.stoppedFor asks).bad = s.bad ∧ (s.stoppedFor asks).keyOf = s.keyOf ∧
    (s.stoppedFor asks).upsets = s.upsets ∧ (s.stoppedFor asks).failedBanks = s.failedBanks ∧ (s.stoppedFor asks).deadLinks = s.deadLinks ∧
    (s.stoppedFor asks).deadPeers = s.deadPeers ∧ (s.stoppedFor asks).peerAccx = s.peerAccx ∧ (s.stoppedFor asks).peerFaults = s.peerFaults ∧
    (s.stoppedFor asks).hostBias = s.hostBias ∧ (s.stoppedFor asks).mbOn = s.mbOn ∧ (s.stoppedFor asks).mbbase = s.mbbase ∧
    (s.stoppedFor asks).mbhost = s.mbhost ∧ (s.stoppedFor asks).pod = s.pod ∧ (s.stoppedFor asks).peerRanges = s.peerRanges ∧ (s.stoppedFor asks).mbox = s.mbox ∧
    (s.stoppedFor asks).hostLines = s.hostLines ∧ (s.stoppedFor asks).refresh = s.refresh ∧ (s.stoppedFor asks).launches = s.launches ∧
    (s.stoppedFor asks).queues = s.queues ∧ (s.stoppedFor asks).ctxs = s.ctxs ∧ (s.stoppedFor asks).funcs = s.funcs ∧ (s.stoppedFor asks).fnTurn = s.fnTurn ∧
    (s.stoppedFor asks).harvest = s.harvest ∧ (s.stoppedFor asks).firmware = s.firmware ∧ (s.stoppedFor asks).log = s.log ∧ (s.stoppedFor asks).irqs = s.irqs ∧
    (s.stoppedFor asks).port = s.port ∧ (s.stoppedFor asks).saved = s.saved := by
  and_intros <;> rfl

@[simp] theorem needle_fields (s : State) (src : LogSource) (what : List Nat) :
    (s.needle src what).loc = s.loc ∧ (s.needle src what).pre = s.pre ∧ (s.needle src what).iss = s.iss ∧ (s.needle src what).tails = s.tails ∧
    (s.needle src what).teams = s.teams ∧ (s.needle src what).cores = s.cores ∧ (s.needle src what).clock = s.clock ∧ (s.needle src what).nextId = s.nextId ∧
    (s.needle src what).nextTeam = s.nextTeam ∧ (s.needle src what).agenda = s.agenda ∧ (s.needle src what).queue = s.queue ∧ (s.needle src what).evPhase = s.evPhase ∧
    (s.needle src what).choices = s.choices ∧ (s.needle src what).items = s.items ∧ (s.needle src what).outs = s.outs ∧ (s.needle src what).mem = s.mem ∧
    (s.needle src what).parts = s.parts ∧ (s.needle src what).rows = s.rows ∧ (s.needle src what).contracts = s.contracts ∧ (s.needle src what).lost = s.lost ∧
    (s.needle src what).accx = s.accx ∧ (s.needle src what).seqs = s.seqs ∧ (s.needle src what).track = s.track ∧ (s.needle src what).tlbs = s.tlbs ∧
    (s.needle src what).reserve = s.reserve ∧ (s.needle src what).sharers = s.sharers ∧ (s.needle src what).bad = s.bad ∧ (s.needle src what).keyOf = s.keyOf ∧
    (s.needle src what).upsets = s.upsets ∧ (s.needle src what).failedBanks = s.failedBanks ∧ (s.needle src what).deadLinks = s.deadLinks ∧
    (s.needle src what).deadPeers = s.deadPeers ∧ (s.needle src what).peerAccx = s.peerAccx ∧ (s.needle src what).peerFaults = s.peerFaults ∧
    (s.needle src what).hostBias = s.hostBias ∧ (s.needle src what).mbOn = s.mbOn ∧ (s.needle src what).mbbase = s.mbbase ∧ (s.needle src what).mbhost = s.mbhost ∧
    (s.needle src what).pod = s.pod ∧ (s.needle src what).peerRanges = s.peerRanges ∧ (s.needle src what).mbox = s.mbox ∧ (s.needle src what).hostLines = s.hostLines ∧
    (s.needle src what).refresh = s.refresh ∧ (s.needle src what).launches = s.launches ∧ (s.needle src what).queues = s.queues ∧ (s.needle src what).ctxs = s.ctxs ∧
    (s.needle src what).funcs = s.funcs ∧ (s.needle src what).fnTurn = s.fnTurn ∧ (s.needle src what).harvest = s.harvest ∧ (s.needle src what).firmware = s.firmware ∧
    (s.needle src what).log = s.log ++ [⟨s.clock, src, what⟩] ∧ (s.needle src what).irqs = s.irqs ∧ (s.needle src what).port = s.port ∧
    (s.needle src what).saved = s.saved := by
  and_intros <;> rfl

@[simp] theorem poke_fields (s : State) (a : Nat) (bs : List Byte) :
    (s.poke a bs).loc = s.loc ∧ (s.poke a bs).pre = s.pre ∧ (s.poke a bs).iss = s.iss ∧ (s.poke a bs).tails = s.tails ∧ (s.poke a bs).teams = s.teams ∧
    (s.poke a bs).cores = s.cores ∧ (s.poke a bs).clock = s.clock ∧ (s.poke a bs).nextId = s.nextId ∧ (s.poke a bs).nextTeam = s.nextTeam ∧
    (s.poke a bs).agenda = s.agenda ∧ (s.poke a bs).queue = s.queue ∧ (s.poke a bs).evPhase = s.evPhase ∧ (s.poke a bs).choices = s.choices ∧
    (s.poke a bs).items = s.items ∧ (s.poke a bs).outs = s.outs ∧ (s.poke a bs).mem = State.poke.pokeFrom s.mem a bs ∧ (s.poke a bs).parts = s.parts ∧
    (s.poke a bs).rows = s.rows ∧ (s.poke a bs).contracts = s.contracts ∧ (s.poke a bs).lost = s.lost ∧ (s.poke a bs).accx = s.accx ∧ (s.poke a bs).seqs = s.seqs ∧
    (s.poke a bs).track = s.track ∧ (s.poke a bs).tlbs = s.tlbs ∧ (s.poke a bs).reserve = s.reserve ∧ (s.poke a bs).sharers = s.sharers ∧ (s.poke a bs).bad = s.bad ∧
    (s.poke a bs).keyOf = s.keyOf ∧ (s.poke a bs).upsets = s.upsets ∧ (s.poke a bs).failedBanks = s.failedBanks ∧ (s.poke a bs).deadLinks = s.deadLinks ∧
    (s.poke a bs).deadPeers = s.deadPeers ∧ (s.poke a bs).peerAccx = s.peerAccx ∧ (s.poke a bs).peerFaults = s.peerFaults ∧ (s.poke a bs).hostBias = s.hostBias ∧
    (s.poke a bs).mbOn = s.mbOn ∧ (s.poke a bs).mbbase = s.mbbase ∧ (s.poke a bs).mbhost = s.mbhost ∧ (s.poke a bs).pod = s.pod ∧
    (s.poke a bs).peerRanges = s.peerRanges ∧ (s.poke a bs).mbox = s.mbox ∧ (s.poke a bs).hostLines = s.hostLines ∧ (s.poke a bs).refresh = s.refresh ∧
    (s.poke a bs).launches = s.launches ∧ (s.poke a bs).queues = s.queues ∧ (s.poke a bs).ctxs = s.ctxs ∧ (s.poke a bs).funcs = s.funcs ∧
    (s.poke a bs).fnTurn = s.fnTurn ∧ (s.poke a bs).harvest = s.harvest ∧ (s.poke a bs).firmware = s.firmware ∧ (s.poke a bs).log = s.log ∧ (s.poke a bs).irqs = s.irqs ∧
    (s.poke a bs).port = s.port ∧ (s.poke a bs).saved = s.saved := by
  and_intros <;> rfl

end Sys2Proof.Machine.State
end

