-- ==== Sys2Proof/Laws/Tables.lean ====
section
/-! SUPPORT. Sparse tables: what a table lists after a value is put under a key or a key is removed; and the same for the parts of the
state that are tables. -/

namespace Sys2Proof.Machine

/-- The key just set lists its value. -/
@[simp] theorem aget_aset_same {α : Type} (t : Assoc α) (k : Nat) (v : α) : aget (aset t k v) k = some v := by
  induction t with
  | nil => simp [aset, aget]
  | cons p t ih =>
    obtain ⟨k', v'⟩ := p
    unfold aset
    split
    · next h => simp [aget, ih, Nat.ne_of_lt h]
    · split <;> simp [aget]

/-- Every other key stands. -/
theorem aget_aset_ne {α : Type} (t : Assoc α) (k j : Nat) (v : α) (h : j ≠ k) : aget (aset t k v) j = aget t j := by
  induction t with
  | nil => simp [aset, aget, Ne.symm h]
  | cons p t ih =>
    obtain ⟨k', v'⟩ := p
    unfold aset
    split
    · simp only [aget, ih]
    · split
      · next h2 => subst h2; simp [aget, Ne.symm h]
      · simp [aget, Ne.symm h]

theorem aget_aset {α : Type} (t : Assoc α) (k j : Nat) (v : α) : aget (aset t k v) j = if j = k then some v else aget t j := by
  split
  · next h => subst h; exact aget_aset_same t j v
  · next h => exact aget_aset_ne t k j v h

/-- A removed key lists nothing. -/
@[simp] theorem aget_adel_same {α : Type} (t : Assoc α) (k : Nat) : aget (adel t k) k = none := by
  induction t with
  | nil => rfl
  | cons p t ih =>
    obtain ⟨k', v'⟩ := p
    unfold adel
    split
    · exact ih
    · next h => simp [aget, h, ih]

theorem aget_adel_ne {α : Type} (t : Assoc α) (k j : Nat) (h : j ≠ k) : aget (adel t k) j = aget t j := by
  induction t with
  | nil => rfl
  | cons p t ih =>
    obtain ⟨k', v'⟩ := p
    unfold adel
    split
    · next h2 => subst h2; simp [aget, Ne.symm h, ih]
    · simp only [aget, ih]

theorem aget_adel {α : Type} (t : Assoc α) (k j : Nat) : aget (adel t k) j = if j = k then none else aget t j := by
  split
  · next h => subst h; exact aget_adel_same t j
  · next h => exact aget_adel_ne t k j h

namespace State

@[simp] theorem setTeam_team (s : State) (t : Nat) (x : Team) (u : Nat) : (s.setTeam t x).team u = if u = t then x else s.team u := by
  simp only [team, setTeam, aget_aset]; split <;> rfl
@[simp] theorem setCore_core (s : State) (c : Nat) (x : Core) (u : Nat) : (s.setCore c x).core u = if u = c then x else s.core u := by
  simp only [core, setCore, aget_aset]; split <;> rfl
@[simp] theorem setFib_fib (s : State) (k : Nat) (f : Fibre) (u : Nat) : (s.setFib k f).fib u = if u = k then f else s.fib u := by
  simp only [fib, Local.fib, setFib, aget_aset]; split <;> rfl
@[simp] theorem setWarp_warp (s : State) (w : Nat) (x : Warp) (u : Nat) : (s.setWarp w x).warp u = if u = w then x else s.warp u := by
  simp only [warp, Local.warp, setWarp, aget_aset]; split <;> rfl
@[simp] theorem setGranule_granule (s : State) (g : Nat) (x : Granule) (u : Nat) :
    (s.setGranule g x).granule u = if u = g then x else s.granule u := by
  simp only [granule, Local.granule, setGranule, aget_aset]; split <;> rfl
@[simp] theorem setCtx_ctx (s : State) (c : Nat) (x : Ctx) (u : Nat) : (s.setCtx c x).ctx u = if u = c then x else s.ctx u := by
  simp only [ctx, setCtx, aget_aset]; split <;> rfl
@[simp] theorem setFunc_func (s : State) (f : Nat) (x : Func) (u : Nat) : (s.setFunc f x).func u = if u = f then x else s.func u := by
  simp only [func, setFunc, aget_aset]; split <;> rfl
@[simp] theorem setQueue_queueOf (s : State) (fn q : Nat) (x : Queue) : (s.setQueue fn q x).queueOf fn q = x := by
  simp [queueOf, setQueue]
@[simp] theorem putItem_item (s : State) (k : Nat) (i : Item) (u : Nat) : (s.putItem k i).item u = if u = k then some i else s.item u := by
  simp only [item, putItem, aget_aset]
@[simp] theorem dropItem_item (s : State) (k : Nat) (u : Nat) : (s.dropItem k).item u = if u = k then none else s.item u := by
  simp only [item, dropItem, aget_adel]
@[simp] theorem start_item (s : State) (i : Item) (u : Nat) : (s.start i).item u = if u = s.nextId then some i else s.item u := by
  simp only [item, start, named, putItem, aget_aset]

end State

end Sys2Proof.Machine
end

