-- ==== Sys2Proof/Laws/Memory.lean ====
section
/-! SUPPORT. Memory: a read after a write, and that every write keeps the canonical form (addresses rising, no entry that holds what
an unlisted byte reads as); and that the parity of a row rebuilds its lines. -/

namespace Sys2Proof.Machine

/-- A list whose addresses start above an address lists nothing for it. -/
theorem mget_below {m : List Host.Cell} {lo a : Nat} (h : memWfFrom lo m = true) (ha : a < lo) : mget m a = 0 := by
  induction m generalizing lo with
  | nil => rfl
  | cons p t ih =>
    obtain ⟨k, v⟩ := p
    simp only [memWfFrom, Bool.and_eq_true, decide_eq_true_eq] at h
    have hk : k ≠ a := by omega
    simp only [mget, hk, if_false]
    exact ih h.2 (by omega)

theorem memWfFrom_mono {m : List Host.Cell} {lo hi : Nat} (h : memWfFrom hi m = true) (hl : lo ≤ hi) : memWfFrom lo m = true := by
  cases m with
  | nil => rfl
  | cons p t =>
    obtain ⟨k, v⟩ := p
    simp only [memWfFrom, Bool.and_eq_true, decide_eq_true_eq] at h ⊢
    exact ⟨⟨by omega, h.1.2⟩, h.2⟩

theorem memWfFrom_mset {m : List Host.Cell} {lo a : Nat} {v : Byte} (h : memWfFrom lo m = true) (ha : lo ≤ a) :
    memWfFrom lo (mset m a v) = true := by
  induction m generalizing lo with
  | nil => unfold mset; split <;> simp_all [memWfFrom]
  | cons p t ih =>
    obtain ⟨k, x⟩ := p
    have h0 := h
    simp only [memWfFrom, Bool.and_eq_true, decide_eq_true_eq] at h
    unfold mset
    split
    · next hk =>
      simp only [memWfFrom, Bool.and_eq_true, decide_eq_true_eq]
      exact ⟨h.1, ih h.2 (by omega)⟩
    · split
      · next hk =>
        split
        · exact memWfFrom_mono h.2 (by omega)
        · next hv => simp only [memWfFrom, Bool.and_eq_true, decide_eq_true_eq, bne_iff_ne]; exact ⟨⟨ha, hv⟩, hk ▸ h.2⟩
      · split
        · exact h0
        · next hk hk' hv =>
          simp only [memWfFrom, Bool.and_eq_true, decide_eq_true_eq, bne_iff_ne]
          exact ⟨⟨ha, hv⟩, ⟨by omega, by simpa using h.1.2⟩, h.2⟩

/-- A write of a byte keeps the canonical form. -/
theorem memWf_mset {m : List Host.Cell} (a : Nat) (v : Byte) (h : memWf m = true) : memWf (mset m a v) = true :=
  memWfFrom_mset h (Nat.zero_le a)

theorem mget_mset_from {m : List Host.Cell} {lo : Nat} (h : memWfFrom lo m = true) (a : Nat) (v : Byte) (b : Nat) :
    mget (mset m a v) b = if b = a then v else mget m b := by
  induction m generalizing lo with
  | nil =>
    unfold mset
    split
    · next hv => simp [mget, hv]
    · simp only [mget]; by_cases hb : b = a
      · simp [hb]
      · simp [hb, Ne.symm hb]
  | cons p t ih =>
    obtain ⟨k, x⟩ := p
    simp only [memWfFrom, Bool.and_eq_true, decide_eq_true_eq] at h
    unfold mset
    split
    · next hk =>
      simp only [mget, ih h.2]
      by_cases hb : k = b
      · simp [hb, show b ≠ a by omega]
      · simp [hb]
    · split
      · next hk =>
        subst hk
        split
        · next hv =>
          by_cases hb : b = k
          · subst hb; simp [hv, mget_below h.2 (Nat.lt_succ_self b)]
          · simp [mget, hb, Ne.symm hb]
        · by_cases hb : b = k
          · simp [mget, hb]
          · simp [mget, hb, Ne.symm hb]
      · split
        · next hk hk' hv =>
          by_cases hb : b = a
          · subst hb
            have : mget t b = 0 := mget_below h.2 (by omega)
            simp [mget, hk', hv, this]
          · simp [hb]
        · by_cases hb : b = a
          · simp [mget, hb]
          · simp [mget, hb, Ne.symm hb]

/-- A byte just written reads back, every other byte stands. -/
theorem mget_mset {m : List Host.Cell} (h : memWf m = true) (a : Nat) (v : Byte) (b : Nat) :
    mget (mset m a v) b = if b = a then v else mget m b := mget_mset_from h a v b

namespace State

theorem memWf_pokeFrom {m : List Host.Cell} (bs : List Byte) (a : Nat) (h : memWf m = true) : memWf (poke.pokeFrom m a bs) = true := by
  induction bs generalizing m a with
  | nil => exact h
  | cons b bs ih => exact ih (a + 1) (memWf_mset a b h)

/-- A run of written bytes reads back, every other byte stands. -/
theorem mget_pokeFrom {m : List Host.Cell} (bs : List Byte) (a : Nat) (h : memWf m = true) (x : Nat) :
    mget (poke.pokeFrom m a bs) x = if a ≤ x ∧ x < a + bs.length then bs.getD (x - a) 0 else mget m x := by
  induction bs generalizing m a with
  | nil => simp [poke.pokeFrom] <;> omega
  | cons b bs ih =>
    simp only [poke.pokeFrom, ih (a + 1) (memWf_mset a b h), mget_mset h, List.length_cons]
    by_cases hx : x = a
    · subst hx; simp <;> omega
    · by_cases h1 : a + 1 ≤ x ∧ x < a + 1 + bs.length
      · have h2 : a ≤ x ∧ x < a + (bs.length + 1) := by omega
        have h3 : x - a = (x - (a + 1)) + 1 := by omega
        rw [if_pos h1, if_pos h2, h3]; rfl
      · have h2 : ¬(a ≤ x ∧ x < a + (bs.length + 1)) := by omega
        rw [if_neg h1, if_neg h2, if_neg hx]

/-- Memory of a state is in its canonical form. -/
theorem memWf_poke {s : State} (a : Nat) (bs : List Byte) (h : memWf s.mem = true) : memWf (s.poke a bs).mem = true :=
  memWf_pokeFrom bs a h
theorem memWf_wr {s : State} (a n v : Nat) (h : memWf s.mem = true) : memWf (s.wr a n v).mem = true := memWf_poke _ _ h
theorem mget_poke {s : State} (a : Nat) (bs : List Byte) (h : memWf s.mem = true) (x : Nat) :
    mget (s.poke a bs).mem x = if a ≤ x ∧ x < a + bs.length then bs.getD (x - a) 0 else mget s.mem x := mget_pokeFrom bs a h x
@[simp] theorem reset_memWf : memWf State.reset.mem = true := rfl

/-! ### Parity (R237, R238): the other 15 lines of a row and its parity line give back the sixteenth -/

theorem foldl_xor_start (f : Nat → Byte) (l : List Nat) (a : Byte) :
    l.foldl (fun x j => x ^^^ f j) a = a ^^^ l.foldl (fun x j => x ^^^ f j) 0 := by
  induction l generalizing a with
  | nil => simp
  | cons b t ih => rw [List.foldl_cons, List.foldl_cons, ih, ih (0 ^^^ f b)]; simp [BitVec.xor_assoc]
/-- The XOR over a list is that over the list without one member, and that member. -/
theorem foldl_xor_without (f : Nat → Byte) {l : List Nat} {k : Nat} (hk : k ∈ l) (hl : l.Nodup) :
    l.foldl (fun x j => x ^^^ f j) 0 = f k ^^^ (l.filter (· != k)).foldl (fun x j => x ^^^ f j) 0 := by
  induction l with
  | nil => cases hk
  | cons b t ih =>
    obtain ⟨hb, ht⟩ := List.nodup_cons.mp hl
    rcases List.mem_cons.mp hk with rfl | hm
    · have : t.filter (· != k) = t := List.filter_eq_self.mpr fun x hx => by
        have : x ≠ k := fun h => hb (h ▸ hx)
        simpa using this
      rw [List.foldl_cons, foldl_xor_start, List.filter_cons_of_neg (by simp), this]; simp
    · have hbk : b ≠ k := fun h => hb (h ▸ hm)
      rw [List.foldl_cons, foldl_xor_start, ih hm ht, List.filter_cons_of_pos (by simpa using hbk), List.foldl_cons,
        foldl_xor_start f _ (0 ^^^ f b)]
      have z : 0 ^^^ f b = f b := BitVec.zero_xor
      rw [z, ← BitVec.xor_assoc, ← BitVec.xor_assoc, BitVec.xor_comm (f b) (f k)]
/-- A byte that the parity rebuilds is the byte of its bank (R238). -/
theorem rebuiltByte_bankByte (s : State) (row off : Nat) {j : Nat} (hj : j < 16) : s.rebuiltByte row j off = s.bankByte row j off := by
  rw [rebuiltByte, foldl_xor_start, parityByte, foldl_xor_without _ (List.mem_range.mpr hj) List.nodup_range, BitVec.xor_assoc, BitVec.xor_self,
    BitVec.xor_zero]

end State

end Sys2Proof.Machine
end

