-- ==== Sys2Proof/Laws/Registers.lean ====
section
/-! SUPPORT. The register window and predicates: what a register reads after a write, and, once for every word that uses them, what
the shared writers of a group's results (writeRegs, writePairs, writePreds) do and leave. -/

namespace Sys2Proof.Machine

/-- A word written under a generation reads back under it. -/
theorem granule_read_write_same (g : Granule) (gen : BitVec 16) (i : Nat) (v : Word) (h : i < 16) :
    (g.write gen i v).read gen i = v := by
  simp [Granule.read, Granule.write, h]

/-- The other words of the granule read as before under the generation that wrote (R209). -/
theorem granule_read_write_ne (g : Granule) (gen : BitVec 16) (i j : Nat) (v : Word) (h : j ≠ i) :
    (g.write gen i v).read gen j = g.read gen j := by
  unfold Granule.write Granule.read
  by_cases hi : i < 16
  · rw [dif_pos hi]
    by_cases hg : g.tag = gen
    · simp only [hg, if_true, List.getD_eq_getElem?_getD, Vector.toList_set, List.getElem?_set_ne (Ne.symm h)]
    · simp only [hg, if_true, if_false, List.getD_eq_getElem?_getD, Vector.toList_set, List.getElem?_set_ne (Ne.symm h)]
      rw [← List.getD_eq_getElem?_getD]
      simp only [Vector.toList_replicate]
      simp only [List.getD_eq_getElem?_getD, List.getElem?_replicate]
      split <;> rfl
  · rw [dif_neg hi]

end Sys2Proof.Machine

namespace Sys2Proof.Claims
open Sys2Proof.Machine

/-! ### Active fibres -/

theorem mem_active_lt {s : State} {h : Hdr} {l : Nat} (hl : l ∈ s.active h) : l < 32 := by
  have hm : l ∈ allLanes := (List.mem_filter.mp (List.mem_filter.mp hl).1).1
  simp only [allLanes, List.mem_cons, List.not_mem_nil, or_false] at hm
  omega

theorem nodup_active (s : State) (h : Hdr) : (s.active h).Nodup :=
  List.Nodup.sublist (List.filter_sublist.trans List.filter_sublist) (by decide)

/-! ### Changes of registers -/

/-- Nothing changes but the words of the core store whose places a test names, and the mark of the spin detector. -/
def RegChange (s t : State) (P : Nat × Nat → Prop) : Prop :=
  t = { s with loc := { s.loc with gran := t.loc.gran }, iss := { s.iss with changed := t.iss.changed } } ∧
  (∀ g, (∀ k, ¬P (g, k)) → t.granule g = s.granule g) ∧
  (∀ g k, ¬P (g, k) → (t.granule g).read s.myTeam.grant.gen k = (s.granule g).read s.myTeam.grant.gen k)

namespace RegChange
variable {s t u : State} {P Q : Nat × Nat → Prop}

theorem refl (s : State) : RegChange s s (fun _ => False) := ⟨rfl, fun _ _ => rfl, fun _ _ _ => rfl⟩

theorem pre (h : RegChange s t P) : t.pre = s.pre := by rw [h.1]
theorem teams (h : RegChange s t P) : t.teams = s.teams := by rw [h.1]
theorem warp (h : RegChange s t P) : t.iss.warp = s.iss.warp := by rw [h.1]
theorem mem (h : RegChange s t P) : t.mem = s.mem := by rw [h.1]
theorem myTeam (h : RegChange s t P) : t.myTeam = s.myTeam := by simp only [State.myTeam, State.team, h.warp, h.teams]
theorem laneBefore (h : RegChange s t P) (l : Nat) : t.laneBefore l = s.laneBefore l := by
  simp only [State.laneBefore, h.warp, h.pre]
theorem regAt_eq (h : RegChange s t P) (l r : Nat) : regAt t l r = regAt s l r := by
  simp only [regAt, h.warp, h.myTeam, h.laneBefore]
theorem active (h : RegChange s t P) (hd : Hdr) : t.active hd = s.active hd := by
  rw [h.1]; rfl

theorem trans (h1 : RegChange s t P) (h2 : RegChange t u Q) : RegChange s u (fun p => P p ∨ Q p) := by
  refine ⟨?_, ?_, ?_⟩
  · have e := h2.1
    rw [h1.1] at e
    exact e
  · intro g hg
    rw [h2.2.1 g (fun k => fun c => hg k (.inr c)), h1.2.1 g (fun k => fun c => hg k (.inl c))]
  · intro g k hk
    have e := h2.2.2 g k (fun c => hk (.inr c))
    rw [h1.myTeam] at e
    rw [e, h1.2.2 g k (fun c => hk (.inl c))]

theorem mono (h : RegChange s t P) (hpq : ∀ p, P p → Q p) : RegChange s t Q :=
  ⟨h.1, fun g hg => h.2.1 g (fun k c => hg k (hpq _ c)), fun g k hk => h.2.2 g k (fun c => hk (hpq _ c))⟩

/-- What a register reads in a later state. -/
theorem reg_eq (h : RegChange s t P) (l r : Nat) :
    reg s t l r = (t.granule (regAt s l r).1).read s.myTeam.grant.gen (regAt s l r).2 := by
  have e : t.team (teamOf s.iss.warp) = s.team (teamOf s.iss.warp) := by simp only [State.team, h.teams]
  simp only [reg, State.logical, Local.readLogical, regAt, State.granule, State.myTeam, e]

/-- A register whose place is not named stands. -/
theorem reg_stands (h1 : RegChange s t P) (h2 : RegChange t u Q) (l r : Nat) (hq : ¬Q (regAt s l r)) : reg s u l r = reg s t l r := by
  rw [(h1.trans h2).reg_eq, h1.reg_eq]
  have e := h2.2.2 (regAt s l r).1 (regAt s l r).2 hq
  rwa [h1.myTeam] at e

theorem frame {ls : List Nat} {d n : Nat} (h : RegChange s t (fun p => ∃ l ∈ ls, ∃ i < n, p = regAt s l (d + i))) :
    RegFrame s t ls d n := by
  refine ⟨h.1, fun a => by rw [h.mem], ?_, ?_⟩
  · intro g hg
    refine h.2.1 g ?_
    rintro k ⟨l, hl, i, hi, e⟩
    exact hg l hl i hi (by rw [← e])
  · intro g k hk
    refine h.2.2 g k ?_
    rintro ⟨l, hl, i, hi, e⟩
    exact hk l hl i hi e.symm
end RegChange

/-- A write of one register of a lane: it reads the value, and only its place changes. -/
theorem setReg_change (s : State) (l r : Nat) (v : Word) :
    RegChange s (s.setReg l r v) (fun p => p = regAt s l r) ∧ reg s (s.setReg l r v) l r = v := by
  have hlt : ((s.laneBefore l).wb + r) % 16 < 16 := Nat.mod_lt _ (by decide)
  have hg : ∀ g, (s.setReg l r v).granule g = if g = (regAt s l r).1 then
      (s.granule g).write s.myTeam.grant.gen (regAt s l r).2 v else s.granule g := by
    intro g
    have h1 : (s.setReg l r v).granule g = (s.setLogical s.iss.warp l ((s.laneBefore l).wb + r) v).granule g := by
      simp only [State.setReg]; split <;> rfl
    rw [h1, State.setLogical, State.setGranule_granule]
    by_cases e : g = (regAt s l r).1
    · subst e; rw [if_pos rfl]; exact if_pos rfl
    · rw [if_neg e]; exact if_neg e
  have h0 : RegChange s (s.setReg l r v) (fun p => p = regAt s l r) := by
    refine ⟨?_, ?_, ?_⟩
    · simp only [State.setReg]; split <;> rfl
    · intro g hg'
      rw [hg, if_neg]
      intro e
      exact hg' (regAt s l r).2 (by rw [e])
    · intro g k hk
      rw [hg]
      split
      · next e => exact granule_read_write_ne _ _ _ _ _ (fun e2 => hk (by rw [e, e2]))
      · rfl
  refine ⟨h0, ?_⟩
  rw [h0.reg_eq, hg, if_pos rfl]
  exact granule_read_write_same _ _ _ _ hlt

/-- A pair is its two halves. -/
theorem append_halves (v : DWord) : ((v >>> 32).setWidth 32 ++ v.setWidth 32 : BitVec 64) = v := by
  ext k hk
  simp only [BitVec.getElem_append, BitVec.getElem_setWidth, BitVec.getLsbD_ushiftRight]
  split
  · simp [BitVec.getLsbD_eq_getElem hk]
  · next h => rw [show 32 + (k - 32) = k by omega]; simp [hk]

/-- A run of writers over lanes, each of which sets n registers of its own lane, sets them in every lane (R41, R94). -/
theorem foldl_lanes (s : State) (hA : Apart s) (d n : Nat) (Good : Nat → State → Prop) (f : State → Nat → State)
    (hf : ∀ t l, (∃ P, RegChange s t P) → RegChange t (f t l) (fun p => ∃ i < n, p = regAt s l (d + i)) ∧ Good l (f t l))
    (hG : ∀ t u l, (∃ P, RegChange s t P) → (∃ P, RegChange s u P) → (∀ i < n, reg s u l (d + i) = reg s t l (d + i)) → Good l t → Good l u) :
    ∀ ls : List Nat, ls.Nodup → (∀ l ∈ ls, l < 32) →
      RegChange s (ls.foldl f s) (fun p => ∃ l ∈ ls, ∃ i < n, p = regAt s l (d + i)) ∧ ∀ l ∈ ls, Good l (ls.foldl f s) := by
  intro ls
  induction ls using List.reverseRecOn with
  | nil => intro _ _; exact ⟨(RegChange.refl s).mono (by simp), by simp⟩
  | append_singleton ls m ih =>
    intro hn hl
    obtain ⟨hn1, -, hd⟩ := List.nodup_append.mp hn
    obtain ⟨h1, h2⟩ := ih hn1 (fun l h => hl l (by simp [h]))
    obtain ⟨h3, h4⟩ := hf (ls.foldl f s) m ⟨_, h1⟩
    rw [List.foldl_append]
    simp only [List.foldl_cons, List.foldl_nil]
    have h5 := (h1.trans h3).mono (Q := fun p => ∃ l ∈ ls ++ [m], ∃ i < n, p = regAt s l (d + i)) (by
      rintro p (⟨l, hl', i, hi, e⟩ | ⟨i, hi, e⟩)
      · exact ⟨l, by simp [hl'], i, hi, e⟩
      · exact ⟨m, by simp, i, hi, e⟩)
    refine ⟨h5, ?_⟩
    intro l hl'
    rcases List.mem_append.mp hl' with h | h
    · refine hG (ls.foldl f s) _ l ⟨_, h1⟩ ⟨_, h5⟩ ?_ (h2 l h)
      intro i hi
      refine h1.reg_stands h3 l (d + i) ?_
      rintro ⟨j, hj, e⟩
      have hne : l ≠ m := hd l h m (by simp)
      exact hA l (hl l (by simp [h])) m (hl m (by simp)) hne _ _ (congrArg Prod.fst e)
    · simp only [List.mem_singleton] at h
      subst h
      exact h4

/-- What `writeRegs` does: register d of every active fibre holds its value, and nothing else differs. -/
theorem writeRegs_sets (s : State) (hA : Apart s) (h : Hdr) (d : Reg) (val : Nat → Word) :
    (∀ l ∈ s.active h, reg s (s.writeRegs h d val) l d.toNat = val l) ∧ RegFrame s (s.writeRegs h d val) (s.active h) d.toNat 1 := by
  obtain ⟨h1, h2⟩ := foldl_lanes s hA d.toNat 1 (fun l t => reg s t l d.toNat = val l) (fun t l => t.setReg l d.toNat (val l))
    (by
      rintro t l ⟨P, hP⟩
      obtain ⟨c1, c2⟩ := setReg_change t l d.toNat (val l)
      refine ⟨c1.mono ?_, ?_⟩
      · rintro p rfl; exact ⟨0, by omega, by rw [hP.regAt_eq]; rfl⟩
      · rw [(hP.trans c1).reg_eq]
        rw [c1.reg_eq, hP.regAt_eq, hP.myTeam] at c2
        exact c2)
    (by
      rintro t u l ⟨P, hP⟩ ⟨Q, hQ⟩ he ht
      rw [← ht]; exact he 0 (by omega))
    (s.active h) (nodup_active s h) (fun l hl => mem_active_lt hl)
  exact ⟨h2, h1.frame⟩

/-- What `writePairs` does. -/
theorem writePairs_sets (s : State) (hA : Apart s) (h : Hdr) (d : Reg) (val : Nat → DWord) :
    (∀ l ∈ s.active h, pair s (s.writePairs h d val) l d.toNat = val l) ∧ RegFrame s (s.writePairs h d val) (s.active h) d.toNat 2 := by
  obtain ⟨h1, h2⟩ := foldl_lanes s hA d.toNat 2 (fun l t => pair s t l d.toNat = val l) (fun t l => t.setPair l d.toNat (val l))
    (by
      rintro t l ⟨P, hP⟩
      obtain ⟨a1, a2⟩ := setReg_change t l d.toNat ((val l).setWidth 32)
      obtain ⟨b1, b2⟩ := setReg_change (t.setReg l d.toNat ((val l).setWidth 32)) l (d.toNat + 1) (((val l) >>> 32).setWidth 32)
      have hne : regAt t l d.toNat ≠ regAt t l (d.toNat + 1) := by
        intro e
        have := congrArg Prod.snd e
        simp only [regAt] at this
        omega
      refine ⟨(a1.trans b1).mono ?_, ?_⟩
      · rintro p (rfl | e)
        · exact ⟨0, by omega, by rw [hP.regAt_eq]; rfl⟩
        · exact ⟨1, by omega, by rw [e, a1.regAt_eq, hP.regAt_eq]⟩
      · have e0 : reg s (t.setPair l d.toNat (val l)) l d.toNat = (val l).setWidth 32 := by
          have := a1.reg_stands b1 l d.toNat (by rw [a1.regAt_eq]; exact hne)
          rw [a2, (a1.trans b1).reg_eq, hP.regAt_eq, hP.myTeam] at this
          rw [State.setPair, (hP.trans (a1.trans b1)).reg_eq]; exact this
        have e1 : reg s (t.setPair l d.toNat (val l)) l (d.toNat + 1) = ((val l) >>> 32).setWidth 32 := by
          have := b2
          rw [b1.reg_eq, a1.regAt_eq, hP.regAt_eq, a1.myTeam, hP.myTeam] at this
          rw [State.setPair, (hP.trans (a1.trans b1)).reg_eq]; exact this
        simp only [pair, e0, e1]
        exact append_halves (val l))
    (by
      rintro t u l ⟨P, hP⟩ ⟨Q, hQ⟩ he ht
      rw [← ht]; simp only [pair]; rw [he 1 (by omega)]; have := he 0 (by omega); rw [Nat.add_zero] at this; rw [this])
    (s.active h) (nodup_active s h) (fun l hl => mem_active_lt hl)
  exact ⟨h2, h1.frame⟩

/-- A word whose meaning writes one register meets what holds of the values it writes. -/
theorem setsReg_of {s : State} (hA : Apart s) {i : Instr} {h : Hdr} {d : Reg} {val : Nat → Word} {P : Nat → Word → Prop}
    (e : exec i s = .next (s.writeRegs h d val)) (hv : ∀ l, P l (val l)) : SetsReg s i h d P := by
  obtain ⟨h1, h2⟩ := writeRegs_sets s hA h d val
  exact ⟨_, e, fun l hl => by rw [h1 l hl]; exact hv l, h2⟩
theorem setsPair_of {s : State} (hA : Apart s) {i : Instr} {h : Hdr} {d : Reg} {val : Nat → DWord} {P : Nat → DWord → Prop}
    (e : exec i s = .next (s.writePairs h d val)) (hv : ∀ l, P l (val l)) : SetsPair s i h d P := by
  obtain ⟨h1, h2⟩ := writePairs_sets s hA h d val
  exact ⟨_, e, fun l hl => by rw [h1 l hl]; exact hv l, h2⟩
theorem setsRegEx_of {s : State} (hA : Apart s) {i : Instr} {h : Hdr} {d : Reg} {f : Nat → Nat × Exs}
    (e : exec i s = fpRegs s h d f) : SetsRegEx s i h d f := by
  obtain ⟨h1, h2⟩ := writeRegs_sets s hA h d fun l => BitVec.ofNat 32 (f l).1
  exact ⟨_, e.trans (by unfold fpRegs State.raiseEx; rw [h2.1]), h1, h2⟩
theorem setsPairEx_of {s : State} (hA : Apart s) {i : Instr} {h : Hdr} {d : Reg} {f : Nat → Nat × Exs}
    (e : exec i s = fpPairs s h d f) : SetsPairEx s i h d f := by
  obtain ⟨h1, h2⟩ := writePairs_sets s hA h d fun l => BitVec.ofNat 64 (f l).1
  exact ⟨_, e.trans (by unfold fpPairs State.raiseEx; rw [h2.1]), h1, h2⟩

/-! ### Predicates -/

theorem fibKey_inj {w l m : Nat} (h : fibKey w l = fibKey w m) : l = m := by simp only [fibKey] at h; omega

/-- What a fibre's predicates read after one of them is written; p7 reads 1 (R13). -/
theorem pred_setPred (f : Fibre) (p q : Nat) (b : Bool) :
    (f.setPred p b).pred q = if q = 7 then true else if q = p ∧ p < 7 then b else f.pred q := by
  unfold Fibre.pred Fibre.setPred
  by_cases hq : q = 7
  · simp [hq]
  · simp only [hq, if_false]
    by_cases hp : p < 7
    · simp only [hp, if_true, and_true]
      by_cases e : q = p
      · subst e
        cases b <;> simp [hp]
      · cases b
        · simp only [Bool.false_eq_true, if_false, e, BitVec.getLsbD_and, BitVec.getLsbD_not, BitVec.getLsbD_twoPow]
          by_cases hb : f.preds.getLsbD q
          · have := BitVec.lt_of_getLsbD hb
            simp [this, Ne.symm e]
          · simp [hb]
        · simp [BitVec.getLsbD_or, BitVec.getLsbD_twoPow, e, Ne.symm e]
    · simp [hp]

/-- Writing predicates touches nothing else of a fibre. -/
theorem setPred_twice (f : Fibre) (p q : Nat) (b c : Bool) :
    (f.setPred p b).setPred q c = { f with preds := ((f.setPred p b).setPred q c).preds } := by
  unfold Fibre.setPred; split <;> split <;> rfl

/-- A write of one predicate of a lane. -/
theorem setPredOf_lane (s : State) (l p : Nat) (b : Bool) (m : Nat) :
    (s.setPredOf l p b).lane m = if m = l then (s.lane l).setPred p b else s.lane m := by
  have e : (s.setPredOf l p b).lane m = (s.setLane l ((s.lane l).setPred p b)).lane m := by
    simp only [State.setPredOf]; split <;> rfl
  rw [e]
  simp only [State.lane, State.setLane, State.setFib_fields, State.setFib_fib]
  by_cases h : m = l
  · simp [h]
  · have : fibKey s.iss.warp m ≠ fibKey s.iss.warp l := fun c => h (fibKey_inj c)
    simp [h, this]

/-- What `writePreds` does: pd and its complement in pe, pe last, in every active fibre, and nothing else differs. -/
theorem writePreds_sets (s : State) (h : Hdr) (pd pe : PredIx) (c : Nat → Bool) :
    (∀ l ∈ s.active h, (pe.toNat ≠ 7 → ((s.writePreds h pd pe c).lane l).pred pe.toNat = !c l) ∧
      (pd.toNat ≠ 7 → pd ≠ pe → ((s.writePreds h pd pe c).lane l).pred pd.toNat = c l)) ∧
    PredFrame s (s.writePreds h pd pe c) (s.active h) pd pe := by
  let f : State → Nat → State := fun t l => (t.setPredOf l pd.toNat (c l)).setPredOf l pe.toNat (!c l)
  let new (l : Nat) : Fibre := ((s.lane l).setPred pd.toNat (c l)).setPred pe.toNat (!c l)
  have one : ∀ (t : State) (l p : Nat) (b : Bool),
      t.setPredOf l p b = { t with loc := { t.loc with fibres := (t.setPredOf l p b).loc.fibres },
                                   iss := { t.iss with changed := (t.setPredOf l p b).iss.changed } } := by
    intro t l p b; simp only [State.setPredOf]; split <;> rfl
  have key : ∀ ls : List Nat, ls.Nodup →
      ls.foldl f s = { s with loc := { s.loc with fibres := (ls.foldl f s).loc.fibres }, iss := { s.iss with changed := (ls.foldl f s).iss.changed } } ∧
      (∀ k, (∀ l ∈ ls, fibKey s.iss.warp l ≠ k) → (ls.foldl f s).fib k = s.fib k) ∧
      (∀ l ∈ ls, (ls.foldl f s).lane l = new l) := by
    intro ls
    induction ls using List.reverseRecOn with
    | nil => intro _; exact ⟨rfl, fun _ _ => rfl, by simp⟩
    | append_singleton ls m ih =>
      intro hn
      obtain ⟨hn1, -, hd⟩ := List.nodup_append.mp hn
      obtain ⟨h1, h2, h3⟩ := ih hn1
      have step : (ls ++ [m]).foldl f s = ((ls.foldl f s).setPredOf m pd.toNat (c m)).setPredOf m pe.toNat (!c m) := by
        rw [List.foldl_append]; rfl
      rw [step]
      have hw : (ls.foldl f s).iss.warp = s.iss.warp := by rw [h1]
      have hm : m ∉ ls := fun c => hd m c m (by simp) rfl
      have hm' : (ls.foldl f s).lane m = s.lane m := by
        have := h2 (fibKey s.iss.warp m) (fun l hl e => hm (fibKey_inj e ▸ hl))
        simpa only [State.lane, hw] using this
      have hwarp : ∀ (t : State) (l p : Nat) (b : Bool), (t.setPredOf l p b).iss.warp = t.iss.warp := by
        intro t l p b; rw [one]
      refine ⟨?_, ?_, ?_⟩
      · have e1 := one (ls.foldl f s) m pd.toNat (c m)
        have e2 := one ((ls.foldl f s).setPredOf m pd.toNat (c m)) m pe.toNat (!c m)
        rw [e1, h1] at e2
        rw [e1, h1]
        exact e2
      · intro k hk
        have hk1 := h2 k (fun l hl => hk l (by simp [hl]))
        have hk2 := hk m (by simp)
        have fibOne : ∀ (t : State) (p : Nat) (b : Bool), t.iss.warp = s.iss.warp → (t.setPredOf m p b).fib k = t.fib k := by
          intro t p b ht
          have : (t.setPredOf m p b).fib k = (t.setLane m ((t.lane m).setPred p b)).fib k := by
            simp only [State.setPredOf]; split <;> rfl
          rw [this, State.setLane, State.setFib_fib, if_neg]
          rw [ht]; exact fun e => hk2 e.symm
        rw [fibOne _ _ _ (by rw [hwarp, hw]), fibOne _ _ _ hw, hk1]
      · intro l hl
        rw [setPredOf_lane]
        by_cases e : l = m
        · subst e; rw [if_pos rfl, setPredOf_lane, if_pos rfl, hm']
        · have hl' : l ∈ ls := by
            rcases List.mem_append.mp hl with x | x
            · exact x
            · exact absurd (List.mem_singleton.mp x) e
          rw [if_neg e, setPredOf_lane, if_neg e]
          exact h3 l hl'
  obtain ⟨h1, h2, h3⟩ := key (s.active h) (nodup_active s h)
  change (∀ l ∈ s.active h, (pe.toNat ≠ 7 → (((s.active h).foldl f s).lane l).pred pe.toNat = !c l) ∧ _) ∧ _
  refine ⟨?_, h1, ?_, h2, ?_⟩
  · intro l hl
    have hpd : pd.toNat < 8 := pd.isLt
    have hpe : pe.toNat < 8 := pe.isLt
    change _ ∧ (_ → _ → (((s.active h).foldl f s).lane l).pred pd.toNat = c l)
    rw [h3 l hl]
    simp only [new, pred_setPred]
    refine ⟨fun q => ?_, fun q q2 => ?_⟩
    · simp [q]; omega
    · have : pd.toNat ≠ pe.toNat := fun e => q2 (BitVec.eq_of_toNat_eq e)
      simp [q, this]; omega
  · intro a
    change mget ((s.active h).foldl f s).mem a = _
    rw [h1]
  · intro l hl
    change ((s.active h).foldl f s).lane l = { s.lane l with preds := (((s.active h).foldl f s).lane l).preds } ∧
      (((s.active h).foldl f s).lane l).pred 7 = true ∧ ∀ p < 7, _ → _ → (((s.active h).foldl f s).lane l).pred p = _
    rw [h3 l hl]
    refine ⟨?_, by simp [Fibre.pred], ?_⟩
    · exact setPred_twice _ _ _ _ _
    · intro p hp h4 h5
      simp only [new, pred_setPred]
      simp [h4, h5]; omega

theorem setsPreds_of {s : State} {i : Instr} {h : Hdr} {pd pe : PredIx} {c : Nat → Bool}
    (e : exec i s = .next (s.writePreds h pd pe c)) : SetsPreds s i h pd pe c none :=
  ⟨_, e, (writePreds_sets s h pd pe c).1, (writePreds_sets s h pd pe c).2⟩

end Sys2Proof.Claims
end

