-- ==== Sys2Proof/Tests/Slice0.lean ====
section
/-! SUPPORT. Tests of the model: the checks of WellFormed, one word of every row of the opcode map written out from spec/04, one step at a
time on a small machine with results from the spec's own examples, and, for every statement that has hypotheses, a machine that
meets them (`witness_…`). -/

namespace Sys2Proof.Tests
open Sys2Proof Sys2Proof.Machine Sys2Proof.Claims

set_option Elab.async false

/-! ### Decoding (spec/03 R34 to R37, spec/04 R56 to R69): header C_N_P_MAJ, then the fields of the body -/

def dec (w : Nat) : Option Instr := decodeTableWord 32 w
def failsWith (idx w : Nat) (e : DecodeFail) : Bool := match decodeWord idx w with
  | .error f => f == e
  | .ok _ => false

/-- MAJ 0x00. -/
theorem test_decode_iadd :
    dec 0b0_0_111_00000_000010_010100_101000_000_0 = some (.add ⟨false, false, 7⟩ 2 20 40 false) ∧
    dec 0b0_0_111_00000_000100_010110_101010_001_1 = some (.sub ⟨false, false, 7⟩ 4 22 42 true) ∧
    dec 0b0_0_111_00000_000110_011000_101100_010_0 = some (.mullo ⟨false, false, 7⟩ 6 24 44 false) ∧
    dec 0b0_0_111_00000_001000_011010_101110_011_1 = some (.mulhi ⟨false, false, 7⟩ 8 26 46 true) ∧
    dec 0b0_0_111_00000_001010_011100_110000_100_0 = some (.mulhu ⟨false, false, 7⟩ 10 28 48 false) ∧
    dec 0b0_0_111_00000_001100_011110_110010_101_1 = some (.min ⟨false, false, 7⟩ 12 30 50 true) ∧
    dec 0b0_0_111_00000_001110_100000_110100_110_0 = some (.max ⟨false, false, 7⟩ 14 32 52 false) ∧
    dec 0b0_0_111_00000_010000_100010_110110_111_1 = some (.permb ⟨false, false, 7⟩ 16 34 54 true) := by decide
/-- MAJ 0x01. -/
theorem test_decode_ilog :
    dec 0b0_0_111_00001_000010_010100_101000_000_0 = some (.and ⟨false, false, 7⟩ 2 20 40 false) ∧
    dec 0b0_0_111_00001_000100_010110_101010_001_1 = some (.or ⟨false, false, 7⟩ 4 22 42 true) ∧
    dec 0b0_0_111_00001_000110_011000_101100_010_0 = some (.xor ⟨false, false, 7⟩ 6 24 44 false) ∧
    dec 0b0_0_111_00001_001000_011010_101110_011_1 = some (.andn ⟨false, false, 7⟩ 8 26 46 true) ∧
    dec 0b0_0_111_00001_001010_011100_110000_100_0 = some (.shl ⟨false, false, 7⟩ 10 28 48 false) ∧
    dec 0b0_0_111_00001_001100_011110_110010_101_1 = some (.shr ⟨false, false, 7⟩ 12 30 50 true) ∧
    dec 0b0_0_111_00001_001110_100000_110100_110_0 = some (.sar ⟨false, false, 7⟩ 14 32 52 false) ∧
    dec 0b0_0_111_00001_010000_100010_110110_111_1 = some (.rotl ⟨false, false, 7⟩ 16 34 54 true) := by decide
/-- MAJ 0x02. -/
theorem test_decode_iwide :
    dec 0b0_0_111_00010_000010_010100_101000_000_0 = some (.add64 ⟨false, false, 7⟩ 2 20 40 false) ∧
    dec 0b0_0_111_00010_000100_010110_101010_001_1 = some (.sub64 ⟨false, false, 7⟩ 4 22 42 true) ∧
    dec 0b0_0_111_00010_000110_011000_101100_010_0 = some (.shl64 ⟨false, false, 7⟩ 6 24 44 false) ∧
    dec 0b0_0_111_00010_001000_011010_101110_011_1 = some (.shr64 ⟨false, false, 7⟩ 8 26 46 true) ∧
    dec 0b0_0_111_00010_001010_011100_110000_100_0 = some (.sar64 ⟨false, false, 7⟩ 10 28 48 false) ∧
    dec 0b0_0_111_00010_001100_011110_110010_101_1 = some (.mulw ⟨false, false, 7⟩ 12 30 50 true) ∧
    dec 0b0_0_111_00010_001110_100000_110100_110_0 = some (.minu ⟨false, false, 7⟩ 14 32 52 false) ∧
    dec 0b0_0_111_00010_010000_100010_110110_111_1 = some (.maxu ⟨false, false, 7⟩ 16 34 54 true) := by decide
/-- MAJ 0x03. -/
theorem test_decode_iimm :
    dec 0b0_0_111_00011_000001_001001_1111111_000 = some (.addi ⟨false, false, 7⟩ 1 9 127) ∧
    dec 0b0_0_111_00011_000010_001010_1000000_001 = some (.andi ⟨false, false, 7⟩ 2 10 64) ∧
    dec 0b0_0_111_00011_000011_001011_0000001_010 = some (.ori ⟨false, false, 7⟩ 3 11 1) ∧
    dec 0b0_0_111_00011_000100_001100_1100011_011 = some (.xori ⟨false, false, 7⟩ 4 12 99) ∧
    dec 0b0_0_111_00011_000101_001101_0011111_100 = some (.shli ⟨false, false, 7⟩ 5 13 31) ∧
    dec 0b0_0_111_00011_000110_001110_0100000_101 = some (.shri ⟨false, false, 7⟩ 6 14 32) ∧
    dec 0b0_0_111_00011_000111_001111_0100001_110 = some (.sari ⟨false, false, 7⟩ 7 15 33) ∧
    dec 0b0_0_111_00011_001000_010000_0000101_111 = some (.muli ⟨false, false, 7⟩ 8 16 5) := by decide
/-- MAJ 0x04. -/
theorem test_decode_ibit :
    dec 0b0_0_111_00100_000001_111111_000000_0000 = some (.popc ⟨false, false, 7⟩ 1 63) ∧
    dec 0b0_0_111_00100_000010_111110_000001_0000 = some (.clz ⟨false, false, 7⟩ 2 62) ∧
    dec 0b0_0_111_00100_000011_111101_000010_0000 = some (.ctz ⟨false, false, 7⟩ 3 61) ∧
    dec 0b0_0_111_00100_000100_111100_000011_0000 = some (.brev ⟨false, false, 7⟩ 4 60) ∧
    dec 0b0_0_111_00100_000101_111011_000100_0000 = some (.not ⟨false, false, 7⟩ 5 59) ∧
    dec 0b0_0_111_00100_000110_111010_000101_0000 = some (.neg ⟨false, false, 7⟩ 6 58) ∧
    dec 0b0_0_111_00100_000111_111001_000110_0000 = some (.abs ⟨false, false, 7⟩ 7 57) ∧
    dec 0b0_0_111_00100_001000_111000_000111_0000 = some (.sextb ⟨false, false, 7⟩ 8 56) ∧
    dec 0b0_0_111_00100_001001_110111_001000_0000 = some (.sexth ⟨false, false, 7⟩ 9 55) := by decide
/-- MAJ 0x05. -/
theorem test_decode_ifld :
    dec 0b0_0_111_00101_000010_010100_101000_000_0 = some (.bfe ⟨false, false, 7⟩ 2 20 40 false) ∧
    dec 0b0_0_111_00101_000100_010110_101010_001_1 = some (.bfeu ⟨false, false, 7⟩ 4 22 42 true) ∧
    dec 0b0_0_111_00101_000110_011000_101100_010_0 = some (.bfi ⟨false, false, 7⟩ 6 24 44 false) ∧
    dec 0b0_0_111_00101_001000_011010_101110_011_1 = some (.funl ⟨false, false, 7⟩ 8 26 46 true) ∧
    dec 0b0_0_111_00101_001010_011100_110000_100_0 = some (.div ⟨false, false, 7⟩ 10 28 48 false) ∧
    dec 0b0_0_111_00101_001100_011110_110010_101_1 = some (.divu ⟨false, false, 7⟩ 12 30 50 true) ∧
    dec 0b0_0_111_00101_001110_100000_110100_110_0 = some (.rem ⟨false, false, 7⟩ 14 32 52 false) ∧
    dec 0b0_0_111_00101_010000_100010_110110_111_1 = some (.remu ⟨false, false, 7⟩ 16 34 54 true) := by decide
/-- MAJ 0x06, 0x0E, and the branches of CTRL. -/
theorem test_decode_branch :
    dec 0b0_0_111_00110_1111111111111111111111 = some (.bra ⟨false, false, 7⟩ 0x3FFFFF) ∧
    dec 0b0_0_111_01110_1000000000000001_110000 = some (.call ⟨false, false, 7⟩ 0x8001 48) ∧
    dec 0b0_0_111_11110_000_010100_0000000000000 = some (.brr ⟨false, false, 7⟩ 20) ∧
    dec 0b0_0_111_11110_001_010100_0000000_100001 = some (.callr ⟨false, false, 7⟩ 20 33) ∧
    dec 0b0_0_111_11110_010_0000000000000000000 = some (.ret ⟨false, false, 7⟩) := by decide
/-- MAJ 0x07 to 0x0A. -/
theorem test_decode_compare :
    dec 0b0_0_111_00111_001_010_000101_001001_0111 = some (.icmp ⟨false, false, 7⟩ 1 2 5 9 .leu) ∧
    dec 0b0_0_111_00111_001_010_000100_001000_1111 = some (.icmp ⟨false, false, 7⟩ 1 2 4 8 .ne64) ∧
    dec 0b0_0_111_01000_011_111_000101_111111_0101 = some (.icmpi ⟨false, false, 7⟩ 3 7 5 63 .ge) ∧
    dec 0b0_0_111_01001_110_000_001011_001100_0111 = some (.fcmp ⟨false, false, 7⟩ 6 0 11 12 .uno) ∧
    dec 0b0_0_111_01010_110_000_001010_001100_1101 = some (.dcmp ⟨false, false, 7⟩ 6 0 10 12 .uge) := by decide
/-- MAJ 0x0B. -/
theorem test_decode_plog :
    dec 0b0_0_111_01011_001_010_011_100_0_0_000_00000 = some (.pand ⟨false, false, 7⟩ 1 2 3 4 false false) ∧
    dec 0b0_0_111_01011_001_010_011_100_1_0_001_00000 = some (.por ⟨false, false, 7⟩ 1 2 3 4 true false) ∧
    dec 0b0_0_111_01011_001_010_011_100_0_1_010_00000 = some (.pxor ⟨false, false, 7⟩ 1 2 3 4 false true) ∧
    dec 0b0_0_111_01011_001_010_011_100_1_1_011_00000 = some (.pmov ⟨false, false, 7⟩ 1 2 3 4 true true) := by decide
/-- MAJ 0x0C. -/
theorem test_decode_fp32 :
    dec 0b0_0_111_01100_000010_010100_101000_000_0 = some (.fadd ⟨false, false, 7⟩ 2 20 40 false) ∧
    dec 0b0_0_111_01100_000100_010110_101010_001_1 = some (.fsub ⟨false, false, 7⟩ 4 22 42 true) ∧
    dec 0b0_0_111_01100_000110_011000_101100_010_0 = some (.fmul ⟨false, false, 7⟩ 6 24 44 false) ∧
    dec 0b0_0_111_01100_001000_011010_101110_011_1 = some (.ffma ⟨false, false, 7⟩ 8 26 46 true) ∧
    dec 0b0_0_111_01100_001010_011100_110000_100_0 = some (.fmin ⟨false, false, 7⟩ 10 28 48 false) ∧
    dec 0b0_0_111_01100_001100_011110_110010_101_1 = some (.fmax ⟨false, false, 7⟩ 12 30 50 true) ∧
    dec 0b0_0_111_01100_001110_100000_110100_110_0 = some (.fminn ⟨false, false, 7⟩ 14 32 52 false) ∧
    dec 0b0_0_111_01100_010000_100010_110110_111_1 = some (.fmaxn ⟨false, false, 7⟩ 16 34 54 true) := by decide
/-- MAJ 0x0D. -/
theorem test_decode_fp64 :
    dec 0b0_0_111_01101_000010_010100_101000_000_0 = some (.dadd ⟨false, false, 7⟩ 2 20 40 false) ∧
    dec 0b0_0_111_01101_000100_010110_101010_001_1 = some (.dsub ⟨false, false, 7⟩ 4 22 42 true) ∧
    dec 0b0_0_111_01101_000110_011000_101100_010_0 = some (.dmul ⟨false, false, 7⟩ 6 24 44 false) ∧
    dec 0b0_0_111_01101_001000_011010_101110_011_1 = some (.dfma ⟨false, false, 7⟩ 8 26 46 true) ∧
    dec 0b0_0_111_01101_001010_011100_110000_100_0 = some (.dmin ⟨false, false, 7⟩ 10 28 48 false) ∧
    dec 0b0_0_111_01101_001100_011110_110010_101_1 = some (.dmax ⟨false, false, 7⟩ 12 30 50 true) ∧
    dec 0b0_0_111_01101_001110_100000_110100_110_0 = some (.dminn ⟨false, false, 7⟩ 14 32 52 false) ∧
    dec 0b0_0_111_01101_010000_100010_110110_111_1 = some (.dmaxn ⟨false, false, 7⟩ 16 34 54 true) := by decide
/-- MAJ 0x0F. -/
theorem test_decode_fpk :
    dec 0b0_0_111_01111_000010_010100_101000_000_0 = some (.hadd2 ⟨false, false, 7⟩ 2 20 40 false) ∧
    dec 0b0_0_111_01111_000100_010110_101010_001_1 = some (.hmul2 ⟨false, false, 7⟩ 4 22 42 true) ∧
    dec 0b0_0_111_01111_000110_011000_101100_010_0 = some (.hfma2 ⟨false, false, 7⟩ 6 24 44 false) ∧
    dec 0b0_0_111_01111_001000_011010_101110_011_1 = some (.hmin2 ⟨false, false, 7⟩ 8 26 46 true) ∧
    dec 0b0_0_111_01111_001010_011100_110000_100_0 = some (.hmax2 ⟨false, false, 7⟩ 10 28 48 false) ∧
    dec 0b0_0_111_01111_001100_011110_110010_101_1 = some (.badd2 ⟨false, false, 7⟩ 12 30 50 true) ∧
    dec 0b0_0_111_01111_001110_100000_110100_110_0 = some (.bmul2 ⟨false, false, 7⟩ 14 32 52 false) ∧
    dec 0b0_0_111_01111_010000_100010_110110_111_1 = some (.bfma2 ⟨false, false, 7⟩ 16 34 54 true) := by decide
/-- MAJ 0x10. -/
theorem test_decode_sfu :
    dec 0b0_0_111_10000_000010_011110_000000_0011 = some (.frcp ⟨false, false, 7⟩ 2 30 3) ∧
    dec 0b0_0_111_10000_000100_100000_000001_0100 = some (.frsq ⟨false, false, 7⟩ 4 32 4) ∧
    dec 0b0_0_111_10000_000110_100010_000010_0101 = some (.fsqrt ⟨false, false, 7⟩ 6 34 5) ∧
    dec 0b0_0_111_10000_001000_100100_000011_0110 = some (.fex2 ⟨false, false, 7⟩ 8 36 6) ∧
    dec 0b0_0_111_10000_001010_100110_000100_0111 = some (.flg2 ⟨false, false, 7⟩ 10 38 7) ∧
    dec 0b0_0_111_10000_001100_101000_000101_1000 = some (.fsin ⟨false, false, 7⟩ 12 40 8) ∧
    dec 0b0_0_111_10000_001110_101010_000110_1001 = some (.fcos ⟨false, false, 7⟩ 14 42 9) ∧
    dec 0b0_0_111_10000_010000_101100_000111_1010 = some (.ftanh ⟨false, false, 7⟩ 16 44 10) ∧
    dec 0b0_0_111_10000_010010_101110_001000_1011 = some (.drcp ⟨false, false, 7⟩ 18 46 11) ∧
    dec 0b0_0_111_10000_010100_110000_001001_1100 = some (.drsq ⟨false, false, 7⟩ 20 48 12) ∧
    dec 0b0_0_111_10000_010110_110010_001010_1101 = some (.dsqrt ⟨false, false, 7⟩ 22 50 13) := by decide
/-- MAJ 0x11: FN 8 times destination and source. -/
theorem test_decode_cvt :
    dec 0b0_0_111_10001_000011_000101_110000_0000 = some (.cvt ⟨false, false, 7⟩ 3 5 .f32 .s32) ∧
    dec 0b0_0_111_10001_000100_000110_011111_0000 = some (.cvt ⟨false, false, 7⟩ 4 6 .u64 .f64) := by decide
/-- MAJ 0x12. -/
theorem test_decode_npk :
    dec 0b0_0_111_10010_000010_010100_101000_000_0 = some (.pke4m3 ⟨false, false, 7⟩ 2 20 40 false) ∧
    dec 0b0_0_111_10010_000100_010110_101010_001_1 = some (.pke5m2 ⟨false, false, 7⟩ 4 22 42 true) ∧
    dec 0b0_0_111_10010_000110_011000_101100_010_0 = some (.pke3m2 ⟨false, false, 7⟩ 6 24 44 false) ∧
    dec 0b0_0_111_10010_001000_011010_101110_011_1 = some (.pke2m3 ⟨false, false, 7⟩ 8 26 46 true) ∧
    dec 0b0_0_111_10010_001010_011100_110000_100_0 = some (.pke2m1 ⟨false, false, 7⟩ 10 28 48 false) ∧
    dec 0b0_0_111_10010_001100_011110_110010_101_1 = some (.upk8 ⟨false, false, 7⟩ 12 30 50 true) ∧
    dec 0b0_0_111_10010_001110_100000_110100_110_0 = some (.upk6 ⟨false, false, 7⟩ 14 32 52 false) ∧
    dec 0b0_0_111_10010_010000_100010_110110_111_1 = some (.upk4 ⟨false, false, 7⟩ 16 34 54 true) := by decide
/-- MAJ 0x13, 0x15, 0x16. -/
theorem test_decode_select :
    dec 0b0_0_111_10011_000001_000010_000011_101_1 = some (.sel ⟨false, false, 7⟩ 1 2 3 5 true) ∧
    dec 0b0_0_111_10101_001100_1000111111010000 = some (.movi ⟨false, false, 7⟩ 12 0x8FD0) ∧
    dec 0b0_0_111_10110_001100_0100000001001001 = some (.movhi ⟨false, false, 7⟩ 12 0x4049) := by decide
/-- MAJ 0x14. -/
theorem test_decode_xlane :
    dec 0b0_0_111_10100_000001_000010_000011_000_1 = some (.shfl ⟨false, false, 7⟩ 1 2 3 true) ∧
    dec 0b0_0_111_10100_000001_000010_000011_001_1 = some (.shflup ⟨false, false, 7⟩ 1 2 3 true) ∧
    dec 0b0_0_111_10100_000001_000010_000011_010_1 = some (.shfldn ⟨false, false, 7⟩ 1 2 3 true) ∧
    dec 0b0_0_111_10100_000001_000010_000011_011_1 = some (.shflx ⟨false, false, 7⟩ 1 2 3 true) ∧
    dec 0b0_0_111_10100_001001_00_1_101_000000_100_0 = some (.ballot ⟨false, false, 7⟩ 9 5 true) ∧
    dec 0b0_0_111_10100_000001_000010_000010_101_1 = some (.wredadd ⟨false, false, 7⟩ 1 2 .f32 true) ∧
    dec 0b0_0_111_10100_000001_000010_000001_110_1 = some (.wredmin ⟨false, false, 7⟩ 1 2 .unsigned true) ∧
    dec 0b0_0_111_10100_000001_000010_000000_111_1 = some (.wredmax ⟨false, false, 7⟩ 1 2 .signed true) := by decide
/-- MAJ 0x17, 0x18. -/
theorem test_decode_mem :
    dec 0b0_0_111_10111_001000_000010_110_001_0111 = some (.ld ⟨false, false, 7⟩ 8 2 .b128 .ef 7) ∧
    dec 0b0_0_111_11000_000010_001001_010_100_0000 = some (.st ⟨false, false, 7⟩ 2 9 .u16 .ns) := by decide
/-- MAJ 0x19. -/
theorem test_decode_smem :
    dec 0b0_0_111_11001_000_001000_000011_101_0101 = some (.lds ⟨false, false, 7⟩ 8 3 .b64 5) ∧
    dec 0b0_0_111_11001_001_000011_001001_000_0000 = some (.sts ⟨false, false, 7⟩ 3 9 .u8) ∧
    dec 0b0_0_111_11001_010_001001_000011_001_0010 = some (.ldc ⟨false, false, 7⟩ 9 3 .s8 2) ∧
    dec 0b0_0_111_11001_011_000011_001000_110_0000 = some (.stc ⟨false, false, 7⟩ 3 8 .b128) ∧
    dec 0b0_0_111_11001_100_010000_000100_000_1001 = some (.rowld ⟨false, false, 7⟩ 16 4 9) ∧
    dec 0b0_0_111_11001_101_000100_110000_000_0000 = some (.rowst ⟨false, false, 7⟩ 4 48) := by decide
/-- MAJ 0x1A, 0x1B. -/
theorem test_decode_ord :
    dec 0b0_0_111_11010_000_001001_000100_011_0111 = some (.lda ⟨false, false, 7⟩ 9 4 .s16 .pod) ∧
    dec 0b0_0_111_11010_001_000100_001001_100_1010 = some (.stl ⟨false, false, 7⟩ 4 9 .b32 .system) ∧
    dec 0b0_0_111_11010_010_000000000000_1_00_0101 = some (.fence ⟨false, false, 7⟩ true .acqrel .die) ∧
    dec 0b0_0_111_11010_010_000000000000_0_10_0000 = some (.fence ⟨false, false, 7⟩ false .release .fibre) ∧
    dec 0b0_0_111_11010_011_000100_001001_10_00000 = some (.accadd ⟨false, false, 7⟩ 4 9 .accx) ∧
    dec 0b0_0_111_11010_100_000110_000000000_0011 = some (.publish ⟨false, false, 7⟩ 6 .core) ∧
    dec 0b0_0_111_11010_101_000111_001000_0000000 = some (.reside ⟨false, false, 7⟩ 7 8) ∧
    dec 0b0_0_111_11010_110_000111_001010_0000000 = some (.unreside ⟨false, false, 7⟩ 7 10) ∧
    dec 0b0_0_111_11011_001000_000010_1001_1_0_0110 = some (.atom ⟨false, false, 7⟩ 8 2 .cas true 6) ∧
    dec 0b0_0_111_11011_001001_000010_1011_0_1_0000 = some (.red ⟨false, false, 7⟩ 9 2 .decw false) := by decide
/-- MAJ 0x1C. -/
theorem test_decode_mmx :
    dec 0b0_0_111_11100_000_101_110_111101_11_10_000 = some (.mma ⟨false, false, 7⟩ 5 6 61 3 .chainDrain) ∧
    dec 0b0_0_111_11100_001_001_010_000111_01_11_000 = some (.mma64 ⟨false, false, 7⟩ 1 2 7 1 .startDrain) ∧
    dec 0b0_0_111_11100_010_000100_0_001001_000000 = some (.scld ⟨false, false, 7⟩ 4 9) ∧
    dec 0b0_0_111_11100_010_000101_1_001001_000000 = some (.scldScr ⟨false, false, 7⟩ 5 9) ∧
    dec 0b0_0_111_11100_011_10_100011_00000000000 = some (.mdrain ⟨false, false, 7⟩ 2 35) ∧
    dec 0b0_0_111_11100_100_000011_000100_0000000 = some (.fmtq ⟨false, false, 7⟩ 3 4) := by decide
/-- MAJ 0x1D. -/
theorem test_decode_eng :
    dec 0b0_0_111_11101_000_001000_0000000000000 = some (.tcopy ⟨false, false, 7⟩ 8) ∧
    dec 0b0_0_111_11101_001_010000_0000000000000 = some (.tcast ⟨false, false, 7⟩ 16) ∧
    dec 0b0_0_111_11101_010_011000_0000000000000 = some (.hgath ⟨false, false, 7⟩ 24) ∧
    dec 0b0_0_111_11101_011_100000_0000000000000 = some (.hred ⟨false, false, 7⟩ 32) ∧
    dec 0b0_0_111_11101_100_101000_0000000000000 = some (.hcvt ⟨false, false, 7⟩ 40) ∧
    dec 0b0_0_111_11101_101_100000000001_1_000000 = some (.waitf ⟨false, false, 7⟩ 0x801 true) ∧
    dec 0b0_0_111_11101_110_001001_000000000_1011 = some (.flagq ⟨false, false, 7⟩ 9 11) := by decide
/-- MAJ 0x1E, SUB 3, 4, 5. -/
theorem test_decode_maskGroup :
    dec 0b0_0_111_11110_011_000_0001_000000_000000 = some (.join ⟨false, false, 7⟩ 1) ∧
    dec 0b0_0_111_11110_011_001_0010_000000_000000 = some (.leave ⟨false, false, 7⟩ 2) ∧
    dec 0b0_0_111_11110_011_010_0011_000000_000000 = some (.waitm ⟨false, false, 7⟩ 3) ∧
    dec 0b0_0_111_11110_011_011_0100_000000_000000 = some (.mkmask ⟨false, false, 7⟩ 4) ∧
    dec 0b0_0_111_11110_011_100_0000_001001_000000 = some (.maskrd ⟨false, false, 7⟩ 0 9) ∧
    dec 0b0_0_111_11110_011_101_1011_001001_000000 = some (.maskwr ⟨false, false, 7⟩ 11 9) ∧
    dec 0b0_0_111_11110_100_001000_010000_0000000 = some (.spawn ⟨false, false, 7⟩ 8 16) ∧
    dec 0x3FA80000 = some (.fexit ⟨false, false, 7⟩) ∧
    dec 0b0_0_111_11110_101_1_000000000000000000 = some (.yield ⟨false, false, 7⟩) := by decide
/-- MAJ 0x1E, SUB 6. -/
theorem test_decode_barrier :
    dec 0b0_0_111_11110_110_000_1001_01_000101_0000 = some (.barinit ⟨false, false, 7⟩ 9 1 5) ∧
    dec 0b0_0_111_11110_110_001_1111_01_000000_0000 = some (.bararr ⟨false, false, 7⟩ 15 1) ∧
    dec 0b0_0_111_11110_110_010_1111_10_000000_0000 = some (.barwait ⟨false, false, 7⟩ 15 2) ∧
    dec 0b0_0_111_11110_110_011_1111_11_000000_0000 = some (.bararw ⟨false, false, 7⟩ 15 3) ∧
    dec 0b0_0_111_11110_110_100_0011_00_000111_0000 = some (.barq ⟨false, false, 7⟩ 3 7) := by decide
/-- MAJ 0x1E, SUB 7. -/
theorem test_decode_returnStack :
    dec 0b0_0_111_11110_111_00_000100_00000000000 = some (.rsrd ⟨false, false, 7⟩ 4) ∧
    dec 0b0_0_111_11110_111_01_000110_00000000000 = some (.rspop ⟨false, false, 7⟩ 6) ∧
    dec 0b0_0_111_11110_111_10_111110_00000000000 = some (.rspush ⟨false, false, 7⟩ 62) ∧
    dec 0b0_0_111_11110_111_11_000111_00000000000 = some (.win ⟨false, false, 7⟩ 7) := by decide
/-- MAJ 0x1F. -/
theorem test_decode_sys :
    dec 0b0_0_111_11111_000_000110_000100001010_0 = some (.csrr ⟨false, false, 7⟩ 6 0x10A) ∧
    dec 0b0_0_111_11111_001_000110_000000010010_0 = some (.csrw ⟨false, false, 7⟩ 6 0x012) ∧
    dec 0b0_0_111_11111_010_10100101_00000000000 = some (.trap ⟨false, false, 7⟩ 0xA5) ∧
    dec 0b0_0_111_11111_011_0000000000000000000 = some (.eret ⟨false, false, 7⟩) ∧
    dec 0b0_0_111_11111_100_0000000000000000000 = some (.brk ⟨false, false, 7⟩) ∧
    dec 0b0_0_111_11111_101_000001_000010_000011_0 = some (.hops ⟨false, false, 7⟩ 1 2 3) ∧
    dec 0b0_0_111_11111_110_000001_000010_0000000 = some (.genq ⟨false, false, 7⟩ 1 2) ∧
    dec 0b0_0_111_11111_111_0_000100_000101_000000 = some (.partr ⟨false, false, 7⟩ 4 5) ∧
    dec 0b0_0_111_11111_111_1_000100_000101_000000 = some (.partw ⟨false, false, 7⟩ 4 5) := by decide
/-- R34, R35: chain bit, negated guard, the never words. -/
theorem test_decode_header :
    dec 0b1_1_011_00000_000001_000010_000011_000_0 = some (.add ⟨true, true, 3⟩ 1 2 3 false) ∧
    dec 0x78000000 = some (.nop 0) ∧
    dec 0xFFFFFFFF = some (.nop 0xFFFFFFF) := by decide

/-- The spec's worked decodes (spec/04) that end in a trap, one register field of R57 past its end, and C = 1 on word 2. -/
theorem test_decode_traps : failsWith 0 0xBFFFFFFF .illegal ∧ failsWith 0 0xBFFFEFFF .reserved ∧ failsWith 2 0xBFFFFFFF .illegal ∧
    failsWith 0 0x3C400004 .illegal ∧ failsWith 0 0b0_0_111_10111_111110_000010_110_000_0000 .illegal := by decide
/-- A group ends at the first word whose C is 0 or that is never (R30, R35). -/
theorem test_groups : groupLength [0x80000000, 0x80000000, 0] 0 = 3 ∧ groupLength [0x80000000, 0xF8000000, 0] 0 = 2 ∧
    groupLength [0, 0x80000000, 0] 1 = 2 := by decide
/-- R40, R45: two integer words in one group, and a lookahead shorter than the rest of the group, are illegal at the second and the first. -/
theorem test_group_rules :
    (match decodeGroup [0xB8000000, 0x38000000, 0] 0 with
      | .error e => e == (.illegal, 1)
      | .ok _ => false) = true ∧
    (match decodeGroup [0b1_0_111_10000_000010_000100_000000_0000, 0x38000000, 0] 0 with
      | .error e => e == (.illegal, 0)
      | .ok _ => false) = true := by decide

/-! ### WellFormed: an ill-formed term for each check -/

/-- Always guarded, no chain. -/
def hd : Hdr := ⟨false, false, 7⟩

theorem test_wf_pairs : (Instr.add64 hd 1 2 4 false).wf = false ∧ (Instr.sub64 hd 2 3 4 false).wf = false ∧ (Instr.shl64 hd 2 5 1 false).wf = false ∧
    (Instr.shr64 hd 3 4 1 false).wf = false ∧ (Instr.sar64 hd 2 63 1 false).wf = false ∧ (Instr.mulw hd 1 2 3 false).wf = false ∧
    (Instr.dcmp hd 0 1 3 4 .eq).wf = false ∧ (Instr.icmp hd 0 1 3 4 .lt64).wf = false ∧ (Instr.drcp hd 1 2 0).wf = false ∧
    (Instr.pke4m3 hd 1 3 2 false).wf = false ∧ (Instr.upk4 hd 1 2 3 false).wf = false ∧ (Instr.brr hd 1).wf = false ∧
    (Instr.callr hd 3 0).wf = false ∧ (Instr.rsrd hd 1).wf = false ∧ (Instr.rspop hd 1).wf = false ∧ (Instr.rspush hd 1).wf = false ∧
    (Instr.partr hd 1 2).wf = false ∧ (Instr.partw hd 1 2).wf = false ∧ (Instr.scld hd 1 2).wf = false ∧ (Instr.publish hd 1 .core).wf = false ∧
    (Instr.unreside hd 1 3).wf = false := by decide
theorem test_wf_doubles : ∀ i ∈ [Instr.dadd hd 1 2 4 false, .dsub hd 2 1 4 false, .dmul hd 2 4 1 false, .dfma hd 1 2 4 false, .dmin hd 2 1 4 false,
    .dmax hd 2 4 1 false, .dminn hd 1 2 4 false, .dmaxn hd 2 1 4 false, .drsq hd 2 1 0, .dsqrt hd 1 2 0], i.wf = false := by decide
theorem test_wf_sizes : (Instr.ld hd 3 2 .b64 .normal 0).wf = false ∧ (Instr.ld hd 2 3 .b32 .normal 0).wf = false ∧
    (Instr.ld hd 62 2 .b128 .normal 0).wf = false ∧ (Instr.st hd 2 3 .s8 .normal).wf = false ∧ (Instr.lds hd 3 1 .b64 0).wf = false ∧
    (Instr.ldc hd 2 1 .b128 0).wf = false ∧ (Instr.sts hd 1 2 .s16).wf = false ∧ (Instr.stc hd 1 3 .b64).wf = false ∧
    (Instr.lda hd 1 3 .b32 .core).wf = false ∧ (Instr.stl hd 2 1 .s8 .core).wf = false ∧ (Instr.rowld hd 8 2 0).wf = false ∧
    (Instr.rowst hd 2 50).wf = false := by decide
theorem test_wf_values : (Instr.icmpi hd 0 1 2 3 .eq64).wf = false ∧ (Instr.cvt hd 1 2 .f32 .f32).wf = false ∧ (Instr.cvt hd 2 4 .s32 .u64).wf = false ∧
    (Instr.cvt hd 1 2 .f64 .f32).wf = false ∧ (Instr.atom hd 1 2 .incw true 0).wf = false ∧ (Instr.atom hd 1 2 .cas false 0).wf = false ∧
    (Instr.red hd 1 2 .exch false).wf = false ∧ (Instr.accadd hd 2 1 .acc64).wf = false ∧ (Instr.mma hd 0 0 2 0 .start).wf = false ∧
    (Instr.mma64 hd 0 0 63 0 .start).wf = false ∧ (Instr.mdrain hd 0 0).wf = false ∧ (Instr.waitf hd 0 true).wf = false ∧
    (Instr.join hd 12).wf = false ∧ (Instr.waitm hd 15).wf = false ∧ (Instr.maskrd hd 12 0).wf = false ∧ (Instr.leave hd 0).wf = false ∧
    (Instr.mkmask hd 0).wf = false ∧ (Instr.maskwr hd 0 1).wf = false ∧ (Instr.spawn hd 4 2).wf = false ∧ (Instr.spawn hd 8 3).wf = false ∧
    (Instr.barinit hd 0 2 1).wf = false ∧ (Instr.reside hd 0 2).wf = false ∧ (Instr.tcopy hd 4).wf = false ∧ (Instr.tcast hd 1).wf = false ∧
    (Instr.hgath hd 2).wf = false ∧ (Instr.hred hd 12).wf = false ∧ (Instr.hcvt hd 60).wf = false := by decide

/-! ### A small machine: one team of one warp with 32 live fibres on core 0, its group in hand -/

/-- A NOP alone in its packet at packet 0; then the same machine with a group of the full warp in hand. -/
def placed : State := State.reset.withFetchWord 32 0x78000000
def base : State :=
  { placed with pre := placed.loc, agenda := [],
                iss := { Issue.none_ with warp := 32, lanes := BitVec.allOnes 32, ws := [0x78000000, 0x78000000, 0x78000000] } }
/-- The same with registers of lanes set before the group: (lane, register, value). -/
def withRegs (s : State) (l : List (Nat × Nat × Word)) : State :=
  let t := l.foldl (fun t x => t.setLogical 32 x.1 x.2.1 x.2.2) s
  { t with pre := t.loc }
/-- A word with lane 0's sources v1, v2 and its old v3. -/
def with3 (a b d : Word) : State := withRegs base [(0, 1, a), (0, 2, b), (0, 3, d)]
/-- A word with lane 0's source pairs x4 and x6. -/
def with2 (a b : DWord) : State :=
  withRegs base [(0, 4, a.setWidth 32), (0, 5, (a >>> 32).setWidth 32), (0, 6, b.setWidth 32), (0, 7, (b >>> 32).setWidth 32)]
/-- What a register or a pair of lane l holds in the machine that a word leaves, and its team's csr.exsum. -/
def after (o : Out) (l r : Nat) : Option Nat := match o with
  | .next t => some (t.logical 32 l r).toNat
  | _ => none
def after2 (o : Out) (l r : Nat) : Option Nat := match o with
  | .next t => some ((t.logical 32 l (r + 1)).toNat * 2 ^ 32 + (t.logical 32 l r).toNat)
  | _ => none
def bits (o : Out) : Option Nat := match o with
  | .next t => some (t.team 1).exsum.toNat
  | _ => none
/-- A test of the machine that a word leaves. -/
def leaves (o : Out) (p : State → Bool) : Bool := match o with
  | .next t => p t
  | _ => false
/-- The code of the trap that a word takes. -/
def trapCode (o : Out) : Option Nat := match o with
  | .next t => (t.team 1).halts.head?.map fun h => h.code.toNat
  | _ => none

/-! ### Words, one step each; the values are those of the spec's examples and tables -/

theorem test_add : after (exec (.add hd 3 1 2 false) (with3 0xFFFFFFFF 2 0)) 0 3 = some 1 := by decide +kernel
theorem test_sub : after (exec (.sub hd 3 1 2 false) (with3 1 3 0)) 0 3 = some 0xFFFFFFFE := by decide +kernel
theorem test_mulhi : after (exec (.mulhi hd 3 1 2 false) (with3 0xFFFFFFFF 2 0)) 0 3 = some 0xFFFFFFFF := by decide +kernel
theorem test_mulhu : after (exec (.mulhu hd 3 1 2 false) (with3 0xFFFFFFFF 2 0)) 0 3 = some 1 := by decide +kernel
/-- R97's example. -/
theorem test_permb : after (exec (.permb hd 3 1 2 false) (with3 0x44332211 0x00008740 0x88776655)) 0 3 = some 0x00885511 := by decide +kernel
theorem test_sar_past_the_width : after (exec (.sar hd 3 1 2 false) (with3 0x80000000 200 0)) 0 3 = some 0xFFFFFFFF := by decide +kernel
theorem test_shl_32 : after (exec (.shl hd 3 1 2 false) (with3 1 32 0)) 0 3 = some 0 := by decide +kernel
theorem test_rotl : after (exec (.rotl hd 3 1 2 false) (with3 0x80000001 33 0)) 0 3 = some 3 := by decide +kernel
theorem test_shri_127 : after (exec (.shri hd 3 1 127) (with3 0xFFFFFFFF 0 0)) 0 3 = some 0 := by decide +kernel
/-- R99: ANDI with -16 clears the low four bits. -/
theorem test_andi : after (exec (.andi hd 3 1 0x70) (with3 0x1234567F 0 0)) 0 3 = some 0x12345670 := by decide +kernel
/-- R100: ABS of 0x80000000. -/
theorem test_abs : after (exec (.abs hd 3 1) (with3 0x80000000 0 0)) 0 3 = some 0x80000000 := by decide +kernel
theorem test_clz_0 : after (exec (.clz hd 3 1) (with3 0 0 0)) 0 3 = some 32 := by decide +kernel
theorem test_sar64 : after2 (exec (.sar64 hd 8 4 2 false) (withRegs (with2 0x8000000000000000 0) [(0, 2, 64)])) 0 8 = some 0xFFFFFFFFFFFFFFFF := by decide +kernel
/-- R102's examples: -7 / 2, 7 REM -2, and a divisor of 0. -/
theorem test_divide_values : divWord true false (-7) 2 = (-3, 0) ∧ divWord true true 7 (-2) = (1, 0) ∧
    divWord false false 0xFFFFFFFF 0 = (0xFFFFFFFF, exIntDiv) ∧ divWord false true 0xFFFFFFFF 0 = (0xFFFFFFFF, exIntDiv) := by decide +kernel
/-- R109's example. -/
theorem test_movhi : after (exec (.movhi hd 3 0x4049) (with3 0 0 0x00000FD0)) 0 3 = some 0x40490FD0 := by decide +kernel
/-- R115: FCMP.LT with a NaN writes 0 and 1 and sets invalid. -/
theorem test_fcmp_nan : leaves (exec (.fcmp hd 1 2 1 2 .lt) (with3 0x7FC00000 0x3F800000 0)) (fun t =>
    !(t.lane 0).pred 1 && (t.lane 0).pred 2 && (t.team 1).exsum == 1) = true := by decide +kernel
/-- R113: FMIN of +0 and -0; FMINN of a signalling NaN and 1. -/
theorem test_fmin : after (exec (.fmin hd 3 1 2 false) (with3 0 0x80000000 0)) 0 3 = some 0x80000000 ∧
    after (exec (.fminn hd 3 1 2 false) (with3 0x7F800001 0x3F800000 0)) 0 3 = some 0x3F800000 ∧
    bits (exec (.fminn hd 3 1 2 false) (with3 0x7F800001 0x3F800000 0)) = some 1 := by decide +kernel
theorem test_fadd : after (exec (.fadd hd 3 1 2 false) (with3 0x3F800000 0x33800000 0)) 0 3 = some 0x3F800000 := by decide +kernel
/-- R122: -0.7 to U32 is 0, 3e9 to S32 the greatest. -/
theorem test_cvt : after (exec (.cvt hd 3 1 .u32 .f32) (with3 0xBF333333 0 0)) 0 3 = some 0 ∧
    after (exec (.cvt hd 3 1 .s32 .f32) (with3 0x4F32D05E 0 0)) 0 3 = some 0x7FFFFFFF := by decide +kernel
/-- The spec's packing example (spec/07): saturating, and with NSAT 1. -/
theorem test_pack : after (exec (.pke4m3 hd 9 4 6 false) (withRegs base [(0, 4, 0x42080000), (0, 5, 0x447A0000), (0, 9, 0x1234), (0, 6, 0x8001)])) 0 9 =
      some 0x7E591234 ∧
    after (exec (.pke4m3 hd 9 4 6 false) (withRegs base [(0, 4, 0x42080000), (0, 5, 0x447A0000), (0, 9, 0x1234), (0, 6, 0x8005)])) 0 9 =
      some 0x7F591234 := by decide +kernel
/-- The spec's unpacking example. -/
theorem test_unpack : after2 (exec (.upk4 hd 10 2 3 false) (with3 0 0x95 0x7F00)) 0 10 = some 0xBF00000040400000 := by decide +kernel
/-- R118, R119: FRSQ of 4.0 is 0.5 without a bit, FRCP of 2^-149 overflows. -/
theorem test_sfu : sfuRcp fp32 (fp32.value 1) = (0x7F800000, 0x014) ∧ sfuSqrt fp32 (fp32.value 0x40800000) = (0x40000000, 0) := by decide +kernel
/-- R182: a shuffle from a lane of the batch, and R183's ballot of p7. -/
theorem test_shuffle : after (exec (.shfldn hd 3 1 2 false) (withRegs base [(0, 2, 5), (5, 1, 77)])) 0 3 = some 77 ∧
    after (exec (.ballot hd 3 7 false) base) 0 3 = some 0xFFFFFFFF := by decide +kernel
theorem test_wredadd : after (exec (.wredadd hd 3 1 .signed false) (withRegs base [(0, 1, 5), (31, 1, 0xFFFFFFFE)])) 17 3 = some 3 := by decide +kernel
/-- The words of spec/20's example and what FMTQ says of one. -/
theorem test_fmtq : after (exec (.fmtq hd 3 1) (with3 0x44820000 0 0)) 0 3 = some 0x0080880B := by decide +kernel
/-- The table of three virtual dies of spec/28. -/
theorem test_hops : hopsOf 0x00E40EE400BF938F 0 1 = 1 ∧ hopsOf 0x00E40EE400BF938F 0 2 = 2 ∧ hopsOf 0x00E40EE400BF938F 1 2 = 1 ∧
    hopsOf 0x00E40EE400BF938F 1 3 = 0xFFFFFFFF := by decide +kernel
/-- R127: a branch back over packet 0 wraps in 54 bits. -/
theorem test_bra : leaves (exec (.bra hd 0x3FFFFF) base) (fun t => (t.lane 0).pc == 0x3FFFFFFFFFFFFF && t.iss.xfer) = true := by decide +kernel
/-- The spill example of spec/02: two calls of shift 40 in a fibre with A = 128, then two returns. -/
theorem test_window :
    let p (lo n wb : Nat) (left : List Nat) : (Nat × Nat) × (List Nat × List Nat × List Nat) :=
      let q := winPlan lo n 128 wb left
      ((q.floor, q.nres), (q.spills, q.refills, q.left))
    p 0 7 80 [] = ((16, 8), ([0], [], [0])) ∧ p 16 8 40 [0] = ((16, 8), ([], [], [0])) ∧ p 16 8 0 [0] = ((0, 8), ([], [0], [8])) := by decide +kernel
/-- The barrier example of spec/11, steps 1 to 6. -/
theorem test_barrier :
    let b := (((Barrier.start 64).arrive 0 32).arrive 1 32).arrive 2 32
    let c := b.arrive 0 32
    b.cnt.toList = [32, 32, 32, 0] ∧ c.phase = 1 ∧ c.cnt.toList = [32, 32, 0, 0] ∧ (c.arrive 0 32).word = 0x00020020 := by decide +kernel
theorem test_fexit : leaves (exec (.fexit hd) base) (fun t => !(t.lane 5).live && (t.warp 32).mask 0 == 0) = true := by decide +kernel
theorem test_trap : trapCode (exec (.trap hd 9) base) = some 0x30 ∧ trapCode (exec (.eret hd) base) = some 0x11 := by decide +kernel
theorem test_csr : after (exec (.csrr hd 3 0x001) base) 7 3 = some 7 ∧ trapCode (exec (.csrr hd 3 0x018) base) = some 0x01 ∧
    trapCode (exec (.csrw hd 3 0x001) base) = some 0x11 := by decide +kernel
/-- R218, R219: the spec's example of a slice, a ply, a set, and its neighbour block. -/
theorem test_slices : plyOf 0x43780 = 1 ∧ setOf 0x43780 = 33 ∧ plyOf 0x43800 = 0 ∧ setOf 0x43800 = 33 ∧ sliceOf 0x43780 = sliceOf 0x43800 ∧
    sliceOf 0x43780 = 2 := by decide +kernel
/-- The MX block and the QN4 blocks of spec/05's example. -/
theorem test_quantise : quantMx e2m1 2 ([0x41500000, 0x40A00000, 0xBF800000, 0x3ECCCCCD].map fp32.value) = (128, [7, 5, 9, 0], 0x018) ∧
    quantQn4 [[fp32.value 0x43FF0000], [0x41A00000, 0xC24C0000, 0x3FA66666, 0x40020000].map fp32.value] =
      (0x40000000, [(255, [15]), (26, [11, 0, 7, 8])], 0x010) := by decide +kernel

/-! ### Machines that meet the hypotheses of the statements, one theorem for each statement that has any -/

/-- A guard that no fibre of the small machine meets: p0, which is 0. -/
def off : Hdr := ⟨false, false, 0⟩

theorem unended_of (s : State) (tk : Nat) (h : ((aget s.launches (s.team tk).launch).bind Launch.ending).isNone = true) : Unended s tk :=
  Option.isNone_iff_eq_none.mp h
theorem apart_of_one_run (s : State) (n : Nat) (hw : warpIx s.iss.warp = 0) (hg : s.myTeam.grant.win = [(n, 128)]) (ha : s.myTeam.alloc = 64) : Apart s := by
  intro l hl m hm hne x y h
  have at_ (i : Nat) (hi : i < 128) : placeAt [(n, 128)] i = n + i := if_pos hi
  unfold Team.regGranule at h
  rw [hw, hg, ha, at_ _ (by omega), at_ _ (by omega)] at h
  omega
theorem apart_base : Apart base := apart_of_one_run base 0 (by decide +kernel) (by decide +kernel) (by decide +kernel)

theorem witness_IntegerThreeRegisterResults : Apart base := apart_base
theorem witness_IntegerBitResults : Apart base := apart_base
theorem witness_ShiftsTakeEveryAmount : Apart base := apart_base
theorem witness_ImmediateAndOneOperandResults : Apart base := apart_base
theorem witness_CompareAndPredicateResults : Apart base ∧ ICond.ltu.wide = false ∧ ICond.lt.wide = false := ⟨apart_base, rfl, rfl⟩
theorem witness_WordsDecodeAsTheTablesSay : BitVec.extractLsb 30 27 (0x78000000 : BitVec 32) = 15#4 ∧ BitVec.extractLsb 30 27 (0xFFFFFFFF : BitVec 32) = 15#4 := by decide

/-- The machine in which a divide has begun. -/
def dividing : State := match exec (.div hd 3 1 2 false) base with
  | .next t => t
  | _ => base
def divJob : DivJob := ((dividing.core 0).divider).getD ⟨0, 0, [], 0, 0⟩
def divided : State := { dividing with clock := divJob.due }
theorem witness_DividesRunToTheirValues : (BitVec.intMin 32 ≠ 0 ∧ BitVec.allOnes 32 ≠ (0 : Word)) ∧
    base.active off = [] ∧ base.active hd ≠ [] ∧ (base.core base.myTeam.core).divider = none ∧
    (dividing.active hd ≠ [] ∧ (dividing.core dividing.myTeam.core).divider ≠ none) ∧ (dividing.core 0).divider = some divJob ∧
    dividing.clock < divJob.due ∧ (divided.core 0).divider = some divJob ∧ divJob.due ≤ divided.clock ∧
    (∀ p ∈ divJob.vals, ∀ q ∈ divJob.vals, p ≠ q →
      ((dividing.team (teamOf divJob.warp)).regGranule divJob.warp p.1 p.2.1, p.2.1 % 16) ≠
        ((dividing.team (teamOf divJob.warp)).regGranule divJob.warp q.1 q.2.1, q.2.1 % 16)) := by decide +kernel
theorem witness_RoundingAndStoring : fp32 ∈ [fp64, fp32, fp16, bf16] ∧ 0 < 2 * fp32.signBit ∧ (fp32.value 0).isNan = false ∧
    (fp32.value 0x7FFFFFFF).isNan = true ∧ 0x7FFFFFFF < 2 * fp32.signBit ∧
    (2 * (1 - (roundShift .rne 1 1).1 * 2 ^ 1) = 2 ^ 1 ∧ (1 : Nat) ≠ 0) := by decide +kernel
theorem witness_FloatArithmeticResults : Apart base := apart_base
theorem witness_ConversionAndPackingResults : Apart base ∧ NumType.s32.isWide = false ∧ NumType.s64.isWide = true ∧ (-1 : Int) < 0 := ⟨apart_base, rfl, rfl, by decide⟩
theorem witness_SpecialFunctionsStart : base.active hd ≠ [] ∧ (base.core base.myTeam.core).sfuUntil ≤ base.clock ∧ base.myWarp.counters.length < 8 := by
  decide +kernel

/-- A result for register 3 of lane 0 and registers 4 and 5 of lane 31. -/
def result : ResultMsg := ⟨⟨32, 0, base.myTeam.grant.gen, 9⟩, [(0, [(3, 7)]), (31, [(4, 8), (5, 9)])], [(31, 16)], false, [], none, none, true, false⟩
def answered : State := base.start (.result result)
theorem witness_LongLatencyResultArrives : answered.item base.nextId = some (.result result) ∧ result.pubs = [] ∧ result.tag = none ∧ result.seq = none ∧
    (answered.warp 32).live = true ∧ answered.accepts (answered.team 1) result.dest.gen = true ∧
    (∀ v ∈ result.vals, v.2 ≠ [] ∧ v.1 < 32) ∧ (∀ e ∈ result.exs, ∃ v ∈ result.vals, v.1 = e.1) ∧
    (∀ v ∈ result.vals, ∀ x ∈ v.2, (answered.fib (fibKey 32 v.1)).floor ≤ x.1 / 16 * 16 ∧
      x.1 / 16 * 16 < (answered.fib (fibKey 32 v.1)).floor + 16 * (answered.fib (fibKey 32 v.1)).nres) ∧
    (result.vals.flatMap fun v => v.2.map fun x => ((answered.team 1).regGranule 32 v.1 x.1, x.1 % 16)).Nodup := by decide +kernel
theorem witness_CrossLaneResults : Apart base ∧ base.active hd ≠ [] := ⟨apart_base, by decide +kernel⟩

/-- All lanes' v1 and v2 hold the same. -/
def same (a b : Word) : State := withRegs base (((List.range 32).map fun l => (l, 1, a)) ++ (List.range 32).map fun l => (l, 2, b))
theorem witness_QueryWordResults : Apart base := apart_base
theorem witness_GenerationQueryResults : (Apart (same 0x80000000 0) ∧ Apart (same 5 0)) ∧
    (∀ l ∈ (same 0x80000000 0).active hd, (coreAt (same 0x80000000 0).myTeam ((same 0x80000000 0).srcR 1 l).toNat).isSome = true) ∧
    (∀ l ∈ (same 5 0).active hd, coreAt (same 5 0).myTeam ((same 5 0).srcR 1 l).toNat = none) ∧ (same 5 0).myTeam.halts = [] ∧ Unended (same 5 0) (teamOf (same 5 0).iss.warp) := by
  exact ⟨⟨apart_of_one_run _ 0 (by decide +kernel) (by decide +kernel) (by decide +kernel),
    apart_of_one_run _ 0 (by decide +kernel) (by decide +kernel) (by decide +kernel)⟩, by decide +kernel, by decide +kernel, by decide +kernel,
    unended_of _ _ (by decide +kernel)⟩
/-- GENQ of register 0 completes: its granule carries the team's generation, 1 (R214: bit 17 and the generation in bits 15..0). -/
theorem test_genq : (match exec (.genq hd 3 1) (same 0x80000000 0) with
    | .next t => (List.range 32).all fun l => (t.logical 32 l 3).toNat == 2 ^ 17 + 1
    | _ => false) = true := by decide +kernel

/-- A halt of warp 0 of the small machine, in a phase; its team in a handler. -/
def haltIn (p : HaltPhase) : Halt :=
  { kind := .precise, phase := p, code := 0x30, swcode := 0, warp := 0, lanes := BitVec.allOnes 32, pc := 0, word := 0, rpl := false, wt := false, failed := 0,
    addr := 0, done := 0, flanes := 1, db := 0, service := false, ws := [], seq := 1, ended := none, dbg := false, key := 0 }
def halted (p : HaltPhase) : State :=
  let t : Team := { base.team 1 with halts := [haltIn p] }
  base.setTeam 1 t
theorem witness_CsrAccesses : Apart base ∧ (csrInfo 0x001).map CsrInfo.wide = some false ∧ (csrInfo 0x010).map CsrInfo.wide = some true ∧
    (csrInfo 0x100).map CsrInfo.handler = some true ∧ inHandlerBatch (halted .handler) = true ∧ (base.active hd).getLast? = some 31 ∧
    base.active off = [] ∧ base.active hd ≠ [] ∧ csrInfo 0xFFF = none ∧ (csrInfo 0x001).map CsrInfo.writable = some false ∧
    inHandlerBatch base = false := ⟨apart_base, by decide +kernel⟩

/-- A second team of one warp stands on the same core, ready. -/
def two : State := { base.placeWord 0x78000000 with iss := base.iss, pre := (base.placeWord 0x78000000).loc, agenda := [] }
theorem witness_MaskWaitAndExitWords : (0 : Nat) < 12 ∧ (base.active hd).getLast? = some 31 ∧ ((base.core base.myTeam.core).wcb = [] ∧ base.items = [] ∧
    base.outs = [] ∧ base.myWarp.late = [] ∧ base.myWarp.replay = []) ∧ base.active hd ≠ [] ∧ ((base.warpsOn base.myTeam.core).filter fun u => u != base.iss.warp && base.warpReady u) = [] ∧
    ((two.warpsOn two.myTeam.core).filter fun u => u != two.iss.warp && two.warpReady u) = [64] ∧ two.active hd ≠ [] := by decide +kernel

/-- Barrier 1 expects 64 arrivals. -/
def bar64 : State := base.setBarrier 1 1 (Barrier.start 64)
theorem witness_BarrierResults : (0 < (Barrier.start 64).e ∧ ∀ k (h : k < 4), (Barrier.start 64).cnt[k] ≤ (Barrier.start 64).e) ∧
    (bar64.active hd).getLast? = some 31 ∧ ((bar64.core bar64.myTeam.core).wcb = [] ∧ bar64.items = [] ∧ bar64.outs = [] ∧
    bar64.myWarp.late = [] ∧ bar64.myWarp.replay = []) ∧ bar64.myTeam.warps ≤ 32 ∧
    State.phasePassed ((bar64.barrier 1 1).arrive 0 (bar64.active hd).length).phase ((bar64.barrier 1 1).phase + 0) = false ∧
    State.phasePassed ((bar64.barrier 1 0).arrive 0 (bar64.active hd).length).phase ((bar64.barrier 1 0).phase + 0) = true := by
  refine ⟨⟨by decide, fun k h => ?_⟩, by decide +kernel⟩
  simp [Barrier.start]
theorem witness_BranchResults : (∀ l ∈ base.active hd, (base.srcX 4 l).toNat < 2 ^ 54) ∧ base.active hd ≠ [] ∧
    (∃ l ∈ (with2 0xFFFFFFFFFFFFFFFF 0).active hd, 2 ^ 54 ≤ ((with2 0xFFFFFFFFFFFFFFFF 0).srcX 4 l).toNat) := by decide +kernel
theorem witness_WindowPlanKeepsTheInvariant : (4 ≤ 4 ∧ 4 ≤ 16 ∧ (4 = 4 → 16 % 16 = 0) ∧ 4 ≤ 4) ∧ (4 ≤ 16 ∧ 16 ≤ 16 ∧ (16 = 4 → 7 % 16 = 0) ∧ 16 ≤ 16) := by
  decide

/-- The small machine with every fibre of its warp changed, and with its team changed. -/
def onLanes (s : State) (f : Fibre → Fibre) : State :=
  let t := (List.range 32).foldl (fun t l => t.setLane l (f (t.lane l))) s
  { t with pre := t.loc }
def teamBe (f : Team → Team) : State := base.setTeam 1 (f (base.team 1))
/-- 128 registers in each lane; one call of shift 16 from packet 4 is in the return stack. -/
def big : State := teamBe fun t => { t with alloc := 128, grant := { t.grant with win := [(0, 256)] } }
def called : State := onLanes big fun f => { f with wb := 16, depth := 1, held := [0x4000000000000005] }
def atWb (n : Nat) : State := onLanes big fun f => { f with wb := n }
def still (s : State) (l wb : Nat) : Bool :=
  let p := winPlan (s.lane l).floor (s.lane l).nres s.myTeam.alloc wb (s.lane l).left_
  p.spills.isEmpty && p.refills.isEmpty

theorem witness_CallAndReturnResults :
    (∀ l ∈ big.active hd, ¬(big.myTeam.alloc = 64) ∧ (big.lane l).wb + 16 ≤ 2 ^ 26 - 64 ∧ (big.lane l).depth ≠ 2 ^ 26 ∧ (big.lane l).held.length < 16 ∧
      still big l ((big.lane l).wb + 16) = true ∧ (big.srcX 4 l).toNat < 2 ^ 54) ∧ big.active hd ≠ [] ∧
    (base.active hd).head? = some 0 ∧ base.myTeam.alloc = 64 ∧
    ((atWb (2 ^ 26 - 64)).active hd).head? = some 0 ∧ 2 ^ 26 - 64 < ((atWb (2 ^ 26 - 64)).lane 0).wb + 1 ∧
    ((onLanes big fun f => { f with depth := 2 ^ 26 }).lane 0).depth = 2 ^ 26 ∧ 2 ^ 54 ≤ ((with2 0x40000000000000 0).srcX 4 0).toNat ∧
    (∀ l ∈ called.active hd, (called.lane l).depth ≠ 0 ∧ (called.lane l).held.head? = some 0x4000000000000005 ∧
      ((called.lane l).held.length = 1 → (called.lane l).depth = 1) ∧ ¬(called.myTeam.alloc = 64) ∧ 16 ≤ (called.lane l).wb ∧
      still called l ((called.lane l).wb - 16) = true) ∧ called.active hd ≠ [] := by decide +kernel
theorem witness_ReturnAtDepthZeroEndsTheFibre : base.active hd ≠ [] ∧ ∀ l ∈ base.active hd, (base.lane l).depth = 0 := by decide +kernel

/-- A page of 1 GiB at virtual address 0, physical 0, for reading, writing and running. -/
def page : Tlb := ⟨0, 0, false, 0, 30, 0, 0x1F, []⟩
def mapped (s : State) : State := { s with tlbs := [page], ctxs := [(0, { Ctx.reset with troot := 0x8000000000000000 })] }
def rsJob (below : Bool) : State := (onLanes base fun f => { f with depth := 2 }).start (.rs ⟨32, [(0, below, 0x4000000000000005, 4)], []⟩)
theorem apart_called : Apart called := by
  have hw : warpIx called.iss.warp = 0 := by decide +kernel
  have hg : called.myTeam.grant.win = [(0, 256)] := by decide +kernel
  have ha : called.myTeam.alloc = 128 := by decide +kernel
  intro l hl m hm hne x y h
  have at_ (i : Nat) (hi : i < 256) : placeAt [(0, 256)] i = 0 + i := if_pos hi
  unfold Team.regGranule at h
  rw [hw, hg, ha, at_ _ (by omega), at_ _ (by omega)] at h
  omega
def fine (r : Except (BitVec 8 × Bool) (Nat × Attr)) (pa : Nat) : Bool := match r with
  | .ok (p, _) => p == pa
  | .error _ => false
theorem witness_ReturnStackResults : Apart called ∧
    (∀ l ∈ called.active hd, (called.srcR 2 l).toNat < (called.lane l).held.length) ∧ called.active hd ≠ [] ∧
    (∀ l ∈ base.active hd, (base.lane l).depth ≤ (base.srcR 2 l).toNat ∧ (base.lane l).depth = 0) ∧ base.active hd ≠ [] ∧
    (∀ l ∈ called.active hd, (called.lane l).depth ≠ 2 ^ 26 ∧ (called.lane l).held.length < 16) ∧
    (let s := withRegs called ((List.range 32).map fun l => (l, 18, (0xFFFFFFF0 : Word)))
     ∀ l ∈ s.active hd, (s.srcR 2 l).toInt = -16 ∧ 0 ≤ ((s.lane l).wb : Int) + (s.srcR 2 l).toInt ∧ still s l 0 = true) ∧
    (with3 0 0x80000000 0).myTeam.alloc = 64 ∧ ((with3 0 1 0).srcR 2 0).toInt % 16 ≠ 0 ∧
    (((with3 0 0xFFFFFFF0 0).lane 0).wb : Int) + ((with3 0 0xFFFFFFF0 0).srcR 2 0).toInt < 0 ∧
    (∀ below, let s := rsJob below
      s.item base.nextId = some (.rs ⟨32, [(0, below, 0x4000000000000005, 4)], []⟩) ∧ (s.warp 32).live = true ∧
      (s.fib (fibKey 32 0)).held = [] ∧ (s.fib (fibKey 32 0)).depth ≠ 0) := ⟨apart_called, by decide +kernel⟩

/-- 256 bytes of scratch. -/
def scr : State := teamBe fun t => { t with scratch := 256, grant := { t.grant with scr := [(200, 4)] } }
theorem scrApart : ScrApart scr := by
  have hg : scr.myTeam.grant.scr = [(200, 4)] := by decide +kernel
  have hs : scr.myTeam.scratch = 256 := by decide +kernel
  intro x hx y hy hne h
  have at_ (i : Nat) (hi : i < 4) : placeAt [(200, 4)] i = 200 + i := if_pos hi
  unfold Team.scrGranule at h
  rw [hs] at hx hy
  rw [hg, at_ _ (by omega), at_ _ (by omega)] at h
  omega
theorem scratchQuiet_of (s : State) (h : s.items = []) : ScratchQuiet s := by
  refine ⟨fun j hj => ?_, fun l off n => ⟨?_, ?_⟩⟩
  · rw [h] at hj
    cases hj
  · unfold State.tileOver
    rw [h]
    rfl
  · unfold State.ldcBefore
    rw [h]
    rfl
theorem witness_CoreStoreWordResults :
    Apart scr ∧ ScrApart scr ∧ (∀ g, scr.stale scr.myTeam g = false) ∧ ScratchQuiet scr ∧
    scr.active hd ≠ [] ∧ scr.myTeam.phase ≠ .retired ∧ scr.myWarp.counters.length < 8 ∧
    (let s := withRegs scr ((List.range 32).map fun l => (l, 1, BitVec.ofNat 32 (252 - 4 * (l % 2))))
     ∀ l ∈ s.active hd, (s.srcR 1 l).toNat < s.myTeam.scratch ∧ (s.srcR 1 l).toNat % 4 = 0 ∧ (s.srcR 1 l).toNat + 4 ≤ s.myTeam.scratch) ∧
    (let s := withRegs scr ((List.range 32).map fun l => (l, 1, (0x800000FC : Word)))
     ∀ l ∈ s.active hd, s.myTeam.scratch ≤ (s.srcR 1 l).toNat ∧ 0x80000000 ≤ (s.srcR 1 l).toNat ∧ (s.srcR 1 l).toNat < 0x80000100 ∧
       (s.srcR 1 l).toNat % 4 = 0) := by
  refine ⟨apart_of_one_run scr 0 (by decide +kernel) (by decide +kernel) (by decide +kernel), scrApart, fun g => ?_, scratchQuiet_of _ (by decide +kernel), by decide +kernel⟩
  have h : scr.myTeam.strict = false := by decide +kernel
  unfold State.stale
  rw [h]
  rfl

/-- A second team of the panel on core 1, with 64 bytes of scratch, and lanes' v1 at its start; a write on its way there. -/
def cluster : State :=
  let s := scr.setTeam 2 { scr.team 1 with core := 1, teamid := 1, scratch := 64, grant := ⟨[(0, 128)], [(128, 1)], 7, []⟩ }
  let s := { s with launches := s.launches.map fun x => (x.1, { x.2 with r := { x.2.r with width := 2, scratch := 64 }, places := [(0, 0), (1, 1)] }) }
  withRegs s ((List.range 32).map fun l => (l, 1, (0x01000000 : Word)))
def there : ClusterAt := ⟨1, 2, 0⟩
def askLdc : LdcReq := ⟨⟨32, 0, 1, 9⟩, [⟨0, 1, 2, 0, .b32, 4⟩], 24⟩
def writeStc : LateScr := ⟨32, 0, 1, 2, 7, 60, [1, 2, 3, 4]⟩
theorem witness_ClusterWordResults : cluster.active hd ≠ [] ∧ cluster.myWarp.counters.length < 8 ∧
    cluster.behindOwnTile 4 ((cluster.active hd).map fun l => (l, there)) = false ∧
    (∀ l ∈ cluster.active hd, (cluster.clusterCheck (cluster.srcR 1 l).toNat 4 true).toOption = some there ∧
      (cluster.clusterCheck (cluster.srcR 1 l).toNat 4 false).toOption = some there ∧ (cluster.lane l).acks < 65535) ∧
    (let s := cluster.start (.ldc askLdc)
     s.item cluster.nextId = some (.ldc askLdc) ∧ cluster.nextId < s.nextId ∧ s.scratchFirst cluster.nextId 0 [1] = true) ∧
    (let s := cluster.start (.stc [writeStc])
     s.item cluster.nextId = some (.stc [writeStc]) ∧ (s.team 2).phase ≠ .retired ∧ (s.team 2).grant.gen = 7 ∧ (60 + 3) / 64 = 60 / 64 ∧
     s.scratchFirst cluster.nextId (s.team (teamOf ((s.countedOn cluster.nextId).headD 0 / 32))).core [1] = true) ∧
    (cluster.team 2).grant.gen ≠ 9 ∧ (9 : BitVec 16) ∉ (cluster.team 2).grant.accepted := by decide +kernel

/-- Every lane's x4 at an address of the mapped page. -/
def loads : State := mapped (withRegs base ((List.range 32).map fun l => (l, 4, BitVec.ofNat 32 (0x1000 + 8 * l))))
def rowAt : State := mapped (withRegs base [(31, 4, 0x3FFFF800)])
/-- How many lanes pass and fail a check, and whether the core has room for the requests of those that pass. -/
def passed (r : List LaneOk × List LaneBad × State) (n : Nat) : (Nat × Nat) × Bool := ((r.1.length, r.2.1.length), r.2.2.roomForRequests 0 n)
def trIs (r : Tr × State) (p : Nat → DWord → State → Bool) : Bool := match r with
  | (.ok pa leaf _ _, t) => p pa leaf t
  | _ => false
theorem witness_PlainMemoryWords :
    (passed (loads.checkLanes (loads.active hd) (loads.srcX 4) 8 .r State.barRead) 32 = ((32, 0), true) ∧ loads.myWarp.counters.length < 8) ∧
    (passed (loads.checkLanes (loads.active hd) (loads.srcX 4) 8 .w State.barPlain) 0 = ((32, 0), true) ∧
      (loads.core loads.myTeam.core).wcb = [] ∧ ∀ l ∈ loads.active hd, (loads.lane l).acks < 65535) ∧
    passed (base.checkLanes (base.active hd) (base.srcX 4) 8 .r State.barRead) 0 = ((0, 32), true) ∧
    passed (base.checkLanes (base.active hd) (base.srcX 4) 8 .w State.barPlain) 0 = ((0, 32), true) ∧
    (2 ^ 57 ≤ (0x200000000000000 : DWord).toNat ∧ (4 : DWord).toNat % 8 ≠ 0 ∧ (base.ctx 0).troot.getLsbD 63 = false) ∧
    trIs (loads.xlate 0 0 0x1000) (fun pa leaf t =>
      pa == 0x1000 && State.leafAllows .r leaf && t.peerAllows .r pa && (State.barRead t pa).isNone && !t.unreachable 0 pa) = true ∧
    trIs (({ loads with tlbs := [{ page with leaf := 1 }] }).xlate 0 0 0x1000) (fun _ leaf _ => !State.leafAllows .r leaf) = true ∧
    trIs (({ loads with lost := [⟨0, 0, [1]⟩] }).xlate 0 0 0x1000) (fun pa _ t => State.barRead t pa == some 0x13) = true := by decide +kernel
theorem witness_AtomicAndRowWords :
    (loads.core loads.myTeam.core).wcb = [] ∧
    passed (loads.checkLanes (loads.active hd) (loads.srcX 4) 8 .rw State.barPlain) 32 = ((32, 0), true) ∧ loads.myWarp.counters.length < 8 ∧
    (∀ l ∈ loads.active hd, (loads.lane l).acks < 65535) ∧
    passed (loads.checkLanes (loads.active hd) (loads.srcX 4) 4 .rw (State.barAcc .acc32)) 32 = ((32, 0), true) ∧ rowAt.roomForRequests 0 1 = true ∧
    (rowAt.active hd).getLast? = some 31 ∧ (rowAt.core rowAt.myTeam.core).wcb = [] ∧
    fine (rowAt.laneCheck 0 0 (rowAt.srcX 4 31) 2048 .r State.barRowRead).1 0x3FFFF800 = true ∧ rowAt.myWarp.counters.length < 8 ∧
    (let s := { base with iss := { base.iss with lanes := 1 } }
     (s.active hd).getLast? = some 0 ∧ (s.active hd).length < 32 ∧ (s.core s.myTeam.core).wcb = []) ∧
    fine (rowAt.laneCheck 0 0 (rowAt.srcX 4 31) 2048 .w State.barDevice).1 0x3FFFF800 = true ∧ (rowAt.active hd).length = 32 ∧
    (∀ l ∈ rowAt.active hd, (rowAt.lane l).acks < 65535) := by decide +kernel

/-- Memory with numbers at addresses: (address, bytes, value). -/
def withMem (s : State) (l : List (Nat × Nat × Nat)) : State := l.foldl (fun t x => t.wr x.1 x.2.1 x.2.2) s
/-- A function's grant: one context, 2 GiB of device memory. -/
def grant_ : GrantRec := ⟨1, [(0, 2 ^ 31)], true, true, none, 1, [], [], 0, [], none⟩
/-- Context 0 with view 0 of 64 KiB, its active half at virtual 0, and virtual die 0 mapped; lanes' x4 in the view, v2 a partition register. -/
def viewed : State :=
  let s := withMem { base with ctxs := [(0, { Ctx.reset with troot := 0x8000000000000000, vtroot := 0x8000000000002000, vdt := 0x00E40EE400BF938F })],
                               funcs := [(0, { Func.reset with grant := some { grant_ with own := some 0 } })] }
    [(0x2000 + 8, 8, 0x10000), (0x2000 + 16, 5, 0x10000), (0x2000 + 24, 1, 2)]
  withRegs s ((List.range 32).flatMap fun l => [(l, 5, (0x01000000 : Word)), (l, 2, 0x104)])
theorem witness_HoldingWords : base.active hd ≠ [] ∧ (base.core base.myTeam.core).wcb = [] ∧ base.myWarp.counters.length < 8 ∧
    firmwareCtx base (base.ctxOfWarp base.iss.warp) = false ∧ viewed.active hd ≠ [] ∧ (viewed.core viewed.myTeam.core).wcb = [] ∧
    firmwareCtx viewed (viewed.ctxOfWarp viewed.iss.warp) = true ∧
    (let r := viewsOf viewed (viewed.active hd) (viewed.srcX 4)
     r.1 = (viewed.active hd).map (fun l => (l, 0x2000)) ∧ r.2.1 = []) ∧
    ∀ l ∈ viewed.active hd, (viewed.lane l).acks < 65535 ∧
      (partTarget (viewed.ctx 0).vdt (viewed.srcR 2 l)).isSome = true := by decide +kernel

theorem mem_of_aget {α : Type} (l : Assoc α) (k : Nat) (x : α) (h : aget l k = some x) : (k, x) ∈ l := by
  induction l with
  | nil => cases h
  | cons p t ih =>
    simp only [aget] at h
    split at h
    · rename_i e
      cases h
      cases e
      exact List.mem_cons_self
    · exact List.mem_cons_of_mem _ (ih h)
/-- A check that names are fresh, and what it shows. -/
def namesFresh (s : State) : Bool := (s.items.all fun p => decide (p.1 < s.nextId)) && s.cores.all fun p => p.2.wcb.all fun e => decide (e.id < s.nextId)
theorem namesOk_of (s : State) (h : namesFresh s = true) : s.namesOk := by
  obtain ⟨hi, hc⟩ := Bool.and_eq_true_iff.mp h
  refine ⟨fun id x hx => of_decide_eq_true (List.all_eq_true.mp hi _ (mem_of_aget _ _ _ hx)), fun c e he => ?_⟩
  unfold State.core at he
  cases hx : aget s.cores c with
  | none => rw [hx] at he; cases he
  | some y =>
    rw [hx] at he
    exact of_decide_eq_true (List.all_eq_true.mp (List.all_eq_true.mp hc _ (mem_of_aget _ _ _ hx)) _ he)
/-- A request whose turn has come, checked. -/
def turn (s : State) (id : Nat) : Bool := !s.askingHost id && s.firstInOrder id && (match s.item id with
  | some x => (s.gateOf x 0).isNone
  | none => true)
theorem arrives_of (s : State) (id : Nat) (h : turn s id = true) : Arrives s id := by
  unfold turn at h
  simp only [Bool.and_eq_true, Bool.not_eq_true'] at h
  refine ⟨h.1.1, h.1.2, fun x hx => ?_⟩
  have h2 := h.2
  rw [hx] at h2
  exact Option.isNone_iff_eq_none.mp h2

theorem start_keeps (s : State) (x : Item) : (s.start x).items = aset s.items s.nextId x ∧ (s.start x).outs = s.outs ∧
    (s.start x).contracts = s.contracts ∧ (s.start x).lost = s.lost ∧ (s.start x).peerAccx = s.peerAccx := ⟨rfl, rfl, rfl, rfl, rfl⟩
def fenceJob (k : FenceKind) (flips : List FlipReq) : FenceJob := ⟨32, BitVec.allOnes 32, k, false, .system, flips⟩
def fencing (k : FenceKind) (flips : List FlipReq) : State := base.start (.fence (fenceJob k flips))
def waitingWrite : State := { fencing .acqrel [] with outs := [⟨1, fibKey 32 3, 0, 0, true, 0⟩] }
def resides (release : Bool) (rec_ : BitVec 128) : State := base.start (.reside ⟨release, 32, [(0, 3, rec_)], ⟨0, 0, []⟩, 0, [], []⟩)
def pinned : Contract := ⟨5, 0, 1, 0x4000, 1, 0, 0, 0, [4], [], [], [], [], []⟩
def flip0 : FlipReq := ⟨0, 32, 0x2000, 0x01000000, [0], ⟨0, 0, []⟩⟩
def job0 : ResideJob := ⟨false, 32, [], ⟨0, 0, []⟩, 0, [], []⟩
/-- A PINS record of one granule at 0x4000, in a machine that maps it and whose slice has a way of that kind within the context's budget. -/
def pins : BitVec 128 := 2 ^ 92 + 2 ^ 64 + 0x4000
def resided : State :=
  { mapped (resides false pins) with
      funcs := [(0, { Func.reset with grant := some { grant_ with pinned := [(0, 2)] } })], parts := [(sliceOfGran 4 * 4, 1)] }
theorem witness_HeldWorkCompletes :
    (∀ k ∈ [FenceKind.acquire, .release, .acqrel], namesFresh (fencing k []) = true) ∧ (fencing .release [flip0]).namesOk ∧ waitingWrite.namesOk ∧
    ((fencing .acqrel []).items = [(base.nextId, .fence (fenceJob .acqrel []))] ∧ ((fencing .acqrel []).core 0).wcb = [] ∧
      (fencing .acqrel []).outs = []) ∧
    ((fencing .release [flip0]).items = [(base.nextId, .fence (fenceJob .release [flip0]))] ∧ (fencing .release [flip0]).outs = []) ∧
    (3 ∈ lanesOf (fenceJob .acqrel []).lanes ∧ waitingWrite.outs = [⟨1, fibKey 32 3, 0, 0, true, 0⟩] ∧ 1 < base.nextId ∧
      (waitingWrite.core 0).wcb = []) ∧
    ((base.start (.flip flip0)).item base.nextId = some (.flip flip0) ∧ Arrives (base.start (.flip flip0)) base.nextId ∧
      base.unreachable 0 0x2000 = false ∧ ((base.start (.flip flip0)).writeAct 0x2000 (· ^^^ 1)).2 = none ∧ memWf base.mem = true) ∧
    ((base.start (.part ⟨true, 32, [(0, 5, 4, 7)], []⟩)).item base.nextId = some (.part ⟨true, 32, [(0, 5, 4, 7)], []⟩) ∧ (base.warp 32).live = true) ∧
    (∀ release rec_, (resides release rec_).items = [(base.nextId, .reside ⟨release, 32, [(0, 3, rec_)], ⟨0, 0, []⟩, 0, [], []⟩)] ∧
      (resides release rec_).outs = [] ∧ (resides release rec_).contracts = [] ∧ (resides release rec_).lost = []) ∧
    ((5 : Nat) ≤ 0x5 ∧ ((2 ^ 64 + 0x1001 : BitVec 128)).toNat / 2 ^ 92 % 16 < 5 ∧ (2 ^ 64 + 0x1001 : BitVec 128).toNat % 2 ^ 64 % 4096 ≠ 0 ∧
      (0x1001 : Nat) % 4096 ≠ 0 ∧ (0x4000 : Nat) % 4096 = 0 ∧ 0x4000 < 2 ^ 57 ∧ pinned.base.toNat = 0x4000 ∧ pinned.ctx = base.ctxOfWarp 32) ∧
    (pins.toNat / 2 ^ 92 % 16 = 1 ∧ pins.toNat / 2 ^ 64 % 2 ^ 24 = 1 ∧ pins.toNat / 2 ^ 96 = 0 ∧ pins.toNat / 2 ^ 88 % 16 = 0 ∧
      pins.toNat % 2 ^ 64 = 0x4000 ∧
      (let r := resideGrans 0 0 0x4000 1 0 ((resided.fencePush (resideFence job0 0)).fenceAcquire (resideFence job0 0))
       r.1.toOption.map (fun ps => ps.map Prod.fst) = some [4] ∧ conflictAt r.2 0 [] [4] = none ∧ r.2.contracts.length < 4096 ∧
        exceedsAt r.2 0 1 [] (rowNeeds 1 0 0 [] [4]) = none)) := by
  refine ⟨by decide +kernel, namesOk_of _ (by decide +kernel), namesOk_of _ (by decide +kernel), by decide +kernel, by decide +kernel, by decide +kernel,
    ⟨by decide +kernel, arrives_of _ _ (by decide +kernel), by decide +kernel⟩, by decide +kernel, fun release rec_ => ?_, by decide +kernel,
    by decide +kernel⟩
  have h : base.items = [] ∧ base.outs = [] ∧ base.contracts = [] ∧ base.lost = [] := by decide +kernel
  obtain ⟨k1, k2, k3, k4, -⟩ := start_keeps base (.reside ⟨release, 32, [(0, 3, rec_)], ⟨0, 0, []⟩, 0, [], []⟩)
  unfold resides
  rw [k1, k2, k3, k4, h.1]
  exact ⟨rfl, h.2⟩

def at0 : Attr := ⟨1, 0, false, []⟩
def dest0 : Dest := ⟨32, 0, 1, 9⟩
def load0 : ReadReq := ⟨dest0, 0, 0x1000, 0, 64, [⟨0, 0x1008, 0x1008, .b64, 4, at0, []⟩, ⟨1, 0x1010, 0x1010, .b32, 6, at0, []⟩], .normal, none, false, ⟨0, 0, []⟩⟩
def reads (x : Item) : State := base.start x
theorem witness_HomeReadsBringTheBytes : (reads (.read load0)).namesOk ∧ (reads (.hbm load0 .hbm [])).namesOk ∧ (base.contracts.map Contract.id).Nodup ∧
    load0.scale = false ∧ (∀ x ∈ load0.lanes, x.own = []) ∧ load0.lanes ≠ [] ∧ (reads (.read load0)).item base.nextId = some (.read load0) ∧
    Arrives (reads (.read load0)) base.nextId ∧ Sound (reads (.read load0)) ∧ (reads (.read load0)).homeStop 0 0x1000 = none ∧
    (let f := (reads (.read load0)).spotFor 0x1000 1 .normal
     f.1.missing f.2 (sectorsOf 0x1000 64) ≠ [] ∧
       (f.1.spotMark f.2 (sectorsOf 0x1000 64) false).missing f.2 (sectorsOf 0x1000 64) = []) ∧
    (reads (.hbm load0 .hbm [])).item base.nextId = some (.hbm load0 .hbm []) :=
  ⟨namesOk_of _ (by decide +kernel), namesOk_of _ (by decide +kernel), by decide +kernel, rfl, by decide, by decide, by decide +kernel,
    arrives_of _ _ (by decide +kernel), ⟨by decide +kernel, by decide +kernel⟩, by decide +kernel⟩
def write0 : WriteReq :=
  ⟨1, 0, 32, 0, 0x1000, [⟨0, 0, [1, 2, 3, 4], 0x1000, at0, .store ⟨0, 0, []⟩⟩, ⟨1, 2, [5, 6], 0x1002, at0, .store ⟨0, 0, []⟩⟩], .normal⟩
def ack0 : AckMsg := ⟨32, 0, [fibKey 32 0, fibKey 32 1], some 7, 0, [], [], [], 0, 9⟩
theorem codes_hold (s : State) (c : Nat) (a : Attr) (hb : s.bad = []) (hk : s.keyOf = []) (h0 : s.keyFor c a = 0) (x : Nat) : s.codeFails c a x = false := by
  unfold State.codeFails
  rw [hb, hk, h0]
  rfl
theorem witness_WritesLandAndReturn : memWf base.mem = true ∧ (base.start (.write write0)).item base.nextId = some (.write write0) ∧
    Arrives (base.start (.write write0)) base.nextId ∧ Sound (base.start (.write write0)) ∧ write0.parts ≠ [] ∧ (base.start (.write write0)).homeStop 0 0x1000 = none ∧
    base.accxAt 0x1000 = false ∧ (∀ p ∈ write0.parts, ∀ x, (base.start (.write write0)).codeFails 0 p.at_ x = false) ∧ base.hostSide 0x1000 = false ∧
    (base.start (.ack ack0)).item base.nextId = some (.ack ack0) ∧ ack0.gate = [] ∧ (base.warp 32).live = true ∧ ack0.held = [] ∧ ack0.lanes.Nodup :=
  ⟨by decide +kernel, by decide +kernel, arrives_of _ _ (by decide +kernel), ⟨by decide +kernel, by decide +kernel⟩, by decide, by decide +kernel,
    by decide +kernel, fun p hp => codes_hold _ _ _ (by decide +kernel) (by decide +kernel) (by revert p; decide +kernel),
    by decide +kernel⟩
def rmw0 (w : Bool) : RmwReq := ⟨dest0, 0, w, .add, w, ⟨0, 0x1000, 0x1000, 4, 1, 0⟩, at0, ⟨0, 0, []⟩⟩
def row0 (st : Option (List Word)) : RowReq := ⟨dest0, 0, 0x1000, 0x1000, st, BitVec.allOnes 32, [(0, 8), (31, 8)], at0, ⟨0, 0, []⟩⟩
theorem no_accx (s : State) (hc : s.contracts = []) (hp : s.peerAccx = []) (a : Nat) : s.accxAt a = false := by
  unfold State.accxAt State.contractAt
  rw [hc, hp]
  split <;> rfl
theorem witness_AtomicsAndRowsAtTheirHomes :
    (∀ w, let s := base.start (.rmw (rmw0 w))
      s.memOk ∧ s.namesOk ∧ s.item base.nextId = some (.rmw (rmw0 w)) ∧ Arrives s base.nextId ∧ Sound s ∧ ∀ a, s.accxAt a = false) ∧
    (∀ w, (base.start (.rmw (rmw0 w))).homeStop 0 0x1000 = none) ∧ (base.contracts.map Contract.id).Nodup ∧ (∀ x, base.codeFails 0 at0 x = false) ∧
    (∀ st ∈ [none, some (List.replicate 512 5)], let s := base.start (.row (row0 st))
      s.memOk ∧ s.namesOk ∧ s.item base.nextId = some (.row (row0 st)) ∧ Arrives s base.nextId ∧ Sound s) := by
  refine ⟨fun w => ⟨?_, namesOk_of _ ?_, ?_, arrives_of _ _ ?_, ⟨?_, ?_⟩, no_accx _ ?_ ?_⟩, by decide +kernel,
    by decide +kernel, codes_hold _ _ _ (by decide +kernel) (by decide +kernel) (by decide +kernel),
    fun st hst => ⟨?_, namesOk_of _ ?_, ?_, arrives_of _ _ ?_, ⟨?_, ?_⟩⟩⟩
  all_goals first
    | exact (start_keeps base _).2.2.1.trans (by decide +kernel)
    | exact (start_keeps base _).2.2.2.2.trans (by decide +kernel)
    | (revert w; decide +kernel)
    | (revert st; show ∀ st ∈ [none, some (List.replicate 512 5)], memWf _ = true; decide +kernel)
    | (revert st; decide +kernel)
    | (show memWf _ = true; revert w; decide +kernel)
def acc0 (kd : AccKind) : AccReq := ⟨0, 32, 0, kd, 0x1000, [⟨0, 0, 0x1008, 0x1008, kd, 0x3F800000, at0⟩]⟩
def accxRange : Contract := ⟨5, 0, 4, 0x1000, 1, 0, 0, 0, [1], [], [], [], [], []⟩
theorem witness_AccumulationAtItsHome :
    (∀ kd ∈ [AccKind.acc32, .acc64, .accx], memWf (base.start (.acc (acc0 kd))).mem = true ∧
      (base.start (.acc (acc0 kd))).item base.nextId = some (.acc (acc0 kd)) ∧ turn (base.start (.acc (acc0 kd))) base.nextId = true) ∧
    Sound base ∧ (∀ x, base.codeFails 0 at0 x = false) ∧ base.accRefused 0 0x1000 .acc32 = none ∧ base.accRefused 0 0x1000 .acc64 = none ∧
    ({ base with contracts := [accxRange] }).accRefused 0 0x1000 .accx = none ∧ base.accRefused 0 0x1000 .accx = some 0x14 :=
  ⟨by decide +kernel, ⟨by decide +kernel, by decide +kernel⟩, codes_hold _ _ _ (by decide +kernel) (by decide +kernel) (by decide +kernel), by decide +kernel⟩

/-- An entry of the write-combining buffer, an old L1 line, a signature, four table levels' worth of nothing: what core 0 does by itself. -/
def entry0 (rels : List (Nat × Scope)) : Wcb := ⟨3, 32, 0x1000, [⟨0, 0, [1], 0x1000, at0, .store ⟨0, 0, []⟩⟩], 0, .normal, 0, rels⟩
def busy (rels : List (Nat × Scope)) : State := base.setCore 0 { base.core 0 with wcb := [entry0 rels], l1 := [(0x2000, ⟨[(0, 1)], 0, false⟩)] }
def signed : State := base.setCore 0 { base.core 0 with sig := [(5, 1, 0)] }
def slow : State := { base with clock := 4096 }
def starved : Warp := { base.warp 32 with spin := ⟨true, 0, 0, 16, false⟩ }
theorem witness_MachineEvents :
    ((busy []).core 0).wcb.find? (fun e => e.id == 3) = some (entry0 []) ∧ (busy []).wcbReady 0 (entry0 []) = true ∧
    ({ busy [] with outs := [⟨2, fibKey 32 0, 0x1000, 0, true, 0⟩] }).wcbReady 0 (entry0 [(0, .system)]) = false ∧
    (aget ((busy []).core 0).l1 0x2000).isSome = true ∧ 0 + 4096 ≤ slow.clock ∧ base.clock < 0 + 4096 ∧
    (signed.core 0).wcb = [] ∧ signed.outs = [] ∧ (signed.core 0).publishing = none ∧ (∀ e ∈ (signed.core 0).sig, e.2.2 < signed.nextId) ∧
    base.tlbs = [] ∧ (0 : DWord).toNat < 2 ^ 56 ∧
    (match (base.walkGeneral 0 0 0).1 with
      | .bad code _ => code == 0x10
      | _ => false) = true ∧ (0 % 64 < base.liveCores (clusterOf 0) ∧ base.liveCores (clusterOf 63) ≤ 63 % 64) ∧
    base.failedBanks.find? (fun b => b.1 == 3 && decide (b.2.2 < 8192)) = none ∧
    ({ base with failedBanks := [(3, 1, 8191)] }).failedBanks.find? (fun b => b.1 == 3 && decide (b.2.2 < 8192)) = some (3, 1, 8191) ∧
    (∀ q ∈ base.queue, q.ev ≠ .bankRebuildStep 3) ∧
    (base.warp 32).live = true ∧ base.warpReady 32 = true ∧ ¬(base.clock < (base.warp 32).lastIssue) ∧ starved.spin.armed = true ∧ 16 ≤ starved.spin.count ∧
    (base.warp 32).spin.armed = false ∧ (base.warp 32).lastIssue + 960 ≤ slow.clock ∧ base.clock < (base.warp 32).lastIssue + 960 := by
  decide +kernel
def lagging : State := base.setCore 0 { base.core 0 with gen := (base.team 1).grant.gen + 24576 }
/-- Core 0 is 16,384 generations ahead of a free granule's tag, and less ahead of that of a second one. -/
def aged : State :=
  ({ base with loc := { base.loc with gran := [(300, { Granule.void with tag := 5 }), (301, { Granule.void with tag := 6 })] } } : State).setCore 0
    { base.core 0 with gen := 5 + 16384 }
theorem test_sweep : (match exec (.granuleSweep 0) aged with
    | .next t => ((t.granule 300).tag, (t.granule 301).tag, t.queue.any fun q => q.ev == .granuleSweep 0)
    | _ => (9, 9, false)) = (0, 6, true) := by decide +kernel
theorem test_renewal : (match exec (.generationRenewal 1) lagging with
    | .next t => (t.team 1).grant.gen == (t.core 0).gen && (t.core 0).gen == (lagging.core 0).gen + 1
    | _ => false) = true := by decide +kernel
def soon : State := lagging.setCore 0 { lagging.core 0 with nextGrant := 16 }
theorem witness_GenerationsAreKeptApart : (∀ g ∈ [300, 301], g / 16384 = 0 ∧ ∀ x ∈ (aged.teamsOn 0).map (fun x => x.2.grant),
      g % 16384 ∉ runGranules x.win ∧ g % 16384 ∉ runGranules x.scr) ∧ 16384 ≤ ((aged.core 0).gen - (aged.granule 300).tag).toNat ∧
    ¬16384 ≤ ((aged.core 0).gen - (aged.granule 301).tag).toNat ∧ (lagging.team 1).grant.gen ≠ 0 ∧ (soon.team 1).grant.gen ≠ 0 ∧
    (base.team 1).phase ≠ .retired ∧ ((base.core 0).gen - (base.team 1).grant.gen).toNat < 24576 ∧
    (lagging.team 1).phase ≠ .retired ∧ 24576 ≤ ((lagging.core 0).gen - (lagging.team 1).grant.gen).toNat ∧
    (lagging.core 0).nextGrant ≤ lagging.clock ∧ soon.clock < (soon.core 0).nextGrant ∧
    24576 ≤ ((soon.core 0).gen - (soon.team 1).grant.gen).toNat := by decide +kernel
def paged : State := mapped base
def far : State := onLanes base fun f => { f with pc := BitVec.allOnes 54 }
theorem reserve_none (s : State) (c : Nat) (h : s.reserve = []) (q : ReadReq) : s.reserveCopy c q = none := by
  unfold State.reserveCopy
  rw [h]
  simp
theorem witness_PacketsAreFetched : (∀ q : ReadReq, paged.reserveCopy 0 q = none) ∧ Unended far 1 ∧ (paged.warp 32).live = true ∧ (paged.warp 32).packet 7 = none ∧ 12 * 7 + 12 ≤ 2 ^ 56 ∧
    paged.translates (paged.ctxOfWarp 32) = true ∧ State.leafAllows .x page.leaf = true ∧ (paged.contracts.map Contract.id).Nodup ∧
    (paged.upsets = [] ∧ paged.failedBanks = []) ∧ paged.bad = [] ∧ paged.keyOf = [] ∧ (∀ i < 3, paged.tlbFind 0 (paged.ctxOfWarp 32) (12 * 7 + 4 * i) = some page ∧
      paged.peerAllows .x (page.pa + (12 * 7 + 4 * i) % 2 ^ page.bits) = true ∧ paged.unreachable 0 (page.pa + (12 * 7 + 4 * i) % 2 ^ page.bits) = false ∧
      paged.gateFor 32 0 (page.pa + (12 * 7 + 4 * i) % 2 ^ page.bits) 4 (State.attrOf page.leaf page.via).tracked false = .open_) ∧
    (far.warp 32).live = true ∧ (far.warp 32).packet (BitVec.allOnes 54) = none ∧ 2 ^ 56 < 12 * (BitVec.allOnes 54).toNat + 12 ∧
    (allLanes.find? fun l => (far.fib (fibKey 32 l)).live && (far.fib (fibKey 32 l)).pc == BitVec.allOnes 54 &&
      (far.fib (fibKey 32 l)).wait == .none) = some 0 ∧ (far.team 1).halts = [] :=
  ⟨reserve_none _ _ (by decide +kernel), unended_of _ _ (by decide +kernel), by decide +kernel⟩
theorem witness_TrapsStopTheTeam : Unended base 1 ∧ base.myTeam.halts = [] ∧ base.active hd ≠ [] ∧ base.active off = [] :=
  ⟨unended_of _ _ (by decide +kernel), by decide +kernel⟩

/-- A fault ring of 4 records at 1 MiB and a trap vector; a team whose halt is complete. -/
def ring : Ctx := { Ctx.reset with fring := 0x100002, trapvec := 0x77 }
def stopping (service : Bool) : State :=
  let s : State := { base with ctxs := [(0, ring)] }
  let t : Team := { s.team 1 with alloc := 128, grant := ⟨[(0, 256)], [], 1, []⟩, halts := [{ haltIn .stopping with service := service }] }
  s.setTeam 1 t
theorem witness_FaultRecordsAreWritten : ∀ service, let s := stopping service
    let h := { haltIn .stopping with service := service }
    memWf s.mem = true ∧ (s.team 1).halts = [h] ∧ h.phase = .stopping ∧ h.kind = .precise ∧ h.warp < 32 ∧ s.haltComplete 1 = true ∧
    (s.contracts = [] ∧ s.accx = [] ∧ s.upsets = [] ∧ s.failedBanks = []) ∧ (s.ctx 0).fring.toNat % 16 = 2 ∧
    (((s.ctx 0).ftail.toNat + 1) % 2 ^ 32 + 2 ^ 32 - (s.ctx 0).fhead.toNat) % 2 ^ 32 ≤ 2 ^ 2 ∧ s.toDebugger 0 h = false ∧
    s.ctxOfTeam 1 = 0 ∧ (s.ctx 0).trapvec.toNat % 2 ^ 54 ≠ 0 ∧
    ((lanesOf h.lanes).filter fun l => (s.fib (fibKey 32 l)).live) ≠ [] ∧
    ∀ l ∈ (lanesOf h.lanes).filter fun l => (s.fib (fibKey 32 l)).live, let f := s.fib (fibKey 32 l)
      f.wb ≤ 2 ^ 26 - 128 ∧ (winPlan f.floor f.nres (s.team 1).alloc (f.wb + 64) f.left_).spills = [] ∧
        (winPlan f.floor f.nres (s.team 1).alloc (f.wb + 64) f.left_).refills = [] := by decide +kernel
def noFlags (s : State) : Bool := s.loc.fibres.all fun p => match p.2.wait with
  | .flags _ _ => false
  | _ => true
theorem noFlags_of (s : State) (h : noFlags s = true) (k : Nat) (m : BitVec 12) (a : Bool) : (s.fib k).wait ≠ .flags m a := by
  intro hw
  unfold State.fib Local.fib at hw
  cases hx : aget s.loc.fibres k with
  | none => rw [hx] at hw; cases hw
  | some f =>
    rw [hx] at hw
    have := List.all_eq_true.mp h _ (mem_of_aget _ _ _ hx)
    simp only [Option.getD_some] at hw
    rw [hw] at this
    cases this
/-- The record of the halt stands in the ring, RESP as given. -/
def recorded (resp : Nat) : State :=
  withMem ({ halted .recorded with ctxs := [(0, { ring with ftail := 1, openRecs := [(1, 1)] })], funcs := [(0, { Func.reset with grant := some grant_ })] })
    [(0x100007, 1, resp)]
theorem witness_ResponsesAreActedOn :
    (∀ r ∈ (base.ctx 0).openRecs, r.1 ≠ (1 : Word).toNat) ∧
    (∀ resp ∈ [1, 2, 0], let s := recorded resp
      memWf s.mem = true ∧ (s.ctx 0).openRecs = [((1 : Word).toNat, 1)] ∧ (s.team 1).halts = [haltIn .recorded] ∧ (haltIn .recorded).seq = (1 : Word).toNat ∧
      s.ctxGranted 0 = true ∧ (haltIn .recorded).dbg = false ∧ s.roomToResend 1 = true ∧ (s.contracts = [] ∧ s.accx = [] ∧ s.upsets = [] ∧ s.failedBanks = [] ∧ s.bad = []) ∧
      (mget s.mem (recordAt (s.ctx 0) 1 + 7)).toNat = resp ∧ ((aget s.launches (s.team 1).launch).map Launch.ending) = some none) ∧
    (∀ k m a, ((recorded 1).fib k).wait ≠ .flags m a) := ⟨by decide +kernel, by decide +kernel, noFlags_of _ (by decide +kernel)⟩
/-- A handler batch whose fibres all wait at ERET; a fault that waits for the warp's boundary. -/
def returning : State :=
  let s := halted .handler
  let t : Team := { s.team 1 with alloc := 128, grant := ⟨[(0, 256)], [], 1, []⟩, epc := epcWord (haltIn .handler) }
  onLanes (s.setTeam 1 t) fun f => { f with wait := .eret, wb := 64, floor := 0, nres := 8 }
def lateOne : LateFault := ⟨0x20, false, 0x80, 0x1234, 1, 0, none, 0⟩
def delivering : State := base.setWarp 32 { base.warp 32 with late := [lateOne] }
theorem witness_HandlersAndLateFaults : Unended delivering 1 ∧ (let f : LateFault := { lateOne with src := some ⟨0, 0, []⟩, undone := 4 }
      let s := base.setWarp 32 { base.warp 32 with late := [f] }
      (s.warp 32).late = [f] ∧ (lanesOf (s.liveMask 32)).find? (fun k => f.undone.getLsbD k) = some 2 ∧ s.heldHard 32 (s.batchOf 32 2) = false) ∧ (∀ k m a, (returning.fib k).wait ≠ .flags m a) ∧ (∀ a, returning.accxAt a = false) ∧ base.active hd ≠ [] ∧ mayEret base = false ∧ mayEret (halted .handler) = true ∧ (halted .handler).active hd ≠ [] ∧
    base.active off = [] ∧ memWf returning.mem = true ∧ (returning.team 1).halts = [haltIn .handler] ∧ (haltIn .handler).phase = .handler ∧
    (haltIn .handler).wt = false ∧ returning.nothingDue 1 = true ∧ returning.roomToResend 1 = true ∧
    ((returning.contracts.map Contract.id).Nodup ∧ returning.upsets = [] ∧ returning.failedBanks = [] ∧ returning.bad = []) ∧
    (∀ l < 32, let f := returning.fib (fibKey 32 l)
      f.live = true ∧ f.wait = .eret ∧ (winPlan f.floor f.nres 128 (f.wb - 64) f.left_).spills = [] ∧ (winPlan f.floor f.nres 128 (f.wb - 64) f.left_).refills = []) ∧
    (returning.team 1).epc = epcWord (haltIn .handler) ∧ (0x55 : DWord) ≠ epcWord (haltIn .handler) ∧
    (base.warp 32).late = [] ∧ (delivering.team 1).halts = [] ∧ (delivering.warp 32).late = [lateOne] ∧ lateOne.src = none ∧ lateOne.db ≠ 0x40 ∧
    ((lanesOf (delivering.liveMask 32)).filter fun l => (delivering.fib (fibKey 32 l)).wait == .none && delivering.running 32 l).head? = some 0 ∧
    (delivering.warp 32).holds = [] :=
  ⟨unended_of _ _ (by decide +kernel), by decide +kernel, noFlags_of _ (by decide +kernel), no_accx _ (by decide +kernel) (by decide +kernel), by decide +kernel⟩

/-- The launch of the small machine's team, its context's one cluster on virtual die 0, a grant of 2 GiB. -/
def ready : State :=
  { base with ctxs := [(0, { Ctx.reset with vdt := 0x81 })], funcs := [(0, { Func.reset with grant := some grant_ })] }
def launch0 : Launch := (aget base.launches (base.team 1).launch).getD ⟨0, 0, 1, 0, launchRec 0, 1, [], 0, 0, 0, 0, none, 0, 0, none, []⟩
def many : Launch := { launch0 with spawnedTeams := 2 ^ 32 - 1 }
theorem witness_SpawnResults : Apart base ∧
    (∀ l < 32, ∀ r, ∀ y ∈ runGranules [(128, 128)], base.myTeam.regGranule base.iss.warp l r ≠ 0 * 16384 + y) ∧ (base.active hd).getLast? = some 31 ∧ aget base.launches base.myTeam.launch = some launch0 ∧
    2 ^ 54 ≤ ((withRegs base [(31, 5, 0x400000)]).srcX 4 31).toNat ∧ (base.srcX 4 31).toNat < 2 ^ 54 ∧
    2 ^ 32 - 1 ≤ teamCount many.r + many.spawnedTeams ∧ (teamBe fun t => { t with warps := 48 }).fitsCore 0 1 64 0 = false ∧
    base.fitsCore 0 1 64 0 = true ∧ teamCount launch0.r + launch0.spawnedTeams < 2 ^ 32 - 1 ∧
    (let s := base.setCore 0 { base.core 0 with nextGrant := 16 }
     s.clock < (s.core 0).nextGrant) ∧ (base.core 0).nextGrant ≤ base.clock ∧
    ((base.core 0).wcb = [] ∧ base.items = [] ∧ base.outs = [] ∧ base.myWarp.late = [] ∧ base.myWarp.replay = []) ∧
    teamOf base.iss.warp < base.nextTeam ∧ base.myTeam.alloc = 64 ∧ (base.reserveRuns 0 1 64 0).win = [(128, 128)] ∧
    (runGranules [(128, 128)]).Nodup ∧ (runGranules [(128, 128)]).length = 2 * 64 := by
  refine ⟨apart_base, fun l hl r y hy h => ?_, by decide +kernel⟩
  have hw : warpIx base.iss.warp = 0 := by decide +kernel
  have hg : base.myTeam.grant.win = [(0, 128)] := by decide +kernel
  have ha : base.myTeam.alloc = 64 := by decide +kernel
  have hc : base.myTeam.core = 0 := by decide +kernel
  have hy' : ∀ y ∈ runGranules [(128, 128)], 128 ≤ y := by decide +kernel
  have at_ (i : Nat) (hi : i < 128) : placeAt [(0, 128)] i = 0 + i := if_pos hi
  unfold Team.regGranule at h
  rw [hw, hg, ha, hc, at_ _ (by omega)] at h
  have := hy' y hy
  omega

theorem witness_TeamsArePlaced :
    (let held := (base.teamsOn 0).flatMap fun t => t.2.grant.win ++ t.2.grant.scr
     (runGranules held).Nodup ∧ (∀ x ∈ held, x.2 ≠ 0) ∧ (∀ g ∈ runGranules held, g < 16384) ∧
       (runGranules held).length + 2 * 64 * 2 + 256 / 64 ≤ 16384) ∧ (base.core 0).gen ≠ BitVec.allOnes 16 ∧
    (0 < recWarps launch0.r ∧ recWarps launch0.r ≤ 32 ∧ 4 ≤ launch0.r.win ∧
      aget base.launches (base.team 1).launch = some launch0 ∧
      (let g := base.reserveRuns 0 (recWarps launch0.r) (recAlloc launch0.r) launch0.r.scratch
       (runGranules g.win).Nodup ∧ (runGranules g.win).length = 2 * recAlloc launch0.r * recWarps launch0.r)) := by decide +kernel

/-- Queue 2 of function 0: its rings, and with it enabled with one record of 128 bytes. -/
def queue0 : Queue := { Queue.reset with ring := 0x10000, cring := 0x20000, logn := 4, weight := 1, ctx := 0, credit := 1 }
def queued (f : Queue → Queue) (rec_ : List (Nat × Nat × Nat)) : State :=
  withMem (ready.setQueue 0 2 (f queue0)) (rec_.map fun x => (0x10000 + x.1, x.2))
def one_ (q : Queue) : Queue := { q with en := true, tail := 1 }
/-- One panel of one team of 32 fibres, with or without a dependence on sequence 1 of queue 3. -/
def good (dep : Nat) : List (Nat × Nat × Nat) := [(0x28, 4, 1), (0x30, 2, 32), (0x32, 1, 4), (0x33, 1, 1), (0x34, 1, 1), (0x40, 8, dep)]
theorem witness_QueueRegistersAreWritten :
    (let v : DWord := 0x0100010400000000
     v.toNat / 2 ^ 32 % 2 ^ 8 = 4 ∧ v.toNat / 2 ^ 40 % 2 ^ 8 ≠ 0 ∧ v.toNat / 2 ^ 48 % 2 ^ 8 < grant_.ctxn ∧ v.getLsbD 56 = true) ∧
    ((queued id []).func 0).grant = some grant_ ∧ ((queued id []).queueOf 0 2).en = false ∧
    (queued id []).ringOk 0 ((queued id []).queueOf 0 2).ring.toNat (128 * 2 ^ 4) = true ∧
    (queued id []).ringOk 0 ((queued id []).queueOf 0 2).cring.toNat (64 * 2 ^ 4) = true ∧
    ((0x0100010300000000 : DWord).toNat / 2 ^ 32 % 2 ^ 8 = 3) ∧ (0x0000010400000000 : DWord).getLsbD 56 = false ∧
    ((queued one_ []).queueOf 0 2).en = true ∧ 2 ^ ((queued one_ []).queueOf 0 2).logn < ((17 : Word) - ((queued one_ []).queueOf 0 2).head).toNat ∧
    ((16 : Word) - ((queued one_ []).queueOf 0 2).head).toNat ≤ 2 ^ ((queued one_ []).queueOf 0 2).logn ∧ (33 : Nat) ≤ 33 ∧ (64 : Nat) ≤ 64 := by
  decide +kernel
theorem witness_HeadRecordsAreJudged :
    (let s := queued one_ (good 0)
     let x := s.queueOf 0 2
     let n := s.homeRd (x.ring.toNat + 128 * 0) 128
     memWf s.mem = true ∧ (s.contracts = [] ∧ s.accx = []) ∧ x.cring.toNat % 64 = 0 ∧
       (s.homeFetch x.ring.toNat 128 0 s.bad.contains).2 = none ∧ x.en = true ∧ x.head ≠ x.tail ∧ State.slotFree x = true ∧ 1 ∉ x.aborted ∧ x.valid = none ∧ recRefused n 2 1 = false ∧
       s.admissible 0 (launchRec n) = true ∧ ({ s with ctxs := [] }).admissible 0 (launchRec n) = false) ∧
    (let s := queued one_ []
     recRefused (s.homeRd ((s.queueOf 0 2).ring.toNat + 128 * 0) 128) 2 1 = true) ∧
    ((queued id []).queueOf 0 2).en = false ∧ 1 ∈ ((queued (fun q => { one_ q with aborted := [1] }) []).queueOf 0 2).aborted ∧
    (∀ d ∈ [(0 : Nat), 2 ^ 63 + 3 * 2 ^ 56 + 1], let s := queued (fun q => { one_ q with valid := some ({ launch0.r with deps := [BitVec.ofNat 64 d] }, false) }) []
      let t := s.setQueue 0 3 { Queue.reset with en := true }
      (d = 0 → depFailed t 0 (BitVec.ofNat 64 d) = false ∧ depMet t 0 (BitVec.ofNat 64 d) = true) ∧
      (d ≠ 0 → depFailed s 0 (BitVec.ofNat 64 d) = true ∧ depFailed t 0 (BitVec.ofNat 64 d) = false ∧ depMet t 0 (BitVec.ofNat 64 d) = false)) := by
  decide +kernel
def fullPanel : LaunchRec := { launch0.r with panels := 2, stages := 1, width := 1 }
def waiting : Launch := { launch0 with r := fullPanel, nextPanel := 1 }
def retired : State := onLanes base fun f => { f with live := false }
theorem witness_LaunchesRunAndEnd :
    (let s := queued (fun q => { one_ q with valid := some (launch0.r, true) }) []
     s.firmware.shut = false ∧ s.firmware.recovery = false ∧ s.eligible 0 = [(2, launch0.r)] ∧ (s.queueOf 0 2).credit ≠ 0 ∧
       (s.queueOf 0 2).valid = some (launch0.r, true)) ∧
    (∀ f < 33, base.grantDue.awaiting f = []) ∧
    (let s := { ready with launches := [(launch0.order, waiting)] }
     s.launches = [(launch0.order, waiting)] ∧ waiting.fn < 33 ∧ waiting.ending = none ∧ waiting.r.persistent = false ∧ waiting.undispatched = [] ∧
       waiting.nextPanel < waiting.r.panels ∧ 0 < perPanel waiting.r ∧ s.preempting waiting.ctx = false ∧
       (∀ y ∈ ready.teams.map (fun y => (y.1, y.2.phase)), y.2 ≠ .placed) ∧
       State.panelCluster waiting (State.panelTeams waiting.r waiting.nextPanel) = none ∧
       (s.clustersOf waiting.ctx).filterMap (fun cl => s.fitCluster waiting.ctx waiting.r [] (perPanel waiting.r) cl) = [[0]]) ∧
    ((base.team 9).phase = .retired ∧ (base.team 1).phase ≠ .retired ∧ aget base.launches (base.team 1).launch = some launch0 ∧ launch0.ending = none ∧
      base.allEnded 1 = false ∧ retired.allEnded 1 = true ∧ retired.allAcked 1 = true ∧ retired.workOpen 1 = false ∧ retired.faultOpen 1 = false ∧
      (retired.team 1).halts = []) ∧
    (base.launches = [((base.team 1).launch, launch0)] ∧ launch0.fn = 0 ∧ launch0.q = 0 ∧ launch0.seq = (1 : Word).toNat) ∧
    (base.func 0).abort.toNat / 2 ^ 32 % 4 ≠ 1 ∧
    (({ base with funcs := [(0, { Func.reset with abort := 0x100000001 })] } : State).func 0).abort.toNat / 2 ^ 32 % 4 = 1 := by decide +kernel

/-- A team with 2,048 bytes of scratch, its lanes' v2 an FP16 pair (or FP64, fields of their own) for a tile in scratch. -/
def mat (st : BufState) (w : Word) : State :=
  let s := teamBe fun t => { t with scratch := 2048, grant := { t.grant with scr := [(200, 32)] } }
  withRegs (s.setBuf 0 1 { Buf.empty with st := st, warp := 32, elems := List.replicate 256 0 }) ((List.range 32).map fun l => (l, 2, w))
def f16 : Word := 0x663E0000
def f64 : Word := 0x887E0000
def drainOk (r : Except (BitVec 8 × Bool × DWord) (DWord × Nat × Attr)) : Bool := match r with
  | .ok (va, pa, _) => va == 0 && pa == 0
  | .error _ => false
theorem witness_MatrixWords :
    (mat .free f16).active hd ≠ [] ∧ (mat .draining f16).bufferHeld 0 1 32 = true ∧ (mat .free f16).bufferHeld 0 1 32 = false ∧
    (mat .open_ f16).bufferHeld 0 1 32 = false ∧ (mat .free f16).matrixFree = true ∧ (mat .free f16).scldOpen 32 (mat .free f16).nextId = false ∧
    (let s := { mat .free f16 with iss := { base.iss with lanes := 1 } }
     (s.active hd).length < 32 ∧ s.matrixFree = true ∧ s.bufferHeld 0 1 32 = false) ∧
    (mat .free f16).myTeam.core = 0 ∧ ((mat .free f16).active hd).length = 32 ∧
    (let s := withRegs (mat .free f16) [(5, 2, 0)]
     (s.active hd).length = 32 ∧ s.srcR 2 5 ≠ s.srcR 2 0) ∧
    (∀ k < 3, let w := [f16, f64, 0xFFFFFFFF].getD k 0
      ∀ l < 32, (mat .free w).srcR 2 l = (mat .free w).srcR 2 0) ∧
    fmtDefined (fmtWord 0xFFFFFFFF) = false ∧ fmtDefined (fmtWord f16) = true ∧ fmtDefined (fmtWord f64) = true ∧
    combinationFits false 0 1 (fmtWord f16) = true ∧ drainFits false (fmtWord f16) = true ∧ combinationFits true 0 1 (fmtWord f64) = true ∧
    drainFits true (fmtWord f64) = true ∧ combinationFits false 0 7 (fmtWord f64) = false ∧ drainFits true (fmtWord f16) = false ∧
    drainOk ((mat .open_ f16).drainTarget 2 (fmtWord f16)).1 = true ∧ drainOk ((mat .open_ f64).drainTarget 2 (fmtWord f64)).1 = true ∧
    (∀ l < 32, ((mat .open_ f16).lane l).acks < 65535) ∧ 12 ≤ (fmtWord f16).flg ∧ ((mat .open_ f16).core 0).wcb = [] ∧
    (mat .open_ f16).requestsOf 0 ≤ 2048 ∧
    ((mat .open_ f16).buf 0 1).st = .open_ ∧ ((mat .open_ f16).buf 0 1).warp = (mat .open_ f16).iss.warp ∧ ((mat .open_ f16).buf 0 1).wide = false ∧
    ((mat .free f16).buf 0 1).st ≠ .open_ := by decide +kernel
theorem witness_ScaleLoadWords : columnWord 0 = none ∧ columnWord 0x800 = some (0, 1, 528, false) ∧ columnWord 0x4FFA = some (2042, 1, 528, true) ∧
    ((lanesOf base.iss.lanes).filter fun l => guardTrue hd (base.laneBefore l)).getLast? = some 31 ∧ base.active hd ≠ [] ∧
    (base.core base.myTeam.core).matrixUntil ≤ base.clock ∧
    (let s := loads
     let plan := ((s.active hd).map fun l => (l, scldLane 0 1 528 false l (s.srcX 4 l))).filter fun x => !x.2.isEmpty
     plan ≠ [] ∧ (scldChecks (s.takeMatrix 1) plan).2.1 = [] ∧ (scldChecks (s.takeMatrix 1) plan).1 ≠ [] ∧
       (let r := scldChecks (s.takeMatrix 1) plan
        r.2.2.requestsOf 0 + (r.1.map fun o => lineOf o.pa).eraseDups.length ≤ 2048)) ∧
    (let s := scr
     ∀ x ∈ ((s.active hd).map fun l => (l, scldLane 0 1 528 false l ((s.srcR 4 l).setWidth 64))).filter fun x => !x.2.isEmpty,
       ∀ y ∈ x.2, y.1.toNat < s.myTeam.scratch ∧ y.1.toNat % sizeBytes y.2.1 = 0) ∧
    (∀ gr, scr.stale scr.myTeam gr = false) ∧ ScratchQuiet scr :=
  ⟨by decide +kernel, by decide +kernel, by decide +kernel, by decide +kernel, by decide +kernel, by decide +kernel, by decide +kernel, by decide +kernel,
    witness_CoreStoreWordResults.2.2.1, witness_CoreStoreWordResults.2.2.2.1⟩

/-- A drain of a tile of buffer 1 to scratch, to memory. -/
def drain0 (scratch : Bool) (acc : Nat) : DrainReq :=
  ⟨0, 1, 32, 15, acc, scratch, 1, 0x1000, if scratch then 0 else 0x1000, 0, at0, List.replicate 256 0x3F800000, 0, 77⟩
def scld0 : ScldReq := ⟨0, 32, 0, 0, [], [(0, 3, 1), (0, 4, 2), (1, 4, 7)], [1]⟩
def tiled (scratch : Bool) (acc : Nat) : State := (mat .draining f16).start (.tile (drain0 scratch acc))
theorem witness_MatrixWorkIsDone :
    ((base.start (.mma ⟨0, 1, [], 0, 1⟩)).item base.nextId = some (.mma ⟨0, 1, [], 0, 1⟩)) ∧
    (base.start (.drain (drain0 true 0))).items = [(base.nextId, .drain (drain0 true 0))] ∧
    (∀ scratch, ∀ acc < 3, let s := tiled scratch acc
      s.item base.nextId = some (.tile (drain0 scratch acc)) ∧ s.namesOk ∧ memWf s.mem = true ∧ Arrives s base.nextId ∧ Sound s) ∧
    (∀ y ∈ (tiled true 0).scratchOnWay 0 0, base.nextId ≤ y) ∧
    (∀ e ∈ (drain0 true 0).elems, e.toNat < 2 ^ 32) ∧
    (let tm := (tiled true 0).team (teamOf 32)
     tm.phase ≠ .retired ∧ tm.grant.gen = (drain0 true 0).gen ∧ (drain0 true 0).pa % 64 = 0 ∧
       (∀ i < 32, ∀ j < 32, i ≠ j → tm.scrGranule (0 + 64 * i) ≠ tm.scrGranule (0 + 64 * j))) ∧
    ((base.team (teamOf 320)).phase = .retired) ∧ (∀ y, (tiled false 0).codeFails 0 at0 y = false) ∧
    (∀ acc < 2, ∀ y ∈ State.tileLines 0x1000 acc, (tiled false acc).accRefused 0 y (State.accKindOf acc) = none) ∧
    ((State.tileLines 0x1000 2).findSome? fun y => (tiled false 2).accRefused 0 y (State.accKindOf 2)) = some 0x14 ∧
    (let s := base.start (.drainAck (drain0 true 0))
     s.item base.nextId = some (.drainAck (drain0 true 0)) ∧ (drain0 true 0).ackId ≠ base.nextId ∧ s.item 77 = none ∧
       ((s.putItem 77 (.ack ack0)).item 77).isSome = true) ∧
    ((base.start (.scld scld0)).item base.nextId = some (.scld scld0) ∧ scld0.reads = 0 ∧ scld0.due ≤ base.clock ∧
      (((scld0.writes.filter fun x => !scld0.lost.contains x.1).map Prod.snd).map Prod.fst).Nodup) ∧
    (let s := base.start (.mma ⟨0, 1, [], 0, 1⟩)
     (∃ y ∈ s.items, y.1 < s.nextId ∧ y.2 = .mma ⟨0, 1, [], 0, 1⟩) ∧ ∀ y ∈ s.items, s.nextId - 1 ≤ y.1) := by
  refine ⟨by decide +kernel, by decide +kernel, fun scratch acc ha => ⟨?_, namesOk_of _ ?_, ?_, arrives_of _ _ ?_, ⟨?_, ?_⟩⟩, by decide +kernel, fun e he => ?_, by decide +kernel,
    by decide +kernel, codes_hold _ _ _ (by decide +kernel) (by decide +kernel) (by decide +kernel), by decide +kernel⟩
  · revert acc scratch
    decide +kernel
  · revert acc scratch
    decide +kernel
  · revert acc scratch
    decide +kernel
  · revert acc scratch
    decide +kernel
  · revert acc scratch
    decide +kernel
  · revert acc scratch
    decide +kernel
  · rw [List.eq_of_mem_replicate he]
    decide

/-- An accepted copy of 16 bytes of scratch to the team's own scratch at 128, barrier 0; the same from memory page 0 to page 1. -/
def copyRec (ss ds : Nat) : BitVec 256 :=
  BitVec.ofNat 256 (ds * 2 ^ 239 + ss * 2 ^ 238 + 15 * 2 ^ 224 + 2 * 2 ^ 219 + 16 * 2 ^ 204 + 1 * 2 ^ 192 + 16 * 2 ^ 160 + 16 * 2 ^ 128 + 128 * 2 ^ 64)
def copyJob (ss ds stage : Nat) (acks : List Nat) : EngJob :=
  ⟨.tcopy, 0, 32, 0, 0, copyRec ss ds, [⟨0, 0, at0⟩], if ds = 0 then [⟨1, 1, at0⟩] else [], [], if ds = 0 then [] else [(1, 1, 0, 128)], 0x2000, 1, 65664,
    stage, if stage = 1 then [(0, List.replicate 16 9)] else [], acks, 0⟩
def copying (ss ds stage : Nat) (acks : List Nat) : State := scr.start (.engine (copyJob ss ds stage acks))
def accepted (r : Except EngTrap EngPlan) : Bool := match r with
  | .ok _ => true
  | .error _ => false
def refusedWith (r : Except EngTrap EngPlan) (c : BitVec 8) : Bool := match r with
  | .ok _ => false
  | .error e => e.1 == c
/-- The scratch machine whose launch has that scratch: the copy's targets name it. -/
def scrLaunch : State := { scr with launches := scr.launches.map fun x => (x.1, { x.2 with r := { x.2.r with scratch := 256 } }) }
def sub (rec_ : BitVec 256) : State := scrLaunch.start (.submit ⟨.tcopy, 32, [(0, rec_)], ⟨0, 0, []⟩, []⟩)
def readIs (r : Except (BitVec 8) State) (code : Option (BitVec 8)) : Bool := match r with
  | .ok _ => code.isNone
  | .error c => code == some c
theorem witness_EngineRecordsAreDone :
    (∀ good : Bool, let rec_ := if good then copyRec 1 1 else 0
      (sub rec_).namesOk ∧ (sub rec_).items = [(scr.nextId, .submit ⟨.tcopy, 32, [(0, rec_)], ⟨0, 0, []⟩, []⟩)] ∧
      ((sub rec_).warp 32).live = true ∧ ((sub rec_).core 0).wcb = [] ∧ (sub rec_).outs = []) ∧
    accepted ((sub (copyRec 1 1)).validateRec 0 0 32 .tcopy (copyRec 1 1)).1 = true ∧ refusedWith ((sub 0).validateRec 0 0 32 .tcopy 0).1 0x01 = true ∧
    (∀ ss < 2, ∀ ds < 2, ∀ stage < 4, (copying ss ds stage []).item scr.nextId = some (.engine (copyJob ss ds stage []))) ∧
    (∀ k m a, (scr.fib k).wait ≠ .flags m a) ∧
    (((copying 1 1 2 [77]).putItem 77 (.ack ack0)).item 77).isSome = true ∧
    (let j := copyJob 0 1 0 []
     let s : State := { copying 0 1 0 [] with bad := [0] }
     let secs := State.engSectors j (engRec j.recw)
     s.engGates j.ctx false (secs.map fun y => (32 * y.1, 32, y.2)) = [] ∧ readIs (s.engRead j secs).1 (some 0x20) = true ∧
       readIs ((copying 0 1 0 []).engRead j secs).1 none = true) ∧
    (let tm := (copying 1 1 1 []).team 1
     tm.phase ≠ .retired ∧ tm.grant.gen = 1 ∧ (copyJob 1 1 1 []).runs[(copying 1 1 1 []).choice (copyJob 1 1 1 []).runs.length]? = some (0, List.replicate 16 9) ∧
       (copyJob 1 0 1 []).runs[(copying 1 0 1 []).choice (copyJob 1 0 1 []).runs.length]? = some (0, List.replicate 16 9) ∧
       scr.liveMask 32 ≠ 0 ∧ scr.barTails 1 0 = [] ∧ (copying 1 0 2 []).dieCut (State.engDie 0) 0x2000 = false ∧ 128 + 0 + 16 ≤ tm.scratch ∧
       (∀ m < 4, ∀ n < 4, m ≠ n → tm.scrGranule (64 * m) ≠ tm.scrGranule (64 * n)) ∧ (base.team 9).phase = .retired) ∧
    (let s := copying 1 0 1 []
     (match State.engDst (copyJob 1 0 1 []) 0 with
       | some (pa, a) => pa == 65664 && a == at0
       | none => false) = true ∧ memWf s.mem = true ∧ (s.upsets = [] ∧ s.failedBanks = []) ∧ s.engGates 0 true [(65664, 16, at0)] = [] ∧
       s.dieCut (State.engDie 0) 65664 = false ∧ s.accxAt 65664 = false ∧ s.bad = []) ∧
    (∀ y, (copying 1 0 1 []).codeFails 0 at0 y = false) ∧
    fieldsBad .tcopy (engRec (copyRec 1 1)) = false ∧
    ((scr.start (.flagq dest0 [(0, 3)])).item scr.nextId = some (.flagq dest0 [(0, 3)]) ∧ scr.accepts (scr.team 1) dest0.gen = true ∧
      (scr.fib (fibKey 32 0)).floor ≤ 3 / 16 * 16 ∧ 3 / 16 * 16 < (scr.fib (fibKey 32 0)).floor + 16 * (scr.fib (fibKey 32 0)).nres) := by
  refine ⟨fun good => ⟨namesOk_of _ ?_, ?_⟩, by decide +kernel, by decide +kernel, by decide +kernel, noFlags_of _ (by decide +kernel), by decide +kernel,
    by decide +kernel, by decide +kernel, by decide +kernel, codes_hold _ _ _ (by decide +kernel) (by decide +kernel) (by decide +kernel), by decide +kernel⟩
  · revert good
    decide +kernel
  · revert good
    decide +kernel

/-- Team 1 is being taken off, held or not; context 0 has tables for 1 GiB, one slot at 2 MiB, a save vector or none. -/
def leaving (held : Bool) (vec : Nat) (f : Team → Team) : State :=
  let s : State := { ready with ctxs := [(0, { Ctx.reset with vdt := 0x81, troot := 0x8000000000100009, saveb := 0x200000, savesz := 0x10000, nslot := 1,
                                                              savevec := BitVec.ofNat 64 vec })] }
  let s1 := withMem s [(0x100000, 8, 0x101001), (0x101000, 8, 0x1F)]
  let hs : List Halt := if held then [{ haltIn .held with kind := .preempt }] else []
  s1.setTeam 1 (f { s1.team 1 with draining := true, halts := hs })
/-- The same with a slot that holds a saved team. -/
def savedSlot : State :=
  let s := withMem (leaving true 5 id) [(0x200000, 4, 0xB4C5), (0x200004, 1, 1), (0x20000D, 1, 1), (0x20000E, 1, 4)]
  { s with saved := [(savedKey 0 0, s.snapshot 1)] }
def made {α : Type} (r : Made α) (f : α → Bool) : Bool := match r with
  | .ok a => f a
  | _ => false
/-- Contexts 0 to 3 are granted to function 0. -/
def granted4 : State := { base with funcs := [(0, { Func.reset with grant := some { grant_ with ctxn := 4 } })] }
def handling (p : HaltPhase) : State :=
  let t : Team := { base.team 1 with halts := [{ haltIn p with kind := .preempt, ended := some 0 }] }
  let s := base.setTeam 1 t
  { s with clock := 2 ^ 20 }
theorem witness_TeamsAreTakenOff :
    (let s : State := { base with ctxs := [(0, { Ctx.reset with preq := 0x100000001 })] }
     (s.ctx 0).preq.toNat / 2 ^ 32 % 256 = 1) ∧ base.ctxGranted 0 = false ∧
    (granted4.ctxGranted 3 = true ∧ (granted4.ctx 3).preq.toNat / 2 ^ 32 % 256 ≠ 1 ∧ granted4.taken 3 true = [] ∧ granted4.takingOff 3 = false) ∧
    (granted4.ctxGranted 0 = true ∧ (granted4.ctx 0).preq.toNat / 2 ^ 32 % 256 ≠ 1 ∧ granted4.taken 0 true = [1] ∧ (granted4.team 1).draining = false ∧
      granted4.actionFor 1 = 3 ∧ aget granted4.launches (granted4.team 1).launch = some launch0 ∧ launch0.ending = none) ∧
    (let s := leaving false 5 fun t => { t with draining := false }
     s.ctxGranted 0 = true ∧ s.taken 0 true = [1] ∧ s.actionFor 1 < 3 ∧ (s.team 1).draining = false) ∧
    (∀ held : Bool, let s := leaving held 5 id
     (((aget s.launches (s.team 1).launch).bind Launch.ending).isNone = true) ∧ s.mayRetire 1 = false) ∧
    (let s := onLanes (leaving true 5 id) fun f => { f with live := false }
     s.quiet 1 = true ∧ s.mayRetire 1 = true ∧ (s.team 1).slot = none) ∧
    (let s := handling .saving
     s.allAtEret 1 = false ∧ (onLanes s fun f => { f with wait := .eret }).allAtEret 1 = true) ∧
    ((leaving true 5 id).team 1).phase ≠ .retired ∧ ((leaving true 5 id).team 1).draining = true ∧ (leaving true 5 id).ctxOfTeam 1 = 0 ∧
    ((leaving true 5 id).ctx 0).savevec ≠ 0 ∧ ((leaving true 0 id).ctx 0).savevec = 0 ∧ (leaving false 5 id).quiet 1 = false ∧
    ((leaving false 5 id).team 1).halts = [] ∧ ((leaving false 5 id).team 1).slot = none ∧ (leaving true 5 id).quiet 1 = true ∧
    aget (leaving true 5 id).launches ((leaving true 5 id).team 1).launch = some launch0 ∧
    ((leaving true 5 fun t => { t with scratch := 0x4000 }).ctx 0).savesz.toNat < 0x4000 + 0xE000 ∧
    (leaving true 5 fun t => { t with scratch := 0x4000 }).quiet 1 = true ∧
    ((leaving true 5 id).team 1).scratch + 0xE000 ≤ ((leaving true 5 id).ctx 0).savesz.toNat ∧ (leaving true 5 id).freeSlot 0 = some 0 ∧
    (let s := (leaving true 5 id).setCtx 0 { (leaving true 5 id).ctx 0 with slots := [0] }
     s.freeSlot 0 = none ∧ s.quiet 1 = true) ∧
    (∀ p ∈ [HaltPhase.saving, .restoring], ((handling p).team 1).halts.head?.map (fun h => (h.phase, h.ended)) = some (p, some ((handling p).clock - 2 ^ 20)) ∧
      2 ^ 20 ≤ (handling p).clock) ∧ (base.team 1).halts = [] ∧ base.saved = [] ∧
    (made (savedSlot.groupStatus 0 (savedSlot.slotGroup 0 0)) (fun r => r.1 == 0 && r.2.map (fun x => (x.1.key, x.2)) == [(savedKey 0 0, 0)]) = true ∧
      (aget savedSlot.saved (savedKey 0 0)).isSome = true ∧ savedSlot.ctxGranted 0 = true ∧ (∀ p ∈ savedSlot.teams.map (fun p => p.2.phase), p ≠ .placed) ∧
      made (savedSlot.groupStatus 0 [0]) (fun r => r.2.all fun g =>
        ((savedSlot.setCtx 0 { savedSlot.ctx 0 with rstat := 256 }).restoreTeam 0 g.1 g.2).slotFrameFits savedSlot.nextTeam) = true) ∧
    ((leaving true 5 id).team 1).warps ≤ 32 ∧
    made (granted4.groupStatus 3 (granted4.slotGroup 3 0)) (fun r => r.1 == 1) = true := by
  decide +kernel
theorem witness_DebugPortReadsAndWrites : base.ctxGranted 0 = false ∧ granted4.ctxGranted 0 = true ∧
    ((aget granted4.launches (granted4.team 1).launch).bind Launch.ending).isNone = true ∧ (1023 < 1024 ∧ 16383 < 16384 ∧ 965 % 64 < base.liveCores (965 / 64) ∧ base.liveCores (1023 / 64) ≤ 1023 % 64) ∧
    (base.team 1).phase ≠ .retired ∧ assigned (base.team 1) 127 = true ∧
    assigned (base.team 1) 128 = false ∧ 56 + 8 ≤ 64 ∧ 64 < 57 + 8 ∧
    (let val : DWord := 0xC000000000000000
     let s := granted4
     val.getLsbD 62 = true ∧ s.teams = [(1, s.team 1)] ∧ (s.team 1).phase = .running ∧ (s.team 1).teamid = val.toNat % 2 ^ 32 ∧
       (s.team 1).halts = [] ∧ ((aget s.launches (s.team 1).launch).map Launch.ctx) = some 0 ∧ (s.team 1).warps ≤ 32 ∧
       s.liveMask (warpKey 1 0) ≠ 0) ∧ (0x8000000000000000 : DWord).getLsbD 62 = false := by decide +kernel

def ask0 (excl : Bool) (inner : Nat) : HostWait := ⟨inner, ⟨0x40, excl, 0, 0, true⟩, none⟩
def hostWait (excl : Bool) (inner : Nat) : State := base.start (.host (ask0 excl inner))
def flips (g : GrantRec) : State := { base with funcs := [(0, { Func.reset with grant := some g })] }
theorem witness_HostAccessesAreServed : (base.upsets = [] ∧ base.failedBanks = []) ∧ base.pageClass 0x1000 = 0 ∧ memWf base.mem = true ∧ (base.contracts.map Contract.id).Nodup ∧ regionOf 0x1000 = .device ∧
    (base.homeFetch 0x1000 64 0 base.bad.contains).2 = none ∧
    ((fun s : State => (s.homeFetch 0x1000 64 0 s.bad.contains).2) { base with bad := [0x80] }) = some 0x20 ∧
    ({ base with mbbase := 0x40000000, mbOn := true }).inWindow 0x40001000 = true ∧ base.inWindow 0x1000 = false ∧
    base.accxAt 0x1000 = false ∧ ({ base with contracts := [accxRange] }).accxAt 0x1000 = true ∧
    ({ base with contracts := [accxRange] }).deviceSide 0x1000 = true ∧ regionOf 0x10000000000 = .host ∧
    (∀ excl, ∀ inner ∈ [0, 99], (hostWait excl inner).item base.nextId = some (.host (ask0 excl inner)) ∧ (hostWait excl inner).item inner = none ∧
      ((hostWait excl 99).putItem 99 (.read load0)).item base.nextId = some (.host (ask0 excl 99)) ∧
      ((hostWait excl 99).putItem 99 (.read load0)).item 99 = some (.read load0)) ∧ (99 : Nat) ≠ base.nextId ∧ base.hostSide (64 * 0x40) = false ∧
    base.inWindow (64 * 0x40) = false ∧
    (base.warp load0.dest.warp).live = true ∧ load0.lanes ≠ [] ∧ biasStop (flips grant_) 0 0x10000 true = none ∧
    biasStop { flips grant_ with hostBias := [1] } 0 0x10000 false = none ∧ (biasStop (flips grant_) 0 0x10000 false).isSome = true := by decide +kernel
theorem witness_PeersAndLinks : (∀ k, base.accxAt k = false) ∧ memWf base.mem = true ∧ (base.contracts.map Contract.id).Nodup ∧
    regionOf 0x10000000000 ≠ .device ∧ regionOf 0x1000 = .device ∧ base.lostAt 0x1000 = false ∧
    ({ base with lost := [⟨0, 0x1000, [1]⟩] }).lostAt 0x1000 = true ∧ (base.upsets = [] ∧ base.failedBanks = [] ∧ base.bad = []) ∧
    (base.homeFetch 0x1000 8 0 base.bad.contains).2 = none ∧
    (let s : State := { base with contracts := [accxRange] }
     (s.contracts.map Contract.id).Nodup ∧ s.accxAt 0x1000 = true ∧ s.accRefused (homeDie 0x1000 * 256) 0x1000 .accx = none) ∧
    (∀ i < 2, base.accRefused (homeDie (0x1000 + 4 * i) * 256) (0x1000 + 4 * i) .acc32 = none) ∧
    base.accRefused (homeDie 0x1000 * 256) 0x1000 .accx = some 0x14 ∧ (2 : Nat) ^^^ 3 ≠ 3 ∧ (1 : Nat) ^^^ 2 = 3 :=
  ⟨no_accx _ (by decide +kernel) (by decide +kernel), by decide +kernel⟩
theorem witness_RegistersAreWritten : ready.ctxGranted 0 = true ∧ ready.ctxGranted 1 = false ∧ (ready.ctx 0).preq.toNat / 2 ^ 32 % 256 ≠ 1 ∧
    (∀ p ∈ [(0x28, 0x28), (0x38, 0x38), (0x70, 0x70), (0x8C, 0x88)], (0x10000 + p.1 - 0x10000) % 0x400 / 8 * 8 = p.2) ∧
    ((0x1008 - 0x1000) / 8 * 8 = 0x08 ∧ (0x1014 - 0x1000) / 8 * 8 = 0x10 ∧ (0x1024 - 0x1000) / 8 * 8 = 0x20) ∧
    ((0x94 : Nat) % 64 / 8 = 2 ∧ (0x9C : Nat) % 64 / 8 = 3 ∧ (0xA0 : Nat) % 64 / 8 = 4) ∧ (ready.func 0).abort.toNat / 2 ^ 32 % 4 ≠ 1 ∧ ((queued id []).queueOf 0 2).en = false ∧ (0x88 : Nat) % 64 / 8 = 1 ∧ (0x80 : Nat) % 64 / 8 = 0 ∧ (0x82 : Nat) % 4 ≠ 0 ∧
    ((queued one_ []).queueOf 0 2).en = true ∧ (ready.func 0).grant = some grant_ ∧ (0x10060 - 0x10000) / 0x400 < grant_.ctxn ∧
    (0x10060 - 0x10000) % 0x400 / 8 * 8 = 0x60 ∧ ¬((0x10400 - 0x10000) / 0x400 < grant_.ctxn) ∧ (aget ready.ctxs (0 * 64 + 0)).isSome = true := by
  decide +kernel
theorem witness_FirmwareActs : vdtOk 0x81 = true ∧ vdtOk 0x80 = false ∧ (base.ctx 0).vdtNext = none ∧
    (let s : State := { base with ctxs := [(0, { Ctx.reset with vdtNext := some 0x81 }), (1, { Ctx.reset with vdtNext := some 0x81 })] }
     (s.ctx 0).vdtNext = some 0x81 ∧ hasTeams s 0 = true ∧ (s.ctx 1).vdtNext = some 0x81 ∧ hasTeams s 1 = false) ∧
    grantOk grant_ = true ∧ grantOk { grant_ with weight := 0 } = false ∧ (∀ l ∈ base.launches, l.2.fn ≠ 1) ∧ (∀ y ∈ base.contracts, y.ctx / 64 ≠ 1) ∧
    (∃ l ∈ base.launches, l.2.fn = 0) ∧ (33 * 64 ≤ 33 * 64 ∧ 33 * 64 - 1 < 33 * 64) ∧
    ((∀ h ∈ [(3, 46), (3, 47), (3, 46)], h.1 < 16 ∧ h.2 < 48) ∧ ∀ cl < 16, ([(3, 46), (3, 47), (3, 46)].eraseDups.filter fun h => h.1 == cl).length ≤ 2) ∧ base.firmware.minMain ≤ 1 ∧ aget base.launches (base.team 1).launch = some launch0 ∧ launch0.ending = none ∧
    base.launches = [((base.team 1).launch, launch0)] := by decide +kernel

def isNop (r : Except DecodeFail Instr) : Bool := match r with
  | .ok (.nop _) => true
  | _ => false
/-- The machine whose next step issues the word: nothing is done yet. -/
theorem witness_StepRunsTheDecodedInstruction :
    (placed.agenda = [] ∧ placed.evPhase = false ∧ placed.arrivalDue = none ∧ placed.tails = [] ∧ (∀ v ∈ placed.allWarps, placed.starved v = false ∧ placed.wantsFetch v = none) ∧
      placed.busyCores.head? = some 0 ∧ (placed.warpsOn 0).filter placed.canTry = [32] ∧ (placed.team (teamOf 32)).core = 0 ∧
      (placed.replayOf 32).isNone = true ∧ (placed.candidates 32).head? = some (0, BitVec.allOnes 32) ∧
      (lanesOf (BitVec.allOnes 32)).head? = some 0 ∧ (placed.fib (fibKey 32 0)).pc = 0 ∧ (placed.fib (fibKey 32 0)).word = 0 ∧
      (placed.warp 32).packet 0 = some [0x78000000, 0x78000000, 0x78000000] ∧ groupLength [0x78000000, 0x78000000, 0x78000000] 0 = 1 ∧
      isNop (decodeWord 0 0x78000000) = true ∧ (placed.team (teamOf 32)).halts = [] ∧ (placed.team (teamOf 32)).spawned = false ∧
      placed.breakHit 32 (BitVec.allOnes 32) 0 0 1 = none ∧ (∀ h ∈ (placed.warp 32).holds, h.id < placed.nextId)) ∧
    (let s : State := { base with queue := [⟨0, .engineRecordComplete 5⟩] }
     s.agenda = [] ∧ s.evPhase = false ∧ s.arrivalDue = some ⟨0, .engineRecordComplete 5⟩) ∧
    (let s : State := { base with agenda := [.ev .thermalThrottle] }
     s.agenda = [.ev .thermalThrottle] ∧ State.isWord .thermalThrottle = false) ∧
    (let s : State := placed.setWarp 32 { placed.warp 32 with ibuf := [] }
     (∀ v ∈ s.allWarps, s.starved v = false) ∧ (s.allWarps.findSome? fun v => (s.wantsFetch v).map fun p => (v, p)) = some (32, 0)) ∧
    (let s : State := { base with teams := [], evPhase := true, queue := [⟨0, .thermalThrottle⟩] }
     s.agenda = [] ∧ s.queue = [⟨0, .thermalThrottle⟩] ∧ 0 ≤ s.clock ∧ s.tails = [] ∧ (∀ x ∈ s.teams, x.2.phase ≠ .running) ∧
       (State.reset.queue.head?).isNone = true ∧ State.reset.agenda = []) := by decide +kernel
theorem test_add_decodes : decodeWord 0 0x38030420 = .ok (.add hd 3 1 2 false) := rfl
theorem witness_DecodeAndEncodeAgree : (Instr.add hd 3 1 2 false).hdr? = some hd ∧ (Instr.add hd 3 1 2 false).wf = true ∧ ¬(hd.n = true ∧ hd.p = 7) ∧
    hd.c = false ∧ 0x38030420 < 2 ^ 32 ∧ decodeWord 0 0x38030420 = .ok (.add hd 3 1 2 false) :=
  ⟨rfl, by decide, by decide, rfl, by decide, test_add_decodes⟩
theorem witness_MemoryStaysCanonical : memWf placed.mem = true ∧ leaves (step placed) (fun _ => true) = true := by decide +kernel
theorem witness_NamesStayFresh : placed.namesOk ∧ leaves (step placed) (fun _ => true) = true := ⟨namesOk_of _ (by decide +kernel), by decide +kernel⟩
/-- A fetched NOP moves each of its lanes to the next word's place. -/
theorem test_step_moves_on : leaves (step placed) (fun t => ((t.fib (fibKey 32 5)).pc, (t.fib (fibKey 32 5)).word) == (0, 1)) = true := by decide +kernel

/-- R154: two batches that stand at the same word may be merged; two that stand apart may not. -/
theorem test_merge :
    let two := base.rebatch 32 0xFFFF0000
    let apart := two.sendTo 32 [20] 1 0
    leaves (step { two with agenda := [.merge 32 0 20] }) (fun t => t.batchOf 32 31 == 0xFFFFFFFF) = true ∧
    leaves (step { apart with agenda := [.merge 32 0 20] }) (fun t => t.batchOf 32 0 == 0xFFFF && t.batchOf 32 20 == 0x00100000) = true := by
  decide +kernel

/-! ### The slot of a team that is saved lies in mapped memory: the saves of the witness above go through -/

/-- The skein holds no error, no contract stands, every codeword is sound. -/
def Calm (s : State) : Prop := s.bad = [] ∧ s.contracts = [] ∧ s.upsets = [] ∧ s.failedBanks = []
/-- What reads and writes of the device itself leave as it was in such a machine, memory apart. -/
def look (s : State) : List Host.Cell × Assoc Ctx × Assoc Func × List Contract × List Lost × List Nat × List Nat × List Upset × List (Nat × Nat × Nat) ×
    List (Nat × Nat) × Local :=
  (s.mem, s.ctxs, s.funcs, s.contracts, s.lost, s.bad, s.hostBias, s.upsets, s.failedBanks, s.deadLinks, s.loc)
theorem calm_of_look {s t : State} (h : look s = look t) (ht : Calm t) : Calm s := by
  simp only [look, Prod.mk.injEq] at h
  unfold Calm
  rw [h.2.2.2.1, h.2.2.2.2.2.1, h.2.2.2.2.2.2.2.1, h.2.2.2.2.2.2.2.2.1]
  exact ht
theorem mendEach_calm (s : State) (h : Calm s) (secs : List Nat) : s.mendEach secs = (s, []) := by
  unfold State.mendEach
  induction secs with
  | nil => rfl
  | cons x l ih =>
    rw [List.foldl_cons]
    have hg : s.failedOver x = [] := by
      unfold State.failedOver
      rw [h.2.2.2]
      rfl
    simp only [h.2.2.1, hg, List.filter_nil, List.isEmpty_nil, List.any_nil, Bool.not_false, Bool.and_self, if_true]
    exact ih
theorem mend_calm (s : State) (h : Calm s) (secs : List Nat) : s.mend secs = (s, true) := by
  simp only [State.mend, mendEach_calm s h]
  rfl
theorem mendParity_calm (s : State) (h : Calm s) (secs : List Nat) : s.mendParity secs = (s, true) := by
  unfold State.mendParity
  induction secs with
  | nil => rfl
  | cons x l ih =>
    rw [List.foldl_cons]
    simp only [h.2.2.1, List.filter_nil, List.isEmpty_nil, Bool.true_or, if_true]
    exact ih
theorem readHeld_calm (s : State) (h : Calm s) (sp : Spot) (pa : Nat) (secs : List Nat) : s.readHeld sp pa secs = (s, true) := by
  unfold State.readHeld
  split
  · exact mend_calm s h _
  · rfl
theorem readOld_calm (s : State) (h : Calm s) (sp : Spot) (pa : Nat) (secs : List Nat) : s.readOld sp pa secs = (s, true) := by
  unfold State.readOld
  split
  · rfl
  · simp only [mend_calm s h, mendParity_calm s h, Bool.and_self]
theorem look_evict (s : State) (k : Nat) (h : Calm s) : look (s.evictRow k) = look s := by
  unfold State.evictRow
  split
  · rfl
  · simp [look, State.writeBack, State.hbmWritten, State.clearParity, mendEach_calm s h, h.1, h.2.2.1]
theorem look_spotFor (s : State) (pa cls : Nat) (hn : Hint) (h : Calm s) : look (s.spotFor pa cls hn).1 = look s := by
  have hc : s.contractAt pa = none := by unfold State.contractAt; rw [h.2.1]; rfl
  unfold State.spotFor
  split
  · rfl
  · rw [hc]
    show look (s.cacheSpot pa cls hn).1 = look s
    unfold State.cacheSpot
    extract_lets
    split
    · rfl
    · split
      · rfl
      · unfold State.allocRow
        extract_lets
        split
        · rfl
        · exact look_evict s _ h
theorem look_spotMark (s : State) (sp : Spot) (secs : List Nat) (d : Bool) (h : Calm s) : look (s.spotMark sp secs d) = look s := by
  have hw : look (s.hbmWritten secs) = look s := by simp [look, State.hbmWritten, h.1]
  unfold State.spotMark
  simp only
  split
  · rfl
  · split
    · exact hw
    · rfl
  · split
    · split
      · exact hw
      · rfl
    · rfl
  · simp [look, h.2.1]
  · simp [look, h.2.1]
theorem look_takeTag (s : State) (pa : Nat) : look (s.takeTag pa).2 = look s := by
  unfold State.takeTag
  split <;> rfl
theorem look_applied (s : State) (line : Nat) (r : List ResLine) (k : Assoc Nat) :
    look { (s.appliedAt line none false).1 with reserve := r, keyOf := k } = look s := rfl
theorem homeFetch_calm (s : State) (h : Calm s) (pa n cls : Nat) (f : Nat → Bool) (hf : ∀ x, f x = false) :
    (s.homeFetch pa n cls f).2 = none ∧ look (s.homeFetch pa n cls f).1 = look s := by
  have h1 := look_spotFor s pa cls .normal h
  unfold State.homeFetch State.fetchAt
  simp only [readHeld_calm _ (calm_of_look h1 h)]
  have ha : ∀ l : List Nat, l.any f = false := fun l => by
    rw [List.any_eq_false]
    intro x _
    rw [hf x]
    exact Bool.false_ne_true
  simp only [ha, Bool.not_true, Bool.false_eq_true, if_false]
  refine ⟨trivial, ?_⟩
  split
  · exact h1
  · exact (look_spotMark _ _ _ _ (calm_of_look h1 h)).trans h1
/-- A write of the device itself within one line of device memory goes through, and does nothing else that `look` sees. -/
theorem agentWrite_calm (s : State) (h : Calm s) (pa : Nat) (bs : List Byte) :
    (s.agentWrite pa bs).2.2 = true ∧ look (s.agentWrite pa bs).1 = look (s.poke pa bs) := by
  unfold State.agentWrite
  extract_lets line secs whole part
  split
  · exact ⟨rfl, rfl⟩
  · next hd =>
    have hx : s.accxAt pa = false := by
      unfold State.accxAt State.contractAt
      rw [h.2.1]
      have : regionOf pa = .device := by simpa using hd
      rw [this]
      rfl
    rw [hx, Bool.and_false]
    have h1 := look_spotFor s pa (s.pageClass pa) .normal h
    have c1 := calm_of_look h1 h
    generalize s.spotFor pa (s.pageClass pa) .normal = r at h1 c1
    obtain ⟨s1, sp⟩ := r
    replace h1 : look s1 = look s := h1
    replace c1 : Calm s1 := c1
    have hl : (secs.filter fun x => if s1.spotHas sp x then !true else part.contains x && s1.bad.contains x) = [] := by
      rw [List.filter_eq_nil_iff]
      intro x _
      rw [c1.1]
      split <;> simp
    simp only [Bool.false_eq_true, if_false, readOld_calm s1 c1]
    rw [hl]
    simp only [List.isEmpty_nil, if_true]
    refine ⟨trivial, ?_⟩
    generalize (whole.filter fun x => !([] : List Nat).contains x) = wh
    have c2 : look (s1.clearUpsets wh) = look s1 := by simp [look, State.clearUpsets, c1.2.2.1]
    have k2 := calm_of_look c2 c1
    have c3 := look_spotMark (s1.clearUpsets wh) sp (secs.filter fun x => !([] : List Nat).contains x) true k2
    generalize (s1.clearUpsets wh).spotMark sp (secs.filter fun x => !([] : List Nat).contains x) true = s3 at c3
    have k3 := calm_of_look c3 k2
    have c4 : ∀ l, look (s3.hbmWritten l) = look s3 := fun l => by simp [look, State.hbmWritten, k3.1]
    have c5 := (c4 (if s.deviceSide pa then [] else whole)).trans (c3.trans (c2.trans h1))
    generalize s3.hbmWritten (if s.deviceSide pa then [] else whole) = s4 at c5
    have c6 : look (s4.poke pa bs) = look (s.poke pa bs) := by
      simp only [look, Prod.mk.injEq] at c5 ⊢
      refine ⟨?_, c5.2⟩
      show State.poke.pokeFrom s4.mem pa bs = State.poke.pokeFrom s.mem pa bs
      rw [c5.1]
    have c7 := (look_takeTag (s4.poke pa bs) line).trans c6
    generalize (s4.poke pa bs).takeTag line = r at c7 ⊢
    exact (look_applied r.2 line _ _).trans c7

/-- A machine whose context 0 maps its first GiB by two tables below 2 MiB, and whose function 0 has a grant of it. -/
def Ground (b : State) : Prop := (b.ctx 0).troot = 0x8000000000100009 ∧ (b.func 0).grant = some grant_ ∧ b.rd 0x100000 8 = 0x101001 ∧
  b.rd 0x101000 8 = 0x1F ∧ Calm b ∧ b.lost = [] ∧ b.hostBias = [] ∧ b.deadLinks = [] ∧ memWf b.mem = true
/-- A state that differs from it only in what reads, and writes of the device at 2 MiB and above, change. -/
def Beside (b t : State) : Prop := t.ctxs = b.ctxs ∧ t.funcs = b.funcs ∧ t.loc = b.loc ∧ Calm t ∧ t.lost = [] ∧ t.hostBias = [] ∧ t.deadLinks = [] ∧
  memWf t.mem = true ∧ ∀ a < 0x200000, mget t.mem a = mget b.mem a
theorem beside_self (b : State) (h : Ground b) : Beside b b :=
  ⟨rfl, rfl, rfl, h.2.2.2.2.1, h.2.2.2.2.2.1, h.2.2.2.2.2.2.1, h.2.2.2.2.2.2.2.1, h.2.2.2.2.2.2.2.2, fun _ _ => rfl⟩
theorem beside_look (b s t : State) (hs : Beside b s) (h : look t = look s) : Beside b t := by
  obtain ⟨h1, h2, h3, h4, h5, h6, h7, h8, h9⟩ := hs
  have hc := calm_of_look h h4
  simp only [look, Prod.mk.injEq] at h
  obtain ⟨l0, l1, l2, -, l4, -, l6, -, -, l9, l10⟩ := h
  exact ⟨l1.trans h1, l2.trans h2, l10.trans h3, hc, l4.trans h5, l6.trans h6, l9.trans h7, l0 ▸ h8, fun a ha => l0 ▸ h9 a ha⟩
theorem device_low (a : Nat) (h : a < 2 ^ 22) : regionOf a = .device := by
  unfold regionOf
  rw [if_pos (by omega), if_pos (by omega)]
theorem accx_low (t : State) (h : t.contracts = []) (a : Nat) (ha : a < 2 ^ 22) : t.accxAt a = false := by
  unfold State.accxAt State.contractAt
  rw [device_low a ha, h]
  rfl
theorem entry_at (b t : State) (h : Beside b t) (a : Nat) (ha : a + 8 ≤ 0x200000) : t.homeRd a 8 = b.rd a 8 := by
  unfold State.homeRd State.rd
  refine congrArg ofBytes (List.map_congr_left fun i hi => ?_)
  have hi := List.mem_range.mp hi
  unfold State.homeByte
  rw [accx_low t h.2.2.2.1.2.1 _ (by omega), if_neg (by decide), h.2.2.2.2.2.2.2.2 _ (by omega)]
theorem granted_low (b t : State) (hb : Ground b) (h : Beside b t) (a : Nat) (ha : a < 2 ^ 22) : t.granted 0 a = true := by
  have hf : (t.func (0 / 64)).grant = some grant_ := by
    unfold State.func
    rw [h.2.1]
    exact hb.2.1
  unfold State.granted State.grantOf
  rw [hf, device_low a ha]
  simp only [grant_, List.any_cons, List.any_nil, Bool.or_false]
  rw [decide_eq_true (by omega), decide_eq_true (by omega)]
  rfl
theorem uncut (t : State) (h : t.deadLinks = []) (d a : Nat) (ha : a < 2 ^ 22) : t.dieCut d a = false := by
  unfold State.dieCut State.linkDead
  rw [device_low a ha, h]
  simp
theorem table_low (b t : State) (hb : Ground b) (h : Beside b t) (d a : Nat) (ha : a + 8 ≤ 0x200000) :
    ∃ u, t.tableRead d 0 a 8 = (u, .ok (b.rd a 8)) ∧ Beside b u := by
  unfold State.tableRead
  rw [granted_low b t hb h a (by omega), uncut t h.2.2.2.2.2.2.1 d a (by omega)]
  have hf := homeFetch_calm t h.2.2.2.1 a 8 0 t.bad.contains (fun x => by rw [h.2.2.2.1.1]; rfl)
  generalize t.homeFetch a 8 0 t.bad.contains = r at hf
  obtain ⟨u, c⟩ := r
  obtain ⟨rfl, hl⟩ := hf
  have hu := beside_look b t u h hl
  exact ⟨u, by simp only [entry_at b u hu a ha]; rfl, hu⟩
theorem ctxPa_low (b t : State) (hb : Ground b) (h : Beside b t) (d g va n : Nat) (hv : va < 2 ^ 22)
    (hn : va + n ≤ 2 ^ 22) :
    ∃ u a, t.ctxPa d 0 g va n .w = .ok ((va, a), u) ∧ Beside b u := by
  have ht : (t.ctx 0).troot.toNat = 0x8000000000100009 := by
    have : t.ctx 0 = b.ctx 0 := by unfold State.ctx; rw [h.1]
    rw [this, hb.1]
    decide
  have hx : t.translates 0 = true := by unfold State.translates; rw [ht]; decide
  have i0 : fld va 39 18 = 0 := by unfold fld; omega
  have i1 : fld va 30 9 = 0 := by unfold fld; omega
  have m : va % 1073741824 = va := Nat.mod_eq_of_lt (by omega)
  have r : fld 0x8000000000100009 12 40 * 4096 = 0x100000 := by decide
  obtain ⟨t1, e1, h1⟩ := table_low b t hb h d 0x100000 (by decide)
  obtain ⟨t2, e2, h2⟩ := table_low b t1 hb h1 d 0x101000 (by decide)
  rw [hb.2.2.1] at e1
  rw [hb.2.2.2.1] at e2
  have g2 := granted_low b t2 hb h2 va hv
  have w : t.walkGeneral d 0 va = (.ok va 0x1F 30 [lineOf 0x101000, lineOf 0x100000], t2) := by
    unfold State.walkGeneral
    rw [ht]
    simp only [r, i0, hx]
    rw [if_neg (by decide)]
    have a0 : entAddr 0x101001 = 0x101000 := by decide
    have a1 : entAddr 0x1F = 0 := by decide
    have x0 : entV 0x101001 = true := by decide
    have x1 : entV 0x1F = true := by decide
    have y0 : entMalformed 0 0x101001 16 4096 = false := by decide
    have y1 : entMalformed 1 0x1F 30 4096 = false := by decide
    have l0 : entLeaf 0x101001 = false := by decide
    have l1 : entLeaf 0x1F = true := by decide
    simp only [State.walk, if_true, i0, Nat.mul_zero, Nat.add_zero, e1]
    simp [x0, y0, l0, a0, i1, e2, x1, y1, l1, a1]
    rw [m, if_pos g2]
  unfold State.ctxPa
  rw [if_pos (by omega)]
  have hlost : t2.lostAt va = false := by unfold State.lostAt; rw [h2.2.2.2.2.1]; rfl
  have hpeer : t2.peerAllows .w va = true := by
    unfold State.peerAllows
    rw [device_low va hv]
  have hgate : t2.gateFor g (0 / 64) va n (State.attrOf 0x1F []).tracked true = .open_ := by
    have : (State.attrOf 0x1F []).tracked = false := by decide
    have hask : ((blocksOf va n).filter fun x => t2.needsHost (0 / 64) x false true) = [] := by
      rw [List.filter_eq_nil_iff]
      intro x hx
      simp only [blocksOf, List.mem_filterMap] at hx
      obtain ⟨i, -, hi⟩ := hx
      have hlow : 64 * x < 2 ^ 22 := by
        split at hi
        · cases hi
          omega
        · cases hi
      unfold State.needsHost State.hostSide
      rw [device_low _ hlow, h2.2.2.2.2.2.1]
      simp
    unfold State.gateFor
    rw [this, hask]
    simp
  simp only [w, hlost, uncut t2 h2.2.2.2.2.2.2.1 d va hv, hpeer, device_low va hv]
  rw [show State.leafAllows .w 0x1F = true from by decide]
  have hg : t2.gateFor g (0 / 64) va n (State.attrOf 0x1F []).tracked (Need.w == Need.w) = .open_ := hgate
  refine ⟨t2, State.attrOf 0x1F [], ?_, h2⟩
  rw [if_neg (by decide), if_neg (by decide), hg]
theorem beside_agent (b t : State) (h : Beside b t) (pa : Nat) (bs : List Byte) (hp : 0x200000 ≤ pa) :
    (t.agentWrite pa bs).2.2 = true ∧ Beside b (t.agentWrite pa bs).1 := by
  have hl := agentWrite_calm t h.2.2.2.1 pa bs
  refine ⟨hl.1, beside_look b (t.poke pa bs) _ ?_ hl.2⟩
  obtain ⟨h1, h2, h3, h4, h5, h6, h7, h8, h9⟩ := h
  refine ⟨h1, h2, h3, h4, h5, h6, h7, State.memWf_poke _ _ h8, fun a ha => ?_⟩
  rw [State.mget_poke _ _ h8, ← h9 a ha, if_neg (by omega)]
theorem beside_agents (b t : State) (h : Beside b t) (pa : Nat) (bs : List Byte) (hp : 0x200000 ≤ pa) :
    (t.agentWrites pa bs).2.2 = true ∧ Beside b (t.agentWrites pa bs).1 := by
  unfold State.agentWrites
  generalize ((List.range (bs.length / 128 + 2)).map fun i => lineOf pa + 128 * i) = l
  suffices hs : ∀ (acc : State × List Nat × Bool), acc.2.2 = true ∧ Beside b acc.1 →
      (l.foldl (fun acc line =>
        let lo := Nat.max pa line
        let hi := Nat.min (pa + bs.length) (line + 128)
        if hi ≤ lo then acc
        else
          let (t, gate, ok) := acc.1.agentWrite lo ((bs.drop (lo - pa)).take (hi - lo))
          (t, acc.2.1 ++ gate, acc.2.2 && ok)) acc).2.2 = true ∧
      Beside b (l.foldl (fun acc line =>
        let lo := Nat.max pa line
        let hi := Nat.min (pa + bs.length) (line + 128)
        if hi ≤ lo then acc
        else
          let (t, gate, ok) := acc.1.agentWrite lo ((bs.drop (lo - pa)).take (hi - lo))
          (t, acc.2.1 ++ gate, acc.2.2 && ok)) acc).1 from hs (t, [], true) ⟨rfl, h⟩
  intro acc ha
  induction l generalizing acc with
  | nil => exact ha
  | cons line l ih =>
    rw [List.foldl_cons]
    refine ih _ ?_
    simp only
    split
    · exact ha
    · have := beside_agent b acc.1 ha.2 (Nat.max pa line) ((bs.drop (Nat.max pa line - pa)).take (Nat.min (pa + bs.length) (line + 128) - Nat.max pa line))
        (Nat.le_trans hp (Nat.le_max_left _ _))
      exact ⟨by rw [ha.1, this.1]; rfl, this.2⟩
theorem beside_foldl {α : Type} (b : State) (f : α → State → Made State) (l : List α) (t : State) (h : Beside b t)
    (hf : ∀ u x, Beside b u → x ∈ l → ∃ v, f x u = .ok v ∧ Beside b v) :
    ∃ u, (l.foldl (fun acc x => State.nextPiece acc (f x)) (.ok t)) = .ok u ∧ Beside b u := by
  induction l generalizing t with
  | nil => exact ⟨t, rfl, h⟩
  | cons x l ih =>
    obtain ⟨v, hv, hb⟩ := hf t x h List.mem_cons_self
    rw [List.foldl_cons]
    show ∃ u, (l.foldl (fun acc x => State.nextPiece acc (f x)) (f x t)) = .ok u ∧ Beside b u
    rw [hv]
    exact ih v hb fun u y hu hy => hf u y hu (List.mem_cons_of_mem _ hy)
theorem beside_ctxWrite (b t : State) (hb : Ground b) (h : Beside b t) (d g va : Nat) (bs : List Byte) (hlo : 0x200000 ≤ va) (hhi : va + bs.length ≤ 2 ^ 22) :
    ∃ u, t.ctxWrite d 0 g va bs = .ok u ∧ Beside b u := by
  refine beside_foldl b _ (pieces va bs.length) t h fun u p hu hp => ?_
  have h1 : 0x200000 ≤ p.1 ∧ p.1 < 2 ^ 22 ∧ p.1 + p.2 ≤ 2 ^ 22 := by
    simp only [pieces, List.mem_filterMap, List.mem_range] at hp
    obtain ⟨i, -, hi⟩ := hp
    split at hi
    · rename_i hlt
      cases hi
      have a1 : va ≤ Nat.max va ((va / 2048 + i) * 2048) := Nat.le_max_left _ _
      have a2 : Nat.min (va + bs.length) ((va / 2048 + i + 1) * 2048) ≤ va + bs.length := Nat.min_le_left _ _
      exact ⟨Nat.le_trans hlo a1, by omega, by omega⟩
    · cases hi
  obtain ⟨v, a, hpa, hv⟩ := ctxPa_low b u hb hu d g p.1 p.2 h1.2.1 h1.2.2
  have hw := beside_agents b v hv p.1 ((bs.drop (p.1 - va)).take p.2) h1.1
  refine ⟨_, ?_, hw.2⟩
  simp only [hpa, State.nextPiece, hw.1, accx_low v hv.2.2.2.1.2.1 p.1 h1.2.1, Bool.not_false, Bool.and_self, if_true]

/-- Team 1, held, its fibres' spill places in mapped memory. -/
def saver : State := onLanes (leaving true 5 id) fun f => { f with spill := 0x220000 }
/-- The same team at the end of its save handler. -/
def savedUp : State :=
  let s := saver.setTeam 1 { saver.team 1 with slot := some 0, halts := [{ haltIn .saving with kind := .preempt, ended := some 0 }] }
  onLanes s fun f => { f with wait := .eret }
theorem ground_saver : Ground saver := by
  refine ⟨by decide +kernel, by decide +kernel, by decide +kernel, by decide +kernel, ⟨by decide +kernel, ?_⟩, ?_⟩ <;> decide +kernel
theorem ground_savedUp : Ground savedUp := by
  refine ⟨by decide +kernel, by decide +kernel, by decide +kernel, by decide +kernel, ⟨by decide +kernel, ?_⟩, ?_⟩ <;> decide +kernel
theorem beside_spill (t : State) (h : Beside saver t) (l : Nat) (hl : l ∈ lanesOf (saver.liveMask 32)) :
    ∃ u, t.spillFibre 0 0 (teamTag 1) 32 l = .ok u ∧ Beside saver u := by
  have hk : ∀ l ∈ lanesOf (saver.liveMask 32), (saver.fib (fibKey 32 l)).floor = 0 ∧ (saver.fib (fibKey 32 l)).nres = 4 ∧
      (saver.fib (fibKey 32 l)).spill = 0x220000 ∧ (saver.fib (fibKey 32 l)).held = [] := by decide +kernel
  have hf : t.fib (fibKey 32 l) = saver.fib (fibKey 32 l) := by unfold State.fib; rw [h.2.2.1]
  obtain ⟨k1, k2, k3, k4⟩ := hk l hl
  unfold State.spillFibre
  simp only [hf, k1, k2, k3, k4, List.length_nil, List.range_zero, List.foldl_nil]
  refine beside_foldl saver (fun b u => u.ctxWrite 0 0 (teamTag 1) _ (u.blockBytes 32 l b)) _ t h fun u b hu hb => ?_
  have hb' : ∀ b ∈ blocks (0 / 16) (0 / 16 + 4), b < 4 := by decide
  have hb4 := hb' b hb
  have hlen : (u.blockBytes 32 l b).length = 64 := by
    simp [State.blockBytes, leBytes]
  have ha : (0x220000 + BitVec.ofNat 64 (64 * b) : BitVec 64).toNat = 0x220000 + 64 * b := by
    rw [BitVec.toNat_add, BitVec.toNat_ofNat]
    show (2228224 + 64 * b % 2 ^ 64) % 2 ^ 64 = 0x220000 + 64 * b
    omega
  rw [ha]
  exact beside_ctxWrite saver u ground_saver hu 0 _ _ _ (by omega) (by omega)
@[simp] theorem leBytes_len (n v : Nat) : (leBytes n v).length = n := by
  induction n generalizing v with
  | zero => rfl
  | succ n ih => simp [leBytes, ih]
theorem flat_len {α : Type} (l : List α) (f : α → List Byte) (n : Nat) (h : ∀ x ∈ l, (f x).length = n) : (l.flatMap f).length = n * l.length := by
  induction l with
  | nil => rfl
  | cons x l ih =>
    rw [List.flatMap_cons, List.length_append, h x List.mem_cons_self, ih fun y hy => h y (List.mem_cons_of_mem _ hy), List.length_cons]
    rw [Nat.mul_add, Nat.add_comm, Nat.mul_one]
theorem put_some (acc : Made State) (h : ∃ u, acc = .ok u ∧ Beside saver u) (off : Nat) (bs : List Byte) (hb : 0x200000 + off + bs.length ≤ 2 ^ 22) :
    ∃ u, (State.nextPiece acc fun u => u.ctxWrite 0 0 (teamTag 1) (0x200000 + off) bs) = .ok u ∧ Beside saver u := by
  obtain ⟨u, rfl, hu⟩ := h
  exact beside_ctxWrite saver u ground_saver hu 0 _ _ bs (by omega) hb
theorem warpBytes_len (s : State) (tk : Nat) (h : Halt) (i : Nat) : (s.warpBytes tk h i).length = 128 := by
  unfold State.warpBytes
  extract_lets x bits
  split
  · simp
  · simp [flat_len _ _ 4]
/-- The save of the witness: a slot is found and every byte of it can be written. -/
theorem saves_of (s : State) (hc : s.ctxOfTeam 1 = 0) (hd : dieOfCore (s.team 1).core = 0) (hw : s.warpsOf 1 = [32]) (ha : s.slotAddr 0 0 = 0x200000)
    (hbuf : ∀ b < 4, bufCode (s.buf (s.team 1).core b) 1 = 0) (hh : (s.headerBytes 1).length = 256) (hfit : s.slotFrameFits 1 = true)
    (spills : ∃ u, ((lanesOf (s.liveMask 32)).foldl (fun acc l => State.nextPiece acc fun (u : State) => u.spillFibre 0 0 (teamTag 1) 32 l)
      (Made.ok s)) = .ok u ∧ Beside saver u) :
    ∃ u, s.saveInto 1 0 = .ok u := by
  unfold State.saveInto
  extract_lets t c ws a h die spilled fibs put written
  have h1 : ∃ u, spilled = .ok u ∧ Beside saver u := by
    show ∃ u, (ws.foldl _ (Made.ok s)) = .ok u ∧ Beside saver u
    simp only [ws, c, die, t, hw, hc, hd, List.foldl_cons, List.foldl_nil]
    exact spills
  have hput (off : Nat) (bs : List Byte) (acc : Made State) (hacc : ∃ u, acc = .ok u ∧ Beside saver u) (hb : 0x200000 + off + bs.length ≤ 2 ^ 22) :
      ∃ u, put off bs acc = .ok u ∧ Beside saver u := by
    show ∃ u, (State.nextPiece acc fun u => u.ctxWrite die c (teamTag 1) (a + off) bs) = .ok u ∧ Beside saver u
    simp only [c, a, die, t, hc, hd, ha]
    exact put_some acc hacc off bs hb
  have hf : fibs.length = 32 := by
    simp only [fibs, ws, hw, List.flatMap_cons, List.flatMap_nil, List.append_nil, List.length_map]
    decide
  obtain ⟨u, hu, -⟩ : ∃ u, written = .ok u ∧ Beside saver u := by
    refine hput _ _ _ (hput _ _ _ (hput _ _ _ (hput _ _ _ (hput _ _ _ (hput _ _ _ (hput _ _ _ h1 ?_) ?_) ?_) ?_) ?_) ?_) ?_
    · rw [hh]
      decide
    · rw [flat_len _ _ 32 fun b _ => by simp [barrierBytes, flat_len _ _ 2]]
      simp
    · rw [flat_len _ _ 2048 fun b hb => ?_]
      · simp
      · have := hbuf b (List.mem_range.mp hb)
        unfold State.bufBytes
        simp only [this, if_true, leBytes_len]
    · rw [flat_len _ _ 128 fun i _ => warpBytes_len _ _ _ _]
      simp
    · rw [List.length_append, flat_len _ _ 32 fun f _ => by simp [fibreBytes], leBytes_len, hf]
      decide
    · rw [List.length_append, flat_len _ _ 8 fun f _ => leBytes_len _ _, leBytes_len, hf]
      decide
    · rw [leBytes_len]
      decide
  rw [hfit, if_pos rfl, hu]
  exact ⟨_, rfl⟩
theorem saver_saves : ∃ u, saver.saveInto 1 0 = .ok u :=
  saves_of saver (by decide +kernel) (by decide +kernel) (by decide +kernel) (by decide +kernel) (by decide +kernel) (by decide +kernel)
    (by decide +kernel) (beside_foldl saver (fun l u => u.spillFibre 0 0 (teamTag 1) 32 l) _ saver (beside_self saver ground_saver) fun _ l hu hl => beside_spill _ hu l hl)
theorem witness_TeamsAreTakenOff_save : (∃ u, saver.saveInto 1 0 = .ok u) ∧ saver.mayRetire 1 = false ∧
    (∃ u, savedUp.ctxWrite (dieOfCore 0) 0 (teamTag 1) (savedUp.slotAddr 0 0) (leBytes 4 0xB4C5) = .ok u) ∧
    ((saver.team 1).phase ≠ .retired ∧ (saver.team 1).draining = true ∧ saver.quiet 1 = true ∧
      (saver.team 1).slot = none ∧ saver.ctxOfTeam 1 = 0 ∧ (saver.team 1).scratch + 0xE000 ≤ (saver.ctx 0).savesz.toNat ∧ saver.freeSlot 0 = some 0 ∧
      (saver.team 1).warps ≤ 32 ∧ (saver.fib (fibKey 32 0)).live = true) ∧
    ((savedUp.team 1).halts.head?.map Halt.phase = some .saving ∧ savedUp.clock < 2 ^ 20 ∧ (savedUp.team 1).slot = some 0 ∧
      savedUp.allAtEret 1 = true ∧ savedUp.nothingDue 1 = true ∧ savedUp.workOpen 1 = false ∧ savedUp.allAcked 1 = true ∧ savedUp.outs = [] ∧
      savedUp.ctxOfTeam 1 = 0 ∧ (savedUp.team 1).core = 0) ∧ (saver.setTeam 1 { savedUp.team 1 with slot := some 0 }).allAtEret 1 = false := by
  refine ⟨saver_saves, by decide +kernel, ?_, by decide +kernel⟩
  obtain ⟨u, hu, -⟩ := beside_ctxWrite savedUp savedUp ground_savedUp (beside_self _ ground_savedUp) 0 (teamTag 1) 0x200000 (leBytes 4 0xB4C5) (by decide) (by simp)
  have ha : savedUp.slotAddr 0 0 = 0x200000 := by decide +kernel
  exact ⟨u, by rw [ha]; exact hu⟩

end Sys2Proof.Tests
end

/-! ### A return at depth 0 (R22): ending the fibres of a batch one by one, as RET does, and all at once, as FEXIT does -/

namespace Sys2Proof.Machine

/-- A table forgets what a key listed before. -/
theorem aset_aset_same {α : Type} (t : Assoc α) (k : Nat) (v v' : α) : aset (aset t k v) k v' = aset t k v' := by
  induction t with
  | nil => simp [aset]
  | cons p t ih =>
    obtain ⟨k', x⟩ := p
    rcases Nat.lt_trichotomy k' k with hlt | rfl | hgt
    · simp [aset, hlt, ih]
    · simp [aset]
    · simp [aset, Nat.lt_asymm hgt, Nat.ne_of_gt hgt]

theorem maskOf_append_singleton (ls : List Nat) (l : Nat) : maskOf (ls ++ [l]) = maskOf ls ||| maskOf [l] := by
  simp [maskOf]

/-- A fibre that has ended (R152, R174). -/
def Fibre.ended (f : Fibre) : Fibre := { f with live := false, held := [], wait := .none }

/-- A warp whose fibres of a mask have ended: they leave m0, and a spin detector that watched one of them is free (R152, R201). -/
def Warp.without (x : Warp) (m : Mask) : Warp :=
  { x with masks := x.masks.set 0 ((x.masks.toList.getD 0 0) &&& ~~~m), spin := if (x.spin.lanes &&& m) != 0 then Spin.free else x.spin }

theorem Warp.without_without (x : Warp) (m n : Mask) : (x.without m).without n = x.without (m ||| n) := by
  by_cases hm : x.spin.lanes &&& m = 0#32
  · simp [Warp.without, BitVec.and_or_distrib_left, BitVec.not_or, BitVec.and_assoc, hm]
  · have hmn : x.spin.lanes &&& (m ||| n) ≠ 0#32 := fun h =>
      hm (BitVec.or_eq_zero_iff.mp (BitVec.and_or_distrib_left ▸ h)).1
    simp [Warp.without, Spin.free, BitVec.not_or, BitVec.and_assoc, hm, hmn]

namespace State

@[simp] theorem setWarp_setWarp (s : State) (w : Nat) (x y : Warp) : (s.setWarp w x).setWarp w y = s.setWarp w y := by
  simp only [setWarp, aset_aset_same]

/-- The fibres of some lanes of a warp end; the warp itself stands. -/
def endLanes (s : State) (w : Nat) (ls : List Nat) : State :=
  ls.foldl (fun t l => t.setFib (fibKey w l) (t.fib (fibKey w l)).ended) s

theorem endLanes_append_singleton (s : State) (w l : Nat) (ls : List Nat) :
    s.endLanes w (ls ++ [l]) = (s.endLanes w ls).setFib (fibKey w l) ((s.endLanes w ls).fib (fibKey w l)).ended := by
  simp [endLanes]

/-- Ending fibres writes the table of fibres alone. -/
theorem endLanes_eq (s : State) (w : Nat) (ls : List Nat) :
    s.endLanes w ls = { s with loc := { s.loc with fibres := (s.endLanes w ls).loc.fibres } } := by
  induction ls using List.reverseRecOn with
  | nil => rfl
  | append_singleton ls l ih => rw [endLanes_append_singleton, ih]; rfl

theorem endLanes_withIss (s : State) (w : Nat) (ls : List Nat) (i : Issue) :
    ({ s with iss := i } : State).endLanes w ls = { s.endLanes w ls with iss := i } := by
  induction ls using List.reverseRecOn with
  | nil => rfl
  | append_singleton ls l ih => rw [endLanes_append_singleton, ih, endLanes_append_singleton]; rfl

/-- The depth of a return stack outlives its fibre (R22). -/
@[simp] theorem endLanes_fib_depth (s : State) (w : Nat) (ls : List Nat) (k : Nat) : ((s.endLanes w ls).fib k).depth = (s.fib k).depth := by
  induction ls using List.reverseRecOn with
  | nil => rfl
  | append_singleton ls l ih =>
    rw [endLanes_append_singleton, setFib_fib]
    split
    · next hk => subst hk; exact ih
    · exact ih

/-- FEXIT's ending of fibres: they end, and their warp goes on without them. -/
theorem endFibres_eq (s : State) (w : Nat) (ls : List Nat) :
    s.endFibres w ls = (s.endLanes w ls).setWarp w ((s.warp w).without (maskOf ls)) := by
  have hw : (s.endLanes w ls).warp w = s.warp w := by rw [endLanes_eq]; rfl
  rw [← hw]; rfl

/-- Ending one more fibre afterwards is ending it with the others. -/
theorem endFibres_endFibres_singleton (s : State) (w l : Nat) (ls : List Nat) :
    (s.endFibres w ls).endFibres w [l] = s.endFibres w (ls ++ [l]) := by
  rw [endFibres_eq (s.endFibres w ls), endFibres_eq s, endFibres_eq s, setWarp_warp, if_pos rfl, Warp.without_without, ← maskOf_append_singleton,
    endLanes_append_singleton]
  exact setWarp_setWarp ((s.endLanes w ls).setFib (fibKey w l) ((s.endLanes w ls).fib (fibKey w l)).ended) w _ _

theorem endFibres_withIss (s : State) (w : Nat) (ls : List Nat) (i : Issue) :
    ({ s with iss := i } : State).endFibres w ls = { s.endFibres w ls with iss := i } := by
  rw [endFibres_eq, endLanes_withIss, endFibres_eq]; rfl

@[simp] theorem endFibres_iss (s : State) (w : Nat) (ls : List Nat) : (s.endFibres w ls).iss = s.iss := by
  rw [endFibres_eq, endLanes_eq]; rfl

@[simp] theorem endFibres_fib_depth (s : State) (w : Nat) (ls : List Nat) (k : Nat) : ((s.endFibres w ls).fib k).depth = (s.fib k).depth := by
  rw [endFibres_eq]; exact endLanes_fib_depth s w ls k

/-- What a RET at depth 0 does to fibres of the batch (R22): they end as with FEXIT, and the group has taken a transfer (R127, R292). -/
def endByReturn (s : State) (ls : List Nat) : State :=
  let u := s.endFibres s.iss.warp ls
  { u with iss := { u.iss with xfer := true } }

theorem endByReturn_lane_depth (s : State) (ls : List Nat) (l : Nat) : ((s.endByReturn ls).lane l).depth = (s.lane l).depth := by
  show ((s.endFibres s.iss.warp ls).fib (fibKey (s.endFibres s.iss.warp ls).iss.warp l)).depth = _
  rw [endFibres_fib_depth, endFibres_iss]; rfl

/-- Returning in one more lane afterwards is returning in it with the others. -/
theorem endByReturn_endByReturn_singleton (s : State) (ls : List Nat) (l : Nat) : (s.endByReturn ls).endByReturn [l] = s.endByReturn (ls ++ [l]) := by
  simp only [endByReturn, endFibres_withIss, endFibres_endFibres_singleton, endFibres_iss]

end State

/-- Lanes that succeed one after the other gather what they await in that order. -/
theorem gatherAll_append_singleton {f : State → Nat → Made Awaiting} {s t u : State} {ls : List Nat} {l : Nat} {es fs : List (Nat × Bool × DWord × Nat)}
    (hls : gatherAll f ls s = .ok (t, es)) (hl : f t l = .ok (u, fs)) : gatherAll f (ls ++ [l]) s = .ok (u, es ++ fs) := by
  unfold gatherAll at hls ⊢
  rw [List.foldl_append, hls]
  simp only [List.foldl_cons, List.foldl_nil, hl]

/-- A change that ends each fibre at depth 0 by its return, run over lanes at depth 0, ends them all so and awaits no entry. -/
theorem gatherAll_endByReturn (f : State → Nat → Made Awaiting) (hf : ∀ t l, (t.lane l).depth = 0 → f t l = .ok (t.endByReturn [l], []))
    (s : State) (ls : List Nat) (hne : ls ≠ []) (hd : ∀ l ∈ ls, (s.lane l).depth = 0) :
    gatherAll f ls s = .ok (s.endByReturn ls, []) := by
  induction ls using List.reverseRecOn with
  | nil => exact absurd rfl hne
  | append_singleton ls l ih =>
    have hl : (s.lane l).depth = 0 := hd l (by simp)
    rcases eq_or_ne ls [] with rfl | hls
    · exact gatherAll_append_singleton (ls := []) (es := []) rfl (hf s l hl)
    · have hlast := hf (s.endByReturn ls) l ((s.endByReturn_lane_depth ls l).trans hl)
      rw [State.endByReturn_endByReturn_singleton] at hlast
      exact gatherAll_append_singleton (ih hls fun m hm => hd m (by simp [hm])) hlast

/-- RET where every active fibre stands at depth 0 (R22). -/
theorem execRet_of_depth_zero (s : State) (h : Hdr) (hne : s.active h ≠ []) (hd : ∀ l ∈ s.active h, (s.lane l).depth = 0) :
    execRet h s = .next (s.endByReturn (s.active h)) := by
  unfold execRet
  extract_lets ls
  rw [gatherAll_endByReturn _ ?lane s ls hne hd]
  · rfl
  case lane => exact fun t l h0 => if_pos h0

/-- Settles O22: RET ends the fibres lane by lane, and that comes to FEXIT's ending of them all at once. -/
theorem returnAtDepthZeroEndsTheFibre : Obligations.ReturnAtDepthZeroEndsTheFibre := by
  intro s h hne hd
  exact ⟨s.endFibres s.iss.warp (s.active h), rfl, execRet_of_depth_zero s h hne hd⟩

end Sys2Proof.Machine

/-! ### Shifts by any amount (R95): the model's shifts, of a word and of a pair, against the spec's rule at any width -/

namespace Sys2Proof.Claims
open Sys2Proof.Machine

theorem shiftedLeft_ite {w : Nat} (v : BitVec w) (n : Nat) : ShiftedLeft v n (if w ≤ n then 0 else v <<< n) := by
  unfold ShiftedLeft
  split
  · rfl
  · rw [BitVec.toNat_shiftLeft, Nat.shiftLeft_eq]

theorem shiftedRight_ite {w : Nat} (v : BitVec w) (n : Nat) : ShiftedRight v n (if w ≤ n then 0 else v >>> n) := by
  unfold ShiftedRight
  split
  · rfl
  · rw [BitVec.toNat_ushiftRight, Nat.shiftRight_eq_div_pow]

/-- All ones or 0, as the top bit says, is a copy of the top bit in every place. -/
theorem getLsbD_copies_of_msb {w : Nat} (v : BitVec w) (k : Nat) (hk : k < w) :
    (if v.msb then BitVec.allOnes w else 0).getLsbD k = v.getLsbD (w - 1) := by
  rw [← BitVec.msb_eq_getLsbD_last]
  split
  · next h => simp [h, hk]
  · next h => simp [h]

theorem shiftedArith_ite {w : Nat} (v : BitVec w) (n : Nat) :
    ShiftedArith v n (if w ≤ n then (if v.msb then BitVec.allOnes w else 0) else v.sshiftRight n) := by
  unfold ShiftedArith
  by_cases hn : w ≤ n
  · rw [if_pos hn, if_pos hn]
    exact getLsbD_copies_of_msb v
  · rw [if_neg hn, if_neg hn, BitVec.toInt_sshiftRight, Int.shiftRight_eq_div_pow]
    norm_cast

/-- Rotating left carries bit k to place k plus the amount, round the width. -/
theorem getLsbD_rotateLeft_add_mod {w : Nat} (v : BitVec w) (n k : Nat) (hk : k < w) :
    (v.rotateLeft (n % w)).getLsbD ((k + n) % w) = v.getLsbD k := by
  have hr : n % w < w := Nat.mod_lt n (by omega)
  rw [BitVec.rotateLeft_mod_eq_rotateLeft, BitVec.getLsbD_rotateLeft, Nat.add_mod_eq_ite, Nat.mod_eq_of_lt hk]
  by_cases hwrap : w ≤ k + n % w
  · have hback : w - n % w + (k + n % w - w) = k := by omega
    simp [hwrap, hback, show k + n % w - w < n % w by omega]
  · simp [hwrap, show k + n % w < w by omega]

theorem shiftedLeft_shl32 (v : Word) (n : Nat) : ShiftedLeft v n (shl32 v n) := shiftedLeft_ite v n
theorem shiftedRight_shr32 (v : Word) (n : Nat) : ShiftedRight v n (shr32 v n) := shiftedRight_ite v n
theorem shiftedArith_sar32 (v : Word) (n : Nat) : ShiftedArith v n (sar32 v n) := shiftedArith_ite v n
theorem shiftedLeft_shl64 (v : DWord) (n : Nat) : ShiftedLeft v n (shl64 v n) := shiftedLeft_ite v n
theorem shiftedRight_shr64 (v : DWord) (n : Nat) : ShiftedRight v n (shr64 v n) := shiftedRight_ite v n
theorem shiftedArith_sar64 (v : DWord) (n : Nat) : ShiftedArith v n (sar64 v n) := shiftedArith_ite v n

/-- Settles O3: each word writes its shift's value in every active fibre, and each shift follows R95 for every amount. -/
theorem shiftsTakeEveryAmount : Obligations.ShiftsTakeEveryAmount := by
  intro s h d a b x i hA
  exact ⟨
    setsReg_of hA rfl fun _ => shiftedLeft_shl32 _ _,
    setsReg_of hA rfl fun _ => shiftedRight_shr32 _ _,
    setsReg_of hA rfl fun _ => shiftedArith_sar32 _ _,
    setsReg_of hA rfl fun _ => getLsbD_rotateLeft_add_mod _ _,
    setsReg_of hA rfl fun _ => shiftedLeft_shl32 _ _,
    setsReg_of hA rfl fun _ => shiftedRight_shr32 _ _,
    setsReg_of hA rfl fun _ => shiftedArith_sar32 _ _,
    setsPair_of hA rfl fun _ => shiftedLeft_shl64 _ _,
    setsPair_of hA rfl fun _ => shiftedRight_shr64 _ _,
    setsPair_of hA rfl fun _ => shiftedArith_sar64 _ _⟩

end Sys2Proof.Claims

/-! ### Values across lanes (R181 to R184): what the shared operations of the cross-lane words compute -/

namespace Sys2Proof.Machine

/-- The mask of a list of lanes holds exactly those lanes. -/
theorem getLsbD_maskOf_iff (ls : List Nat) (m : Nat) (hm : m < 32) : (maskOf ls).getLsbD m = true ↔ m ∈ ls := by
  induction ls using List.reverseRecOn with
  | nil => simp [maskOf]
  | append_singleton ls l ih =>
    have hl : (maskOf [l]).getLsbD m = true ↔ m = l := by
      simp [maskOf, hm, eq_comm]
    rw [maskOf_append_singleton, BitVec.getLsbD_or, Bool.or_eq_true, ih, hl, List.mem_append, List.mem_singleton]

/-- Words added up one after the other come to the sum of their numbers modulo 2^32 (R184). -/
theorem toNat_foldl_add (vs : List Word) (v : Word) :
    (vs.foldl (· + ·) v).toNat = (v.toNat + (vs.map BitVec.toNat).sum) % 2 ^ 32 := by
  induction vs generalizing v with
  | nil => exact (Nat.mod_eq_of_lt v.isLt).symm
  | cons y vs ih => rw [List.foldl_cons, ih, BitVec.toNat_add, List.map_cons, List.sum_cons, Nat.mod_add_mod, Nat.add_assoc]

theorem toNat_foldl_add_zero (vs : List Word) : (vs.foldl (· + ·) 0).toNat = (vs.map BitVec.toNat).sum % 2 ^ 32 := by
  simpa using toNat_foldl_add vs 0

section
variable {α β : Type} [LinearOrder β] {key : α → β} {f : α → α → α}

/-- An operation that keeps the one of two values with the lesser key, folded over a list, gives a value of the list with the least key. -/
theorem foldl_least (hf : ∀ x y, f x y = if key y < key x then y else x) (x : α) (t : List α) :
    t.foldl f x ∈ x :: t ∧ ∀ y ∈ x :: t, key (t.foldl f x) ≤ key y := by
  induction t using List.reverseRecOn with
  | nil => simp
  | append_singleton t z ih =>
    obtain ⟨hmem, hle⟩ := ih
    rw [List.foldl_append, List.foldl_cons, List.foldl_nil, hf, ← List.cons_append, List.forall_mem_append, List.forall_mem_singleton]
    split
    · next hz => exact ⟨by simp, fun y hy => hz.le.trans (hle y hy), le_rfl⟩
    · next hz => exact ⟨List.mem_append_left _ hmem, hle, not_lt.mp hz⟩

theorem foldFirst_least (hf : ∀ x y, f x y = if key y < key x then y else x) (d : α) {vs : List α} (hvs : vs ≠ []) :
    foldFirst f d vs ∈ vs ∧ ∀ y ∈ vs, key (foldFirst f d vs) ≤ key y := by
  obtain ⟨x, t, rfl⟩ := List.exists_cons_of_ne_nil hvs
  exact foldl_least hf x t

end

/-! The fixed tree (R184): a level halves the row of nodes, and a node has a value when one of its children has one. -/

theorem length_treeLevel (ns : List (Option (Nat × Exs))) : (treeLevel ns).length = (ns.length + 1) / 2 := by
  induction ns using treeLevel.induct with
  | case1 a b t ih => simp only [treeLevel, List.length_cons, ih]; omega
  | case2 t ht =>
    rcases t with _ | ⟨a, _ | ⟨b, t⟩⟩
    · simp [treeLevel]
    · simp [treeLevel]
    · exact absurd rfl (ht a b t)

theorem any_isSome_treeLevel (ns : List (Option (Nat × Exs))) : (treeLevel ns).any Option.isSome = ns.any Option.isSome := by
  induction ns using treeLevel.induct with
  | case1 a b t ih => cases a <;> cases b <;> simp [treeLevel, ih]
  | case2 t ht => rw [treeLevel]; exact ht

/-- Five levels over 32 nodes leave one, the root; it has a value when one of the nodes has. -/
theorem exists_root_of_any_isSome {ns : List (Option (Nat × Exs))} (hlen : ns.length = 32) (hany : ns.any Option.isSome = true) :
    ∃ r, (treeLevel (treeLevel (treeLevel (treeLevel (treeLevel ns))))).headD none = some r := by
  obtain ⟨root, hroot⟩ : ∃ root, treeLevel (treeLevel (treeLevel (treeLevel (treeLevel ns)))) = [root] := by
    rw [← List.length_eq_one_iff]
    simp only [length_treeLevel, hlen]
  have hsome : root.isSome = true := by
    simpa [any_isSome_treeLevel, hany] using congrArg (List.any · Option.isSome) hroot.symm
  rw [hroot]
  exact Option.isSome_iff_exists.mp hsome

theorem exists_treeSum_eq_some {val : Nat → Option Nat} {l : Nat} (hl : l ∈ allLanes) (hv : (val l).isSome = true) :
    ∃ r, treeSum val = some r := by
  unfold treeSum
  refine exists_root_of_any_isSome ?_ ?_
  · rw [List.length_map]; rfl
  · rw [List.any_map, List.any_eq_true]
    exact ⟨l, hl, by simpa using hv⟩

end Sys2Proof.Machine

namespace Sys2Proof.Claims
open Sys2Proof.Machine

/-- `setsReg_of` for values of which something holds in the active fibres alone. -/
theorem setsReg_of_active {s : State} (hA : Apart s) {i : Instr} {h : Hdr} {d : Reg} {val : Nat → Word} {P : Nat → Word → Prop}
    (e : exec i s = .next (s.writeRegs h d val)) (hv : ∀ l ∈ s.active h, P l (val l)) : SetsReg s i h d P := by
  obtain ⟨h1, h2⟩ := writeRegs_sets s hA h d val
  exact ⟨_, e, fun l hl => by rw [h1 l hl]; exact hv l hl, h2⟩

/-- What a word writes that shuffles from lane `k l n` where `c l n`, n the second operand of lane l: the value there when that lane is
active, else the fibre's own (R182). -/
theorem setsReg_of_shuffle {s : State} (hA : Apart s) {i : Instr} {h : Hdr} {d a b : Reg} (c : Nat → Nat → Prop) [∀ l n, Decidable (c l n)]
    (k : Nat → Nat → Nat) (e : exec i s = shuffle s h d a b fun l n => if c l n then some (k l n) else none) :
    SetsReg s i h d fun l v => v =
      let n := (s.srcR b l).toNat
      if c l n ∧ k l n ∈ s.active h then s.srcR a (k l n) else s.srcR a l := by
  refine setsReg_of hA e fun l => ?_
  by_cases hc : c l (s.srcR b l).toNat <;> simp [hc]

/-- A reduction without bits writes its result as a word that writes a register does (R184). -/
theorem setsReg_of_reduceTo {s : State} (hA : Apart s) {i : Instr} {h : Hdr} {d : Reg} {v : Word} {P : Word → Prop}
    (e : exec i s = reduceTo s h d (v.toNat, none)) (hv : s.active h ≠ [] → P v) : SetsReg s i h d fun _ => P := by
  have hr : reduceTo s h d (v.toNat, none) = .next (s.writeRegs h d fun _ => v) := by
    unfold reduceTo
    split
    · next he => simp [State.writeRegs, List.isEmpty_iff.mp he]
    · simp
  exact setsReg_of_active hA (e.trans hr) fun l hl => hv (List.ne_nil_of_mem hl)

/-- A reduction that selects an active value with the least key (R184). -/
theorem setsReg_of_reduceTo_least {β : Type} [LinearOrder β] (key : Word → β) {s : State} (hA : Apart s) {i : Instr} {h : Hdr} {d a : Reg}
    {f : Word → Word → Word} (hf : ∀ x y, f x y = if key y < key x then y else x)
    (e : exec i s = reduceTo s h d ((foldFirst f 0 (actValues s h a)).toNat, none)) :
    SetsReg s i h d fun _ v => v ∈ (s.active h).map (s.srcR a) ∧ ∀ y ∈ (s.active h).map (s.srcR a), key v ≤ key y :=
  setsReg_of_reduceTo hA e fun hne => foldFirst_least hf 0 (by simpa using hne)

/-- A floating-point reduction of a batch with an active fibre: the result in every active fibre, the bits in csr.exsum (R92, R184). -/
theorem reduceTo_some_sets {s : State} (hA : Apart s) {h : Hdr} {d : Reg} (hne : s.active h ≠ []) (n : Nat) (b : Exs) :
    ∃ u, reduceTo s h d (n, some b) = .next (u.addEx (teamOf s.iss.warp) b) ∧
      (∀ l ∈ s.active h, reg s u l d.toNat = BitVec.ofNat 32 n) ∧ RegFrame s u (s.active h) d.toNat 1 := by
  obtain ⟨h1, h2⟩ := writeRegs_sets s hA h d fun _ => BitVec.ofNat 32 n
  refine ⟨_, ?_, h1, h2⟩
  have hwarp : (s.writeRegs h d fun _ => BitVec.ofNat 32 n).iss.warp = s.iss.warp := by rw [h2.1]
  simp [reduceTo, hne, State.raiseEx, hwarp]

/-- BALLOT's mask holds the active fibres whose predicate is true (R183). -/
theorem getLsbD_ballot_iff (s : State) (h : Hdr) (q : PredIx) (neg : Bool) (m : Nat) (hm : m < 32) :
    (maskOf ((s.active h).filter fun l => s.srcPred l q neg)).getLsbD m = true ↔ m ∈ s.active h ∧ s.srcPred m q neg = true := by
  rw [getLsbD_maskOf_iff _ m hm, List.mem_filter]

theorem mem_allLanes_of_mem_active {s : State} {h : Hdr} {l : Nat} (hl : l ∈ s.active h) : l ∈ allLanes :=
  List.mem_of_mem_filter (List.mem_of_mem_filter hl)

/-- The FP32 tree of a batch with an active fibre has a root. -/
theorem exists_treeSum_active {s : State} {h : Hdr} (a : Reg) (hne : s.active h ≠ []) :
    ∃ r, treeSum (fun l => if (s.active h).contains l then some (s.srcR a l).toNat else none) = some r := by
  obtain ⟨l, hl⟩ := List.exists_mem_of_ne_nil _ hne
  exact exists_treeSum_eq_some (mem_allLanes_of_mem_active hl) (by simp [hl])

/-- WREDADD.F32 where the tree has a root: its word, a NaN made canonical, and the bits of every step and of every signalling value (R184). -/
theorem exec_wredadd_f32_of_treeSum {s : State} {h : Hdr} {a : Reg} {r : Nat × Exs} (d : Reg) (x : Bool)
    (hr : treeSum (fun l => if (s.active h).contains l then some (s.srcR a l).toNat else none) = some r) :
    exec (.wredadd h d a .f32 x) s = reduceTo s h d (if (fp32.value r.1).isNan then fp32.nanCode else r.1,
      some (r.2 ||| sigBits ((actValues s h a).map fun v => fp32.value v.toNat))) := by
  show execWredadd h d a .f32 x s = _
  simp only [execWredadd, hr]

/-- Settles O13: each word writes one register through `shuffle` or `reduceTo`, and the value is what R182 to R184 name. -/
theorem crossLaneResults : Obligations.CrossLaneResults := by
  refine ⟨fun s h d a b x q neg hA => ⟨?shfl, ?shflup, ?shfldn, ?shflx, ?ballot⟩,
    fun s h d a x hA => ⟨?add, ?addu, ?min, ?minu, ?max, ?maxu, fun hne => ⟨?minf, ?maxf, ?addf⟩⟩⟩
  case shfl => simpa using setsReg_of_shuffle hA (i := .shfl h d a b x) (fun _ _ => True) (fun _ n => n % 32) rfl
  case shflup => exact setsReg_of_shuffle hA (fun l n => n ≤ l) (fun l n => l - n) rfl
  case shfldn => exact setsReg_of_shuffle hA (fun l n => l + n ≤ 31) (fun l n => l + n) rfl
  case shflx => simpa using setsReg_of_shuffle hA (i := .shflx h d a b x) (fun _ _ => True) (fun l n => l ^^^ (n % 32)) rfl
  case ballot => exact setsReg_of hA rfl fun _ => getLsbD_ballot_iff s h q neg
  case add => exact setsReg_of_reduceTo hA rfl fun _ => toNat_foldl_add_zero _
  case addu => exact setsReg_of_reduceTo hA rfl fun _ => toNat_foldl_add_zero _
  case min => exact setsReg_of_reduceTo_least BitVec.toInt hA (fun x y => by simp [BitVec.slt]) rfl
  case minu => exact setsReg_of_reduceTo_least BitVec.toNat hA (fun x y => by simp [BitVec.ult]) rfl
  case max => exact setsReg_of_reduceTo_least (fun v => OrderDual.toDual v.toInt) hA (fun x y => by simp [BitVec.slt]) rfl
  case maxu => exact setsReg_of_reduceTo_least (fun v => OrderDual.toDual v.toNat) hA (fun x y => by simp [BitVec.ult]) rfl
  case minf => exact reduceTo_some_sets hA hne _ _
  case maxf => exact reduceTo_some_sets hA hne _ _
  case addf =>
    obtain ⟨r, hr⟩ := exists_treeSum_active a hne
    obtain ⟨u, hu, hsets⟩ := reduceTo_some_sets hA hne _ _
    exact ⟨r, hr, u, (exec_wredadd_f32_of_treeSum d x hr).trans hu, hsets⟩

end Sys2Proof.Claims
